-- ==== Sys2Proof/Word.lean ====
section
/-! DEFINITION. The word types of the SKM-4100 and the operand kinds that its instruction words name:
register numbers, type codes (R81), conversion and pack formats (R82), matrix formats (R83), conditions (R84),
access kinds (R100), atomic functions (R96) and the prefixes of R85 to R90. Each kind has the code the spec gives it. -/

namespace Sys2Proof

abbrev Byte := BitVec 8
abbrev Word := BitVec 32
abbrev Addr := BitVec 64

/-- A general register number g0..g127 (R17, R79). -/
abbrev Reg := BitVec 7
/-- A predicate number p0..p15 (R79). -/
abbrev PReg := BitVec 4
/-- A layout register number l0..l15 (R79). -/
abbrev LReg := BitVec 4
/-- An accumulator tile number; 24..31 are illegal (R79). -/
abbrev TileNo := BitVec 5
/-- A queue number q0..q7 (R79). -/
abbrev QReg := BitVec 3

/-- The integer types of R81, codes 0x0..0x7. -/
inductive IType where
  | i8 | i16 | i32 | i64 | n8 | n16 | n32 | n64
deriving DecidableEq, Repr

namespace IType
def code : IType → Nat
  | i8 => 0 | i16 => 1 | i32 => 2 | i64 => 3 | n8 => 4 | n16 => 5 | n32 => 6 | n64 => 7
def ofCode : Nat → Option IType
  | 0 => some i8 | 1 => some i16 | 2 => some i32 | 3 => some i64
  | 4 => some n8 | 5 => some n16 | 6 => some n32 | 7 => some n64 | _ => none
/-- N of R54. -/
def bits : IType → Nat
  | i8 | n8 => 8 | i16 | n16 => 16 | i32 | n32 => 32 | i64 | n64 => 64
def signed : IType → Bool
  | i8 | i16 | i32 | i64 => true | n8 | n16 | n32 | n64 => false
def wide (t : IType) : Bool := t.bits == 64
end IType

/-- The floating types of R81, codes 0x8..0xb. -/
inductive FType where
  | f32 | f16x2 | bf16x2 | f64
deriving DecidableEq, Repr

namespace FType
def code : FType → Nat
  | f32 => 8 | f16x2 => 9 | bf16x2 => 10 | f64 => 11
def ofCode : Nat → Option FType
  | 8 => some f32 | 9 => some f16x2 | 10 => some bf16x2 | 11 => some f64 | _ => none
def wide : FType → Bool
  | f64 => true | _ => false
end FType

/-- The conversion formats of R82, codes 0x0..0xc. -/
inductive CFmt where
  | int (t : IType) | f32 | f16 | bf16 | f64 | fp19
deriving DecidableEq, Repr

namespace CFmt
def code : CFmt → Nat
  | int t => t.code | f32 => 8 | f16 => 9 | bf16 => 10 | f64 => 11 | fp19 => 12
def ofCode (n : Nat) : Option CFmt :=
  match n with
  | 8 => some f32 | 9 => some f16 | 10 => some bf16 | 11 => some f64 | 12 => some fp19
  | n => (IType.ofCode n).map int
/-- A 64-bit format lives in a pair (R20, R138). -/
def wide : CFmt → Bool
  | int t => t.wide | f64 => true | _ => false
end CFmt

/-- The pack formats of R82, codes 0x0..0xa. -/
inductive PFmt where
  | f16 | bf16 | fp8e4 | fp8e5 | fp6e3 | fp6e2 | fp4 | i8 | n8 | i4 | n4
deriving DecidableEq, Repr

namespace PFmt
def code : PFmt → Nat
  | f16 => 0 | bf16 => 1 | fp8e4 => 2 | fp8e5 => 3 | fp6e3 => 4 | fp6e2 => 5 | fp4 => 6
  | i8 => 7 | n8 => 8 | i4 => 9 | n4 => 10
def ofCode : Nat → Option PFmt
  | 0 => some f16 | 1 => some bf16 | 2 => some fp8e4 | 3 => some fp8e5 | 4 => some fp6e3
  | 5 => some fp6e2 | 6 => some fp4 | 7 => some i8 | 8 => some n8 | 9 => some i4 | 10 => some n4
  | _ => none
/-- Elements per register (R82). -/
def count : PFmt → Nat
  | f16 | bf16 => 2 | fp8e4 | fp8e5 | fp6e3 | fp6e2 | i8 | n8 => 4 | fp4 | i4 | n4 => 8
/-- Bits of one element (R53). -/
def bits : PFmt → Nat
  | f16 | bf16 => 16 | fp8e4 | fp8e5 | i8 | n8 => 8 | fp6e3 | fp6e2 => 6 | fp4 | i4 | n4 => 4
end PFmt

/-- The matrix operand formats of R83. -/
inductive MFmt where
  | fp32 | fp19 | bf16 | fp16 | fp8e4 | fp8e5 | fp6e3 | fp6e2
  | fp4 | bx8 | bx5 | bx3 | i8 | n8 | i4 | n4
deriving DecidableEq, Repr

namespace MFmt
def code : MFmt → Nat
  | fp32 => 0 | fp19 => 1 | bf16 => 2 | fp16 => 3 | fp8e4 => 4 | fp8e5 => 5 | fp6e3 => 6 | fp6e2 => 7
  | fp4 => 8 | bx8 => 9 | bx5 => 10 | bx3 => 11 | i8 => 12 | n8 => 13 | i4 => 14 | n4 => 15
def ofCode : Nat → Option MFmt
  | 0 => some fp32 | 1 => some fp19 | 2 => some bf16 | 3 => some fp16 | 4 => some fp8e4
  | 5 => some fp8e5 | 6 => some fp6e3 | 7 => some fp6e2 | 8 => some fp4 | 9 => some bx8
  | 10 => some bx5 | 11 => some bx3 | 12 => some i8 | 13 => some n8 | 14 => some i4 | 15 => some n4
  | _ => none
end MFmt

/-- Integer conditions of R84. -/
inductive ICond where
  | eq | ne | lt | le | gt | ge
deriving DecidableEq, Repr

namespace ICond
def code : ICond → Nat
  | eq => 0 | ne => 1 | lt => 2 | le => 3 | gt => 4 | ge => 5
def ofCode : Nat → Option ICond
  | 0 => some eq | 1 => some ne | 2 => some lt | 3 => some le | 4 => some gt | 5 => some ge | _ => none
end ICond

/-- Floating conditions of R84. -/
inductive FCond where
  | eq | ne | lt | le | gt | ge | un | or
deriving DecidableEq, Repr

namespace FCond
def code : FCond → Nat
  | eq => 0 | ne => 1 | lt => 2 | le => 3 | gt => 4 | ge => 5 | un => 6 | or => 7
def ofCode : Nat → Option FCond
  | 0 => some eq | 1 => some ne | 2 => some lt | 3 => some le | 4 => some gt | 5 => some ge
  | 6 => some un | 7 => some or | _ => none
end FCond

/-- Lane-choice modes of shfl (R128). -/
inductive ShflMode where
  | idx | up | down | xor
deriving DecidableEq, Repr

namespace ShflMode
def code : ShflMode → Nat
  | idx => 0 | up => 1 | down => 2 | xor => 3
def ofCode : Nat → Option ShflMode
  | 0 => some idx | 1 => some up | 2 => some down | 3 => some xor | _ => none
end ShflMode

/-- Rounding modes of R61. -/
inductive RMode where
  | rne | rz | rd | ru | sr
deriving DecidableEq, Repr

/-- The mode field of cvt and cvt.pack (R93): 0 takes %ctl.RM. -/
inductive CvtMode where
  | ctl | rne | rz | rd | ru
deriving DecidableEq, Repr

namespace CvtMode
def code : CvtMode → Nat
  | ctl => 0 | rne => 1 | rz => 2 | rd => 3 | ru => 4
def ofCode : Nat → Option CvtMode
  | 0 => some ctl | 1 => some rne | 2 => some rz | 3 => some rd | 4 => some ru | _ => none
end CvtMode

/-- Access kinds of ld and st (R100). -/
inductive MemKind where
  | i8 | n8 | i16 | n16 | b32 | b64 | b128 | f32 | f64 | f16x2 | bf16x2
deriving DecidableEq, Repr

namespace MemKind
def code : MemKind → Nat
  | i8 => 0 | n8 => 1 | i16 => 2 | n16 => 3 | b32 => 4 | b64 => 5 | b128 => 6 | f32 => 7 | f64 => 8
  | f16x2 => 9 | bf16x2 => 10
def ofCode : Nat → Option MemKind
  | 0 => some i8 | 1 => some n8 | 2 => some i16 | 3 => some n16 | 4 => some b32 | 5 => some b64
  | 6 => some b128 | 7 => some f32 | 8 => some f64 | 9 => some f16x2 | 10 => some bf16x2 | _ => none
/-- Access size in bytes. -/
def size : MemKind → Nat
  | i8 | n8 => 1 | i16 | n16 => 2 | b32 | f32 | f16x2 | bf16x2 => 4 | b64 | f64 => 8 | b128 => 16
/-- Registers the image takes. -/
def regs : MemKind → Nat
  | b64 | f64 => 2 | b128 => 4 | _ => 1
/-- The kinds that move tangents (R185). -/
def tangents : MemKind → Bool
  | f32 | f64 | f16x2 | bf16x2 => true | _ => false
end MemKind

/-- Atomic functions of R96. -/
inductive AtomFn where
  | add | minS | maxS | minU | maxU | and | or | xor | xchg | cas | fadd | faddOrd | faddF16 | faddBf16
deriving DecidableEq, Repr

namespace AtomFn
def code : AtomFn → Nat
  | add => 0 | minS => 1 | maxS => 2 | minU => 3 | maxU => 4 | and => 5 | or => 6 | xor => 7 | xchg => 8
  | cas => 9 | fadd => 10 | faddOrd => 11 | faddF16 => 12 | faddBf16 => 13
def ofCode : Nat → Option AtomFn
  | 0 => some add | 1 => some minS | 2 => some maxS | 3 => some minU | 4 => some maxU | 5 => some and
  | 6 => some or | 7 => some xor | 8 => some xchg | 9 => some cas | 10 => some fadd | 11 => some faddOrd
  | 12 => some faddF16 | 13 => some faddBf16 | _ => none
/-- fadd and fadd.ord of .f32 and .f64 move tangents and take DUAL (R96, R193). -/
def tangents : AtomFn → Bool
  | fadd | faddOrd => true | _ => false
end AtomFn

/-- Fence scopes of R198. -/
inductive Scope where
  | squad | crew | cluster | domain | span | system
deriving DecidableEq, Repr

namespace Scope
def code : Scope → Nat
  | squad => 0 | crew => 1 | cluster => 2 | domain => 3 | span => 4 | system => 5
def ofCode : Nat → Option Scope
  | 0 => some squad | 1 => some crew | 2 => some cluster | 3 => some domain | 4 => some span
  | 5 => some system | _ => none
end Scope

/-- The engines lchk judges for (R215, R217). -/
inductive Engine where
  | afeed | bload | copy | lane
deriving DecidableEq, Repr

namespace Engine
def code : Engine → Nat
  | afeed => 0 | bload => 1 | copy => 2 | lane => 3
def ofCode : Nat → Option Engine
  | 0 => some afeed | 1 => some bload | 2 => some copy | 3 => some lane | _ => none
end Engine

/-- The scale kinds of msca (R235). -/
inductive ScaleKind where
  | rowF32 | colF32 | rowE8 | colE8 | blkE8
deriving DecidableEq, Repr

namespace ScaleKind
def code : ScaleKind → Nat
  | rowF32 => 0 | colF32 => 1 | rowE8 => 2 | colE8 => 3 | blkE8 => 4
def ofCode : Nat → Option ScaleKind
  | 0 => some rowF32 | 1 => some colF32 | 2 => some rowE8 | 3 => some colE8 | 4 => some blkE8 | _ => none
end ScaleKind

/-- The element types of mread and mwrite (R237). -/
inductive MElem where
  | f32 | bf16 | f16 | ae48 | i32
deriving DecidableEq, Repr

namespace MElem
def code : MElem → Nat
  | f32 => 0 | bf16 => 1 | f16 => 2 | ae48 => 3 | i32 => 4
def ofCode : Nat → Option MElem
  | 0 => some f32 | 1 => some bf16 | 2 => some f16 | 3 => some ae48 | 4 => some i32 | _ => none
end MElem

/-- The modes of a DUAL prefix (R86). -/
inductive DualMode where
  | implicit | seed | get | zero | none
deriving DecidableEq, Repr

namespace DualMode
def code : DualMode → Nat
  | implicit => 0 | seed => 1 | get => 2 | zero => 3 | none => 4
def ofCode : Nat → Option DualMode
  | 0 => some implicit | 1 => some seed | 2 => some get | 3 => some zero | 4 => some none | _ => Option.none
end DualMode

/-- The management settings of R405. -/
inductive Setting where
  | ageing (v : Nat) | doldrums (v : Nat) | weight (cls v : Nat) | debugHalt (v : Nat) | power (v : Nat)
deriving DecidableEq, Repr

/-- The storage a soft error is found in (R316): an HBM line; a word of a core's scratchpad or barrier window; a line of a
read-only cache; a clean and a dirty line of an L1; a clean line of a slice; a slice's tags or timestamps; and the register
files, operand buffers and accumulators of a core. -/
inductive Storage where
  | hbm (line : Nat)
  | padWord (core offset : Nat)
  | readOnly (core line view : Nat)
  | l1Clean (core line view : Nat)
  | l1Dirty (core line : Nat)
  | sliceClean (slice : Nat)
  | sliceTag (slice : Nat)
  | operands (core : Nat)
deriving DecidableEq, Repr

/-- GUARD (R86, R87). -/
structure Guard where
  neg  : Bool
  pred : PReg
deriving DecidableEq, Repr

/-- DUAL (R86, R88). -/
structure Dual where
  mode : DualMode
  k    : BitVec 2
  treg : Reg
deriving DecidableEq, Repr

/-- The prefix words that stand before an instruction, one of a kind at most (R90). -/
structure Pfx where
  ext   : Option (BitVec 25) := none
  guard : Option Guard := none
  dual  : Option Dual := none
  safe  : Option (BitVec 7) := none
deriving DecidableEq, Repr

namespace Pfx
/-- No prefix. -/
def empty : Pfx := {}
/-- Words of the unit: its prefixes and its instruction word. -/
def words (p : Pfx) : Nat :=
  1 + p.ext.isSome.toNat + p.guard.isSome.toNat + p.dual.isSome.toNat + p.safe.isSome.toNat
/-- X of R85; an instruction that accepts EXT and has none behaves as if X were 0. -/
def x (p : Pfx) : BitVec 25 := p.ext.getD 0
end Pfx

end Sys2Proof
end

