-- ==== Sys2Proof/Config.lean ====
section
/-! DEFINITION. What this part fixes, and the values the spec leaves open. A constant without a body is free: nothing
can evaluate it, so a statement that mentions it holds whatever its value. -/

namespace Sys2Proof.Config

/-- Feature bits this part offers: 0..5 (R400). -/
def offered : BitVec 128 := 0x3f

/-- Lease length in ticks of logical time (R307). -/
def lease : Nat := 64

/-- Entries of an L1 and an L2 TLB (R323). -/
def l1TlbEntries : Nat := 512
def l2TlbEntries : Nat := 8192

/-- Lines of an L1 (R297). -/
def l1Lines : Nat := 1024

/-- Sets and ways of a read-only cache: 64 KiB of 128-byte lines, 4-way (R297). A line's set is its line number modulo the
number of sets (log 114). -/
def roSets : Nat := 128
def roWays : Nat := 4

/-- Lines a slice holds: 4 MiB (R297). -/
def linesPerSlice : Nat := 32768

/-- Where the pinned memory of task record copies starts, and how many copies it holds (log 20). -/
def pinnedCopies : Nat := 0x7f00000000
def copyCount : Nat := 2 ^ 26

/-- Side-log entries of a core (R334). -/
def sideLogEntries : Nat := 256

/-- Lines the slices can hold for views: 128 slices of 4 MiB (R283, R297). -/
def sliceLines : Nat := 2 ^ 22

/-- Bytes of the overflow area that one contribution takes (R195 gives no size; log 21). -/
def orderedBytes : Nat := 64

/-- Matrix commands, copies and copies in flight of a core (R219, R248, R369). -/
def matrixEntries : Nat := 32
def copyEntries : Nat := 16
def copiesInFlight : Nat := 4

/-- FREE: bits of a result whose value the spec does not decide for this model (log 6). -/
opaque freeValue : Nat → BitVec 64

/-- FREE: what the sensors measure at a %clock value: degrees Celsius of a die, and watts of the module (R405, R406; log 135). -/
opaque dieCelsius : Nat → Nat → Nat
opaque moduleWatts : Nat → Nat

/-- FREE: credits of a span-link port for each class (R392; log 136). -/
opaque portCredits : Nat

/-- FREE: whether the Ed448 signature of a firmware image verifies against the fused key (log 8). -/
opaque imageVerifies : List Byte → Bool

/-- FREE: whether this many bytes of pinned memory for backing and save areas are not to be had (R349; log 22). -/
opaque pinnedShort : Nat → Bool

/-- FREE: the Ed448 signature with the device identity key (log 8). -/
opaque identitySignature : List Byte → List Byte

end Sys2Proof.Config
end

