-- ==== Sys2Proof/Machine/Num.lean ====
section
/-! DEFINITION. Floating-point formats, exact values, rounding and exception flags (R49 to R67), by exact arithmetic
on naturals: a finite value is n × 2^e / d. -/

namespace Sys2Proof.Machine

/-! ## Flags (R36, R67) -/

def fIV : Word := 1
def fDZ : Word := 2
def fOF : Word := 4
def fUF : Word := 8
def fNX : Word := 16
def fMI : Word := 32
def fMS : Word := 64

/-- A flag where a condition holds. -/
def flagIf (c : Bool) (f : Word) : Word := if c then f else 0

/-! ## Formats (R49) -/

inductive Fmt where
  | f64 | f32 | fp19 | bf16 | f16 | fp8e5 | fp8e4 | fp6e3 | fp6e2 | fp4 | ae48
deriving DecidableEq, Repr

namespace Fmt
def ebits : Fmt → Nat
  | f64 => 11 | f32 | fp19 | bf16 => 8 | f16 | fp8e5 => 5 | fp8e4 => 4 | fp6e3 => 3 | fp6e2 | fp4 => 2 | ae48 => 10
/-- Trailing significand bits. -/
def mbits : Fmt → Nat
  | f64 => 52 | f32 => 23 | fp19 => 10 | bf16 => 7 | f16 => 10 | fp8e5 => 2 | fp8e4 => 3 | fp6e3 => 2 | fp6e2 => 3
  | fp4 => 1 | ae48 => 37
def bias : Fmt → Nat
  | f64 => 1023 | f32 | fp19 | bf16 => 127 | f16 | fp8e5 => 15 | fp8e4 => 7 | fp6e3 => 3 | fp6e2 | fp4 => 1
  | ae48 => 511
def bits (f : Fmt) : Nat := 1 + f.ebits + f.mbits
/-- Formats with infinities. -/
def hasInf : Fmt → Bool
  | f64 | f32 | fp19 | bf16 | f16 | fp8e5 | ae48 => true | _ => false
/-- Formats with a NaN. -/
def hasNaN : Fmt → Bool
  | fp6e3 | fp6e2 | fp4 => false | _ => true
def emin (f : Fmt) : Int := 1 - (f.bias : Int)
def emax (f : Fmt) : Int := if f.hasInf then (f.bias : Int) else (f.bias : Int) + 1
/-- The significand of the largest finite value, in units of 2^(emax − mbits). -/
def maxSig (f : Fmt) : Nat := 2 ^ (f.mbits + 1) - (match f with | fp8e4 => 2 | _ => 1)
/-- The encoding of +max. -/
def maxCode (f : Fmt) : Nat := ((f.emax - f.emin).toNat) * 2 ^ f.mbits + f.maxSig
/-- The encoding of +Inf, in formats that have it (R50). -/
def infCode (f : Fmt) : Nat := (2 ^ f.ebits - 1) * 2 ^ f.mbits
/-- The canonical NaN (R51), +max in the formats without NaN (R63). -/
def nanCode (f : Fmt) : Nat :=
  match f with
  | fp8e4 => 0x7f
  | fp6e3 | fp6e2 | fp4 => f.maxCode
  | _ => f.infCode + 2 ^ (f.mbits - 1)
/-- The sign bit. -/
def signCode (f : Fmt) (neg : Bool) : Nat := if neg then 2 ^ (f.ebits + f.mbits) else 0
end Fmt

/-! ## Exact values -/

/-- A NaN (signalling or quiet), an infinity, or the exact number ± n × 2^e / d (n = 0 is a signed zero). -/
inductive Val where
  | nan (signalling : Bool)
  | inf (neg : Bool)
  | fin (neg : Bool) (n : Nat) (e : Int) (d : Nat)
deriving DecidableEq, Repr

namespace Val
def zero (neg : Bool) : Val := fin neg 0 0 1
def ofInt (i : Int) : Val := fin (decide (i < 0)) i.natAbs 0 1
def isNaN : Val → Bool | nan _ => true | _ => false
def isSig : Val → Bool | nan s => s | _ => false
def isInf : Val → Bool | inf _ => true | _ => false
def isZero : Val → Bool | fin _ n _ _ => n == 0 | _ => false
def isFin : Val → Bool | fin _ _ _ _ => true | _ => false
def neg? : Val → Bool | nan _ => false | inf s => s | fin s _ _ _ => s
def negate : Val → Val | nan s => nan s | inf s => inf (!s) | fin s n e d => fin (!s) n e d
def absV : Val → Val | nan s => nan s | inf _ => inf false | fin _ n e d => fin false n e d
/-- Times 2^k, exactly. -/
def scale (v : Val) (k : Int) : Val := match v with | fin s n e d => fin s n (e + k) d | w => w
end Val

/-- The value of an encoding (R50). -/
def decodeFp (f : Fmt) (code : Nat) : Val :=
  let m := f.mbits
  let neg := code / 2 ^ (f.ebits + m) % 2 == 1
  let ex := code / 2 ^ m % 2 ^ f.ebits
  let fr := code % 2 ^ m
  if ex == 0 then .fin neg fr (f.emin - m) 1
  else if f.hasInf && ex == 2 ^ f.ebits - 1 then
    if fr == 0 then .inf neg else .nan (fr / 2 ^ (m - 1) == 0)
  else if f == .fp8e4 && ex == 15 && fr == 7 then .nan false
  else .fin neg (2 ^ m + fr) ((ex : Int) - f.bias - m) 1

/-- n × 2^s for any s, as a fraction's numerator and denominator factor. -/
def shiftUp (n : Nat) (s : Int) : Nat := n * 2 ^ s.toNat

/-- floor(log2(n / d)) for nonzero n and d. -/
def log2Ratio (n d : Nat) : Int :=
  let k : Int := (Nat.log2 n : Int) - Nat.log2 d
  if shiftUp n (-k) ≥ shiftUp d k then k else k - 1

/-- Whether the neighbour further from zero is delivered (R62): lo is the nearer one's count of spacings, num / den the
fraction above it, more says the exact value lies a little above the fraction. -/
def roundsUp (mode : RMode) (neg : Bool) (lo num den : Nat) (more : Bool) (draw : Nat) : Bool :=
  if num == 0 && !more then false
  else
    match mode with
    | .rne => if 2 * num < den then false else if 2 * num > den || more then true else lo % 2 == 1
    | .rz => false
    | .rd => neg
    | .ru => !neg
    | .sr => draw < num * 2 ^ 32 / den

/-- What overflow delivers (R63), as an encoding without sign and its flags. -/
def overflowCode (f : Fmt) (neg : Bool) (mode : RMode) : Nat × Word :=
  match f with
  | .ae48 => (f.maxCode, fMS)
  | .fp8e4 | .fp6e3 | .fp6e2 | .fp4 => (f.maxCode, fOF ||| fNX)
  | _ =>
    let inf := match mode with | .rne | .sr => true | .rz => false | .rd => neg | .ru => !neg
    (if inf then f.infCode else f.maxCode, fOF ||| fNX)

/-- round_fp of R62 for a nonzero finite magnitude n × 2^e / d; more says the exact magnitude lies a little above it.
The encoding carries its sign. -/
def roundMag (f : Fmt) (mode : RMode) (draw : Nat) (neg : Bool) (n : Nat) (e : Int) (d : Nat) (more : Bool) :
    Nat × Word :=
  let fl := log2Ratio n d + e
  let sign := f.signCode neg
  if fl > f.emax + 1 then
    let o := overflowCode f neg mode
    (sign + o.1, o.2)
  else if fl < f.emin - f.mbits - 40 then
    let up := roundsUp mode neg 0 1 (2 ^ 40) false draw
    (sign + (if up then 1 else 0), fUF ||| fNX)
  else
    let at_ (q : Int) : Nat × Nat × Nat :=
      let num := shiftUp n (e - q)
      let den := shiftUp d (q - e)
      (num / den, num % den, den)
    let ex := max fl f.emin
    let q := ex - f.mbits
    let (lo, num, den) := at_ q
    let y := if roundsUp mode neg lo num den more draw then lo + 1 else lo
    let inexact := num != 0 || more
    if q > f.emax - f.mbits || (q == f.emax - f.mbits && y > f.maxSig) then
      let o := overflowCode f neg mode
      (sign + o.1, o.2)
    else
      let tiny :=
        if fl ≥ f.emin then false
        else
          let (lo', num', den') := at_ (fl - f.mbits)
          let y' := if roundsUp mode neg lo' num' den' more draw then lo' + 1 else lo'
          !(fl == f.emin - 1 && y' == 2 ^ (f.mbits + 1))
      (sign + ((ex - f.emin).toNat * 2 ^ f.mbits + y), flagIf inexact fNX ||| flagIf (inexact && tiny) fUF)

/-- round_fp of R62 and R63: the encoding of the result and the flags of the rounding. -/
def roundFp (f : Fmt) (mode : RMode) (draw : Nat) (v : Val) : Nat × Word :=
  match v with
  | .nan _ => (f.nanCode, flagIf (!f.hasNaN) fIV)
  | .inf s => if f.hasInf then (f.signCode s + f.infCode, 0) else (f.signCode s + f.maxCode, fIV)
  | .fin s n e d => if n == 0 then (f.signCode s, 0) else roundMag f mode draw s n e d false

/-! ## Exact operations with the special values of IEEE 754-2019 (R51, R63, R130) -/

/-- An exact result with the invalid and divide-by-zero conditions it met. -/
structure Ex where
  v : Val
  fl : Word := 0
deriving DecidableEq, Repr

/-- The sign of an exact zero sum of terms of opposite sign, or of cancelling terms (R130). -/
def zeroSign (mode : RMode) : Bool := match mode with | .rd => true | _ => false

/-- IV for a signalling operand (R51). -/
def sigFlag (a : Val) : Word := flagIf a.isSig fIV

def addFin (mode : RMode) (s₁ : Bool) (n₁ : Nat) (e₁ : Int) (d₁ : Nat) (s₂ : Bool) (n₂ : Nat) (e₂ : Int) (d₂ : Nat) :
    Val :=
  if n₁ == 0 && n₂ == 0 then .zero (if s₁ == s₂ then s₁ else zeroSign mode)
  else if n₁ == 0 then .fin s₂ n₂ e₂ d₂
  else if n₂ == 0 then .fin s₁ n₁ e₁ d₁
  else
    let e := min e₁ e₂
    let x := shiftUp n₁ (e₁ - e) * d₂
    let y := shiftUp n₂ (e₂ - e) * d₁
    let d := d₁ * d₂
    if s₁ == s₂ then .fin s₁ (x + y) e d
    else if x == y then .zero (zeroSign mode)
    else if x > y then .fin s₁ (x - y) e d
    else .fin s₂ (y - x) e d

def addV (mode : RMode) (a b : Val) : Ex :=
  match a, b with
  | .nan s, b => ⟨.nan false, flagIf s fIV ||| sigFlag b⟩
  | a, .nan s => ⟨.nan false, flagIf s fIV ||| sigFlag a⟩
  | .inf s, .inf t => if s == t then ⟨.inf s, 0⟩ else ⟨.nan false, fIV⟩
  | .inf s, _ => ⟨.inf s, 0⟩
  | _, .inf t => ⟨.inf t, 0⟩
  | .fin s₁ n₁ e₁ d₁, .fin s₂ n₂ e₂ d₂ => ⟨addFin mode s₁ n₁ e₁ d₁ s₂ n₂ e₂ d₂, 0⟩

def mulV (a b : Val) : Ex :=
  match a, b with
  | .nan s, b => ⟨.nan false, flagIf s fIV ||| sigFlag b⟩
  | a, .nan s => ⟨.nan false, flagIf s fIV ||| sigFlag a⟩
  | .inf s, b => if b.isZero then ⟨.nan false, fIV⟩ else ⟨.inf (s != b.neg?), 0⟩
  | a, .inf t => if a.isZero then ⟨.nan false, fIV⟩ else ⟨.inf (a.neg? != t), 0⟩
  | .fin s₁ n₁ e₁ d₁, .fin s₂ n₂ e₂ d₂ => ⟨.fin (s₁ != s₂) (n₁ * n₂) (e₁ + e₂) (d₁ * d₂), 0⟩

def divV (a b : Val) : Ex :=
  match a, b with
  | .nan s, b => ⟨.nan false, flagIf s fIV ||| sigFlag b⟩
  | a, .nan s => ⟨.nan false, flagIf s fIV ||| sigFlag a⟩
  | .inf _, .inf _ => ⟨.nan false, fIV⟩
  | .inf s, b => ⟨.inf (s != b.neg?), 0⟩
  | a, .inf t => ⟨.zero (a.neg? != t), 0⟩
  | .fin s₁ n₁ e₁ d₁, .fin s₂ n₂ e₂ d₂ =>
    if n₂ == 0 then
      if n₁ == 0 then ⟨.nan false, fIV⟩ else ⟨.inf (s₁ != s₂), fDZ⟩
    else ⟨.fin (s₁ != s₂) (n₁ * d₂) (e₁ - e₂) (d₁ * n₂), 0⟩

/-- An operation on results already computed, its conditions added to theirs. -/
def Ex.map2 (op : Val → Val → Ex) (a b : Ex) : Ex :=
  let r := op a.v b.v
  ⟨r.v, a.fl ||| b.fl ||| r.fl⟩

def Ex.of (v : Val) : Ex := ⟨v, 0⟩
def Ex.add (mode : RMode) (a b : Ex) : Ex := Ex.map2 (addV mode) a b
def Ex.mul (a b : Ex) : Ex := Ex.map2 mulV a b
def Ex.div (a b : Ex) : Ex := Ex.map2 divV a b
def Ex.neg (a : Ex) : Ex := ⟨a.v.negate, a.fl⟩

/-- Round an exact result and join the flags. -/
def Ex.round (f : Fmt) (mode : RMode) (draw : Nat) (x : Ex) : Nat × Word :=
  let r := roundFp f mode draw x.v
  (r.1, x.fl ||| r.2)

/-! ## Square roots -/

/-- floor(√n), one bit of the root at a time from bit k − 1 down. -/
def isqrtFrom : Nat → Nat → Nat → Nat
  | 0, _, r => r
  | k + 1, n, r =>
    let t := r + 2 ^ k
    isqrtFrom k n (if t * t ≤ n then t else r)

/-- floor(√n). -/
def isqrt (n : Nat) : Nat := isqrtFrom (Nat.log2 n / 2 + 1) n 0

/-- √(n × 2^e / d) correctly rounded, for a nonzero magnitude. -/
def roundSqrt (f : Fmt) (mode : RMode) (n : Nat) (e : Int) (d : Nat) : Nat × Word :=
  let want : Int := 2 * (f.mbits : Int) + 12 - log2Ratio n d
  let k := max want 0
  let k := if (k - e) % 2 == 0 then k else k + 1
  let num := shiftUp n k
  let a := num / d
  let r := isqrt a
  roundMag f mode 0 false r ((e - k) / 2) 1 (r * r != a || num % d != 0)

/-! ## Comparison (R131, R136) -/

/-- a < b of two numbers, ±0 equal. -/
def ltV (a b : Val) : Bool :=
  match a, b with
  | .nan _, _ | _, .nan _ => false
  | .inf s, .inf t => s && !t
  | .inf s, _ => s
  | _, .inf t => !t
  | a, b =>
    match (addV .rne a b.negate).v with
    | .fin s n _ _ => s && n != 0
    | _ => false

/-- a = b of two numbers, ±0 equal. -/
def eqV (a b : Val) : Bool := !a.isNaN && !b.isNaN && !ltV a b && !ltV b a

/-! ## Integers (R64) -/

/-- An exact finite value rounded to an integer, and whether it was one. -/
def roundToInt (mode : RMode) (draw : Nat) (neg : Bool) (n : Nat) (e : Int) (d : Nat) : Int × Bool :=
  if n == 0 then (0, true)
  else
    let big := log2Ratio n d + e
    if big < -40 then
      let up := roundsUp mode neg 0 1 (2 ^ 40) false draw
      ((if up then (if neg then -1 else 1) else 0), false)
    else
      let num := shiftUp n e
      let den := shiftUp d (-e)
      let lo := num / den
      let y := if roundsUp mode neg lo (num % den) den false draw then lo + 1 else lo
      ((if neg then -(y : Int) else y), num % den == 0)

/-- The range of an integer of N bits. -/
def intMin (bits : Nat) (signed : Bool) : Int := if signed then -(2 ^ (bits - 1) : Nat) else 0
def intMax (bits : Nat) (signed : Bool) : Int := if signed then (2 ^ (bits - 1) : Nat) - 1 else (2 ^ bits : Nat) - 1

/-- round_int of R64 into an integer of N bits: the value and the flags. -/
def roundIntTo (bits : Nat) (signed : Bool) (mode : RMode) (draw : Nat) (v : Val) : Int × Word :=
  match v with
  | .nan _ => (0, fIV)
  | .inf s => (if s then intMin bits signed else intMax bits signed, fIV)
  | .fin s n e d =>
    if n != 0 && log2Ratio n d + e > 70 then (if s then intMin bits signed else intMax bits signed, fIV)
    else
      let r := roundToInt mode draw s n e d
      if r.1 < intMin bits signed then (intMin bits signed, fIV)
      else if r.1 > intMax bits signed then (intMax bits signed, fIV)
      else (r.1, flagIf (!r.2) fNX)

/-! ## The keyed generator (R65) -/

def mix32 (key ctr : Addr) : Word :=
  let x : Addr := key + ctr * 0x9e3779b97f4a7c15
  let x := (x ^^^ (x >>> 30)) * 0xbf58476d1ce4e5b9
  let x := (x ^^^ (x >>> 27)) * 0x94d049bb133111eb
  let x := x ^^^ (x >>> 31)
  x.extractLsb' 32 32

end Sys2Proof.Machine
end

