-- ==== Sys2Proof/Machine/Map.lean ====
section
/-! DEFINITION. Sparse data by key: an association list with keys strictly rising. Lookup stops at the first key
that is not below the one sought, so the laws of reading after writing hold of every list, canonical or not. -/

namespace Sys2Proof

/-- Entries in ascending key order. -/
abbrev Map (α : Type) := List (Nat × α)

namespace Map

variable {α β : Type}

/-- The value held at k. -/
def find : Map α → Nat → Option α
  | [], _ => none
  | (j, v) :: m, k => if k < j then none else if k = j then some v else find m k

/-- The value at k, or d where nothing is listed. -/
def get (d : α) (m : Map α) (k : Nat) : α := (m.find k).getD d

/-- Drop every entry at or before k. -/
def after : Map α → Nat → Map α
  | [], _ => []
  | (j, v) :: m, k => if j ≤ k then after m k else (j, v) :: m

/-- Hold v at k. -/
def put : Map α → Nat → α → Map α
  | [], k, v => [(k, v)]
  | (j, w) :: m, k, v =>
    if k < j then (k, v) :: (j, w) :: m
    else if k = j then (k, v) :: m
    else (j, w) :: put m k v

/-- Hold nothing at k. -/
def erase : Map α → Nat → Map α
  | [], _ => []
  | (j, w) :: m, k =>
    if k < j then (j, w) :: m
    else if k = j then after m k
    else (j, w) :: erase m k

/-- Hold v at k, listing nothing where v is what an unlisted key reads as. -/
def set [DecidableEq α] (d : α) (m : Map α) (k : Nat) (v : α) : Map α :=
  if v = d then m.erase k else m.put k v

/-- Several writes, the later ones over the earlier ones. -/
def sets [DecidableEq α] (d : α) (m : Map α) : List (Nat × α) → Map α
  | [] => m
  | (k, v) :: ws => sets d (m.set d k v) ws

/-- Keys strictly rising, from a bound on. -/
def risingFrom : Nat → Map α → Bool
  | _, [] => true
  | b, (k, _) :: m => decide (b ≤ k) && risingFrom (k + 1) m

/-- The canonical form: keys strictly rising and no entry equal to what an unlisted key reads as. -/
def canonical [DecidableEq α] (d : α) (m : Map α) : Bool :=
  risingFrom 0 m && m.all (fun e => decide (e.2 ≠ d))

/-- Keys strictly rising. -/
def wf (m : Map α) : Bool := risingFrom 0 m

/-- The entries with keys lo .. lo+n-1. -/
def slice (m : Map α) (lo n : Nat) : Map α := m.filter (fun e => decide (lo ≤ e.1) && decide (e.1 < lo + n))

def keys (m : Map α) : List Nat := m.map Prod.fst
def vals (m : Map α) : List α := m.map Prod.snd

/-- Apply f to the value at k, where one is held. -/
def modify (m : Map α) (k : Nat) (f : α → α) : Map α :=
  match m.find k with
  | some v => m.put k (f v)
  | none => m

/-- Apply f to every value. -/
def mapVals (f : α → β) (m : Map α) : Map β := List.map (fun e => (e.1, f e.2)) m

end Map

end Sys2Proof
end

