-- ==== Sys2Proof/Syntax.lean ====
section
/-! DEFINITION. The instruction set: one constructor for each row of the opcode table. The 168 instructions carry
their prefix words (R85 to R90) and the operand fields of R92 to R99; the 87 events that follow are the steps of the
part that no instruction word names, with the place each of them takes effect at; those that need no place stand last. -/

namespace Sys2Proof

/-- The instructions (R92 to R99) and the events of the part. -/
inductive Instr where
  | add (x : Pfx) (d a b : Reg) (t : IType)
  | sub (x : Pfx) (d a b : Reg) (t : IType)
  | mul (x : Pfx) (d a b : Reg) (t : IType)
  | mulh (x : Pfx) (d a b : Reg) (t : IType)
  | mad (x : Pfx) (d a b : Reg) (t : IType)
  | min (x : Pfx) (d a b : Reg) (t : IType)
  | max (x : Pfx) (d a b : Reg) (t : IType)
  | shl (x : Pfx) (d a b : Reg) (t : IType)
  | shr (x : Pfx) (d a b : Reg) (t : IType)
  | sar (x : Pfx) (d a b : Reg) (t : IType)
  | and (x : Pfx) (d a b : Reg) (w : Bool)
  | or (x : Pfx) (d a b : Reg) (w : Bool)
  | xor (x : Pfx) (d a b : Reg) (w : Bool)
  | andn (x : Pfx) (d a b : Reg) (w : Bool)
  | abs (x : Pfx) (d a : Reg) (w : Bool)
  | neg (x : Pfx) (d a : Reg) (w : Bool)
  | clz (x : Pfx) (d a : Reg) (w : Bool)
  | popc (x : Pfx) (d a : Reg) (w : Bool)
  | brev (x : Pfx) (d a : Reg) (w : Bool)
  | mov (x : Pfx) (d a : Reg) (w : Bool)
  | bfx (x : Pfx) (d a b : Reg) (s : Bool)
  | bfi (x : Pfx) (d a b : Reg)
  | prmt (x : Pfx) (d a b : Reg)
  | sel (x : Pfx) (d a b : Reg) (p : PReg)
  | cmp (x : Pfx) (c : ICond) (p : PReg) (a b : Reg) (t : IType)
  | addi (x : Pfx) (d a : Reg) (i : BitVec 11)
  | muli (x : Pfx) (d a : Reg) (i : BitVec 11)
  | shli (x : Pfx) (d a : Reg) (i : BitVec 11)
  | shri (x : Pfx) (d a : Reg) (i : BitVec 11)
  | sari (x : Pfx) (d a : Reg) (i : BitVec 11)
  | andi (x : Pfx) (d a : Reg) (i : BitVec 11)
  | ori (x : Pfx) (d a : Reg) (i : BitVec 11)
  | xori (x : Pfx) (d a : Reg) (i : BitVec 11)
  | andni (x : Pfx) (d a : Reg) (i : BitVec 11)
  | cmpiI32 (x : Pfx) (c : ICond) (p : PReg) (a : Reg) (i : BitVec 11)
  | cmpiN32 (x : Pfx) (c : ICond) (p : PReg) (a : Reg) (i : BitVec 11)
  | movi (x : Pfx) (d : Reg) (i : BitVec 11)
  | lui (x : Pfx) (d : Reg) (i : BitVec 18)
  | lea (x : Pfx) (d a : Reg) (i : BitVec 11)
  | shfl (x : Pfx) (d a : Reg) (m : ShflMode) (n : BitVec 6)
  | shflReg (x : Pfx) (d a : Reg) (m : ShflMode) (r : Reg)
  | ballot (x : Pfx) (d : Reg) (s : PReg) (n : Bool)
  | voteAny (x : Pfx) (p s : PReg) (n : Bool)
  | voteAll (x : Pfx) (p s : PReg) (n : Bool)
  | voteUni (x : Pfx) (p s : PReg) (n : Bool)
  | fadd (x : Pfx) (d a b : Reg) (t : FType)
  | fsub (x : Pfx) (d a b : Reg) (t : FType)
  | fmul (x : Pfx) (d a b : Reg) (t : FType)
  | ffma (x : Pfx) (d a b : Reg) (t : FType)
  | fmin (x : Pfx) (d a b : Reg) (t : FType)
  | fmax (x : Pfx) (d a b : Reg) (t : FType)
  | fdiv (x : Pfx) (d a b : Reg) (t : FType)
  | fdot2 (x : Pfx) (d a b : Reg) (t : FType)
  | fcmp (x : Pfx) (c : FCond) (p : PReg) (a b : Reg) (t : FType)
  | fneg (x : Pfx) (d a : Reg) (t : FType)
  | fabs (x : Pfx) (d a : Reg) (t : FType)
  | fsqrt (x : Pfx) (d a : Reg) (t : FType)
  | frcp (x : Pfx) (d a : Reg) (t : FType)
  | frsq (x : Pfx) (d a : Reg) (t : FType)
  | fclass (x : Pfx) (d a : Reg) (t : FType)
  | fscale (x : Pfx) (d a b : Reg) (t : FType)
  | cvt (x : Pfx) (d a : Reg) (m : CvtMode) (s c : CFmt)
  | cvtSr (x : Pfx) (d a b : Reg) (c : CFmt)
  | cvtPack (x : Pfx) (d a : Reg) (m : CvtMode) (c : PFmt)
  | cvtPackSr (x : Pfx) (d a b : Reg) (c : PFmt)
  | cvtUnpack (x : Pfx) (d a : Reg) (c : PFmt)
  | fexp2 (x : Pfx) (d a : Reg)
  | flog2 (x : Pfx) (d a : Reg)
  | fsin (x : Pfx) (d a : Reg)
  | fcos (x : Pfx) (d a : Reg)
  | ftanh (x : Pfx) (d a : Reg)
  | bra (x : Pfx) (n : Bool) (p : PReg) (i : BitVec 20)
  | call (x : Pfx) (n : Bool) (p : PReg) (i : BitVec 20)
  | brx (x : Pfx) (a : Reg)
  | ret (x : Pfx)
  | nop (x : Pfx)
  | exit (x : Pfx)
  | yield (x : Pfx)
  | sleep (x : Pfx) (a : Reg)
  | bkpt (x : Pfx)
  | trap (x : Pfx)
  | tret (x : Pfx)
  | rpf (x : Pfx) (d a b : Reg)
  | wbase (x : Pfx) (a : Reg) (i : BitVec 7)
  | spawn (x : Pfx) (a b : Reg)
  | pand (x : Pfx) (d : PReg) (n : Bool) (a : PReg) (m : Bool) (b : PReg)
  | por (x : Pfx) (d : PReg) (n : Bool) (a : PReg) (m : Bool) (b : PReg)
  | pxor (x : Pfx) (d : PReg) (n : Bool) (a : PReg) (m : Bool) (b : PReg)
  | pnot (x : Pfx) (d : PReg) (n : Bool) (a : PReg)
  | pset (x : Pfx) (d : PReg) (a : Reg)
  | ld (x : Pfx) (d a : Reg) (k : MemKind) (i : BitVec 7)
  | st (x : Pfx) (d a : Reg) (k : MemKind) (i : BitVec 7)
  | ldFe (x : Pfx) (d a : Reg) (k : MemKind) (i : BitVec 7)
  | stFill (x : Pfx) (d a : Reg) (k : MemKind) (i : BitVec 7)
  | feClr (x : Pfx) (a b : Reg)
  | atom32 (x : Pfx) (d a b : Reg) (f : AtomFn)
  | atom64 (x : Pfx) (d a b : Reg) (f : AtomFn)
  | red32 (x : Pfx) (a b : Reg) (f : AtomFn)
  | red64 (x : Pfx) (a b : Reg) (f : AtomFn)
  | fenceFull (x : Pfx) (s : Scope) (m : BitVec 6)
  | fenceAcq (x : Pfx) (s : Scope) (m : BitVec 6)
  | fenceRel (x : Pfx) (s : Scope) (m : BitVec 6)
  | barArrive (x : Pfx) (a : Reg) (n : BitVec 5)
  | barWait (x : Pfx) (a : Reg) (n : BitVec 5)
  | barSync (x : Pfx) (a : Reg) (n : BitVec 5)
  | barExpect (x : Pfx) (a : Reg) (n : BitVec 5)
  | sstep (x : Pfx)
  | rclose (x : Pfx)
  | prefL1 (x : Pfx) (a : Reg)
  | prefCc (x : Pfx) (a : Reg)
  | prefMs (x : Pfx) (a : Reg)
  | cctlWb (x : Pfx) (a : Reg)
  | cctlInv (x : Pfx) (a : Reg)
  | cctlRoinv (x : Pfx) (a : Reg)
  | lld (x : Pfx) (l : LReg) (a : Reg) (i : BitVec 11)
  | lst (x : Pfx) (l : LReg) (a : Reg) (i : BitVec 11)
  | lchain (x : Pfx) (d a b : LReg)
  | lpart (x : Pfx) (d a : LReg) (b : Reg)
  | ltrans (x : Pfx) (d a : LReg) (j i : BitVec 3)
  | lflat (x : Pfx) (d a : LReg) (m : BitVec 3)
  | lswz (x : Pfx) (d a : LReg) (b : Reg)
  | lchk (x : Pfx) (p : PReg) (l : LReg) (e : Engine)
  | ltile (x : Pfx) (d a : Reg) (l : LReg)
  | stile (x : Pfx) (d a : Reg) (l : LReg)
  | mldb (x : Pfx) (s : BitVec 1) (a : Reg) (l : LReg) (f : MFmt)
  | mma (x : Pfx) (t : TileNo) (a b : Reg) (f : MFmt)
  | mmaC (x : Pfx) (t : TileNo) (a b : Reg) (f : MFmt)
  | msca (x : Pfx) (t : TileNo) (a b : Reg) (k : ScaleKind)
  | mzero (x : Pfx) (t n : TileNo)
  | mread (x : Pfx) (d a : Reg) (e : MElem)
  | mwrite (x : Pfx) (d a : Reg) (e : MElem)
  | mver (x : Pfx) (d : Reg) (t : TileNo)
  | mwait (x : Pfx) (t : TileNo) (b : Reg)
  | mstat (x : Pfx) (d : Reg) (t : TileNo)
  | cpyLoad (x : Pfx) (d a b : Reg)
  | cpyStore (x : Pfx) (d a b : Reg)
  | cpym (x : Pfx) (d a b : Reg)
  | cwait (x : Pfx) (a b : Reg)
  | cstat (x : Pfx) (d a : Reg)
  | qpop (x : Pfx) (d : Reg) (q : QReg)
  | qpopTry (x : Pfx) (d : Reg) (q : QReg) (p : PReg)
  | qpush (x : Pfx) (a b : Reg)
  | qpushTry (x : Pfx) (p : PReg) (a b : Reg)
  | qstat (x : Pfx) (d : Reg) (q : QReg)
  | strm (x : Pfx) (a b : Reg)
  | strmStop (x : Pfx)
  | strmWait (x : Pfx)
  | tspawn (x : Pfx) (d a b : Reg)
  | texit (x : Pfx)
  | calmwait (x : Pfx)
  | role (x : Pfx) (d : Reg)
  | rolewait (x : Pfx)
  | append (x : Pfx) (a b : Reg)
  | drain (x : Pfx) (d a : Reg) (p : PReg)
  | wfork (x : Pfx) (d : Reg) (n : BitVec 4)
  | wyield (x : Pfx) (a : Reg)
  | wabort (x : Pfx)
  | wchoose (x : Pfx) (a : Reg)
  | wchooseNone (x : Pfx)
  | wstatScore (x : Pfx) (d a : Reg)
  | wstatStatus (x : Pfx) (d a : Reg)
  | srd (x : Pfx) (d : Reg) (w : Bool) (n : BitVec 8)
  | swr (x : Pfx) (a : Reg) (w : Bool) (n : BitVec 8)
  | tlbinvPage (x : Pfx) (a : Reg)
  | tlbinvCtx (x : Pfx) (a : Reg)
  | tlbinvAll (x : Pfx)
  | ctxq (x : Pfx) (a : Reg)
  | mcheck (x : Pfx) (d : Reg)
  | powerOn (readable trained : Bool)
  | compactorMerge (core squad : Nat)
  | spillRefill (core slot reg plane : Nat) (bad : Option Nat)
  | deferredTrapDelivery (cause : BitVec 8)
  | debugResume (core slot : Nat)
  | groupAged (core slot : Nat) (pc : Addr)
  | yieldTimeout (core slot lane : Nat)
  | sleepExpiry (core slot lane : Nat)
  | spawnBinTimeout (core squad : Nat) (key : Addr)
  | spawnedGangStart (core squad : Nat)
  | crewEnd (core : Nat)
  | fenceComplete (core slot : Nat)
  | leaseBreak (core : Nat)
  | viewRetag (core : Nat)
  | tlbShootdown (core : Nat)
  | closeRequest (core : Nat)
  | patrolScrub (place : Storage) (uncorrectable : Bool)
  | orderedAddContribution (launch view pa : Nat) (wide : Bool) (value : Addr) (key : List Nat) (core squad : Nat)
  | roundClose (launch view : Nat)
  | superstepComplete (launch : Nat)
  | treeAgreementMessage (launch child value : Nat)
  | mldbComplete (core : Nat)
  | mmaComplete (core : Nat) (parity : Option Nat) (bad : Bool)
  | mmaCStepStart (cluster : Nat)
  | mscaComplete (core : Nat) (bad : Bool)
  | mzeroComplete (core : Nat)
  | mreadComplete (core : Nat) (bad : Bool)
  | mwriteComplete (core : Nat)
  | mstatComplete (core : Nat)
  | copyStart (core : Nat)
  | copyLineLand (core k : Nat)
  | copyEnd (core k : Nat)
  | streamIterationPoint (core : Nat)
  | taskGangStart (core : Nat)
  | calmSweep (launch : Nat)
  | roleDwellExpiry (core : Nat)
  | forkStart (core : Nat)
  | worldEnd (core : Nat)
  | parentResume (parked : Nat)
  | worldCommit (core : Nat)
  | viewBackgroundMerge (tag : Nat)
  | pageWalk (core : Nat) (va : Addr) (kind : Nat)
  | pageResume (ctx : Nat) (va : Addr)
  | preemptionRequest (core : Nat)
  | crewSave (core : Nat)
  | crewResume (parked : Nat)
  | preemptionOverdue (core : Nat)
  | launchQueuePost (queue : Nat) (tail : Addr)
  | launchRecordTake (queue : Nat)
  | dependencyCheck (queue : Nat)
  | launchPlacement (queue : Nat)
  | priorityPreemption (queue : Nat)
  | launchEnd (launch : Nat)
  | launchCancel (launch : Nat)
  | doldrumsReport (core slot : Nat)
  | packetInject (stop loop : Nat)
  | agePromotion (stop loop : Nat)
  | packetEject (stop loop : Nat)
  | sumpDiversion (stop loop : Nat)
  | spanFrameReceive (port seq : Nat) (crcOk : Bool) (header : BitVec 128)
  | spanPortDown (port : Nat)
  | hostReadCompletion (core slot tag : Nat) (error : Bool)
  | hostReadTimeout (core slot tag : Nat)
  | feataccWrite (word : Bool) (value : Addr)
  | registerWindowWrite (offset : Nat) (value : Addr)
  | attestationQuote (nonce : List Byte)
  | measurementLogExtend (block : List Byte)
  | firmwareImageWrite (image : List Byte)
  | managementWindowWrite (setting : Setting)
  | thermalStop (die : Nat)
  | illegalInstruction (detail : BitVec 8)
  | preemptionCancel (core : Nat)
  | deviceReset
  | fetchAddressFault
  | phaseClose
  | closeCompletion
  | sliceLoad
  | sliceWrite
  | sliceMissFill
  | loadReply
  | writeAck
  | queuePacketArrival
  | taskRecordArrival
  | managementSettingApply
  | clockLower
  | clockRaise
  | powerOff
deriving DecidableEq, Repr

end Sys2Proof
end

