-- ==== Sys2Proof/Machine/State.lean ====
section
/-! DEFINITION. The machine's state as plain data: one package of the span with its cores, memory, control plane,
fabric, links and management controller. Every structure names the rule that gives each of its fields. Fields that
are the model's own (not the spec's) say so. -/

namespace Sys2Proof.Machine

/-- Bytes by address; an unlisted byte reads 0 (DESIGN CHOICE, log 2). -/
abbrev Mem := Map Byte

/-- The canonical form of a memory: addresses strictly rising, no listed byte equal to what an unlisted one reads. -/
abbrev Memory.wf (m : Mem) : Bool := Map.canonical 0 m

/-! ## Fibres and gangs -/

/-- The launch- and crew-collective arrivals of R165. -/
inductive Arrival where
  | fork (d : Reg) (count : Nat)        -- R276
  | worldYield (score : Word)           -- R285
  | choose (index : Option Word)        -- R289
  | superstep                           -- R207
  | roundClose                          -- R196
deriving DecidableEq, Repr

/-- Why a fibre's unit is held at issue: the waits of R165, of R201, R219, R224, R333, R341, of sleep and yield, and a
stop at a safe point. -/
inductive Hold where
  | sleep (till : Nat)                                   -- R162: %clock value that ends it
  | yielded (others : BitVec 64) (idle : Nat)            -- R161: lanes of Y still to advance; clock when last seen alone
  | phase (bar : Nat) (ph : Bool)                        -- R204: left when the barrier's PH differs from ph
  | lines (offsets : List Nat)                           -- R187: scratchpad lines to be full
  | counter (addr : Addr) (target : Word)                -- R245
  | calm (next : Addr)                                   -- R271; next is where the release sends the group
  | popEmpty (queue : Nat)                               -- R259
  | pushFull (handle : Addr)                             -- R260
  | queueBusy (handle : Addr)                            -- R46: an older push or send to the queue is in flight
  | answer (next : Addr) (push : Bool)                   -- R260, R268: a remote push or send waits for its answer
  | shootdown                                            -- R177: other cores have yet to drop translations
  | taskFull (handle : Addr)                             -- R268
  | listFull (lists : List Nat)                          -- R270: the lists it appends to
  | streamBusy                                           -- R266 strm
  | streamRuns                                           -- R266 strm.wait
  | version (tiles : List Nat) (expect : BitVec 16)      -- R224
  | completed (tile : Nat) (expect : BitVec 16)          -- R238 mwait
  | matrixFull (span : List Nat)                         -- R219; the tiles whose versions have been waited on (R231)
  | copyFull                                             -- R248
  | bins (key : Addr)                                    -- R155: the entry that needs a bin
  | arrival (a : Arrival) (next : Addr)                  -- R276, R285, R289, R207, R196
  | page (ctx : Nat) (pages : List Addr)                 -- R333; no pages: resumed, to issue again
  | peer (core : Nat)                                    -- R341
  | sideLog (need : Nat)                                 -- R334
  | fence                                                -- R201: stalls until the fence completes
  | pendingDest (keys : List Nat) (span : Option (List Nat))
      -- R46: an older unit in flight has yet to write; the tiles whose versions the unit has waited on (R231)
  | hostRoom                                             -- R395: 32 host reads outstanding
  | phaseBusy                                            -- R391: the next phase value still has an entry
  | lateTrap                                             -- R167: a trap past an incomplete fence
  | safePoint                                            -- R163: stopped before a SAFE-marked unit
  | debugHalt                                            -- R172
deriving DecidableEq, Repr

/-- What a trap delivered at a held unit leaves of it (R165, R206): the unit, its hold, and whether its arrival or its
spawn has been done. -/
structure Kept where
  pc : Addr
  hold : Option Hold
  arrived : Bool
deriving DecidableEq, Repr

/-- A fibre's own state (R14) and the issue state of the group it stands in. -/
structure Fibre where
  live : Bool := false              -- R142
  pc : Addr := 0                    -- R14; 2^48 after the last unit (R149)
  pred : BitVec 16 := 1             -- R14, R15
  wbase : Nat := 0                  -- R14
  savedWbase : Nat := 0             -- R168
  hold : Option Hold := none
  safe : Option (BitVec 7) := none  -- the live set of the SAFE prefix of the held unit (R163 to R165)
  since : Nat := 0                  -- %clock when its wait began, or it last issued or was released (R363)
  issued : Nat := 0                 -- %clock when its group last issued (R363)
  readyFrom : Option Nat := none    -- R362: %clock from which its group has been ready without issuing
  aged : Bool := false              -- R362
  arrived : Bool := false           -- R165: the part of the held unit that is not done again is done: an arrival, or a
                                    -- spawn's fibre in its bin
  kept : Option Kept := none        -- R165, R206: the held unit at which the handler was entered
  reported : Bool := false          -- R363: a report of code 0 has been posted for the episode
deriving DecidableEq, Repr

/-- Where a deferred trap is delivered, besides a safe point (R166). -/
inductive Delivery where
  | safePoint
  | tiles (ts : List Nat)           -- R239, R240, R316
  | counter (addr : Addr)           -- R244
  | queueOps                        -- R262
  | streamWait                      -- R266
  | regs (keys : List Nat)          -- R317: units that read the unwritten destination
  | layout (l : Nat)                -- the same, of a layout register
deriving DecidableEq, Repr

/-- A pending deferred trap (R166). -/
structure Pend where
  cause : BitVec 8
  addr : Addr
  at_ : Delivery
deriving DecidableEq, Repr

/-- A precise trap as R43 records it. -/
structure Trap where
  cause : BitVec 8
  detail : BitVec 8 := 0
  lane : Nat := 0
  addr : Addr := 0
deriving DecidableEq, Repr

/-- The fence kinds of R198. -/
inductive FenceKind where
  | full | acq | rel
deriving DecidableEq, Repr

/-- What a rollback restores (R202): the gang's registers, predicates, windows, layouts and handler flag at the fence. -/
structure Checkpoint where
  fibres : List Fibre
  regs : Map Word
  layouts : Map (BitVec 512)
  ctl : BitVec 64
  bankdeg : Word
  tanstride : Addr
  handler : Option (BitVec 64)
deriving DecidableEq, Repr

/-- An incomplete fence (R201, R202). -/
structure FenceSt where
  kind : FenceKind
  scope : Scope
  paths : BitVec 6
  closes : Nat                      -- close completions still to come (R312)
  upTo : Nat                        -- engine operations numbered below this are before it (R200)
  back : Checkpoint
  lines : List Nat := []            -- generic lines read past it (R201)
  writes : Nat := 0                 -- entries of the 16-entry buffer in use (R201)
  rollbacks : Nat := 0              -- R202
  fl : Word := 0                    -- flags raised past it, which reach the squad when it completes
  tfl : Word := 0
  pends : List Pend := []           -- deferred traps that units past it have made pending
deriving DecidableEq, Repr

/-- A vector register held in the main file (R21, R25). -/
structure Stored where
  at_ : Option Nat                  -- first segment; none while spilled
  segs : Nat                        -- 1, 2, 3 or 4
  stamp : Nat                       -- use order
deriving DecidableEq, Repr

/-- An entry of the operand buffer, most recently used first (R22). -/
structure BufEntry where
  key : Nat                         -- tangent plane × 1024 + physical register
  dirty : Bool
deriving DecidableEq, Repr

/-- An uncorrectable error of a register, not yet found (R27): its buffer key, its lane, and its machine-check class. -/
structure BadReg where
  key : Nat
  lane : Nat
  cls : BitVec 4
deriving DecidableEq, Repr

/-- The task a task gang runs (R267, R269). -/
structure TaskRun where
  record : Addr                     -- g4:g5
  succ : Addr                       -- its SUCC counter
  view : Nat                        -- R359
deriving DecidableEq, Repr

/-- One access of a host-mapped read in flight. -/
structure HostPart where
  va : Addr
  dests : List Nat                  -- register keys that its completion writes
  words : List Word                 -- and what: as the host's memory was when the read issued (R306)
deriving DecidableEq, Repr

/-- A host-mapped load, tile load or atomic in flight (R395). -/
structure HostRead where
  tag : Nat
  issued : Nat                      -- %clock at issue
  parts : List HostPart
deriving DecidableEq, Repr

/-- A gang: up to 64 fibres and what they share. -/
structure Gang where
  fibres : List Fibre
  regs : Map Word := []             -- (tangent plane × 1024 + physical register) × 64 + lane; R17, R32; unlisted is 0
  layouts : Map (BitVec 512) := []  -- R28
  ctl : BitVec 64 := 0              -- R35
  bankdeg : Word := 0               -- R38
  tanstride : Addr := 0             -- R41
  lastnan : BitVec 128 := 0         -- R42
  trapcause : Word := 0             -- R43
  trappc : Addr := 0                -- R43
  trapaddr : Addr := 0              -- R43
  handler : Option (BitVec 64) := none  -- R168: the handler flag, with the lanes of the handler group
  stopped : Bool := false           -- R170
  wp : Word := 0                    -- R204
  pts : Nat := 0                    -- R307
  phase : BitVec 2 := 0             -- R311
  sent : Map Nat := []              -- R311: writes sent in the phase, per destination
  order : Nat := 0                  -- R194: program-order position of the next ordered add
  pending : List Pend := []         -- R166
  fence : Option FenceSt := none    -- R201
  late : Option Trap := none        -- R167: a trap raised past the fence
  role : BitVec 2 := 0              -- R272
  roleIndex : Option Nat := none    -- R364: initial gang number of a role gang
  roleMark : Option (BitVec 2) := none  -- R364
  task : Option TaskRun := none     -- R269
  buffer : List BufEntry := []      -- R22
  stored : Map Stored := []         -- R21
  bad : List BadReg := []           -- R27
  destWait : List Nat := []         -- R46: register and predicate keys that an issued mread, mstat, host read, remote push
                                    -- or remote send has yet to write
  hostReads : List HostRead := []   -- R395
  lastIssue : Nat := 0              -- %clock of the gang's last issue (R363)
  reported : Bool := false          -- R363: a report has been posted for the episode
  born : Nat := 0                   -- this model's own: engine operations numbered before the gang started
  peerSeq : Map (BitVec 8) := []    -- R383: sequence numbers of its path 0x4 writes, by core
  id : Nat := 0                     -- this model's own: a name no other gang has (R311)
deriving DecidableEq, Repr

/-! ## Squads -/

/-- A spawned fibre waiting in a bin (R154 to R156). -/
structure SpawnBin where
  key : Addr
  args : List Word                  -- in order of entry
  due : Nat                         -- %clock when the timer reaches the timeout (R358)
deriving DecidableEq, Repr

/-- A gang that a bin has formed and that waits for segments and a slot (R155, R353). -/
structure Formed where
  entry : Addr
  args : List Word
deriving DecidableEq, Repr

structure Squad where
  flags : Word := 0                 -- R36
  tflags : Word := 0                -- R36
  spillct : Word := 0               -- R45
  lastSlot : Nat := 15              -- R362
  reserved : Nat := 0               -- R24: segments reserved
  free : List (Nat × Nat) := [(0, 4096)]  -- R23: free blocks of the main file (first segment, length)
  bins : List SpawnBin := []        -- R155
  formed : List Formed := []
deriving DecidableEq, Repr

/-! ## The crew and its engines -/

/-- A named barrier (R203). -/
structure Barrier where
  arr : Nat := 0
  expc : Nat := 0
  bytes : Nat := 0
  expb : Nat := 0
  ph : Bool := false
deriving DecidableEq, Repr

/-- A B slot (R30, R227) with its issue-side state (R228). -/
structure BSlot where
  valid : Bool := false
  fmt : MFmt := .fp32
  cells : Map Nat := []             -- element code at k × 384 + n (R227)
  issueValid : Bool := false        -- R228
  issueFmt : MFmt := .fp32
  parityLost : Bool := false        -- R228: invalid because of a parity error
  badRows : List Nat := []          -- R373: macro rows with a parity error, not yet found
deriving DecidableEq, Repr

/-- The passes a DUAL mode selects for mma (R233). -/
structure Passes where
  dual : DualMode
  k : Nat
  withB : Bool                      -- the tangent slot is valid: passes A × B′ are made
deriving DecidableEq, Repr

/-- A queued matrix command with its operands as read at issue (R219, R221). -/
inductive MatOp where
  | loadB (slot : Nat) (base : Addr) (layout : BitVec 512) (fmt : MFmt)
  | multiply (coop : Bool) (tile count : Nat) (base : Addr) (layout : BitVec 512) (slot : Nat) (fmt : MFmt)
      (kdim : Nat) (waitFull : Bool) (passes : Passes) (tangents : Nat) (stride : Addr) (record : Bool)
  | scale (src dst : Nat) (base : Addr) (kind : ScaleKind) (acc : Bool) (record : Bool)
  | zero (tile count : Nat)
  | read (elem : MElem) (mode : RMode) (sel : List (Nat × Word)) (dests : List (Nat × List Nat))
  | write (elem : MElem) (sel : List (Nat × Word)) (vals : List (Nat × BitVec 64)) (tiles : List Nat)
  | stat (tile : Nat) (dests : List (Nat × List Nat))
deriving DecidableEq, Repr

/-- An A tile as read: element codes of each plane, row i and column k at i × cols + k (R231, R232). -/
structure ATile where
  fmt : MFmt
  kdim : Nat
  waitFull : Bool
  rows : Nat
  cols : Nat
  planes : List (List Nat)
  bad : Option Addr := none         -- a poisoned address
deriving DecidableEq, Repr

structure MatCmd where
  op : MatOp
  lead : Option ATile := none       -- R232: the leader's A, once the cooperative step has started
  fed : List (List Nat) := []       -- R231, R372: element codes of the rows of A that the feeder has read
  fedBad : Option Addr := none      -- a poisoned address among them
  num : Nat                         -- engine operation number (this model's own; orders fences, R200)
  slot : Nat                        -- issuing gang's slot number
  pc : Addr                         -- first prefix word (R239)
  view : Nat
deriving DecidableEq, Repr

/-- What a copy has yet to write to one 128-byte line (R190, R255): bytes by offset or address. -/
inductive CopyWrite where
  | pad (core line : Nat) (bytes : List (Nat × Byte)) (fill : Bool) (bar : Option Nat)
      -- scratchpad of a core; whether its full bit is set (R186), and the barrier that counts it (R190)
  | mem (line : Nat) (bytes : List (Nat × Byte))                -- device memory
  | host (line : Nat) (bytes : List (Nat × Byte))               -- offsets in the host window
deriving DecidableEq, Repr

/-- A copy in the core's copy queue (R248, R256, R369). -/
structure CopyOp where
  num : Nat
  slot : Nat
  store : Bool
  multicast : Option (BitVec 64 × Nat)   -- receivers and their barrier (R256)
  shape : Addr
  image : Option (List Byte)             -- the shape record as read at issue, none where its address failed
  fail : Option (BitVec 16 × Addr)       -- status and address of a record that failed
  origin : List Int                      -- O_d (R249)
  offset : Nat                           -- scratchpad offset (R248)
  counter : Addr
  xf : BitVec 6
  seed : Word                            -- %ctl.SEED at issue (R66)
  view : Nat
  pts : Nat := 0
  running : Bool := false
  toRead : List (List Addr) := []        -- elements of the read side still to be read, each by its bytes (R255)
  got : Map Byte := []                   -- the bytes read, by address
  planned : Bool := false                -- every element has been read, and the chain has run
  writes : List CopyWrite := []          -- until then, the lines it is to write
  acks : Nat := 0                        -- slice writes not yet acknowledged
  hwbase : Addr := 0                     -- HWBASE and HWSIZE when its accesses passed their checks (R398)
  hwsize : Addr := 0
  status : BitVec 16 := 0                -- of a copy that has failed (R244)
  sat : Nat := 0
  flags : Word := 0
deriving DecidableEq, Repr

/-- An architected queue: window and backing together (R31, R258). -/
structure Queue where
  gen : BitVec 12 := 0
  entries : List (List Word) := []       -- oldest first; 64 words an entry
  back : Nat := 256                      -- backing size
deriving DecidableEq, Repr

/-- A record held by a task queue (R267, R359). -/
structure TaskRec where
  bytes : List Byte                      -- 64 bytes, WTAG filled in
  addr : Addr                            -- of the copy in the backing
deriving DecidableEq, Repr

structure TaskQueue where
  gen : BitVec 12 := 0
  recs : List TaskRec := []
  cap : Nat := 4096
deriving DecidableEq, Repr

/-- A stream program in the slot (R263 to R266). -/
structure Stream where
  num : Nat
  slot : Nat                             -- gang that issued strm
  view : Nat
  lext : List Nat                        -- LEXT of the loops in use
  bases : List Addr                      -- BASE + P of each stream
  strides : List (List Int)
  ops : List (BitVec 64)
  at_ : List Nat                         -- iteration point, loop 0 first
  next : Nat := 0                        -- micro-operation to run next within the point (R375)
  vecs : Map Word := []                  -- vector × 64 + word
  stop : Bool := false                   -- R266 strm.stop
  ahead : List (List Nat × Nat × List Word) := []
      -- R374: loads performed for operations that the slot has yet to reach: their point, their place in it and what they gave
deriving DecidableEq, Repr

/-- The role machine of R364. -/
inductive RoleSt where
  | steady | lowWait | highWait | marked
deriving DecidableEq, Repr

structure RoleMachine where
  st : RoleSt := .steady
  timer : Nat := 0
deriving DecidableEq, Repr

/-- How a world ended, as wstat and wchoose need it (R287, R288). -/
structure WorldOut where
  status : BitVec 8 := 0
  cause : BitVec 8 := 0
  score : Word := 0
  neff : Nat := 0
  sqFlags : List (Word × Word) := []     -- %flags and %tflags of each squad
  view : Nat := 0
deriving DecidableEq, Repr

/-- An item of an effect queue entry: one lane's write or send (R281, R282). -/
inductive EffectItem where
  | bytes (offset : Nat) (bs : List Byte)
  | nibble (offset : Nat) (high : Bool) (v : BitVec 4)
  | rmw (offset : Nat) (fn : AtomFn) (wide : Bool) (v : Addr) (tangent : Bool)
deriving DecidableEq, Repr

/-- A deferred effect (R281, R282). -/
inductive Effect where
  | host (items : List EffectItem)
  | push (handle : Addr) (words : List Word)
  | send (handle : Addr) (record : List Byte)
deriving DecidableEq, Repr

/-- A crew's latest fork (R276, R288, R289). -/
structure Fork where
  n : Nat
  outs : Map WorldOut := []              -- ended worlds by index
  effects : Map (List Effect) := []      -- their effect queues
  ended : Bool := false
  chosen : Option Nat := none
  reason : BitVec 2 := 0
  complete : Bool := false               -- C of the summary
deriving DecidableEq, Repr

/-- A pending pre-emption request (R338, R342). -/
structure Preempt where
  since : Nat
  reported : Bool := false
deriving DecidableEq, Repr

/-- A crew, running in a slot, saved, or suspended in a fork. -/
structure Crew where
  launch : Nat                           -- launch number (R319)
  index : Nat                            -- R347
  gangs : Map Gang := []                 -- by slot number 4 × %gang + %squad
  squads : List Squad
  scratch : Mem := []                    -- scratchpad data area (R181)
  size : Nat := 0                        -- .scratch bytes
  full : BitVec 4096 := 0                -- R186
  padBad : List Nat := []                -- R316: words of scratchpad and barrier window with an uncorrectable error
  barriers : List Barrier := []          -- R203
  tiles : Map (BitVec 48) := []          -- tile × 2048 + row × 16 + column (R29)
  vc : Map (BitVec 16) := []             -- R223
  vr : Map (BitVec 16) := []             -- R223
  sat : Map Word := []                   -- saturation counters (R231, R238)
  b0 : BSlot := {}
  b1 : BSlot := {}
  matq : List MatCmd := []               -- R219
  copies : List CopyOp := []             -- R248
  queues : List Queue := []              -- q0..q7 (R31)
  tasks : TaskQueue := {}                -- R268
  stream : Option Stream := none         -- R263
  role : RoleMachine := {}               -- R364
  world : Nat := 0                       -- R41
  depth : Nat := 0                       -- R41
  view : Nat := 0                        -- R274
  parent : Option Nat := none            -- R276: parked number of the forking crew
  fork : Option Fork := none             -- R288
  effects : List Effect := []            -- R282
  preempt : Option Preempt := none       -- R338
  ending : Option (BitVec 8 × BitVec 8) := none  -- status and cause of a world about to end (R282 to R286)
  score : Word := 0                      -- R285
  away : List (Nat × Addr) := []         -- R333: engine operations that hold on an absent page, by number, and the page
deriving DecidableEq, Repr

/-- What the crew that ended last on a core leaves in its slot: scratchpad, full/empty bits, barriers and the flags of its
squads, until a crew starts or resumes there (R417, R425). -/
structure Left where
  launch : Nat
  scratch : Mem
  full : BitVec 4096
  barriers : List Barrier
  flags : List (Word × Word)             -- %flags and %tflags of each squad
deriving DecidableEq, Repr

/-- Why a crew is parked: saved by a pre-emption (R339) or suspended in wfork (R280). -/
inductive Parking where
  | saved | suspended
deriving DecidableEq, Repr

structure Parked where
  id : Nat                               -- this model's own name for it
  crew : Crew
  core : Nat                             -- the core it left
  bound : Bool                           -- R355: bound to that core
  why : Parking
  ready : Bool := false                  -- R280: every world has ended; waits for its core
  readyAt : Nat := 0                     -- R365: %clock from which it has been ready
  since : Nat := 0                       -- %clock when parked (R355, R358)
deriving DecidableEq, Repr

/-! ## Cores, slices and memory bookkeeping -/

/-- A TLB entry (R323). -/
structure TlbEntry where
  ctx : Nat
  shift : Nat
  vpn : Nat
  frame : Nat                            -- physical page base
  w : Bool
  x : Bool
  k : Bool
deriving DecidableEq, Repr

/-- A line copy in an L1 (R307). -/
structure L1Line where
  line : Nat
  view : Nat
  wts : Nat
  rts : Nat
  data : Mem
deriving DecidableEq, Repr

/-- A line of the read-only cache (R300). -/
structure RoLine where
  line : Nat
  view : Nat
  data : Mem
deriving DecidableEq, Repr

/-- A control packet at a core's interface (R389). -/
inductive CtlMsg where
  | leaseBreak (line view : Nat)         -- R308
  | viewRetag (line view : Nat)          -- R315
  | shootdown (ctx : Option Nat) (va : Option Addr)  -- R177
  | closeRequest (slot gang : Nat)       -- R391: the gang's slot and name
  | calmSweep (launch : Nat)             -- R361
deriving DecidableEq, Repr

/-- One ordered-add contribution (R194, R195). -/
structure Contribution where
  launch : Nat
  view : Nat
  pa : Nat
  wide : Bool
  value : Addr
  key : List Nat                         -- the seven parts
  core : Nat                             -- issuing core and squad, for the flags
  squad : Nat
  tangent : Bool
  gang : Option Nat := none              -- the name of the gang that made it
deriving DecidableEq, Repr

/-- One write of a side-log entry, at a virtual address (R334). -/
inductive SideItem where
  | bytes (va : Addr) (bs : List Byte)
  | nibble (va : Addr) (high : Bool) (v : BitVec 4)
  | rmw (va : Addr) (fn : AtomFn) (wide : Bool) (v : Addr) (tangent : Bool)
  | ordered (va : Addr) (c : Contribution)
deriving DecidableEq, Repr

structure SideEntry where
  launch : Nat
  ctx : Nat
  page : Addr
  shift : Nat                            -- of the page's size
  view : Nat
  time : Nat
  before : List Nat := []                -- its times before commits brought it into this view, the latest first (R290)
  core : Nat
  squad : Nat
  gang : Nat := 0                        -- the name of the gang that made it
  items : List SideItem
deriving DecidableEq, Repr

/-- A fabric packet's header (R382). -/
structure FabPacket where
  cls : BitVec 2
  laps : BitVec 3 := 0
  age : BitVec 7 := 0
  phase : BitVec 2 := 0
  flit : Bool := false
  dst : BitVec 8
  src : BitVec 8
  view : BitVec 6 := 0
  kind : BitVec 6 := 0
  core : BitVec 3 := 0
  tag : BitVec 13 := 0
  addr : Addr := 0
  data : List Byte := []                 -- the flit's 128 bytes
  port : Option Nat := none              -- R393: the span port it leaves by; at bridge 3 of die 0, none is the host link
  since : Nat := 0                       -- this model's own: %clock from which its AGE counts on
  promoted : Option Nat := none          -- %clock when AGE reached 64 (R384)
  passed : Option Nat := none            -- this model's own: %clock when it last passed its destination (R385)
deriving DecidableEq, Repr

/-- Per-core hardware that outlives a crew. -/
structure Core where
  tlb : List TlbEntry := []              -- R323
  l1 : List L1Line := []                 -- R307
  ro : List RoLine := []                 -- R300
  ctl : List CtlMsg := []                -- R389
  ctlAt : Option Nat := none             -- R389: %clock when it last acted on a control packet
  reserved : List (BitVec 13) := []      -- R389: reply entries in use, by the request's TAG
  tag : BitVec 13 := 0                   -- the next request's TAG (R382)
  outbox : List FabPacket := []          -- R389: requests that wait for a reply entry
  sideLog : List SideEntry := []         -- R334
  mcheck : Word := 0                     -- R179
  corrected : Nat := 0                   -- R405: corrected soft errors since reset
  gens : List (BitVec 12) := []          -- R31, R257: generations of q0..q7 and the task queue
  left : Option Left := none             -- R417, R425
deriving DecidableEq, Repr

/-- A line's timestamps in one view at its home slice (R307). -/
structure LineTime where
  wts : Nat := 0
  rts : Nat := 0
deriving DecidableEq, Repr

/-- A view tag that is busy (R274, R275). -/
structure View where
  parent : Nat
  bytes : Map Byte := []                 -- written bytes by physical address, a written 0 listed too
  state : BitVec 2 := 0                  -- 0 live, 1 committed and merging, 2 discarded
  time : Nat := 0                        -- T_c of a commit (R315)
deriving DecidableEq, Repr

/-- A context's heap window (R320). -/
structure Ctx where
  base : Addr := 0
  lim : Addr := 0
  off : Addr := 0
deriving DecidableEq, Repr

/-- An entry of a close table (R391). -/
structure CloseEntry where
  dest : Nat                             -- slice (domain × 16 + slice), or 128 + core for a scratchpad port
  gang : Nat                             -- the source gang's name
  phase : BitVec 2
  count : Nat := 0
  close : Option Nat := none             -- the number a close carries
  fence : Bool := false                  -- a fence waits for the completion
deriving DecidableEq, Repr

/-- A request waiting at a slice's ejection buffer (R390). -/
inductive SliceReq where
  | load (core slot line view pts : Nat)
  | write (core copy view pts : Nat) (bytes : List (Nat × Byte))   -- of an engine's operation number
deriving DecidableEq, Repr

/-- A reply on its way to a core (R307, R309). -/
inductive SliceReply where
  | line (core slot line view wts rts : Nat) (data : Mem)
  | ack (core copy wts : Nat)
deriving DecidableEq, Repr

/-- The memory-side slices' request handling (R390). -/
structure Slices where
  requests : List SliceReq := []
  missing : List SliceReq := []          -- waiting in miss entries for HBM
  resident : List Nat := []              -- lines a miss fill has brought in
  replies : List SliceReply := []
  closes : List CloseEntry := []         -- R391
  stalled : List CloseEntry := []        -- R391: writes that stay in the ejection buffer of a full table
  closing : List CloseEntry := []        -- closes on their way
  completions : List CloseEntry := []    -- close completions on their way
  corrected : Map Nat := []              -- R316: per slice
deriving DecidableEq, Repr

/-! ## Launches and the control plane -/

/-- A launch record's fields (R345). -/
structure Record where
  entry : Addr := 0
  arg : Addr := 0
  handler : Addr := 0
  htab : Addr := 0
  doneAt : Addr := 0
  dep : List Addr := []
  ltag : Word := 0
  spanw : Nat := 0
  ctx : Nat := 0
  crews : Nat := 0
  gangs : Nat := 0
  wreg : Nat := 0
  scratch : Nat := 0
  flags : BitVec 16 := 0
  tang : Nat := 0
  level : Nat := 0
  sto : Nat := 0
  qback : Nat := 0
  taskb : Nat := 0
  listb : Nat := 0
  ctl : BitVec 64 := 0
  tanstride : Addr := 0
  rent : List Addr := []
  rcnt : List Nat := []
  rq : Nat := 0
  low : Nat := 0
  high : Nat := 0
  dwell : Nat := 0
deriving DecidableEq, Repr

/-- Where a launch stands (R352 to R356). -/
inductive LaunchSt where
  | running | preempted | ending
deriving DecidableEq, Repr

/-- A page that was absent when a launch started, with what it held when it was resumed (R77). -/
structure LatePage where
  page : Addr
  shift : Nat
  frame : Nat
  code : Mem                             -- by physical address
deriving DecidableEq, Repr

structure Launch where
  num : Nat
  queue : Nat
  rcd : Record
  features : BitVec 128                  -- R398: the accepted set in force when it passed its checks
  st : LaunchSt := .running
  outcome : BitVec 8 := 0                -- R357
  cores : List Nat := []                 -- cores of its depth-0 crews in index order
  code : Mem := []                       -- R77: memory as it stood when the launch started, its page tables with it
  heap : Ctx := {}                       -- R77: its context's heap window then
  late : List LatePage := []             -- R77
  started : Nat := 0
  preemptedAt : Nat := 0                 -- R355
  by_ : Option Nat := none               -- R354: the launch whose priority pre-emption saved it
  lists : Map (List Word) := []          -- R270, R360
  sent : Nat := 0                        -- R361
  accepted : Nat := 0
  sweep : Option (Nat × Nat × Nat) := none  -- clock, sent and accepted at the first matching sweep
  polled : Option (List Nat) := none     -- R361, R389: of a sweep under way, the cores that have yet to answer
  cause : BitVec 8 := 0                  -- R401: fatal or first discarded cause
  fatalPc : Addr := 0
  fatalCore : Nat := 0
  fatalAddr : Addr := 0                  -- R331: the virtual address of a structure fault
  ndisc : Nat := 0                       -- R158
  doneSent : Bool := false               -- R356, R406: DONE has been signalled, or can no longer be
  doneBad : Bool := false                -- R356: DONE could no longer be signalled
deriving DecidableEq, Repr

/-- A record taken from the head of a launch queue and not yet placed (R349 to R351). -/
structure Head where
  launch : Launch
  checked : Bool := false                -- R349: it has passed its checks
  depsMet : Bool := false
  since : Nat := 0                       -- %clock of eligibility
  away : List Addr := []                 -- R349: pages that its checks wait for
deriving DecidableEq, Repr

/-- A launch queue's registers (R397) and head. -/
structure LaunchQueue where
  ring : Addr := 0
  size : Addr := 0
  tail : Addr := 0
  head : Addr := 0
  current : Option Head := none
deriving DecidableEq, Repr

/-- The read-write registers of the register window outside the launch queues (R397). -/
structure Window where
  featacc : BitVec 128 := 0
  ptrbase : Addr := 0
  ptrsize : Addr := 0
  pgctx : Addr := 0
  vpool : Addr := 0
  vpsize : Addr := 0
  ordpool : Addr := 0
  ordsize : Addr := 0
  hwbase : Addr := 0
  hwsize : Addr := 0
  spanrt : Addr := 0
  spanmap : Addr := 0
  dlbase : Addr := 0
  repbase : Addr := 0
  repsize : Addr := 0
  reptail : Addr := 0
  rephead : Addr := 0
deriving DecidableEq, Repr

/-- A report (R401). -/
structure Report where
  type : BitVec 8
  code : BitVec 8 := 0
  ctx : Nat := 0
  launch : Nat := 0
  ltag : Word := 0
  cause : BitVec 8 := 0
  ndisc : Nat := 0
  place : Nat := 0                       -- WHERE
  pc : Addr := 0
  addr : Addr := 0
deriving DecidableEq, Repr

/-- An address that the control plane or a record's enqueueing waits for until its page is resumed (R333, R336, R350). -/
structure Await where
  ctx : Nat
  addr : Addr
  page : Addr
deriving DecidableEq, Repr

/-- A fault record of a context's fault queue (R333). -/
structure FaultRec where
  va : Addr
  launch : Nat
  ctx : Nat
  kind : Nat
  core : Nat
  span : Nat
  place : Nat                            -- in the queue (this model's own, log 33)
deriving DecidableEq, Repr

/-- A queue packet in flight (R262). -/
inductive Packet where
  | entry (handle : Addr) (words : List Word) (core slot : Nat) (group : BitVec 64) (try_ : Option (PReg × BitVec 64))
      -- the sending group, and of a try its predicate and acting lanes
  | task (handle : Addr) (record : List Byte) (core slot : Nat) (group : BitVec 64) (dest : List Nat)
  | succ (addr : Addr) (core view launch : Nat)  -- R243: a successor record yet to be enqueued
deriving DecidableEq, Repr

/-! ## Fabric and links -/

/-- A fabric stop (R384 to R387). -/
structure Stop where
  queues : Map (List FabPacket) := []    -- by loop × 4 + class
  credits : Map (List Nat) := []         -- by loop: cr of CTL, RSP, REQ, BLK in ring order; unlisted is the default weights
  pointer : Map Nat := []                -- by loop: place of p in ring order; unlisted is CTL
  eject : Map (List FabPacket) := []     -- by class
  sump : Map FabPacket := []             -- by class
  diverted : Map Nat := []               -- by class, saturating 32-bit
  acted : Map Nat := []                  -- this model's own: by loop, 1 + %clock when it last injected there
  served : Nat := 0                      -- this model's own: 1 + %clock when it last took a packet
  sinceBlk : Nat := 0                    -- R390: packets taken since the last BLK while one waits
deriving DecidableEq, Repr

structure Fabric where
  stops : Map Stop := []                 -- by stop identifier (R378)
  slots : Map FabPacket := []            -- by (die × 38 + loop) × 128 + slot of the loop
deriving DecidableEq, Repr

/-- A span-link port (R392). -/
structure Port where
  down : Bool := false
  fails : Map Nat := []                  -- by sequence number: times in a row that a frame has failed
  seq : Nat := 0                         -- next sequence number to deliver
  waiting : List (Nat × FabPacket) := []  -- good frames ahead of their turn
  resend : Nat := 0                      -- re-requests sent
  out : Map (List FabPacket) := []       -- by class: packets that wait to be sent
  used : Map Nat := []                   -- by class: credits in use
  sent : Nat := 0                        -- frames sent: the next one's sequence number
deriving DecidableEq, Repr

/-- The kinds of agreement over the canonical tree (R394). -/
inductive Agreement where
  | superstep | round | calm | ending
deriving DecidableEq, Repr

/-- The state of one canonical-tree agreement (R394). -/
structure Tree where
  own : Option Nat := none               -- the package's own value, once it has one
  values : Map Nat := []                 -- value received from each child, and the outcome received from the parent
  forwarded : Option Nat := none         -- result sent to the parent, or the outcome at rank 0
deriving DecidableEq, Repr

/-- A message of the tree that has been sent over the span links. -/
structure TreeMsg where
  rank : Nat
  launch : Nat
  kind : Agreement
  value : Nat
deriving DecidableEq, Repr

structure Span where
  rank : Word := 0                       -- %span
  ports : Map Port := []
  gale : Nat := 0                        -- R395: frames sent on the host link
  trees : Map Tree := []                 -- by launch number × 4 + the agreement's kind
  out : List TreeMsg := []               -- R394: messages sent
deriving DecidableEq, Repr

/-! ## Management -/

/-- A quote (R404): the log, m, the FEATACC value captured, the nonce and the signature. -/
structure Quote where
  log : List (List Byte)
  measure : List Byte
  featacc : BitVec 128
  nonce : List Byte
  signature : List Byte
deriving DecidableEq, Repr

/-- The management controller's state (R404 to R406). -/
structure Mgmt where
  ageing : Nat := 4096
  doldrums : Nat := 2 ^ 26
  weights : List Nat := [8, 4, 4, 1]     -- CTL, RSP, REQ, BLK
  debugHalt : Nat := 0
  power : Nat := 3600
  writes : List (Nat × Setting) := []    -- settings written and the %clock value at which each applies
  clockMhz : Nat := 2500                 -- R406
  temps : List Nat := [0, 0, 0, 0]       -- R405, R406: degrees Celsius of each die, as last measured
  watts : Nat := 0                       -- R405, R406: power of the module, as last measured
  coolFrom : Option Nat := none          -- R406: %clock from which power and heat have stayed within their limits
  hot : Option Nat := none               -- R406: die of a thermal stop
  droppedReports : Nat := 0              -- R405
  deadLetters : Nat := 0                 -- R262, R405
  poisonLog : List Nat := []             -- R317: lines poisoned with no reader
  log : List (List Byte) := []           -- R404: the measurement log
  measure : List Byte := []              -- R404: m
  quotes : List Quote := []              -- R404: the quotes made
deriving DecidableEq, Repr

/-- What a doldrums report names that its 32 bytes have no place for (R363, R401; log 131). -/
structure DoldrumsNote where
  launch : Nat
  core : Nat
  squad : Nat
  slot : Nat
  code : BitVec 8
  pcs : List Addr                        -- of each live group
deriving DecidableEq, Repr

/-- What a pre-emption overdue report names that its 32 bytes have no place for (R342, R401; log 131). -/
structure OverdueNote where
  launch : Nat
  core : Nat
  code : BitVec 8
  gangs : List (Nat × List Addr)         -- each gang slot, and the PC of each of its groups not yet stopped
deriving DecidableEq, Repr

/-- Power, boot status, flash and reports. -/
structure Device where
  powered : Bool := true
  bootst : Word := 0                     -- R403
  flash : List Byte := []                -- R403
  reports : List Report := []            -- R401: held by the control plane
  doldrums : List DoldrumsNote := []     -- R363
  overdue : List OverdueNote := []       -- R342
  msix : Nat := 0                        -- R401: MSI-X vector 0 messages raised
  dead : List (Nat × List Byte) := []    -- R262: dead-letter areas
  deadAt : Nat := 0                      -- this model's own: bytes put into the dead-letter ring so far (log 133)
deriving DecidableEq, Repr

/-! ## The machine -/

/-- Which group issues in this step (R142, R362); this model's own. -/
structure Issue where
  core : Nat
  slot : Nat
  mask : BitVec 64
  pc : Addr
  ready : BitVec 64 := 0                 -- the lanes of its gang that are ready in this cycle (R161)
deriving DecidableEq, Repr

/-- What the next steps do where the agenda is not empty; this model's own (log 5). -/
inductive Mover where
  | issue (core slot : Nat)              -- issue a group of that gang
  | event (e : Instr)                    -- an event of the opcode table
  | wait (cycles : Nat)                  -- let %clock advance
deriving DecidableEq, Repr

structure State where
  clock : Addr := 0                      -- %clock (R40)
  agenda : List Mover := []              -- this model's own
  turn : Nat := 0                        -- this model's own: fairness between movers
  drawn : Nat := 0                       -- this model's own: free values drawn so far
  issue : Option Issue := none           -- this model's own
  mem : Mem := []                        -- device memory by physical address (R298)
  host : Mem := []                       -- host memory by bus address (R181, R395)
  poison : List Nat := []                -- poisoned lines, as line × 64 + the view whose copy it is (R315, R317)
  lines : Map LineTime := []             -- line × 64 + view (R307)
  ltime : Nat := 0                       -- this model's own: the largest logical time assigned
  views : Map View := []                 -- R275
  ctxs : Map Ctx := []                   -- R320, R321
  cores : Map Core := []                 -- by core number domain × 64 + cluster × 8 + crew
  crews : Map Crew := []                 -- running crews by core
  parked : List Parked := []             -- R280, R339
  parkCount : Nat := 0                   -- this model's own: names for parked crews
  l2tlb : Map (List TlbEntry) := []      -- by domain × 8 + cluster (R323)
  slices : Slices := {}
  savedLog : List SideEntry := []        -- R339: side-log entries of saved crews, in their contexts' fault areas
  ordered : List Contribution := []      -- R195
  engineOps : Nat := 0                   -- this model's own: engine operations numbered so far
  gangsMade : Nat := 0                   -- this model's own: gangs named so far
  written : Map Nat := []                -- this model's own: the largest logical time of a write by each squad, at
                                         -- core × 8 + squad, and by each core's engines, at core × 8 + 4 (R314)
  packets : List Packet := []            -- R262
  faults : Map (List FaultRec) := []     -- fault queues by context (R333)
  waiting : List Await := []             -- R333
  launches : List Launch := []           -- launches placed, saved or ending
  nextLaunch : Nat := 1                  -- R319
  queues : List LaunchQueue := []        -- the 16 launch queues (R348)
  window : Window := {}
  device : Device := {}
  mgmt : Mgmt := {}
  fabric : Fabric := {}
  span : Span := {}
  taskBase : Addr := 0                   -- this model's own: where task record copies lie (log 20)
  taskCount : Nat := 0                   -- this model's own: task record copies made
deriving DecidableEq, Repr

/-- Every fault of a run. -/
inductive Fault where
  /-- Raised by orderedAddContribution alone: the address that arrives with the contribution lies outside device memory,
  where no unit's own contribution can lie (R182, R298); safe: the run stops. -/
  | outsideMemory (pa : Nat)
deriving DecidableEq, Repr

/-- Every refusal of a run. -/
inductive Refusal where
  /-- An arm of exec that has no meaning yet; safe. -/
  | notModelled (mnemonic : String)
deriving DecidableEq, Repr

/-- The machine right after device reset: the ROM has not yet run (R403), no launch is placed, and every register that
a crew owns comes into being with its crew (R346). -/
def State.reset : State :=
  { queues := List.replicate 16 {}, mgmt := { measure := List.replicate 64 0 }, taskBase := 0x80000000000000 }

end Sys2Proof.Machine
end

