-- ==== Sys2Proof/WellFormed.lean ====
section
/-! DEFINITION. The static checks of R101 on a decoded unit: whether the instruction accepts the words that stand before
it (R90, and the Prefixes columns of R92 to R99), and whether its operand fields hold values that its own rule
accepts (R20, R79, R81 and the instruction chapters). -/

namespace Sys2Proof

/-- Why a word or a sequence of words is no instruction (R101). -/
inductive Reject where
  | noWord                      -- nothing to decode: the first word cannot be fetched
  | major                       -- an unassigned major opcode
  | code                        -- an unassigned function, type, mode, kind, condition or format code
  | reserved                    -- a nonzero reserved field of an instruction word
  | operand                     -- a register field out of range, a misaligned pair or group, an operand code out of range
  | modKind (kind : BitVec 4)   -- a MOD word of an unassigned kind
  | field (kind : BitVec 4)     -- GUARD, DUAL or SAFE with a bad field
  | refused (kind : BitVec 4)   -- before an instruction that does not accept it
  | order (kind : BitVec 4)     -- a second one of its kind, or out of order
  | alone (kind : BitVec 4)     -- nothing fetchable follows; the kind of the first
deriving DecidableEq, Repr

/-- DETAIL of the illegal-instruction trap (R43, R101). -/
def Reject.detail : Reject → BitVec 8
  | .noWord | .major | .code | .reserved | .operand => 0
  | .modKind k | .field k | .refused k | .order k | .alone k => k.setWidth 8

namespace WellFormed

/-- Every register of the list is even where the operands are pairs (R20). -/
def even (wide : Bool) (rs : List Reg) : Bool := !wide || rs.all (fun r => r.toNat % 2 == 0)

/-- The first register of a group of n is a multiple of n (R20, R93, R99). -/
def multiple (n : Nat) (r : Reg) : Bool := r.toNat % n == 0

def oneOf {α : Type} [DecidableEq α] (t : α) (ts : List α) : Bool := decide (t ∈ ts)

/-- The 36-bit immediate of a 32-bit operation: bits 35..32 are 0b0000, or 0b1111 with bit 31 set (R85). -/
def imm32 (x : Pfx) : Bool :=
  match x.ext with
  | none => true
  | some e =>
    let hi := e.extractLsb' 21 4
    decide (hi = 0) || (decide (hi = 15) && e.getLsbD 20)

/-- The control immediate of mma and mma.c (R98): reserved bits, KC and the span of the tile count. -/
def mmaControl (x : Pfx) (t : TileNo) : Bool :=
  decide (x.x.extractLsb' 13 12 = 0) && decide (x.x.extractLsb' 4 2 ≠ 3) &&
  (decide (x.x.extractLsb' 8 5 = 0) || decide (t.toNat + (x.x.extractLsb' 8 5).toNat ≤ 24))

/-- The control immediate of cpy (R98) with an assigned chain code (R251). -/
def cpyControl (x : Pfx) : Bool := decide (x.x.extractLsb' 4 21 = 0)

/-- The control immediate of cpym (R98, R251). -/
def cpymControl (x : Pfx) : Bool := decide (x.x.extractLsb' 11 14 = 0) && decide (x.x.extractLsb' 4 2 = 0)

/-- The special-register numbers with a word of their own (R33). -/
def assigned (n : Nat) : Bool :=
  decide (n ≤ 5) || (decide (8 ≤ n) && decide (n ≤ 0x0e)) || (decide (0x10 ≤ n) && decide (n ≤ 0x14)) ||
  (decide (0x16 ≤ n) && decide (n ≤ 0x1c)) || (decide (0x1e ≤ n) && decide (n ≤ 0x22)) ||
  (decide (0x24 ≤ n) && decide (n ≤ 0x29))

/-- Even numbers n at which n and n + 1 are words of one register (R33). -/
def pairStart (n : Nat) : Bool := oneOf n [0x00, 0x10, 0x16, 0x18, 0x1a, 0x1e, 0x20, 0x24, 0x26, 0x28]

/-- The read-only registers (R33). -/
def readOnly (n : Nat) : Bool :=
  (decide (8 ≤ n) && decide (n ≤ 0x14)) || decide (n = 0x22)

def readable (w : Bool) (n : Nat) : Bool := if w then pairStart n else assigned n
def writable (w : Bool) (n : Nat) : Bool := readable w n && !(readOnly n)

end WellFormed

open WellFormed

/-- The words that stand before an instruction, or none for an event. -/
def Instr.pfx? : Instr → Option Pfx
  | .add x _ _ _ _ => some x
  | .sub x _ _ _ _ => some x
  | .mul x _ _ _ _ => some x
  | .mulh x _ _ _ _ => some x
  | .mad x _ _ _ _ => some x
  | .min x _ _ _ _ => some x
  | .max x _ _ _ _ => some x
  | .shl x _ _ _ _ => some x
  | .shr x _ _ _ _ => some x
  | .sar x _ _ _ _ => some x
  | .and x _ _ _ _ => some x
  | .or x _ _ _ _ => some x
  | .xor x _ _ _ _ => some x
  | .andn x _ _ _ _ => some x
  | .abs x _ _ _ => some x
  | .neg x _ _ _ => some x
  | .clz x _ _ _ => some x
  | .popc x _ _ _ => some x
  | .brev x _ _ _ => some x
  | .mov x _ _ _ => some x
  | .bfx x _ _ _ _ => some x
  | .bfi x _ _ _ => some x
  | .prmt x _ _ _ => some x
  | .sel x _ _ _ _ => some x
  | .cmp x _ _ _ _ _ => some x
  | .addi x _ _ _ => some x
  | .muli x _ _ _ => some x
  | .shli x _ _ _ => some x
  | .shri x _ _ _ => some x
  | .sari x _ _ _ => some x
  | .andi x _ _ _ => some x
  | .ori x _ _ _ => some x
  | .xori x _ _ _ => some x
  | .andni x _ _ _ => some x
  | .cmpiI32 x _ _ _ _ => some x
  | .cmpiN32 x _ _ _ _ => some x
  | .movi x _ _ => some x
  | .lui x _ _ => some x
  | .lea x _ _ _ => some x
  | .shfl x _ _ _ _ => some x
  | .shflReg x _ _ _ _ => some x
  | .ballot x _ _ _ => some x
  | .voteAny x _ _ _ => some x
  | .voteAll x _ _ _ => some x
  | .voteUni x _ _ _ => some x
  | .fadd x _ _ _ _ => some x
  | .fsub x _ _ _ _ => some x
  | .fmul x _ _ _ _ => some x
  | .ffma x _ _ _ _ => some x
  | .fmin x _ _ _ _ => some x
  | .fmax x _ _ _ _ => some x
  | .fdiv x _ _ _ _ => some x
  | .fdot2 x _ _ _ _ => some x
  | .fcmp x _ _ _ _ _ => some x
  | .fneg x _ _ _ => some x
  | .fabs x _ _ _ => some x
  | .fsqrt x _ _ _ => some x
  | .frcp x _ _ _ => some x
  | .frsq x _ _ _ => some x
  | .fclass x _ _ _ => some x
  | .fscale x _ _ _ _ => some x
  | .cvt x _ _ _ _ _ => some x
  | .cvtSr x _ _ _ _ => some x
  | .cvtPack x _ _ _ _ => some x
  | .cvtPackSr x _ _ _ _ => some x
  | .cvtUnpack x _ _ _ => some x
  | .fexp2 x _ _ => some x
  | .flog2 x _ _ => some x
  | .fsin x _ _ => some x
  | .fcos x _ _ => some x
  | .ftanh x _ _ => some x
  | .bra x _ _ _ => some x
  | .call x _ _ _ => some x
  | .brx x _ => some x
  | .ret x => some x
  | .nop x => some x
  | .exit x => some x
  | .yield x => some x
  | .sleep x _ => some x
  | .bkpt x => some x
  | .trap x => some x
  | .tret x => some x
  | .rpf x _ _ _ => some x
  | .wbase x _ _ => some x
  | .spawn x _ _ => some x
  | .pand x _ _ _ _ _ => some x
  | .por x _ _ _ _ _ => some x
  | .pxor x _ _ _ _ _ => some x
  | .pnot x _ _ _ => some x
  | .pset x _ _ => some x
  | .ld x _ _ _ _ => some x
  | .st x _ _ _ _ => some x
  | .ldFe x _ _ _ _ => some x
  | .stFill x _ _ _ _ => some x
  | .feClr x _ _ => some x
  | .atom32 x _ _ _ _ => some x
  | .atom64 x _ _ _ _ => some x
  | .red32 x _ _ _ => some x
  | .red64 x _ _ _ => some x
  | .fenceFull x _ _ => some x
  | .fenceAcq x _ _ => some x
  | .fenceRel x _ _ => some x
  | .barArrive x _ _ => some x
  | .barWait x _ _ => some x
  | .barSync x _ _ => some x
  | .barExpect x _ _ => some x
  | .sstep x => some x
  | .rclose x => some x
  | .prefL1 x _ => some x
  | .prefCc x _ => some x
  | .prefMs x _ => some x
  | .cctlWb x _ => some x
  | .cctlInv x _ => some x
  | .cctlRoinv x _ => some x
  | .lld x _ _ _ => some x
  | .lst x _ _ _ => some x
  | .lchain x _ _ _ => some x
  | .lpart x _ _ _ => some x
  | .ltrans x _ _ _ _ => some x
  | .lflat x _ _ _ => some x
  | .lswz x _ _ _ => some x
  | .lchk x _ _ _ => some x
  | .ltile x _ _ _ => some x
  | .stile x _ _ _ => some x
  | .mldb x _ _ _ _ => some x
  | .mma x _ _ _ _ => some x
  | .mmaC x _ _ _ _ => some x
  | .msca x _ _ _ _ => some x
  | .mzero x _ _ => some x
  | .mread x _ _ _ => some x
  | .mwrite x _ _ _ => some x
  | .mver x _ _ => some x
  | .mwait x _ _ => some x
  | .mstat x _ _ => some x
  | .cpyLoad x _ _ _ => some x
  | .cpyStore x _ _ _ => some x
  | .cpym x _ _ _ => some x
  | .cwait x _ _ => some x
  | .cstat x _ _ => some x
  | .qpop x _ _ => some x
  | .qpopTry x _ _ _ => some x
  | .qpush x _ _ => some x
  | .qpushTry x _ _ _ => some x
  | .qstat x _ _ => some x
  | .strm x _ _ => some x
  | .strmStop x => some x
  | .strmWait x => some x
  | .tspawn x _ _ _ => some x
  | .texit x => some x
  | .calmwait x => some x
  | .role x _ => some x
  | .rolewait x => some x
  | .append x _ _ => some x
  | .drain x _ _ _ => some x
  | .wfork x _ _ => some x
  | .wyield x _ => some x
  | .wabort x => some x
  | .wchoose x _ => some x
  | .wchooseNone x => some x
  | .wstatScore x _ _ => some x
  | .wstatStatus x _ _ => some x
  | .srd x _ _ _ => some x
  | .swr x _ _ _ => some x
  | .tlbinvPage x _ => some x
  | .tlbinvCtx x _ => some x
  | .tlbinvAll x => some x
  | .ctxq x _ => some x
  | .mcheck x _ => some x
  | .powerOn _ _ => none
  | .deviceReset => none
  | .compactorMerge _ _ => none
  | .spillRefill _ _ _ _ _ => none
  | .fetchAddressFault => none
  | .deferredTrapDelivery _ => none
  | .debugResume _ _ => none
  | .groupAged _ _ _ => none
  | .yieldTimeout _ _ _ => none
  | .sleepExpiry _ _ _ => none
  | .spawnBinTimeout _ _ _ => none
  | .spawnedGangStart _ _ => none
  | .crewEnd _ => none
  | .fenceComplete _ _ => none
  | .leaseBreak _ => none
  | .viewRetag _ => none
  | .tlbShootdown _ => none
  | .closeRequest _ => none
  | .phaseClose => none
  | .closeCompletion => none
  | .sliceLoad => none
  | .sliceWrite => none
  | .sliceMissFill => none
  | .loadReply => none
  | .writeAck => none
  | .patrolScrub _ _ => none
  | .orderedAddContribution _ _ _ _ _ _ _ _ => none
  | .roundClose _ _ => none
  | .superstepComplete _ => none
  | .treeAgreementMessage _ _ _ => none
  | .mldbComplete _ => none
  | .mmaComplete _ _ _ => none
  | .mmaCStepStart _ => none
  | .mscaComplete _ _ => none
  | .mzeroComplete _ => none
  | .mreadComplete _ _ => none
  | .mwriteComplete _ => none
  | .mstatComplete _ => none
  | .copyStart _ => none
  | .copyLineLand _ _ => none
  | .copyEnd _ _ => none
  | .queuePacketArrival => none
  | .streamIterationPoint _ => none
  | .taskRecordArrival => none
  | .taskGangStart _ => none
  | .calmSweep _ => none
  | .roleDwellExpiry _ => none
  | .forkStart _ => none
  | .worldEnd _ => none
  | .parentResume _ => none
  | .worldCommit _ => none
  | .viewBackgroundMerge _ => none
  | .pageWalk _ _ _ => none
  | .pageResume _ _ => none
  | .preemptionRequest _ => none
  | .crewSave _ => none
  | .crewResume _ => none
  | .preemptionOverdue _ => none
  | .launchQueuePost _ _ => none
  | .launchRecordTake _ => none
  | .dependencyCheck _ => none
  | .launchPlacement _ => none
  | .priorityPreemption _ => none
  | .launchEnd _ => none
  | .launchCancel _ => none
  | .doldrumsReport _ _ => none
  | .packetInject _ _ => none
  | .agePromotion _ _ => none
  | .packetEject _ _ => none
  | .sumpDiversion _ _ => none
  | .spanFrameReceive _ _ _ _ => none
  | .spanPortDown _ => none
  | .hostReadCompletion _ _ _ _ => none
  | .hostReadTimeout _ _ _ => none
  | .feataccWrite _ _ => none
  | .registerWindowWrite _ _ => none
  | .attestationQuote _ => none
  | .measurementLogExtend _ => none
  | .firmwareImageWrite _ => none
  | .managementWindowWrite _ => none
  | .managementSettingApply => none
  | .clockLower => none
  | .clockRaise => none
  | .thermalStop _ => none
  | .illegalInstruction _ => none
  | .powerOff => none
  | .preemptionCancel _ => none

/-- Whether EXT may stand before it (the X of R92 to R99). -/
def Instr.takesExt : Instr → Bool
  | .addi _ _ _ _ | .muli _ _ _ _ | .shli _ _ _ _ | .shri _ _ _ _ | .sari _ _ _ _ | .andi _ _ _ _ | .ori _ _ _ _ | .xori _ _ _ _ | .andni _ _ _ _ | .cmpiI32 _ _ _ _ _ | .cmpiN32 _ _ _ _ _ | .movi _ _ _ | .lea _ _ _ _ | .ld _ _ _ _ _ | .st _ _ _ _ _ | .ldFe _ _ _ _ _ | .stFill _ _ _ _ _ | .mma _ _ _ _ _ | .mmaC _ _ _ _ _ | .cpyLoad _ _ _ _ | .cpyStore _ _ _ _ | .cpym _ _ _ _ => true
  | _ => false

/-- Whether DUAL in this mode may stand before it (R292; the D of R93 to R97). -/
def Instr.takesDual (m : DualMode) : Instr → Bool
  | .fadd _ _ _ _ _ => true
  | .fsub _ _ _ _ _ => true
  | .fmul _ _ _ _ _ => true
  | .ffma _ _ _ _ _ => true
  | .fmin _ _ _ _ _ => true
  | .fmax _ _ _ _ _ => true
  | .fdiv _ _ _ _ _ => true
  | .fdot2 _ _ _ _ _ => true
  | .fneg _ _ _ _ => true
  | .fabs _ _ _ _ => true
  | .fsqrt _ _ _ _ => true
  | .frcp _ _ _ _ => true
  | .frsq _ _ _ _ => true
  | .fscale _ _ _ _ _ => true
  | .cvt _ _ _ _ _ _ => true
  | .cvtSr _ _ _ _ _ => true
  | .fexp2 _ _ _ => true
  | .flog2 _ _ _ => true
  | .fsin _ _ _ => true
  | .fcos _ _ _ => true
  | .ftanh _ _ _ => true
  | .ld _ _ _ k _ => k.tangents || oneOf m [.implicit, .zero, .none]
  | .st _ _ _ k _ => k.tangents || oneOf m [.implicit, .zero, .none]
  | .atom32 _ _ _ _ f => f.tangents && oneOf m [.implicit, .zero, .none]
  | .atom64 _ _ _ _ f => f.tangents && oneOf m [.implicit, .zero, .none]
  | .red32 _ _ _ f => f.tangents && oneOf m [.implicit, .zero, .none]
  | .red64 _ _ _ f => f.tangents && oneOf m [.implicit, .zero, .none]
  | .mma _ _ _ _ _ => true
  | .mmaC _ _ _ _ _ => true
  | _ => false

/-- Whether GUARD may stand before it: every instruction but the B forms (R90). -/
def Instr.takesGuard : Instr → Bool
  | .bra _ _ _ _ | .call _ _ _ _ => false
  | _ => true

/-- The fields of DUAL that R88 fixes: K and TREG are zero in a mode that does not use them. -/
def Dual.fieldsOk (u : Dual) : Bool :=
  match u.mode with
  | .seed => true
  | .get => decide (u.treg = 0)
  | .implicit | .zero | .none => decide (u.k = 0) && decide (u.treg = 0)

/-- Whether the register that DUAL seed names is a pair: the destination or data register of a 64-bit type (R293). -/
def Instr.dualWide : Instr → Bool
  | .fadd _ _ _ _ t | .fsub _ _ _ _ t | .fmul _ _ _ _ t | .ffma _ _ _ _ t | .fmin _ _ _ _ t | .fmax _ _ _ _ t
  | .fdiv _ _ _ _ t | .fscale _ _ _ _ t => t.wide
  | .fneg _ _ _ t | .fabs _ _ _ t | .fsqrt _ _ _ t | .frcp _ _ _ t | .frsq _ _ _ t => t.wide
  | .cvt _ _ _ _ _ c => c.wide
  | .ld _ _ _ k _ | .st _ _ _ k _ => k == .f64
  | _ => false

/-- The words before the instruction: their fields (R86, R88) and their acceptance (R90), with the kind at fault. R101 does
not say which row a unit wrong in two ways records; the order here, kind by kind, is the model's (log 14). -/
def unitFault (i : Instr) (x : Pfx) : Option Reject :=
  if x.ext.isSome && !i.takesExt then some (.refused 0)
  else if x.guard.isSome && !i.takesGuard then some (.refused 1)
  else if !(x.dual.all Dual.fieldsOk) then some (.field 2)
  else if !(x.dual.all (fun u => i.takesDual u.mode)) then some (.refused 2)
  else if i.dualWide && !(x.dual.all (fun u => u.treg.toNat % 2 == 0)) then some (.field 2)
  else if !(x.safe.all (fun n => decide (n.toNat ≤ 112))) then some (.field 3)
  else none

/-- The operand fields of the instruction word. -/
def operandsOk : Instr → Bool
  | .add _ d a b t => even t.wide [d, a, b]
  | .sub _ d a b t => even t.wide [d, a, b]
  | .mul _ d a b t => even t.wide [d, a, b]
  | .mulh _ d a b t => oneOf t [.i32, .n32, .i64, .n64] && even t.wide [d, a, b]
  | .mad _ d a b t => even t.wide [d, a, b]
  | .min _ d a b t => even t.wide [d, a, b]
  | .max _ d a b t => even t.wide [d, a, b]
  | .shl _ d a _ t => oneOf t [.n32, .n64] && even t.wide [d, a]
  | .shr _ d a _ t => oneOf t [.n32, .n64] && even t.wide [d, a]
  | .sar _ d a _ t => oneOf t [.i32, .i64] && even t.wide [d, a]
  | .and _ d a b w => even w [d, a, b]
  | .or _ d a b w => even w [d, a, b]
  | .xor _ d a b w => even w [d, a, b]
  | .andn _ d a b w => even w [d, a, b]
  | .abs _ d a w => even w [d, a]
  | .neg _ d a w => even w [d, a]
  | .clz _ _ a w => even w [a]
  | .popc _ _ a w => even w [a]
  | .brev _ d a w => even w [d, a]
  | .mov _ d a w => even w [d, a]
  | .bfx _ _ _ _ _ => true
  | .bfi _ _ _ _ => true
  | .prmt _ _ _ _ => true
  | .sel _ _ _ _ _ => true
  | .cmp _ _ _ a b t => even t.wide [a, b]
  | .addi x _ _ _ => imm32 x
  | .muli x _ _ _ => imm32 x
  | .shli x _ _ _ => imm32 x
  | .shri x _ _ _ => imm32 x
  | .sari x _ _ _ => imm32 x
  | .andi x _ _ _ => imm32 x
  | .ori x _ _ _ => imm32 x
  | .xori x _ _ _ => imm32 x
  | .andni x _ _ _ => imm32 x
  | .cmpiI32 x _ _ _ _ => imm32 x
  | .cmpiN32 x _ _ _ _ => imm32 x
  | .movi x _ _ => imm32 x
  | .lui _ _ _ => true
  | .lea _ d a _ => even true [d, a]
  | .shfl _ _ _ _ _ => true
  | .shflReg _ _ _ _ _ => true
  | .ballot _ d _ _ => even true [d]
  | .voteAny _ _ _ _ => true
  | .voteAll _ _ _ _ => true
  | .voteUni _ _ _ _ => true
  | .fadd _ d a b t => even t.wide [d, a, b]
  | .fsub _ d a b t => even t.wide [d, a, b]
  | .fmul _ d a b t => even t.wide [d, a, b]
  | .ffma _ d a b t => even t.wide [d, a, b]
  | .fmin _ d a b t => even t.wide [d, a, b]
  | .fmax _ d a b t => even t.wide [d, a, b]
  | .fdiv _ d a b t => even t.wide [d, a, b]
  | .fdot2 _ _ _ _ t => oneOf t [.f16x2, .bf16x2]
  | .fcmp _ _ _ a b t => oneOf t [.f32, .f64] && even t.wide [a, b]
  | .fneg _ d a t => even t.wide [d, a]
  | .fabs _ d a t => even t.wide [d, a]
  | .fsqrt _ d a t => even t.wide [d, a]
  | .frcp _ d a t => even t.wide [d, a]
  | .frsq _ d a t => even t.wide [d, a]
  | .fclass _ _ a t => even t.wide [a]
  | .fscale _ d a _ t => even t.wide [d, a]
  | .cvt _ d a _ s c => even c.wide [d] && even s.wide [a]
  | .cvtSr _ _ _ _ c => oneOf c [.f16, .bf16, .fp19]
  | .cvtPack _ _ a _ c => multiple c.count a
  | .cvtPackSr _ _ a _ c => multiple c.count a
  | .cvtUnpack _ d _ c => multiple c.count d
  | .fexp2 _ _ _ => true
  | .flog2 _ _ _ => true
  | .fsin _ _ _ => true
  | .fcos _ _ _ => true
  | .ftanh _ _ _ => true
  | .bra _ _ _ _ => true
  | .call _ _ _ _ => true
  | .brx _ a => even true [a]
  | .ret _ => true
  | .nop _ => true
  | .exit _ => true
  | .yield _ => true
  | .sleep _ _ => true
  | .bkpt _ => true
  | .trap _ => true
  | .tret _ => true
  | .rpf _ _ _ _ => true
  | .wbase _ _ _ => true
  | .spawn _ a _ => even true [a]
  | .pand _ _ _ _ _ _ => true
  | .por _ _ _ _ _ _ => true
  | .pxor _ _ _ _ _ _ => true
  | .pnot _ _ _ _ => true
  | .pset _ _ _ => true
  | .ld _ d a k _ => even true [a] && multiple k.regs d
  | .st _ d a k _ => even true [a] && multiple k.regs d
  | .ldFe _ d a k _ => even true [a] && multiple k.regs d
  | .stFill _ d a k _ => even true [a] && multiple k.regs d
  | .feClr _ a _ => even true [a]
  | .atom32 _ _ a _ _ => even true [a]
  | .atom64 _ d a b f => even true [d, a, b] && !(oneOf f [.faddF16, .faddBf16])
  | .red32 _ a _ f => even true [a] && !(oneOf f [.xchg, .cas])
  | .red64 _ a b f => even true [a, b] && !(oneOf f [.xchg, .cas, .faddF16, .faddBf16])
  | .fenceFull _ _ m => decide (m ≠ 0)
  | .fenceAcq _ _ m => decide (m ≠ 0)
  | .fenceRel _ _ m => decide (m ≠ 0)
  | .barArrive _ _ _ => true
  | .barWait _ _ _ => true
  | .barSync _ _ _ => true
  | .barExpect _ _ _ => true
  | .sstep _ => true
  | .rclose _ => true
  | .prefL1 _ a => even true [a]
  | .prefCc _ a => even true [a]
  | .prefMs _ a => even true [a]
  | .cctlWb _ a => even true [a]
  | .cctlInv _ a => even true [a]
  | .cctlRoinv _ a => even true [a]
  | .lld _ _ a _ => even true [a]
  | .lst _ _ a _ => even true [a]
  | .lchain _ _ _ _ => true
  | .lpart _ _ _ _ => true
  | .ltrans _ _ _ j i => decide (j.toNat < 6) && decide (i.toNat < 6)
  | .lflat _ _ _ m => decide (m.toNat < 6)
  | .lswz _ _ _ b => even true [b]
  | .lchk _ _ _ _ => true
  | .ltile _ _ a _ => even true [a]
  | .stile _ _ a _ => even true [a]
  | .mldb _ _ a _ _ => even true [a]
  | .mma x t a _ _ => decide (t.toNat < 24) && even true [a] && mmaControl x t
  | .mmaC x t a _ _ => decide (t.toNat < 24) && even true [a] && mmaControl x t
  | .msca _ t a _ _ => decide (t.toNat < 24) && even true [a]
  | .mzero _ t n => decide (t.toNat < 24) && decide (1 ≤ n.toNat) && decide (t.toNat + n.toNat ≤ 24)
  | .mread _ d _ e => even (oneOf e [.ae48]) [d]
  | .mwrite _ d _ e => even (oneOf e [.ae48]) [d]
  | .mver _ _ t => decide (t.toNat < 24)
  | .mwait _ t _ => decide (t.toNat < 24)
  | .mstat _ _ t => decide (t.toNat < 24)
  | .cpyLoad x d a b => multiple 8 d && even true [a, b] && cpyControl x
  | .cpyStore x d a b => multiple 8 d && even true [a, b] && cpyControl x
  | .cpym x d a b => multiple 8 d && even true [a, b] && cpymControl x
  | .cwait _ a _ => even true [a]
  | .cstat _ _ a => even true [a]
  | .qpop _ _ _ => true
  | .qpopTry _ _ _ _ => true
  | .qpush _ _ b => even true [b]
  | .qpushTry _ _ _ b => even true [b]
  | .qstat _ _ _ => true
  | .strm _ a b => even true [a, b]
  | .strmStop _ => true
  | .strmWait _ => true
  | .tspawn _ _ a b => even true [a, b]
  | .texit _ => true
  | .calmwait _ => true
  | .role _ _ => true
  | .rolewait _ => true
  | .append _ _ _ => true
  | .drain _ _ _ _ => true
  | .wfork _ _ n => decide (2 ≤ n.toNat) && decide (n.toNat ≤ 8)
  | .wyield _ _ => true
  | .wabort _ => true
  | .wchoose _ _ => true
  | .wchooseNone _ => true
  | .wstatScore _ _ _ => true
  | .wstatStatus _ _ _ => true
  | .srd _ d w n => even w [d] && readable w n.toNat
  | .swr _ a w n => even w [a] && writable w n.toNat
  | .tlbinvPage _ a => even true [a]
  | .tlbinvCtx _ _ => true
  | .tlbinvAll _ => true
  | .ctxq _ _ => true
  | .mcheck _ _ => true
  | .powerOn _ _ => true
  | .deviceReset => true
  | .compactorMerge _ _ => true
  | .spillRefill _ _ _ _ _ => true
  | .fetchAddressFault => true
  | .deferredTrapDelivery _ => true
  | .debugResume _ _ => true
  | .groupAged _ _ _ => true
  | .yieldTimeout _ _ _ => true
  | .sleepExpiry _ _ _ => true
  | .spawnBinTimeout _ _ _ => true
  | .spawnedGangStart _ _ => true
  | .crewEnd _ => true
  | .fenceComplete _ _ => true
  | .leaseBreak _ => true
  | .viewRetag _ => true
  | .tlbShootdown _ => true
  | .closeRequest _ => true
  | .phaseClose => true
  | .closeCompletion => true
  | .sliceLoad => true
  | .sliceWrite => true
  | .sliceMissFill => true
  | .loadReply => true
  | .writeAck => true
  | .patrolScrub _ _ => true
  | .orderedAddContribution _ _ _ _ _ _ _ _ => true
  | .roundClose _ _ => true
  | .superstepComplete _ => true
  | .treeAgreementMessage _ _ _ => true
  | .mldbComplete _ => true
  | .mmaComplete _ _ _ => true
  | .mmaCStepStart _ => true
  | .mscaComplete _ _ => true
  | .mzeroComplete _ => true
  | .mreadComplete _ _ => true
  | .mwriteComplete _ => true
  | .mstatComplete _ => true
  | .copyStart _ => true
  | .copyLineLand _ _ => true
  | .copyEnd _ _ => true
  | .queuePacketArrival => true
  | .streamIterationPoint _ => true
  | .taskRecordArrival => true
  | .taskGangStart _ => true
  | .calmSweep _ => true
  | .roleDwellExpiry _ => true
  | .forkStart _ => true
  | .worldEnd _ => true
  | .parentResume _ => true
  | .worldCommit _ => true
  | .viewBackgroundMerge _ => true
  | .pageWalk _ _ _ => true
  | .pageResume _ _ => true
  | .preemptionRequest _ => true
  | .crewSave _ => true
  | .crewResume _ => true
  | .preemptionOverdue _ => true
  | .launchQueuePost _ _ => true
  | .launchRecordTake _ => true
  | .dependencyCheck _ => true
  | .launchPlacement _ => true
  | .priorityPreemption _ => true
  | .launchEnd _ => true
  | .launchCancel _ => true
  | .doldrumsReport _ _ => true
  | .packetInject _ _ => true
  | .agePromotion _ _ => true
  | .packetEject _ _ => true
  | .sumpDiversion _ _ => true
  | .spanFrameReceive _ _ _ _ => true
  | .spanPortDown _ => true
  | .hostReadCompletion _ _ _ _ => true
  | .hostReadTimeout _ _ _ => true
  | .feataccWrite _ _ => true
  | .registerWindowWrite _ _ => true
  | .attestationQuote _ => true
  | .measurementLogExtend _ => true
  | .firmwareImageWrite _ => true
  | .managementWindowWrite _ => true
  | .managementSettingApply => true
  | .clockLower => true
  | .clockRaise => true
  | .thermalStop _ => true
  | .illegalInstruction _ => true
  | .powerOff => true
  | .preemptionCancel _ => true

/-- The first check of R101 that a unit fails, once its words have been read. -/
def illFormed (i : Instr) : Option Reject :=
  match i.pfx? with
  | none => none
  | some x => if operandsOk i then unitFault i x else some .operand

/-- A unit that R101 accepts (the feature classes of R103 apart, which are state), or an event. -/
def WellFormed (i : Instr) : Prop := illFormed i = none

end Sys2Proof
end

