-- ==== Sys2Proof/Machine/Ops.lean ====
section
/-! DEFINITION. The named operations over gangs and registers: reading and writing registers through the window (R17 to
R20), their compressed storage (R21 to R26), flags (R37), taking a trap and returning from one (R167 to R170), and the
checks and the completion that every unit shares (R102). -/

namespace Sys2Proof.Machine

/-! ## Lanes -/

/-- The lanes of a mask, ascending. -/
def lanesOf (m : BitVec 64) : List Nat := (List.range 64).filter (fun i => m.getLsbD i)

/-- The mask of the lanes that satisfy p. -/
def maskWhere (p : Nat → Bool) : BitVec 64 := BitVec.ofBoolListLE ((List.range 64).map p)

/-! ## Crews, gangs and launches -/

def State.crewAt (s : State) (core : Nat) : Option Crew := s.crews.find core
def State.gangAt (s : State) (core slot : Nat) : Option Gang := (s.crewAt core).bind (fun c => c.gangs.find slot)
def State.launchOf (s : State) (n : Nat) : Option Launch := s.launches.find? (fun l => l.num == n)
def State.coreAt (s : State) (core : Nat) : Core := s.cores.get {} core

def State.setCrew (s : State) (core : Nat) (c : Crew) : State := { s with crews := s.crews.put core c }
def State.modCrew (s : State) (core : Nat) (f : Crew → Crew) : State := { s with crews := s.crews.modify core f }
def State.setCore (s : State) (core : Nat) (c : Core) : State := { s with cores := s.cores.put core c }
def State.modCore (s : State) (core : Nat) (f : Core → Core) : State := s.setCore core (f (s.coreAt core))
def Crew.setGang (c : Crew) (slot : Nat) (g : Gang) : Crew := { c with gangs := c.gangs.put slot g }
def Crew.modGang (c : Crew) (slot : Nat) (f : Gang → Gang) : Crew := { c with gangs := c.gangs.modify slot f }
def State.setGang (s : State) (core slot : Nat) (g : Gang) : State := s.modCrew core (fun c => c.setGang slot g)
def State.modGang (s : State) (core slot : Nat) (f : Gang → Gang) : State := s.modCrew core (fun c => c.modGang slot f)
def State.modLaunch (s : State) (n : Nat) (f : Launch → Launch) : State :=
  { s with launches := s.launches.map (fun l => if l.num == n then f l else l) }

/-- %squad and %gang of a slot number (R219, R346). -/
def squadOf (slot : Nat) : Nat := slot % 4
def gangRank (slot : Nat) : Nat := slot / 4

def Crew.squad (c : Crew) (i : Nat) : Squad := c.squads.getD i {}
def Crew.setSquad (c : Crew) (i : Nat) (q : Squad) : Crew :=
  { c with squads := (List.range (max 4 c.squads.length)).map (fun k => if k = i then q else c.squad k) }
def Crew.modSquad (c : Crew) (i : Nat) (f : Squad → Squad) : Crew := c.setSquad i (f (c.squad i))

/-- Where a gang runs, by the name no other gang has. -/
def State.findGang (s : State) (id : Nat) : Option (Nat × Nat) :=
  s.crews.findSome? (fun e => (e.2.gangs.find? (fun g => g.2.id == id)).map (fun g => (e.1, g.1)))

/-! ## Fibres -/

def Gang.fibre (g : Gang) (lane : Nat) : Fibre := g.fibres.getD lane {}

/-- Change the fibres of the lanes in a mask. -/
def Gang.modLanes (g : Gang) (m : BitVec 64) (f : Nat → Fibre → Fibre) : Gang :=
  { g with fibres := g.fibres.mapIdx (fun i x => if m.getLsbD i then f i x else x) }

/-- Apply f to every fibre, and to what a rollback would restore: an event that completes a unit issued before a fence
is not undone (R202). -/
def Gang.mapFibres (g : Gang) (f : Nat → Fibre → Fibre) : Gang :=
  { g with
    fibres := g.fibres.mapIdx f
    fence := g.fence.map (fun n => { n with back := { n.back with fibres := n.back.fibres.mapIdx f } }) }

/-- The live lanes. -/
def Gang.liveMask (g : Gang) : BitVec 64 := maskWhere (fun i => (g.fibre i).live)

/-! ## General registers and tangent shadows -/

/-- Place of a register in a fibre's register space: anchors 0..15, then the windowed physical registers (R17). -/
def physIndex (wbase n : Nat) : Nat := if n < 16 then n else wbase + n

/-- Storage key: tangent plane 0 is the primal, plane k + 1 holds shadow k (R32). -/
def regKey (plane index lane : Nat) : Nat := (plane * 1024 + index) * 64 + lane

/-- The scoreboard's key of a predicate of a lane (R46), in a plane that no register has. -/
def predKey (p lane : Nat) : Nat := regKey 5 p lane

/-- The check of R18. -/
def inAllocation (w wbase n : Nat) : Bool := decide (n < 16) || decide (wbase + (n - 16) < w)

/-- Register n of a lane in a plane; g0 reads zero (R17). -/
def Gang.reg (g : Gang) (plane lane n : Nat) : Word :=
  if n = 0 then 0 else g.regs.get 0 (regKey plane (physIndex (g.fibre lane).wbase n) lane)

/-- The pair at n (R20). -/
def Gang.reg64 (g : Gang) (plane lane n : Nat) : Addr :=
  if n = 0 then 0 else g.reg plane lane (n + 1) ++ g.reg plane lane n

/-- A register read through a lane's own window whether the lane acts or not (R127). -/
def Gang.regAnyLane (g : Gang) (w plane lane n : Nat) : Word :=
  if inAllocation w (g.fibre lane).wbase n then g.reg plane lane n else 0

/-- The storage write of register n; a write to g0 is discarded (R17). -/
def Gang.wr (g : Gang) (plane lane n : Nat) (v : Word) : List (Nat × Word) :=
  if n = 0 then [] else [(regKey plane (physIndex (g.fibre lane).wbase n) lane, v)]

/-- The storage writes of the pair at n (R20). -/
def Gang.wr64 (g : Gang) (plane lane n : Nat) (v : Addr) : List (Nat × Word) :=
  if n = 0 then [] else g.wr plane lane n (v.extractLsb' 0 32) ++ g.wr plane lane (n + 1) (v.extractLsb' 32 32)

/-- Write a value of one or two registers. -/
def Gang.wrN (g : Gang) (wide : Bool) (plane lane n : Nat) (v : Addr) : List (Nat × Word) :=
  if wide then g.wr64 plane lane n v else g.wr plane lane n (v.setWidth 32)

/-- Read a value of one or two registers. -/
def Gang.regN (g : Gang) (wide : Bool) (plane lane n : Nat) : Addr :=
  if wide then g.reg64 plane lane n else (g.reg plane lane n).setWidth 64

/-- Zero the shadows of registers (R115). A pair at g0 writes nothing. -/
def Gang.zeroShadows (g : Gang) (t lane : Nat) (wide : Bool) (n : Nat) : List (Nat × Word) :=
  (List.range t).flatMap (fun k => g.wrN wide (k + 1) lane n 0)

/-- Perform storage writes; a later one replaces an earlier one of the same register. -/
def Gang.putRegs (g : Gang) (ws : List (Nat × Word)) : Gang := { g with regs := g.regs.sets 0 ws }

/-- Storage writes of a unit issued before any fence that is incomplete: a rollback keeps them (R202). -/
def Gang.putOldRegs (g : Gang) (ws : List (Nat × Word)) : Gang :=
  { g.putRegs ws with
    fence := g.fence.map (fun n => { n with back := { n.back with regs := n.back.regs.sets 0 ws } }) }

/-- Predicate k of a lane; p0 is true (R15). -/
def Gang.predOf (g : Gang) (lane : Nat) (k : Nat) : Bool := k == 0 || (g.fibre lane).pred.getLsbD k

/-- Set predicate k to v; a write of p0 is discarded (R15). -/
def setPred (p : BitVec 16) (k : Nat) (v : Bool) : BitVec 16 :=
  if k = 0 then p else if v then p ||| (1#16 <<< k) else p &&& ~~~(1#16 <<< k)

/-! ## Compressed storage (R21 to R26) -/

/-- The form of a vector register: segments 1 uniform, 2 base+delta8, 3 base+delta16, 4 raw (R21). -/
def formOf (vs : List Word) : Nat :=
  let v0 := vs.headD 0
  let ds := vs.map (fun v => (v - v0).toInt)
  if ds.all (· == 0) then 1
  else if ds.all (fun x => decide (-128 ≤ x) && decide (x ≤ 127)) then 2
  else if ds.all (fun x => decide (-32768 ≤ x) && decide (x ≤ 32767)) then 3
  else 4

/-- The block size a form takes (R23). -/
def blockOf (segs : Nat) : Nat := if segs = 3 then 4 else segs

/-- A free block joined to the free block that touches it and makes with it a block of 2 or of 4, or that continues a run
of blocks of 4 (R23). Blocks of 1, 2 and 4 segments start at multiples of their lengths; a run of adjacent free blocks of 4
is kept as one entry. -/
def joinTwo (b d : Nat × Nat) : Option (Nat × Nat) :=
  if b.1 + b.2 = d.1 && ((b.2 == d.2 && decide (b.2 < 4) && b.1 % (2 * b.2) == 0) || (b.2 % 4 == 0 && d.2 % 4 == 0)) then
    some (b.1, b.2 + d.2)
  else none

/-- Put a block before the free blocks that follow it, joined with them as far as they go together. -/
def joinFront (b : Nat × Nat) : List (Nat × Nat) → List (Nat × Nat)
  | [] => [b]
  | d :: ds => match joinTwo b d with | some e => joinFront e ds | none => b :: d :: ds

/-- Join the free blocks of an ascending list. -/
def joinBlocks : List (Nat × Nat) → List (Nat × Nat)
  | [] => []
  | b :: bs => joinFront b (joinBlocks bs)

/-- Put a free block where it belongs by its first segment. -/
def insertBlock (b : Nat × Nat) : List (Nat × Nat) → List (Nat × Nat)
  | [] => [b]
  | d :: ds => if b.1 ≤ d.1 then b :: d :: ds else d :: insertBlock b ds

/-- Merge adjacent free blocks (R23). -/
def mergeFree (free : List (Nat × Nat)) : List (Nat × Nat) := joinBlocks (free.foldr insertBlock [])

/-- Take a block of 1, 2 or 4 segments (R23): one of that size, else half of a larger one. Of several it takes the one
listed first (log 111). -/
def takeBlock (free : List (Nat × Nat)) (n : Nat) : Option (Nat × List (Nat × Nat)) :=
  let pick (p : Nat → Bool) := free.find? (fun b => p b.2)
  let drop (b : Nat × Nat) := free.erase b
  match (if n < 4 then pick (· == n) else none) with
  | some b => some (b.1, drop b)
  | none =>
    match (if n == 1 then pick (· == 2) else none) with
    | some b => some (b.1, (b.1 + 1, 1) :: drop b)
    | none =>
      match pick (fun l => decide (4 ≤ l)) with
      | none => none
      | some b =>
        let rest := if b.2 > 4 then [(b.1 + 4, b.2 - 4)] else []
        let split := if n == 1 then [(b.1 + 1, 1), (b.1 + 2, 2)] else if n == 2 then [(b.1 + 2, 2)] else []
        some (b.1, split ++ rest ++ drop b)

/-- What a stored register gives back: its block, or for base+delta16 the three segments it kept. -/
def blocksBack (a segs : Nat) : List (Nat × Nat) := if segs = 3 then [(a, 2), (a + 2, 1)] else [(a, segs)]

/-- The least recently used of a gang's stored registers that is in the main file. -/
def oldestStored (g : Gang) : Option (Nat × Stored) :=
  (g.stored.filter (fun e => e.2.at_.isSome)).foldl (fun b e =>
    match b with
    | none => some e
    | some o => if e.2.stamp < o.2.stamp then some e else some o) none

/-- The register that a spill for a gang takes next (R25): the gang's own, while it has one in the file, and then the
least recently used of the other gangs of its squad. -/
def spillVictim (c : Crew) (slot : Nat) : Option (Nat × Nat × Stored) :=
  match (c.gangs.find slot).bind oldestStored with
  | some v => some (slot, v)
  | none =>
    (c.gangs.filter (fun g => squadOf g.1 == squadOf slot && g.1 != slot)).foldl (fun b g =>
      match b, oldestStored g.2 with
      | none, some v => some (g.1, v)
      | some o, some v => if v.2.stamp < o.2.2.stamp then some (g.1, v) else some o
      | b, none => b) none

/-- Count a spilled register (R45). -/
def Squad.countSpill (q : Squad) : Squad := { q with spillct := BitVec.ofNat 32 (min (q.spillct.toNat + 1) (2 ^ 32 - 1)) }

/-- Spill one register (R25). -/
def spillOne (c : Crew) (v : Nat × Nat × Stored) : Crew :=
  (c.modGang v.1 (fun g => { g with stored := g.stored.put v.2.1 { v.2.2 with at_ := none } })).modSquad (squadOf v.1)
    (fun q => { q with free := blocksBack (v.2.2.at_.getD 0) v.2.2.segs ++ q.free }.countSpill)

/-- Find a block for a register of a gang, spilling until one can be formed (R25): the crew, and the block's first
segment. -/
def findBlock : Nat → Nat → Nat → Crew → Crew × Option Nat
  | 0, _, _, c => (c, none)
  | fuel + 1, slot, n, c =>
    match takeBlock (c.squad (squadOf slot)).free n with
    | some (a, free) => (c.modSquad (squadOf slot) (fun q => { q with free := free }), some a)
    | none =>
      match spillVictim c slot with
      | none => (c, none)
      | some v => findBlock fuel slot n ((spillOne c v).modSquad (squadOf slot) (fun q => { q with free := mergeFree q.free }))

/-- Lane values of a vector register by its buffer key. -/
def Gang.laneValues (g : Gang) (key : Nat) : List Word := (List.range 64).map (fun l => g.regs.get 0 (key * 64 + l))

/-- Write a register of a gang back to the main file in its smallest form (R21, R23, R25). -/
def writeBack (now slot key : Nat) (c : Crew) : Crew :=
  match c.gangs.find slot with
  | none => c
  | some g =>
    let segs := formOf (g.laneValues key)
    let back := match g.stored.find key with
      | some { at_ := some a, segs := n, .. } => blocksBack a n
      | _ => []
    let c := (c.modGang slot (fun g => { g with stored := g.stored.erase key })).modSquad (squadOf slot)
      (fun q => { q with free := back ++ q.free })
    let r := findBlock 4097 slot (blockOf segs) c
    let stored (at_ : Option Nat) (c : Crew) : Crew :=
      c.modGang slot (fun g => { g with stored := g.stored.put key { at_ := at_, segs := segs, stamp := now } })
    match r.2 with
    | some a =>
      stored (some a) (r.1.modSquad (squadOf slot) (fun q => { q with free := if segs = 3 then (a + 3, 1) :: q.free else q.free }))
    | none => (stored none r.1).modSquad (squadOf slot) Squad.countSpill

/-- Use a register through the operand buffer: fetch it if absent, mark it most recently used, write back what is
replaced (R22, R25). -/
def bufferUse (now slot key : Nat) (dirty : Bool) (c : Crew) : Crew :=
  match c.gangs.find slot with
  | none => c
  | some g =>
    match g.buffer.find? (fun e => e.key == key) with
    | some e =>
      c.setGang slot { g with buffer := { e with dirty := e.dirty || dirty } :: g.buffer.filter (fun f => f.key != key) }
    | none =>
      let spilled := match g.stored.find key with | some v => v.at_.isNone | none => false
      let g := { g with
        buffer := { key := key, dirty := dirty || spilled } :: g.buffer,
        stored := if spilled then g.stored.erase key
          else g.stored.modify key (fun v => { v with stamp := now }) }
      match g.buffer.drop 16 with
      | [] => c.setGang slot g
      | out :: _ =>
        let c := c.setGang slot { g with buffer := g.buffer.take 16 }
        if out.dirty then writeBack now slot out.key c else c

def bufferUses (now slot : Nat) (ks : List (Nat × Bool)) (c : Crew) : Crew :=
  ks.foldl (fun c k => bufferUse now slot k.1 k.2 c) c

/-- Destinations of a completed load or read, by register key, enter their gang's operand buffer modified (R22). -/
def State.bufferDests (s : State) (core slot : Nat) (keys : List Nat) : State :=
  s.modCrew core (bufferUses s.clock.toNat slot (((keys.map (· / 64)).eraseDups).map (fun k => (k, true))))

/-- Write a gang's modified operand-buffer entries back (R47). -/
def flushBuffer (now slot : Nat) (c : Crew) : Crew :=
  match c.gangs.find slot with
  | none => c
  | some g =>
    ((g.buffer.filter (·.dirty)).foldr (fun e c => writeBack now slot e.key c) c).modGang slot (fun g => { g with buffer := [] })

/-- The storage key of register n in a window. -/
def bufferKey (plane wbase n : Nat) : Nat := plane * 1024 + physIndex wbase n

/-! ## Flags (R37) -/

/-- OR flags into %flags and %tflags of a squad. -/
def State.raiseFlags (s : State) (core squad : Nat) (fl tfl : Word) : State :=
  if fl = 0 ∧ tfl = 0 then s
  else s.modCrew core (fun c => c.modSquad squad (fun q => { q with flags := q.flags ||| fl, tflags := q.tflags ||| tfl }))

/-! ## Traps -/

/-- A double trap, or a trap with no handler (R170): the gang stops and the launch ends; in a world, only the world
ends (R284). -/
def fatalTrap (core slot : Nat) (cause : BitVec 8) (pc : Addr) (s : State) : State :=
  match s.crewAt core with
  | none => s
  | some c =>
    let s := s.modGang core slot (fun g => { g with stopped := true })
    if c.depth = 0 then
      s.modLaunch c.launch (fun l =>
        if l.st = .ending then l
        else { l with st := .ending, outcome := 6, cause := cause, fatalPc := pc, fatalCore := core })
    else s.modCrew core (fun c => if c.ending.isSome then c else { c with ending := some (4, cause) })

/-- The causes that record an address (R43). -/
def recordsAddr (cause : BitVec 8) : Bool := cause == 4 || cause == 5 || cause == 7 || cause == 0x10

/-- What a trap at a fibre's unit keeps of it: an arrival that has been counted, and fibres that have been placed (R165,
R206). -/
def Fibre.keep (f : Fibre) : Option Kept :=
  if f.arrived then some { pc := f.pc, hold := f.hold, arrived := f.arrived } else none

/-- A fibre comes back to a unit that its handler was entered at. -/
def Fibre.takeUp (f : Fibre) : Fibre :=
  match f.kept with
  | none => f
  | some k =>
    if k.pc = f.pc then { f with hold := k.hold, arrived := k.arrived, kept := none } else { f with kept := none }

/-- Take a trap (R168): the trap registers, the handler flag, and the issuing group into the handler. -/
def takeTrap (core slot : Nat) (mask : BitVec 64) (pc : Addr) (t : Trap) (s : State) : State :=
  match s.crewAt core with
  | none => s
  | some c =>
    match c.gangs.find slot, s.launchOf c.launch with
    | some g, some l =>
      if g.handler.isSome then fatalTrap core slot t.cause pc s
      else
        let g := { g with
          trapcause := 0#8 ++ t.detail ++ 0#2 ++ BitVec.ofNat 6 t.lane ++ t.cause,
          trappc := pc,
          trapaddr := if recordsAddr t.cause then t.addr else 0 }
        if l.rcd.handler = 0 then fatalTrap core slot t.cause pc (s.setGang core slot g)
        else
          s.setGang core slot
            ({ g with handler := some mask }.modLanes mask (fun _ f =>
              { f with savedWbase := f.wbase, pc := l.rcd.handler, hold := none, safe := none, arrived := false,
                       kept := f.keep, aged := false, readyFrom := none, since := s.clock.toNat }))
    | _, _ => s

/-- The lanes of the handler group that are still in the handler (R169). -/
def stillHandling (g : Gang) (m left : BitVec 64) : BitVec 64 := maskWhere (fun i =>
  m.getLsbD i && !left.getLsbD i && (g.fibre i).live)

/-- Clear the handler flag once every fibre of the handler group has left it (R169). Those that have left are held like the
other groups until then (log 113). -/
def Gang.leaveHandler (g : Gang) (left : BitVec 64) : Gang :=
  match g.handler with
  | none => g
  | some m =>
    let rest := stillHandling g m left
    { g with handler := if rest = 0 then none else some rest }

/-- Return from the handler for the lanes of a mask (R169): each leaves with its saved window base at %trappc, whose
bits 1..0 do not reach the PC (R14); bits 63..48 do, so that the next fetch faults (log 112). A unit that was held when
the handler was entered keeps what it had performed (R165, R206). -/
def returnFromTrap (now : Nat) (g : Gang) (m : BitVec 64) : Gang :=
  (g.modLanes m (fun _ f =>
    { f with wbase := f.savedWbase, pc := g.trappc &&& ~~~3#64, hold := none, safe := none, since := now,
             arrived := false, aged := false, readyFrom := none : Fibre }.takeUp)).leaveHandler m

/-! ## Units -/

/-- What a unit sees when it issues. -/
structure UnitCtx where
  core : Nat
  slot : Nat
  mask : BitVec 64      -- issuing fibres
  acts : BitVec 64      -- acting fibres
  pc : Addr             -- first word of the unit
  x : Pfx
  crew : Crew
  gang : Gang
  launch : Launch

namespace UnitCtx
def lanes (c : UnitCtx) : List Nat := lanesOf c.acts
/-- The lowest acting fibre; of a group in which none acts the lowest (log 122). -/
def low (c : UnitCtx) : Nat := (c.lanes ++ lanesOf c.mask).headD 0
def t (c : UnitCtx) : Nat := c.launch.rcd.tang
/-- The allocation in registers; a record asks for at most 32 times 16 (R345). -/
def w (c : UnitCtx) : Nat := 16 * min c.launch.rcd.wreg 32
def squad (c : UnitCtx) : Nat := squadOf c.slot
/-- The rounding mode of %ctl.RM (R35). -/
def mode (c : UnitCtx) : RMode :=
  match (c.gang.ctl.extractLsb' 0 2).toNat with | 0 => .rne | 1 => .rz | 2 => .rd | _ => .ru
def seed (c : UnitCtx) : Word := c.gang.ctl.extractLsb' 32 32
/-- The enable bits of %ctl in the places of R36. -/
def enables (c : UnitCtx) : Word := (c.gang.ctl.extractLsb' 3 5).setWidth 32
def priv (c : UnitCtx) : Bool := c.launch.rcd.flags.getLsbD 0
/-- The view its generic accesses use (R274, R359). -/
def view (c : UnitCtx) : Nat := match c.gang.task with | some k => k.view | none => c.crew.view
/-- DUAL's mode; no DUAL is implicit (R293). -/
def dual (c : UnitCtx) : DualMode := match c.x.dual with | some u => u.mode | none => .implicit
def dualK (c : UnitCtx) : Nat := match c.x.dual with | some u => u.k.toNat | none => 0
def dualReg (c : UnitCtx) : Nat := match c.x.dual with | some u => u.treg.toNat | none => 0
end UnitCtx

/-- What the checks before a unit's own need to know of it. -/
structure Need where
  regs : List Nat := []          -- general registers it names, each of a pair or group (R18)
  cross : List Nat := []         -- those of them it reads in every lane of the gang (R127)
  shadows : List Nat := []       -- those of them whose shadows it reads too (R294)
  preds : List Nat := []         -- predicates it names, beside its guard's (R46)
  seed : Nat := 1                -- registers that a DUAL seed's TREG names (R293)
  writes : List Nat := []        -- those it writes
  others : Nat := 0              -- predicates and layout registers it writes (R201)
  stall : Bool := false          -- waits for an incomplete fence (R201)
  collective : Bool := false     -- needs all 64 fibres live and acting (R220)
  feature : Option Nat := none   -- feature bit of its class (R103)
  worlds : Bool := false         -- needs a launch with worlds enabled (R273)
  priv : Bool := false           -- privileged (R104)
  layouts : List Nat := []       -- layout registers it reads
  delivers : UnitCtx → Delivery → Bool := fun _ _ => false  -- deferred traps whose state it waits on or reads (R166)

/-- What a unit does once its shared checks have passed. -/
inductive Act where
  | trap (t : Trap) (flags : Word)   -- a precise trap; flags are raised before it (R67)
  | hold (h : Hold) (s : State)      -- held at issue; s has what is performed before the hold
  | done (s : State)                 -- performed; every issuing fibre goes on at the next unit
  | part (m : BitVec 64) (h : Hold) (s : State)  -- the lanes of m go on at the next unit, the others are held
  | join (m : BitVec 64) (s : State)  -- performed for the lanes of m; the others stand held at the unit as before (R165)
  | jump (s : State)                 -- performed; the unit has set the PCs
  | error (b : BadReg)               -- an uncorrectable error of a register that it reads (R27)

/-- The outcome of the checks before a unit's own. -/
inductive Gate where
  | idle                             -- no group issues
  | hold (c : UnitCtx) (h : Hold)
  | deliver (c : UnitCtx) (p : Pend)
  | trap (c : UnitCtx) (t : Trap)
  | error (c : UnitCtx) (b : BadReg)  -- an uncorrectable error of a register that it reads (R27)
  | go (c : UnitCtx)

/-- The guard's predicate, negated where it says so, is true in a lane; no guard is always true (R86). -/
def guardHolds (x : Pfx) (g : Gang) (l : Nat) : Bool :=
  match x.guard with | none => true | some q => g.predOf l q.pred.toNat != q.neg

/-- The context of the issuing group. -/
def unitCtx (x : Pfx) (s : State) : Option UnitCtx :=
  match s.issue with
  | none => none
  | some i =>
    match s.crewAt i.core with
    | none => none
    | some c =>
      match c.gangs.find i.slot, s.launchOf c.launch with
      | some g, some l =>
        let mask := maskWhere (fun k => i.mask.getLsbD k && (g.fibre k).live)
        let acts := maskWhere (fun k => mask.getLsbD k && guardHolds x g k)
        some { core := i.core, slot := i.slot, mask := mask, acts := acts, pc := i.pc, x := x, crew := c, gang := g,
               launch := l }
      | _, _ => none

/-- The lowest lane of a list that fails a check. -/
def firstFail (lanes : List Nat) (ok : Nat → Bool) : Option Nat := lanes.find? (fun l => !ok l)

/-- The registers named by DUAL seed are read too (R293). -/
def seedRegs (c : UnitCtx) (n : Need) : List Nat :=
  if c.dual = .seed then (if c.dualReg = 0 then [0] else (List.range n.seed).map (c.dualReg + ·)) else []

/-- Vector registers that registers name through the windows of lanes, by buffer key, in some planes. -/
def vectorKeys (g : Gang) (ps lanes rs : List Nat) : List Nat :=
  let bases := (lanes.map (fun l => (g.fibre l).wbase)).eraseDups
  (rs.filter (· != 0)).flatMap (fun r => ps.flatMap (fun k => bases.map (fun w => bufferKey k w r)))

/-- Every plane of a register. -/
def UnitCtx.planes (c : UnitCtx) : List Nat := List.range (c.t + 1)

/-- Predicates that a unit names, its guard's among them. -/
def unitPreds (c : UnitCtx) (n : Need) : List Nat :=
  n.preds ++ (match c.x.guard with | some q => [q.pred.toNat] | none => [])

/-- Vector registers and predicates of a unit that an older unit in flight has yet to write, in whatever lanes (R46). -/
def waitingKeys (c : UnitCtx) (n : Need) : List Nat :=
  if c.gang.destWait.isEmpty then []
  else
    let named := vectorKeys c.gang c.planes c.lanes (n.regs ++ seedRegs c n) ++
      (if c.acts = 0 then [] else vectorKeys c.gang c.planes (List.range 64) n.cross) ++
      (unitPreds c n).map (fun p => predKey p 0 / 64)
    c.gang.destWait.filter (fun k => named.contains (k / 64))

/-- The planes of a source's shadows that a unit reads under DUAL's mode (R293). -/
def shadowPlanes (c : UnitCtx) : List Nat :=
  let all := (List.range c.t).map (· + 1)
  match c.dual with
  | .implicit => all
  | .seed => all.filter (· != c.dualK + 1)
  | .get => [c.dualK + 1]
  | .zero | .none => []

/-- The planes of a register that a unit uses: every plane of a destination, and of a source its primal and the shadows it
reads (R294). -/
def usedPlanes (c : UnitCtx) (n : Need) (r : Nat) : List Nat :=
  if n.writes.contains r then c.planes else if n.shadows.contains r then 0 :: shadowPlanes c else [0]

/-- The vector registers that a unit uses, by buffer key, each with whether it writes it (R22, R127, R293). -/
def unitKeys (c : UnitCtx) (n : Need) : List (Nat × Bool) :=
  if c.acts = 0 then []
  else
    let uses (lanes rs : List Nat) : List (Nat × Bool) := rs.flatMap (fun r =>
      (vectorKeys c.gang (usedPlanes c n r) lanes [r]).map (fun k => (k, n.writes.contains r)))
    uses [c.low] n.regs ++ (vectorKeys c.gang [0] [c.low] (seedRegs c n)).map (fun k => (k, false)) ++
      (if n.cross.isEmpty then [] else uses (List.range 64) n.cross)

/-- Entries of the speculation buffer a unit takes (R201). -/
def bufferWrites (c : UnitCtx) (n : Need) : Nat := n.writes.length * (c.t + 1) + n.others

/-- Whether an incomplete fence makes the unit wait (R201, R202). -/
def fenceStalls (c : UnitCtx) (n : Need) : Bool :=
  match c.gang.fence with
  | none => false
  | some f => n.stall || decide (f.writes + bufferWrites c n > 16)

/-- The features that a unit's class, DUAL and the world instructions need are accepted (R103, R273). -/
def classAccepted (c : UnitCtx) (n : Need) : Bool :=
  (match n.feature with | none => true | some b => c.launch.features.getLsbD b) &&
    (!n.worlds || c.launch.rcd.flags.getLsbD 4) && (c.x.dual.isNone || c.launch.features.getLsbD 1)

/-- A SAFE prefix's live set fits a lane's allocation (R164). -/
def safeFits (c : UnitCtx) (l : Nat) : Bool :=
  match c.x.safe with | none => true | some v => decide ((c.gang.fibre l).wbase + v.toNat ≤ c.w)

/-- The precise traps of the shared checks, in the order of R102. -/
def sharedTrap (c : UnitCtx) (n : Need) : Option Trap :=
  let lowest := (lanesOf c.mask).headD 0
  if !classAccepted c n then some { cause := 1, lane := lowest }
  else if n.priv && !c.priv then some { cause := 0x0f, lane := lowest }
  else
    match firstFail c.lanes (fun l => (n.regs ++ seedRegs c n).all (inAllocation c.w (c.gang.fibre l).wbase)) with
    | some l => some { cause := 1, lane := l }
    | none =>
      match firstFail c.lanes (fun _ => !(c.dual = .seed || c.dual = .get) || decide (c.dualK < c.t)) with
      | some l => some { cause := 1, detail := 2, lane := l }
      | none =>
        match firstFail c.lanes (safeFits c) with
        | some l => some { cause := 1, detail := 3, lane := l }
        | none =>
          if n.collective && c.acts != BitVec.allOnes 64 then some { cause := 2, lane := c.low } else none

/-- The storage keys of registers, in every plane and acting lane. -/
def keysOf (c : UnitCtx) (rs : List Nat) : List Nat :=
  (rs.filter (· != 0)).flatMap (fun r => (List.range (c.t + 1)).flatMap (fun p => c.lanes.map (fun l =>
    regKey p (physIndex (c.gang.fibre l).wbase r) l)))

/-- The registers a unit reads: those it names once more than it writes them. -/
def readRegs (c : UnitCtx) (n : Need) : List Nat := n.writes.foldl List.erase n.regs ++ seedRegs c n

/-- Vector registers that a unit writes in every lane and does not read, by buffer key. -/
def overwritten (c : UnitCtx) (n : Need) : List Nat :=
  if c.acts = BitVec.allOnes 64 then
    vectorKeys c.gang c.planes [c.low] (n.writes.filter (fun r => !(readRegs c n ++ n.cross).contains r))
  else []

/-- An uncorrectable error of a register that a unit reads, or into which it merges some lanes (R22, R27). -/
def foundError (c : UnitCtx) (n : Need) : Option BadReg :=
  c.gang.bad.find? (fun b => (unitKeys c n).any (fun k => k.1 == b.key) && !(overwritten c n).contains b.key)

/-- Whether a pending trap is due at the unit (R166): at a safe point, or where the unit touches its state. -/
def pendDue (c : UnitCtx) (n : Need) (p : Pend) : Bool :=
  c.x.safe.isSome || (c.acts != 0 && (n.delivers c p.at_ ||
    (match p.at_ with
     | .regs keys => (keysOf c (readRegs c n)).any keys.contains
     | .layout l => n.layouts.contains l
     | _ => false)))

/-- A group that was held on an absent page, for side-log room there, or on a saved peer has not finished its unit (R337, R341). -/
def unfinished (c : UnitCtx) : Bool :=
  (lanesOf c.mask).any (fun l =>
    match (c.gang.fibre l).hold with
    | some (.page _ _) | some (.peer _) | some (.sideLog _) => true
    | _ => false)

/-- The deferred trap to deliver before the unit: the lowest cause of those due, while no handler runs (R170, R171). -/
def dueTrap (c : UnitCtx) (n : Need) : Option Pend :=
  if c.gang.pending.isEmpty || c.gang.handler.isSome || unfinished c then none
  else
    (c.gang.pending.filter (pendDue c n)).foldl (fun b p =>
      match b with
      | none => some p
      | some q => if p.cause.toNat < q.cause.toNat then some p else some q) none

/-- The span whose versions a held group has waited on at issue (R231). -/
def waitedOn (c : UnitCtx) : Option (List Nat) :=
  match (c.gang.fibre ((lanesOf c.mask).headD 0)).hold with
  | some (.version ts _) | some (.matrixFull ts) => some ts
  | some (.pendingDest _ span) => span
  | _ => none

/-- The checks every unit shares: a stop at a safe point (R163), a deferred trap that is due (R166, R171), the waits of
R46 and R201, the traps of R102, and errors of the registers it reads (R27). -/
def gate (x : Pfx) (n : Need) (s : State) : Gate :=
  match unitCtx x s with
  | none => .idle
  | some c =>
    if x.safe.isSome && c.crew.preempt.isSome then .hold c .safePoint
    else
      match dueTrap c n with
      | some p => if c.gang.fence.isSome then .hold c .fence else .deliver c p
      | none =>
        if fenceStalls c n then .hold c .fence
        else if !(waitingKeys c n).isEmpty then .hold c (.pendingDest (waitingKeys c n) (waitedOn c))
        else
          match sharedTrap c n with
          | some t => .trap c t
          | none =>
            match foundError c n with
            | some b => if c.gang.destWait.isEmpty then .error c b else .hold c (.pendingDest c.gang.destWait (waitedOn c))
            | none => .go c

/-- Holds of the units of R165's table, a sleep, and a stop at a safe point. A store that waits for side-log room is held
on its absent page (R334, R337). -/
def Hold.atSafePoint : Hold → Bool
  | .phase _ _ | .lines _ | .counter _ _ | .calm _ | .popEmpty _ | .pushFull _ | .taskFull _ | .listFull _ | .streamBusy
  | .streamRuns | .version _ _ | .completed _ _ | .matrixFull _ | .copyFull | .bins _ | .arrival _ _ | .page _ _
  | .peer _ | .sideLog _ => true
  | .sleep _ => true
  | .safePoint => true
  | _ => false

/-- The waits that R161 counts: a unit of R165's table, a sleep, and a hold on an absent page or a saved peer crew. -/
def Hold.isWait : Hold → Bool
  | .safePoint => false
  | h => h.atSafePoint

/-- Lanes of another group's yield that have now come to be held in a wait (R161). -/
def Gang.dropYield (g : Gang) (m : BitVec 64) : Gang :=
  { g with fibres := g.fibres.map (fun f =>
      match f.hold with
      | some (.yielded y n) => { f with hold := some (.yielded (y &&& ~~~m) n) }
      | _ => f) }

/-- Hold the issuing group at its unit: a group held again for the same reason has been held since it first was, and
otherwise an episode of its gang has ended (R363). -/
def holdUnit (c : UnitCtx) (h : Hold) (s : State) : State :=
  let again := (lanesOf c.mask).all (fun l => (c.gang.fibre l).hold == some h)
  s.modGang c.core c.slot (fun g =>
    let g := { (if h.isWait then g.dropYield c.mask else g) with reported := g.reported && again }
    g.modLanes c.mask (fun _ f =>
      { f with hold := some h, safe := c.x.safe, readyFrom := none,
               since := if f.hold = some h then f.since else s.clock.toNat }))

/-- Raise a unit's flags: in its squad at once (R37), or with the fence it was issued past (R202). -/
def State.raiseUnit (s : State) (c : UnitCtx) (fl tfl : Word) : State :=
  if c.gang.fence.isSome then
    s.modGang c.core c.slot (fun g => { g with fence := g.fence.map (fun f =>
      { f with fl := f.fl ||| fl, tfl := f.tfl ||| tfl }) })
  else s.raiseFlags c.core c.squad fl tfl

/-- Raise a precise trap of the unit (R167): it waits for the older instructions of the gang, and past an incomplete
fence for the fence. -/
def raiseTrap (c : UnitCtx) (t : Trap) (fl : Word) (s : State) : State :=
  if !c.gang.destWait.isEmpty then holdUnit c (.pendingDest c.gang.destWait (waitedOn c)) s
  else
    let s := s.raiseUnit c fl 0
    if c.gang.fence.isSome then
      (holdUnit c .lateTrap s).modGang c.core c.slot (fun g => { g with late := g.late.orElse (fun _ => some t) })
    else takeTrap c.core c.slot c.mask c.pc t s

/-- Deliver a deferred trap to the issuing group (R166): LANE is its lowest acting lane (R43). -/
def deliverPend (c : UnitCtx) (p : Pend) (s : State) : State :=
  if !c.gang.destWait.isEmpty then holdUnit c (.pendingDest c.gang.destWait (waitedOn c)) s
  else
    takeTrap c.core c.slot c.mask c.pc { cause := p.cause, lane := c.low, addr := p.addr }
      (s.modGang c.core c.slot (fun g => { g with pending := g.pending.erase p }))

/-- Lanes of another group's yield that have now advanced (R161). -/
def Gang.noteIssue (g : Gang) (m : BitVec 64) (now : Nat) : Gang :=
  { g with
    fibres := g.fibres.map (fun f =>
      match f.hold with
      | some (.yielded y _) => { f with hold := some (.yielded (y &&& ~~~m) now) }
      | _ => f)
    lastIssue := now
    reported := false }

/-- The registers a unit uses go through the operand buffer, its destinations modified (R22). -/
def useRegs (c : UnitCtx) (n : Need) (s : State) : State :=
  if c.acts = 0 then s else s.modCrew c.core (bufferUses s.clock.toNat c.slot (unitKeys c n))

/-- Holds that a unit leaves behind it when it has issued: its group waits for time, for other groups, or for an
event that completes the unit. -/
def Hold.outlives : Hold → Bool
  | .sleep _ | .yielded _ _ | .arrival _ _ | .calm _ | .answer _ _ => true
  | _ => false

/-- The whole group waits for an event that completes the unit (R260, R268, R271). -/
def waitGroup (c : UnitCtx) (h : Hold) (s : State) : State :=
  s.modGang c.core c.slot (fun g => g.modLanes c.mask (fun _ f =>
    { f with hold := some h, safe := c.x.safe, arrived := true, since := s.clock.toNat }))

/-- The acting fibres arrive; the others go on (R165). -/
def waitFor (c : UnitCtx) (h : Hold) (s : State) : State :=
  s.modGang c.core c.slot (fun g => g.modLanes c.mask (fun l f =>
    if c.acts.getLsbD l then { f with hold := some h, safe := c.x.safe, arrived := true, since := s.clock.toNat }
    else { f with pc := c.pc + BitVec.ofNat 64 (4 * c.x.words), hold := none, safe := none, arrived := false }))

/-- The acting fibres of a unit that no event lets go on join those that stand held in it already (R143, R165). -/
def joinHold (c : UnitCtx) (h : Hold) (wait : UnitCtx → Hold → State → State) (s : State) : Act :=
  let there := maskWhere (fun l => c.mask.getLsbD l && (c.gang.fibre l).hold == some h)
  let m := c.mask &&& ~~~there
  .join m (wait { c with mask := m, acts := c.acts &&& ~~~there } h s)

/-- The event has come: the fibre goes on after its unit. -/
def Fibre.release (f : Fibre) (now : Nat) (next : Addr) : Fibre :=
  { f with pc := next, hold := none, safe := none, arrived := false, aged := false, since := now, readyFrom := none }

/-- The unit has left this hold behind it: it outlives the unit, and the fibre did not stand in it before. -/
def leftBehind (old f : Fibre) : Bool :=
  match f.hold with | some h => h.outlives && decide (old.hold ≠ some h) | none => false

/-- The unit was a tret that has taken up what the trap kept of the fibre (R165, R206). -/
def takenUp (old f : Fibre) : Bool := old.kept.isSome && f.kept.isNone

/-- The issue state of a fibre whose unit has issued. -/
def Fibre.settled (now : Nat) (old f : Fibre) : Fibre :=
  if leftBehind old f || takenUp old f then
    { f with aged := false, reported := false, since := now, issued := now, readyFrom := none }
  else { f with hold := none, safe := none, arrived := false, aged := false, reported := false, since := now,
                issued := now, readyFrom := none }

/-- Errors of registers that a unit overwrites are gone. -/
def clearErrors (c : UnitCtx) (n : Need) (g : Gang) : Gang :=
  { g with bad := g.bad.filter (fun b => !(overwritten c n).contains b.key) }

/-- A unit has issued: its group is no longer held, its entries of the speculation buffer are taken, and errors of registers
that it overwrites are gone. -/
def settle (c : UnitCtx) (n : Need) (s : State) : State :=
  let s := s.modGang c.core c.slot (fun g =>
    let g := g.modLanes c.mask (fun l f => Fibre.settled s.clock.toNat (c.gang.fibre l) f)
    let g := g.noteIssue c.mask s.clock.toNat
    clearErrors c n { g with fence := g.fence.map (fun f => { f with writes := f.writes + bufferWrites c n }) })
  useRegs c n s

/-- Words of a unit, in bytes. -/
def unitBytes (x : Pfx) : Addr := BitVec.ofNat 64 (4 * x.words)

/-- A unit has completed: every issuing fibre goes on at the next unit. -/
def finish (c : UnitCtx) (n : Need) (s : State) : State :=
  settle c n (s.modGang c.core c.slot (fun g => g.modLanes c.mask (fun _ f => { f with pc := c.pc + unitBytes c.x })))

/-- Some of the issuing fibres go on at the next unit, and the others are held. -/
def finishPart (c : UnitCtx) (n : Need) (m : BitVec 64) (h : Hold) (s : State) : State :=
  finish { c with mask := m } n (holdUnit { c with mask := c.mask &&& ~~~m } h s)

/-- Record a machine check of a class in a core (R179): V and CLASS, whatever CORR counts. -/
def State.machineCheck (s : State) (core : Nat) (cls : BitVec 4) : State :=
  s.modCore core (fun k =>
    if k.mcheck.getLsbD 31 then k
    else { k with mcheck := (k.mcheck &&& 0x0000ffff#32) ||| 0x80000000#32 ||| (cls.setWidth 32 <<< 24) })

/-- The register number of a place in a lane's register space. A windowed register that lies outside the lane's window has
the number its distance from the window gives, modulo the 128 numbers there are (log 132). -/
def regNumber (f : Fibre) (index : Nat) : Nat :=
  if index < 16 then index else (index + 1024 - f.wbase) % 128

/-- The precise trap of an uncorrectable error in a register that the unit reads (R27, R44): the register's number in the
lane's window and the lane. The error is found once, and what the word then reads is a free value (log 132). -/
def registerTrap (c : UnitCtx) (b : BadReg) (s : State) : State :=
  let a : Addr := BitVec.ofNat 64 (b.lane % 64 * 256 + regNumber (c.gang.fibre b.lane) (b.key % 1024))
  let s := s.machineCheck c.core b.cls
  raiseTrap c { cause := 0x10, lane := c.low, addr := a } 0
    ({ s with drawn := s.drawn + 1 }.modGang c.core c.slot (fun g =>
      { g.putRegs [(b.key * 64 + b.lane % 64, (Config.freeValue (2 * s.drawn)).setWidth 32)] with bad := g.bad.erase b }))

/-- Issue a unit: the shared checks, then its own meaning. -/
def issueUnit (x : Pfx) (n : Need) (body : UnitCtx → State → Act) (s : State) : Host.Outcome State Fault Refusal :=
  match gate x n s with
  | .idle => .next s
  | .hold c h => .next (holdUnit c h s)
  | .deliver c p => .next (deliverPend c p s)
  | .trap c t => .next (raiseTrap c t 0 s)
  | .error c b => .next (registerTrap c b s)
  | .go c =>
    match body c s with
    | .trap t fl => .next (raiseTrap c t fl s)
    | .hold h s' => .next (holdUnit c h s')
    | .done s' => .next (finish c n s')
    | .part m h s' => .next (finishPart c n m h s')
    | .join m s' => .next (settle { c with mask := m } n s')
    | .jump s' => .next (settle c n s')
    | .error b => .next (registerTrap c b s)

/-! ## Units that act lane by lane on registers, predicates and flags -/

/-- What one acting lane writes and raises. -/
structure LaneOut where
  regs : List (Nat × Word) := []
  preds : List (Nat × Bool) := []
  flags : Word := 0
  tflags : Word := 0

/-- The trap of an enabled exception: DETAIL holds every flag of every lane (R67). -/
def enabledTrap (c : UnitCtx) (outs : List (Nat × LaneOut)) : Option (Trap × Word) :=
  match outs.find? (fun o => o.2.flags &&& c.enables != 0) with
  | none => none
  | some o =>
    let all := outs.foldl (fun a o => a ||| o.2.flags) 0
    some ({ cause := 0x0c, detail := all.setWidth 8, lane := o.1 }, all)

/-- Write what the lanes give, reading every operand from before the unit (R12). -/
def writeLanes (c : UnitCtx) (outs : List (Nat × LaneOut)) (s : State) : State :=
  let s := s.modGang c.core c.slot (fun g =>
    let g := g.putRegs (outs.flatMap (fun o => o.2.regs))
    if outs.all (fun o => o.2.preds.isEmpty) then g
    else g.modLanes c.acts (fun i f =>
      match outs.find? (fun o => o.1 == i) with
      | none => f
      | some o => { f with pred := o.2.preds.foldl (fun p w => setPred p w.1 w.2) f.pred }))
  s.raiseUnit c (outs.foldl (fun a o => a ||| o.2.flags) 0) (outs.foldl (fun a o => a ||| o.2.tflags) 0)

/-- A unit that computes per lane. -/
def laneUnit (f : UnitCtx → Nat → LaneOut) (c : UnitCtx) (s : State) : Act :=
  let outs := c.lanes.map (fun l => (l, f c l))
  match enabledTrap c outs with
  | some (t, fl) => .trap t fl
  | none => .done (writeLanes c outs s)

end Sys2Proof.Machine
end

