-- ==== Sys2Proof/Machine/Operands.lean ====
section
/-! DEFINITION. The operand forms: registers, pairs and groups as operands (R20, R112), immediates with and without EXT
(R80, R85), shift counts, offsets and effective addresses (R100, R180), and the register lists that the shared checks
need. -/

namespace Sys2Proof.Machine

/-! ## Register lists -/

/-- A register, or the pair it begins; a pair at g0 names g0 alone (R20). -/
def regsOf (wide : Bool) (n : Reg) : List Nat := if wide && n != 0 then [n.toNat, n.toNat + 1] else [n.toNat]

/-- A group of k registers; a group at g0 names g0 alone (R20). -/
def groupOf (k : Nat) (n : Reg) : List Nat := if n = 0 then [0] else (List.range k).map (n.toNat + ·)

/-- What a unit that reads and writes registers needs. -/
def needRW (reads writes : List Nat) : Need := { regs := reads ++ writes, writes := writes }

/-- The same, of a unit whose sources' shadows go with them (R115). -/
def needMove (reads writes : List Nat) : Need := { needRW reads writes with shadows := reads }

/-- The same, of a unit that accepts DUAL: its seed is a pair where its result is (R293). -/
def needSeed (wide : Bool) (reads writes : List Nat) : Need := { needMove reads writes with seed := if wide then 2 else 1 }

/-- What a unit that writes a predicate, the first of those it names, needs. -/
def needPred (ps : List PReg) (reads : List Nat) : Need := { regs := reads, preds := ps.map (·.toNat), others := 1 }

/-! ## Integer operands (R112) -/

/-- The integer in the low N bits of a value. -/
def intIn (t : IType) (v : Addr) : Int :=
  if t.signed then (v.setWidth t.bits).toInt else ((v.setWidth t.bits).toNat : Int)

/-- write_int of R112: the image of v in one register, or in the pair. -/
def intOut (t : IType) (v : Int) : Addr :=
  if t.signed then ((BitVec.ofInt t.bits v).signExtend 64) else ((BitVec.ofInt t.bits v).setWidth 64)

/-- Operand n of a lane as an integer. -/
def UnitCtx.int (c : UnitCtx) (l : Nat) (t : IType) (n : Reg) : Int := intIn t (c.gang.regN t.wide 0 l n.toNat)

/-- A 32-bit operand of a lane. -/
def UnitCtx.word (c : UnitCtx) (l : Nat) (n : Reg) : Word := c.gang.reg 0 l n.toNat

/-- A 64-bit operand of a lane. -/
def UnitCtx.pair (c : UnitCtx) (l : Nat) (n : Reg) : Addr := c.gang.reg64 0 l n.toNat

/-- An operand of one or two registers. -/
def UnitCtx.val (c : UnitCtx) (l : Nat) (wide : Bool) (n : Reg) : Addr := c.gang.regN wide 0 l n.toNat

/-- A result without tangents: the register or pair, its shadows zero (R115). -/
def UnitCtx.plain (c : UnitCtx) (l : Nat) (wide : Bool) (d : Reg) (v : Addr) : LaneOut :=
  { regs := c.gang.wrN wide 0 l d.toNat v ++ c.gang.zeroShadows c.t l wide d.toNat }

/-- A result of one register without tangents. -/
def UnitCtx.plain32 (c : UnitCtx) (l : Nat) (d : Reg) (v : Word) : LaneOut := c.plain l false d (v.setWidth 64)

/-- A value moved with its shadows (R115). -/
def UnitCtx.moved (c : UnitCtx) (l : Nat) (wide : Bool) (d : Reg) (src : Nat → Addr) : LaneOut :=
  { regs := (List.range (c.t + 1)).flatMap (fun p => c.gang.wrN wide p l d.toNat (src p)) }

/-! ## Immediates -/

/-- The 36-bit immediate of R85. -/
def imm36 (x : BitVec 25) (i : BitVec 11) : BitVec 36 := x ++ i

/-- The immediate of a 32-bit operation (R80, R85). -/
def imm32 (x : Pfx) (i : BitVec 11) : Word :=
  match x.ext with | none => i.signExtend 32 | some e => (imm36 e i).setWidth 32

/-- The immediate of a 64-bit operation. -/
def imm64 (x : Pfx) (i : BitVec 11) : Addr :=
  match x.ext with | none => i.signExtend 64 | some e => (imm36 e i).signExtend 64

/-- The offset of a memory instruction in units of its access size (R85, R100). -/
def offset32 (x : Pfx) (i : BitVec 7) : Int :=
  match x.ext with | none => i.toInt | some e => (e ++ i).toInt

/-- The effective address: base plus offset × size modulo 2^64 (R180). -/
def effective (base : Addr) (x : Pfx) (i : BitVec 7) (size : Nat) : Addr :=
  base + BitVec.ofInt 64 (offset32 x i * (size : Int))

/-! ## Shifts (R120) -/

def shiftLeft (bits : Nat) (v : Addr) (n : Nat) : Addr := if n ≥ bits then 0 else v <<< n
def shiftRight (bits : Nat) (v : Addr) (n : Nat) : Addr := if n ≥ bits then 0 else (v.setWidth bits).setWidth 64 >>> n
def shiftArith (bits : Nat) (v : Addr) (n : Nat) : Addr :=
  let x := (v.setWidth bits).signExtend 64
  x.sshiftRight (Nat.min n 63)

/-! ## Conditions (R84) -/

def intCond (c : ICond) (x y : Int) : Bool :=
  match c with
  | .eq => x == y | .ne => x != y | .lt => decide (x < y) | .le => decide (x ≤ y)
  | .gt => decide (x > y) | .ge => decide (x ≥ y)

/-! ## Bytes -/

/-- The n bytes of a value, low byte first (R9). -/
def bytesOfNat (n v : Nat) : List Byte := (List.range n).map (fun i => BitVec.ofNat 8 (v / 256 ^ i))

/-- The value of bytes, low byte first (R9). -/
def natOfBytes : List Byte → Nat
  | [] => 0
  | b :: bs => b.toNat + 256 * natOfBytes bs

end Sys2Proof.Machine
end

