-- ==== Sys2Proof/Machine/Control.lean ====
section
/-! DEFINITION. Control flow (R142 to R149), windows and register fetch (R151 to R153), spawning (R154 to R156), yield,
sleep and nop (R160 to R162), and the trap instructions (R169, R172). exit stands in Tasks.lean, beside the ending of a
gang. -/

namespace Sys2Proof.Machine

/-! ## Branches, calls and returns -/

/-- Address of the instruction word itself, which prefix words precede. -/
def UnitCtx.wordAddr (c : UnitCtx) : Addr := c.pc + BitVec.ofNat 64 (4 * (c.x.words - 1))

/-- Address of the next unit. -/
def UnitCtx.nextPc (c : UnitCtx) : Addr := c.pc + unitBytes c.x

/-- Set the PC of every issuing fibre: p gives the target of a lane that jumps. -/
def State.setPcs (s : State) (c : UnitCtx) (p : Nat → Option Addr) : State :=
  s.modGang c.core c.slot (fun g => g.modLanes c.mask (fun l f => { f with pc := (p l).getD c.nextPc }))

/-- bra and call (R145, R146). -/
def branchUnit (x : Pfx) (link n : Bool) (p : PReg) (i : BitVec 20) (s : State) :
    Host.Outcome State Fault Refusal :=
  issueUnit x { needRW [] (if link then [14, 15] else []) with preds := [p.toNat] } (fun c s =>
    let taken := maskWhere (fun l => c.acts.getLsbD l && (c.gang.predOf l p.toNat != n))
    let target : Int := (c.wordAddr.toNat : Int) + 4 * i.toInt
    if taken != 0 && (target < 0 || target ≥ (2 ^ 48 : Nat)) then
      .trap { cause := 5, lane := (lanesOf taken).headD 0, addr := BitVec.ofInt 64 target } 0
    else
      let s := if link then
          writeLanes c ((lanesOf taken).map (fun l => (l, c.plain l true 14 (c.wordAddr + 4)))) s
        else s
      .jump (s.setPcs c (fun l => if taken.getLsbD l then some (BitVec.ofInt 64 target) else none))) s

/-- bra (R145). -/
def execBra (x : Pfx) (n : Bool) (p : PReg) (i : BitVec 20) (s : State) : Host.Outcome State Fault Refusal :=
  branchUnit x false n p i s

/-- call: the link pair g14:g15 in taking fibres (R145, R146). -/
def execCall (x : Pfx) (n : Bool) (p : PReg) (i : BitVec 20) (s : State) : Host.Outcome State Fault Refusal :=
  branchUnit x true n p i s

/-- The checks of R148 on the targets of acting fibres, each in every fibre before the next. -/
def targetTrap (c : UnitCtx) (target : Nat → Addr) : Option Trap :=
  match firstFail c.lanes (fun l => (target l).extractLsb' 48 16 == 0) with
  | some l => some { cause := 5, lane := l, addr := target l }
  | none =>
    match firstFail c.lanes (fun l => (target l).extractLsb' 0 2 == 0) with
    | some l => some { cause := 4, lane := l, addr := target l }
    | none => none

/-- A jump of each acting fibre to the pair at a register (R147). -/
def jumpUnit (x : Pfx) (a : Reg) (s : State) : Host.Outcome State Fault Refusal :=
  issueUnit x (needRW (regsOf true a) []) (fun c s =>
    match targetTrap c (fun l => c.pair l a) with
    | some t => .trap t 0
    | none => .jump (s.setPcs c (fun l => if c.acts.getLsbD l then some (c.pair l a) else none))) s

def execBrx (x : Pfx) (a : Reg) (s : State) : Host.Outcome State Fault Refusal := jumpUnit x a s

def execRet (x : Pfx) (s : State) : Host.Outcome State Fault Refusal := jumpUnit x 14 s

/-! ## Nop, register fetch and window moves -/

/-- nop has no effect (R160). -/
def execNop (x : Pfx) (s : State) : Host.Outcome State Fault Refusal := issueUnit x {} (fun _ s => .done s) s

/-- rpf: the registers it names enter the operand buffer, primals only (R153). -/
def execRpf (x : Pfx) (d a b : Reg) (s : State) : Host.Outcome State Fault Refusal :=
  issueUnit x (needRW [d.toNat, a.toNat, b.toNat] []) (fun _ s => .done s) s

/-- The window base a lane would move to (R151). -/
def newBase (c : UnitCtx) (a : Reg) (i : BitVec 7) (l : Nat) : Int :=
  (c.gang.fibre l).wbase + ((i ++ 0#4 : BitVec 11).toInt + (c.word l a).toInt)

/-- wbase (R151). -/
def execWbase (x : Pfx) (a : Reg) (i : BitVec 7) (s : State) : Host.Outcome State Fault Refusal :=
  issueUnit x (needRW [a.toNat] []) (fun c s =>
    match firstFail c.lanes (fun l =>
        let nb := newBase c a i l
        decide ((nb - (c.gang.fibre l).wbase) % 16 = 0) && decide (0 ≤ nb) && decide (nb ≤ (c.w : Int) - 16)) with
    | some l => .trap { cause := 1, lane := l } 0
    | none => .done (s.modGang c.core c.slot (fun g => g.modLanes c.acts (fun l f =>
        { f with wbase := (newBase c a i l).toNat })))) s

/-! ## Spawning (R154, R155) -/

/-- The launch's spawn timeout (R358). -/
def spawnTimeout (l : Launch) : Nat := if l.rcd.sto = 0 then 2048 else 16 * l.rcd.sto

/-- Put one new fibre into a bin; a bin of 64 forms a gang at once. None where no bin is free. -/
def placeSpawn (now timeout : Nat) (q : Squad) (entry : Addr) (arg : Word) : Option Squad :=
  match q.bins.find? (fun b => b.key == entry) with
  | some b =>
    if b.args.length + 1 ≥ 64 then
      some { q with bins := q.bins.filter (fun o => o.key != entry),
                    formed := q.formed ++ [{ entry := entry, args := b.args ++ [arg] }] }
    else some { q with bins := q.bins.map (fun o => if o.key == entry then { o with args := o.args ++ [arg] } else o) }
  | none =>
    if q.bins.length ≥ 16 then none
    else some { q with bins := q.bins ++ [{ key := entry, args := [arg], due := now + timeout }] }

/-- Place the lanes in turn: the squad and, where a bin is wanting, the lanes placed so far and the lane that wants it. -/
def placeSpawns (now timeout : Nat) (entry : Nat → Addr) (arg : Nat → Word) :
    List Nat → Squad → BitVec 64 → Squad × Option (BitVec 64 × Nat)
  | [], q, _ => (q, none)
  | l :: ls, q, placed =>
    match placeSpawn now timeout q (entry l) (arg l) with
    | some q' => placeSpawns now timeout entry arg ls q' (placed ||| (1#64 <<< l))
    | none => (q, some (placed, l))

/-- Lanes a held spawn has already placed (R165). -/
def spawnPlaced (c : UnitCtx) : BitVec 64 := maskWhere (fun l => c.mask.getLsbD l && (c.gang.fibre l).arrived)

/-- All bins of a squad hold other keys than this one. -/
def Squad.noBin (q : Squad) (key : Addr) : Bool := decide (q.bins.length ≥ 16) && !(q.bins.any (fun b => b.key == key))

/-- spawn (R154, R155). -/
def execSpawn (x : Pfx) (a b : Reg) (s : State) : Host.Outcome State Fault Refusal :=
  issueUnit x { regs := regsOf true a ++ [b.toNat], stall := true } (fun c s =>
    match targetTrap c (fun l => c.pair l a) with
    | some t => .trap t 0
    | none =>
      let placed := spawnPlaced c
      let r := placeSpawns s.clock.toNat (spawnTimeout c.launch) (fun l => c.pair l a) (fun l => c.word l b)
        (c.lanes.filter (fun l => !placed.getLsbD l)) (c.crew.squad c.squad) placed
      let s := s.modCrew c.core (fun cr => cr.setSquad c.squad r.1)
      match r.2 with
      | some (p, l) =>
        .hold (.bins (c.pair l a)) (s.modGang c.core c.slot (fun g => g.modLanes p (fun _ f => { f with arrived := true })))
      | none => .done s) s

/-! ## Ready groups, yield and sleep -/

/-- yield (R161). A ready group that stands at the next unit is no other group: the yielding group joins it there (R143). -/
def execYield (x : Pfx) (s : State) : Host.Outcome State Fault Refusal :=
  issueUnit x {} (fun c s =>
    let meets (f : Fibre) : Bool := f.pc == c.nextPc && f.wbase == (c.gang.fibre c.low).wbase
    let others := maskWhere (fun l => (match s.issue with | some i => i.ready.getLsbD l | none => false) &&
      !c.mask.getLsbD l && !meets (c.gang.fibre l))
    if c.acts = 0 || others = 0 then .done s
    else .done (s.modGang c.core c.slot (fun g => g.modLanes c.mask (fun _ f =>
      { f with hold := some (.yielded others s.clock.toNat), safe := none })))) s

/-- sleep (R162). -/
def execSleep (x : Pfx) (a : Reg) (s : State) : Host.Outcome State Fault Refusal :=
  issueUnit x (needRW [a.toNat] []) (fun c s =>
    let n := (c.word c.low a).toNat
    if c.acts = 0 || n = 0 then .done s
    else .done (s.modGang c.core c.slot (fun g => g.modLanes c.mask (fun _ f =>
      { f with hold := some (.sleep (s.clock.toNat + n)), safe := c.x.safe })))) s

/-! ## Trap instructions -/

/-- trap raises cause 0x0E (R172). -/
def execTrap (x : Pfx) (s : State) : Host.Outcome State Fault Refusal :=
  issueUnit x {} (fun c s => if c.acts = 0 then .done s else .trap { cause := 0x0e, lane := c.low } 0) s

/-- bkpt raises cause 0x0D, or halts the gang where debug halt is armed for its launch; a resumed one is a nop
(R172, R405). -/
def execBkpt (x : Pfx) (s : State) : Host.Outcome State Fault Refusal :=
  issueUnit x {} (fun c s =>
    if c.acts = 0 || (c.gang.fibre c.low).arrived then .done s
    else if s.mgmt.debugHalt != 0 && s.mgmt.debugHalt == c.launch.num then .hold .debugHalt s
    else .trap { cause := 0x0d, lane := c.low } 0) s

/-- tret (R169). -/
def execTret (x : Pfx) (s : State) : Host.Outcome State Fault Refusal :=
  issueUnit x {} (fun c s =>
    if c.acts = 0 then .done s
    else if c.gang.handler.isNone then .trap { cause := 1, lane := c.low } 0
    else .jump ((s.setPcs c (fun _ => none)).modGang c.core c.slot (fun g =>
      returnFromTrap s.clock.toNat g c.acts))) s

end Sys2Proof.Machine
end

