-- ==== Sys2Proof/Machine/Trans.lean ====
section
/-! DEFINITION. The transcendentals of R137 and their tangents: each function value is enclosed between two multiples of a
small power of two about 2^-620 apart, and the middle of the enclosure is rounded, once and as an inexact value. No rounding
boundary lies inside (log 7), so this is the exact value's rounding. The three constants are ln 2, 1 / ln 2 and π / 2 in fixed
point, rounded down. -/

namespace Sys2Proof.Machine

/-- Fraction bits of the fixed-point evaluation. -/
def fixBits : Nat := 640
def fixOne : Nat := 2 ^ fixBits
/-- Fraction bits of halfPi. -/
def piBits : Nat := 840

/-- ln 2 × 2^640. -/
def ln2Fix : Nat :=
  0xb17217f7d1cf79abc9e3b39803f2f6af40f343267298b62d8a0d175b8baafa2be7b876206debac98559552fb4afa1b10ed2eae35c138214427573b291169b8253e96ca16224ae8c51acbda11317c387e
/-- 2^640 / ln 2. -/
def invLn2Fix : Nat :=
  0x171547652b82fe1777d0ffda0d23a7d11d6aef551bad2b4b1164a2cd9a342648fbc3887eeaa2ed9ac49b25eeb82d7c167d52173cc1895213f897f5e06a7be73665fc529264c2fb3ab643687aaf3ab440c
/-- π / 2 × 2^840. -/
def halfPiFix : Nat :=
  0x1921fb54442d18469898cc51701b839a252049c1114cf98e804177d4c76273644a29410f31c6809bbdf2a33679a748636605614dbe4be286e9fc26adadaa3848bc90b6aecc4bcfd8de89885d34c6fdad617feb96de80d6fdbdc70d7f6b5133f4b5d3e4822f8963fcc92

/-- A magnitude that lies strictly between lo × 2^e and hi × 2^e. -/
structure Apx where
  lo : Nat
  hi : Nat
  e : Int
deriving DecidableEq, Repr

/-- The enclosure of x × 2^-640 with an error below 2^20 units. -/
def Apx.near (x : Nat) : Apx := { lo := x - 2 ^ 20, hi := x + 2 ^ 20, e := -(fixBits : Int) }
def Apx.shift (a : Apx) (k : Int) : Apx := { a with e := a.e + k }

/-- Σ x^k / k! from term k on, x in fixed point; term is x^k / k!. -/
def expTerms (x : Nat) : Nat → Nat → Nat → Nat → Nat
  | 0, _, _, s => s
  | n + 1, k, term, s => expTerms x n (k + 1) (term * x / fixOne / k) (s + term)

/-- e^x for 0 ≤ x ≤ 1 in fixed point. -/
def expFix (x : Nat) : Nat := expTerms x 150 1 fixOne 0

/-- Σ z^(2k+1) / (2k+1), z2 = z². -/
def atanhTerms (z2 : Nat) : Nat → Nat → Nat → Nat → Nat
  | 0, _, _, s => s
  | n + 1, k, p, s => atanhTerms z2 n (k + 2) (p * z2 / fixOne) (s + p / k)

/-- ln(num / den) for num ≥ den, num < 2 × den, in fixed point. -/
def lnFix (num den : Nat) : Nat :=
  let z := (num - den) * fixOne / (num + den)
  2 * atanhTerms (z * z / fixOne) 210 1 z 0

/-- Σ ± r^k / k! in steps of two, starting from term with the next factor k. -/
def sinTerms (r2 : Nat) : Nat → Nat → Nat → Bool → Int → Int
  | 0, _, _, _, s => s
  | n + 1, k, term, neg, s =>
    sinTerms r2 n (k + 2) (term * r2 / fixOne / (k * (k + 1))) (!neg) (if neg then s - term else s + term)

/-- sin r and cos r for 0 ≤ r ≤ π/2, in fixed point. -/
def sinFix (r : Nat) : Nat := (sinTerms (r * r / fixOne) 80 2 r false 0).toNat
def cosFix (r : Nat) : Nat := (sinTerms (r * r / fixOne) 80 1 fixOne false 0).toNat

/-- The quadrant of x = n × 2^e mod 4 and the rest below π/2, in fixed point. -/
def reducePi (n : Nat) (e : Int) : Nat × Nat :=
  let x := shiftUp n ((piBits : Int) + e)
  (x / halfPiFix % 4, x % halfPiFix / 2 ^ (piBits - fixBits))

/-- sin of a nonzero n × 2^e: sign and magnitude. -/
def sinApx (n : Nat) (e : Int) : Bool × Apx :=
  let (q, r) := reducePi n e
  (decide (2 ≤ q), .near (if q % 2 == 0 then sinFix r else cosFix r))

/-- cos of a nonzero n × 2^e. -/
def cosApx (n : Nat) (e : Int) : Bool × Apx :=
  let (q, r) := reducePi n e
  (decide (q == 1 || q == 2), .near (if q % 2 == 0 then cosFix r else sinFix r))

/-- 2^(i + f / 2^640) as an enclosure. -/
def pow2Apx (i : Int) (f : Nat) : Apx := (Apx.near (expFix (f * ln2Fix / fixOne))).shift i

/-- 2^x for x = ± n × 2^e that is not an integer. Beyond ±4096 every rounding of it, or of its product with a number
of the fp32 range, overflows or underflows alike. -/
def exp2Apx (neg : Bool) (n : Nat) (e : Int) : Apx :=
  if log2Ratio n 1 + e ≥ 12 then { lo := 1, hi := 2, e := if neg then -4096 else 4096 }
  else
    let x : Int := shiftUp n ((fixBits : Int) + e)
    let x := if neg then -x else x
    pow2Apx (x / (fixOne : Int)) (x % (fixOne : Int)).toNat

/-- log2 of n × 2^e, not a power of two: sign and magnitude. -/
def log2Apx (n : Nat) (e : Int) : Bool × Apx :=
  let k := Nat.log2 n
  let l := lnFix n (2 ^ k) * invLn2Fix / fixOne
  let x : Int := ((k : Int) + e) * fixOne + l
  (decide (x < 0), .near x.natAbs)

/-- e^(-2x) for x = n × 2^e below 4096: 2^-k × u, 1 ≤ u ≤ 2. -/
def expNeg2 (n : Nat) (e : Int) : Nat × Nat :=
  let x := shiftUp n ((fixBits : Int) + e + 1)
  let y := x * invLn2Fix / fixOne
  (y / fixOne + 1, expFix ((fixOne - y % fixOne) * ln2Fix / fixOne))

/-- tanh of x = n × 2^e > 0. -/
def tanhApx (n : Nat) (e : Int) : Apx :=
  if log2Ratio n 1 + e ≥ 12 then { lo := fixOne - 1, hi := fixOne, e := -(fixBits : Int) }
  else
    let (k, u) := expNeg2 n e
    let t := u / 2 ^ k
    let a := Apx.near ((fixOne - t) * fixOne / (fixOne + t))
    { a with hi := min a.hi fixOne }

/-- 1 − tanh² of x = n × 2^e > 0, with relative accuracy. -/
def sech2Apx (n : Nat) (e : Int) : Apx :=
  if log2Ratio n 1 + e ≥ 12 then { lo := 1, hi := 2, e := -8192 }
  else
    let (k, u) := expNeg2 n e
    let t := u / 2 ^ k
    let w := (fixOne + t) * (fixOne + t) / fixOne
    (Apx.near (u * fixOne / w)).shift (2 - (k : Int))

/-- Round num / den × 2^e times an enclosed irrational magnitude. -/
def roundApx (f : Fmt) (mode : RMode) (draw : Nat) (neg : Bool) (num den : Nat) (e : Int) (a : Apx) : Nat × Word :=
  if num == 0 then (f.signCode neg, 0)
  else roundMag f mode draw neg ((a.lo + a.hi) * num) (a.e + e - 1) den true

/-- The transcendentals of R137. -/
inductive Trans where
  | exp2 | log2 | sin | cos | tanh
deriving DecidableEq, Repr

/-- n × 2^e is a power of two: its exponent. -/
def powerOfTwo (n : Nat) (e : Int) : Option Int :=
  if n == 2 ^ Nat.log2 n then some ((Nat.log2 n : Int) + e) else none

/-- n × 2^e is an integer: its value. -/
def integerOf (neg : Bool) (n : Nat) (e : Int) : Option Int :=
  if e ≥ 0 then
    if e > 64 then none else some (if neg then -(shiftUp n e : Int) else shiftUp n e)
  else if n % 2 ^ (-e).toNat == 0 then
    some (if neg then -((n / 2 ^ (-e).toNat : Nat) : Int) else (n / 2 ^ (-e).toNat : Nat))
  else none

/-- The primal of a transcendental on an fp32 operand (R137). -/
def transPrimal (t : Trans) (mode : RMode) (a : Val) : Nat × Word :=
  match a with
  | .nan s => (Fmt.f32.nanCode, flagIf s fIV)
  | .inf s =>
    match t with
    | .exp2 => (if s then 0 else Fmt.f32.infCode, 0)
    | .log2 => if s then (Fmt.f32.nanCode, fIV) else (Fmt.f32.infCode, 0)
    | .sin | .cos => (Fmt.f32.nanCode, fIV)
    | .tanh => roundFp .f32 mode 0 (.fin s 1 0 1)
  | .fin s n e _ =>
    if n == 0 then
      match t with
      | .exp2 | .cos => roundFp .f32 mode 0 (.fin false 1 0 1)
      | .log2 => (Fmt.f32.signCode true + Fmt.f32.infCode, fDZ)
      | .sin | .tanh => (Fmt.f32.signCode s, 0)
    else
      match t with
      | .exp2 =>
        match integerOf s n e with
        | some i =>
          let i := max (-4096) (min 4096 i)
          roundMag .f32 mode 0 false 1 i 1 false
        | none => roundApx .f32 mode 0 false 1 1 0 (exp2Apx s n e)
      | .log2 =>
        if s then (Fmt.f32.nanCode, fIV)
        else
          match powerOfTwo n e with
          | some i => roundFp .f32 mode 0 (.ofInt i)
          | none => let r := log2Apx n e; roundApx .f32 mode 0 r.1 1 1 0 r.2
      | .sin => let r := sinApx n e; roundApx .f32 mode 0 (r.1 != s) 1 1 0 r.2
      | .cos => let r := cosApx n e; roundApx .f32 mode 0 r.1 1 1 0 r.2
      | .tanh => roundApx .f32 mode 0 s 1 1 0 (tanhApx n e)

/-- An enclosed irrational factor, signed, times a tangent that may be any value. -/
def factorTimes (mode : RMode) (neg : Bool) (a : Apx) (ta : Val) : Nat × Word :=
  match ta with
  | .nan s => (Fmt.f32.nanCode, flagIf s fIV)
  | .inf s => (Fmt.f32.signCode (s != neg) + Fmt.f32.infCode, 0)
  | .fin s n e d => roundApx .f32 mode 0 (s != neg) n d e a

/-- An exact product rounded. -/
def productOf (mode : RMode) (a ta : Val) : Nat × Word := (Ex.mul (.of a) (.of ta)).round .f32 mode 0

/-- The tangent of a transcendental (R137): the exact expression, by the function's exact value. -/
def transTangent (t : Trans) (mode : RMode) (a ta : Val) : Nat × Word :=
  let invLn2 : Apx := { lo := invLn2Fix, hi := invLn2Fix + 1, e := -(fixBits : Int) }
  match a with
  | .nan s => let r := (Ex.mul (.of (.nan s)) (.of ta)).round .f32 mode 0; r
  | .inf s =>
    match t with
    | .exp2 => productOf mode (if s then .zero false else .inf false) ta
    | .log2 => (Ex.div (.of ta) (.of (.inf s))).round .f32 mode 0
    | .sin | .cos =>
      let r := productOf mode (.nan false) ta
      (r.1, r.2 ||| fIV)
    | .tanh => productOf mode (.zero (zeroSign mode)) ta
  | .fin s n e d =>
    match t with
    | .exp2 =>
      let f := if n == 0 then pow2Apx 0 0 else exp2Apx s n e
      -- ln 2 × 2^a, both enclosed
      let g : Apx := { lo := f.lo * ln2Fix, hi := f.hi * (ln2Fix + 1), e := f.e - fixBits }
      let exact : Option Int := if n == 0 then some 0 else integerOf s n e
      match exact with
      | some i =>
        factorTimes mode false
          { lo := ln2Fix, hi := ln2Fix + 1, e := max (-4096) (min 4096 i) - fixBits } ta
      | none => factorTimes mode false g ta
    | .log2 =>
      if n == 0 then (Ex.div (.of ta) (.of (.zero s))).round .f32 mode 0
      else
        let q := divV ta (.fin s n e d)
        let r := factorTimes mode false invLn2 q.v
        (r.1, r.2 ||| q.fl)
    | .sin =>
      if n == 0 then productOf mode (.fin false 1 0 1) ta
      else let r := cosApx n e; factorTimes mode r.1 r.2 ta
    | .cos =>
      if n == 0 then productOf mode (.zero (!s)) ta
      else let r := sinApx n e; factorTimes mode (!(r.1 != s)) r.2 ta
    | .tanh =>
      if n == 0 then productOf mode (.fin false 1 0 1) ta
      else factorTimes mode false (sech2Apx n e) ta

end Sys2Proof.Machine
end

