-- ==== Sys2Proof/Machine/Flags.lean ====
section
/-! DEFINITION. Floating-point operands and results lane by lane, with their exception flags (R116), their tangents
under the DUAL modes (R117, R293) and the flags of a tangent, which never trap (R296). -/

namespace Sys2Proof.Machine

/-- The format of one element of a type (R116). -/
def eltFmt : FType → Fmt
  | .f32 => .f32 | .f16x2 => .f16 | .bf16x2 => .bf16 | .f64 => .f64

/-- Elements of a value of a type. -/
def eltCount : FType → Nat
  | .f16x2 | .bf16x2 => 2 | .f32 | .f64 => 1

/-- The encoding of element e (R116). -/
def elt (t : FType) (v : Addr) (e : Nat) : Nat := v.toNat / 2 ^ (16 * e) % 2 ^ (eltFmt t).bits

/-- A result element by element, with the flags of every element. -/
def packed (t : FType) (f : Nat → Nat × Word) : Addr × Word :=
  (List.range (eltCount t)).foldl (fun r e =>
    let y := f e
    (r.1 + BitVec.ofNat 64 (y.1 * 2 ^ (16 * e)), r.2 ||| y.2)) (0, 0)

/-- An operand as an exact value. -/
def ex (f : Fmt) (code : Nat) : Ex := .of (decodeFp f code)

/-- An operand that passes through one rounding alone: a signalling NaN raises IV (R51). -/
def exAlone (f : Fmt) (code : Nat) : Ex := let v := decodeFp f code; ⟨v, sigFlag v⟩

/-- An operation on elements: its primal from a, b and the old destination, and its tangent from these, the delivered
primal y, and their shadows. -/
structure FpOp where
  primal : RMode → Fmt → Nat → Nat → Nat → Nat × Word
  tangent : RMode → Fmt → (a b y ta tb td : Nat) → Nat × Word
  /-- It reads the old destination. -/
  old : Bool := false

/-- Destination, shadows and flags under DUAL's mode (R293): y is the primal with its flags, tan the rule of
shadow k. -/
def dualOut (c : UnitCtx) (l : Nat) (wide : Bool) (d : Reg) (y : Addr × Word) (tan : Nat → Addr × Word) : LaneOut :=
  let primal : Addr × Word := if c.dual = .get then tan c.dualK else (y.1, 0)
  let shadows := (List.range c.t).map (fun k => (k,
    match c.dual with
    | .implicit => tan k
    | .seed => if k = c.dualK then (c.gang.regN wide 0 l c.dualReg, (0 : Word)) else tan k
    | .get | .zero | .none => (0, 0)))
  { regs := c.gang.wrN wide 0 l d.toNat primal.1 ++ shadows.flatMap (fun s => c.gang.wrN wide (s.1 + 1) l d.toNat s.2.1)
    flags := y.2
    tflags := shadows.foldl (fun a s => a ||| s.2.2) primal.2 }

/-- A floating-point operation of one lane: d := op a b (R116, R117). -/
def fpLane (op : FpOp) (t : FType) (d a b : Reg) (c : UnitCtx) (l : Nat) : LaneOut :=
  let src (p : Nat) (n : Reg) := c.gang.regN t.wide p l n.toNat
  let y := packed t (fun e => op.primal c.mode (eltFmt t) (elt t (src 0 a) e) (elt t (src 0 b) e) (elt t (src 0 d) e))
  dualOut c l t.wide d y (fun k => packed t (fun e =>
    op.tangent c.mode (eltFmt t) (elt t (src 0 a) e) (elt t (src 0 b) e) (elt t y.1 e)
      (elt t (src (k + 1) a) e) (elt t (src (k + 1) b) e) (elt t (src (k + 1) d) e)))

/-- A unit of two operands. -/
def fpUnit (x : Pfx) (op : FpOp) (t : FType) (d a b : Reg) (s : State) : Host.Outcome State Fault Refusal :=
  issueUnit x (needSeed t.wide (regsOf t.wide a ++ regsOf t.wide b ++ if op.old then regsOf t.wide d else []) (regsOf t.wide d))
    (laneUnit (fpLane op t d a b)) s

/-- A unit of one operand. -/
def fpUnit1 (x : Pfx) (op : FpOp) (t : FType) (d a : Reg) (s : State) : Host.Outcome State Fault Refusal :=
  issueUnit x (needSeed t.wide (regsOf t.wide a) (regsOf t.wide d)) (laneUnit (fpLane op t d a a)) s

end Sys2Proof.Machine
end

