-- ==== Sys2Proof/Machine/Translate.lean ====
section
/-! DEFINITION. Translation of generic addresses: the heap window (R320 to R322), the page tables and their walk
(R326 to R332), the TLBs (R323 to R325) and the fault queues (R333). -/

namespace Sys2Proof.Machine

/-! ## Physical memory by bytes -/

/-- n bytes of device memory. -/
def memBytes (m : Mem) (pa n : Nat) : List Byte := (List.range n).map (fun i => m.get 0 (pa + i))

/-- The little-endian value of n bytes of device memory. -/
def memNat (m : Mem) (pa n : Nat) : Nat := natOfBytes (memBytes m pa n)

/-- Device memory's size (R298). -/
def memSize : Nat := 2 ^ 39

/-! ## What an access is -/

/-- The accesses a page's permissions distinguish, with the KIND code of a fault record (R332, R333). -/
inductive AccessKind where
  | load | store | fetch | engineRead | engineWrite
deriving DecidableEq, Repr

def AccessKind.code : AccessKind → Nat
  | load => 0 | store => 1 | fetch => 2 | engineRead => 3 | engineWrite => 4
def AccessKind.ofCode : Nat → AccessKind
  | 1 => store | 2 => fetch | 3 => engineRead | 4 => engineWrite | _ => load
def AccessKind.writes : AccessKind → Bool
  | store | engineWrite => true | _ => false

/-- What a translation gives. -/
inductive Trans1 where
  | pa (pa : Nat)
  | unmapped
  | absent (page : Addr) (shift : Nat) (migrating : Bool)
  | broken
deriving DecidableEq, Repr

/-! ## The heap window (R320 to R322) -/

def State.ctxAt (s : State) (c : Nat) : Ctx := s.ctxs.get {} c

/-- The byte address of BASE or LIM. -/
def heapByte (r : Addr) : Nat := (r.extractLsb' 21 35).toNat * 2 ^ 21

/-- OFF as a two's-complement value. -/
def heapOff (c : Ctx) : Addr := c.off &&& ~~~0x1fffff#64

/-- The address lies in the window. -/
def inWindow (c : Ctx) (v : Nat) : Bool := c.base.getLsbD 0 && decide (heapByte c.base ≤ v) && decide (v < heapByte c.lim)

/-- The window's translation (R322). -/
def windowPa (c : Ctx) (v : Nat) : Nat := (BitVec.ofNat 64 v + heapOff c).toNat

/-- The conditions of R321 on a window to be enabled. -/
def windowOk (w : Window) (c : Ctx) : Bool :=
  let hb := heapByte c.base
  let hl := heapByte c.lim
  let lo : Int := hb + (heapOff c).toInt
  let hi : Int := hl + (heapOff c).toInt
  let pb := w.ptrbase.toNat
  let pl := w.ptrbase.toNat + w.ptrsize.toNat
  decide (hb < hl) && decide (0 ≤ lo) && decide (hi ≤ (memSize : Int)) &&
    (decide (hi ≤ (pb : Int)) || decide ((pl : Int) ≤ lo))

/-! ## The walk (R326 to R331) -/

/-- A range lies wholly in the pinned table region (R326). -/
def pinned (w : Window) (base n : Nat) : Bool :=
  decide (w.ptrbase.toNat ≤ base) && decide (base + n ≤ w.ptrbase.toNat + w.ptrsize.toNat)

/-- Page shifts by size index (R328). -/
def pageShift (i : Nat) : Nat := match i with | 0 => 12 | 1 => 16 | 2 => 21 | _ => 30

/-- A size descriptor (R327). -/
structure SizeDesc where
  newb : Nat
  oldb : Nat
  nlog : Nat
  olog : Nat
  st : Nat
deriving DecidableEq, Repr

def sizeDesc (s : State) (ctx i : Nat) : SizeDesc :=
  let a := s.window.ptrbase.toNat + 256 * ctx + 32 * i
  { newb := memNat s.mem a 8, oldb := memNat s.mem (a + 8) 8, nlog := memNat s.mem (a + 16) 1,
    olog := memNat s.mem (a + 17) 1, st := memNat s.mem (a + 18) 1 }

/-- A table size that R331 allows. -/
def logOk (n : Nat) : Bool := n == 0 || (decide (6 ≤ n) && decide (n ≤ 24))

/-- A table that the walk reads: aligned and wholly pinned (R331). -/
def tableOk (s : State) (base log : Nat) : Bool :=
  log == 0 || (base % 4096 == 0 && pinned s.window base (3 * 2 ^ log * 16))

/-- check_descriptor of R329. -/
def descOk (s : State) (d : SizeDesc) : Bool :=
  logOk d.nlog && logOk d.olog && decide (d.st ≤ 1) && tableOk s d.newb d.nlog && (d.st == 0 || tableOk s d.oldb d.olog)

/-- Address of the slot of way w (R328). -/
def slotAddr (ctx i w base log vpn : Nat) : Nat :=
  let h := (mix32 (BitVec.ofNat 64 (ctx * 256 + i * 4 + w)) (BitVec.ofNat 64 vpn)).toNat % 2 ^ log
  base + (w * 2 ^ log + h) * 16

/-- The entries of one table that match: their two words (R328). -/
def tableHits (s : State) (ctx i base log vpn : Nat) : List (Addr × Addr) :=
  if log = 0 then []
  else
    ((List.range 3).map (fun w =>
      let a := slotAddr ctx i w base log vpn
      (BitVec.ofNat 64 (memNat s.mem a 8), BitVec.ofNat 64 (memNat s.mem (a + 8) 8)))).filter (fun e =>
        e.1.getLsbD 63 && (e.1.extractLsb' 0 44).toNat == vpn)

/-- check_entry of R329. -/
def entryOk (s : State) (i : Nat) (e : Addr × Addr) : Bool :=
  let fr := (e.2.extractLsb' 12 28).toNat * 4096
  let n := 2 ^ pageShift i
  e.1.extractLsb' 44 14 == 0 && e.2.extractLsb' 40 24 == 0 && e.2.extractLsb' 0 12 == 0 && fr % n == 0 &&
    decide (fr < memSize) &&
    (decide (fr + n ≤ s.window.ptrbase.toNat) || decide (s.window.ptrbase.toNat + s.window.ptrsize.toNat ≤ fr))

/-- Permissions of R332. -/
def permits (kind : AccessKind) (priv w x k : Bool) : Bool :=
  (!kind.writes || w) && (kind != .fetch || x) && (!k || priv)

/-- What a walk ends with. -/
inductive Walk where
  | unmapped
  | broken
  | absent (page : Addr) (shift : Nat) (migrating : Bool)
  | found (e : TlbEntry)
deriving DecidableEq, Repr

/-- The match of one size: none, one, or a fault (R329). -/
def sizeHit (s : State) (ctx i v : Nat) : Option (Option (Addr × Addr)) :=
  let d := sizeDesc s ctx i
  let vpn := v / 2 ^ pageShift i
  if !descOk s d then none
  else
    match tableHits s ctx i d.newb d.nlog vpn with
    | [e] => some (some e)
    | _ :: _ :: _ => none
    | [] =>
      if d.st = 1 then
        match tableHits s ctx i d.oldb d.olog vpn with
        | [e] => some (some e)
        | _ :: _ :: _ => none
        | [] => some none
      else some none

/-- The walk of R329, v the low 56 bits of the address. -/
def walk (s : State) (ctx v : Nat) (kind : AccessKind) (priv : Bool) : Walk :=
  if !pinned s.window (s.window.ptrbase.toNat + 256 * ctx) 256 then .broken
  else
    let hits := (List.range 4).map (fun i => (i, sizeHit s ctx i v))
    if hits.any (fun h => h.2.isNone) then .broken
    else
      match hits.filterMap (fun h => (h.2.getD none).map (fun e => (h.1, e))) with
      | [] => .unmapped
      | [(i, e)] =>
        if !entryOk s i e then .broken
        else if !permits kind priv (e.1.getLsbD 60) (e.1.getLsbD 59) (e.1.getLsbD 58) then .unmapped
        else if !(e.1.getLsbD 62) || e.1.getLsbD 61 then
          .absent (BitVec.ofNat 64 (v / 2 ^ pageShift i * 2 ^ pageShift i)) (pageShift i) (e.1.getLsbD 61)
        else .found { ctx := ctx, shift := pageShift i, vpn := v / 2 ^ pageShift i,
                      frame := (e.2.extractLsb' 12 28).toNat * 4096, w := e.1.getLsbD 60, x := e.1.getLsbD 59,
                      k := e.1.getLsbD 58 }
      | _ => .broken

/-! ## TLBs (R323, R324) -/

/-- An entry that covers the address. -/
def TlbEntry.covers (e : TlbEntry) (ctx v : Nat) : Bool := e.ctx == ctx && v / 2 ^ e.shift == e.vpn

def TlbEntry.pa (e : TlbEntry) (v : Nat) : Nat := e.frame + v % 2 ^ e.shift

/-- The cached translation of an address, if a TLB of the core or of its cluster holds it. -/
def tlbLookup (s : State) (core ctx v : Nat) : Option TlbEntry :=
  match (s.coreAt core).tlb.find? (fun e => e.covers ctx v) with
  | some e => some e
  | none => (s.l2tlb.get [] (core / 8)).find? (fun e => e.covers ctx v)

/-- The place of a task record copy (R267): copies lie from taskBase on, in pinned device memory (log 20). Code is not
fetched there. -/
def copyPa (s : State) (kind : AccessKind) (v : Nat) : Option Nat :=
  let b := s.taskBase.toNat
  if kind != .fetch && decide (b ≤ v) && decide (v < b + 64 * min s.taskCount Config.copyCount) then
    some (Config.pinnedCopies + (v - b))
  else none

/-- Translate a generic address for an access of a core (R322, R324). -/
def translate (s : State) (core ctx : Nat) (priv : Bool) (kind : AccessKind) (va : Addr) : Trans1 :=
  let v := va.toNat % 2 ^ 56
  match copyPa s kind v with
  | some pa => .pa pa
  | none =>
    if inWindow (s.ctxAt ctx) v then .pa (windowPa (s.ctxAt ctx) v)
    else
      match tlbLookup s core ctx v with
      | some e => if permits kind priv e.w e.x e.k then .pa (e.pa v) else .unmapped
      | none =>
        match walk s ctx v kind priv with
        | .unmapped => .unmapped
        | .broken => .broken
        | .absent p h m => .absent p h m
        | .found e => .pa (e.pa v)

/-- Put an entry in front of a TLB of n entries, the oldest leaving. -/
def tlbPut (n : Nat) (e : TlbEntry) (t : List TlbEntry) : List TlbEntry := (e :: t.filter (· != e)).take n

/-- Install the translation that an access used (R323): a walk's in both TLBs, one of the L2 TLB in the L1. A hit in the
L1 installs nothing, so an entry that a tlbinv has dropped from the L2 TLB does not come back to it (R177, R325). -/
def State.fillTlb (s : State) (core ctx : Nat) (priv : Bool) (kind : AccessKind) (va : Addr) : State :=
  let v := va.toNat % 2 ^ 56
  let near (e : TlbEntry) : State := s.modCore core (fun k => { k with tlb := tlbPut Config.l1TlbEntries e k.tlb })
  if inWindow (s.ctxAt ctx) v || (copyPa s kind v).isSome then s
  else if (s.coreAt core).tlb.any (fun e => e.covers ctx v) then s
  else
    match (s.l2tlb.get [] (core / 8)).find? (fun e => e.covers ctx v) with
    | some e => near e
    | none =>
      match walk s ctx v kind priv with
      | .found e =>
        { near e with l2tlb := s.l2tlb.put (core / 8) (tlbPut Config.l2TlbEntries e (s.l2tlb.get [] (core / 8))) }
      | _ => s

/-! ## Fault records and structure faults -/

/-- The 32 bytes of a fault record (R333). -/
def faultBytes (r : FaultRec) : List Byte :=
  bytesOfNat 8 r.va.toNat ++ bytesOfNat 4 r.launch ++ bytesOfNat 2 r.ctx ++ bytesOfNat 1 r.kind ++ [0] ++
    bytesOfNat 2 r.core ++ bytesOfNat 2 r.span ++ List.replicate 12 0

/-- FAULTQ of a context's descriptor (R327). -/
def State.faultQueue (s : State) (ctx : Nat) : Nat := memNat s.mem (s.window.ptrbase.toNat + 256 * ctx + 152) 8

/-- The lowest place of a fault queue that no outstanding record takes (log 33). -/
def freePlace (q : List FaultRec) : Nat :=
  ((List.range (q.length + 1)).find? (fun k => !(q.any (fun r => r.place == k)))).getD q.length

/-- Post a fault record; at most one is outstanding per context and page (R333). Where the queue lies in the pinned table
region the record is written there (R326, R327). -/
def State.postFault (s : State) (ctx launch core : Nat) (kind : AccessKind) (page : Addr) (migrating : Bool) : State :=
  let q := s.faults.get [] ctx
  if migrating || q.any (fun r => r.va == page) then s
  else
    let r : FaultRec := { va := page, launch := launch, ctx := ctx, kind := kind.code, core := core,
                          span := s.span.rank.toNat, place := freePlace q }
    let at_ := s.faultQueue ctx + 32 * r.place
    { s with
      faults := s.faults.put ctx (q ++ [r])
      mem := if pinned s.window at_ 32 then s.mem.sets 0 ((faultBytes r).mapIdx (fun i b => (at_ + i, b))) else s.mem }

/-! ## The window's image in the context descriptor (R321, R327) -/

/-- The control plane loads a context's window from its descriptor; a window that R321 does not allow is off (log 115). -/
def State.loadWindow (s : State) (ctx : Nat) : State :=
  let word (k : Nat) : Addr := BitVec.ofNat 64 (memNat s.mem (s.window.ptrbase.toNat + 256 * ctx + 128 + 8 * k) 8)
  let k : Ctx := { base := word 0 &&& 0x00ffffffffe00001#64, lim := word 1 &&& 0x00ffffffffe00000#64,
                   off := word 2 &&& 0xffffffffffe00000#64 }
  { s with ctxs := s.ctxs.put ctx (if windowOk s.window k then k else { k with base := k.base &&& ~~~1#64 }) }

/-- It writes the window back. -/
def State.storeWindow (s : State) (ctx : Nat) : State :=
  let k := s.ctxAt ctx
  let at_ := s.window.ptrbase.toNat + 256 * ctx + 128
  { s with mem := s.mem.sets 0 ((bytesOfNat 8 k.base.toNat ++ bytesOfNat 8 k.lim.toNat ++ bytesOfNat 8 k.off.toNat).mapIdx
      (fun i b => (at_ + i, b))) }

/-- A translation-structure fault ends every launch of the context, worlds included (R331). -/
def structureFault (ctx : Nat) (va : Addr) (s : State) : State :=
  { s with launches := s.launches.map (fun l =>
      if l.rcd.ctx == ctx && l.st != .ending then
        { l with st := .ending, outcome := 7, cause := 6, fatalAddr := va }
      else l) }

end Sys2Proof.Machine
end

