-- ==== Sys2Proof/Machine/Memory.lean ====
section
/-! DEFINITION. Memory as gangs and engines reach it: views (R274, R315), the slices' timestamps and the leased copies
(R307 to R309), the read-only cache (R300), scratchpads and barrier objects (R181, R203, R305), phase counts (R311),
poison (R317), the paths and the address checks (R181, R182), and the side log (R334). -/

namespace Sys2Proof.Machine

/-- Line of a physical address. -/
def lineOf (pa : Nat) : Nat := pa / 128

/-- Home domain and slice of a physical address (R298), as domain × 16 + slice. -/
def homeSlice (pa : Nat) : Nat :=
  let b (lo n : Nat) := pa / 2 ^ lo % 2 ^ n
  (b 21 3 ^^^ b 30 3) * 16 + (b 7 4 ^^^ b 11 4 ^^^ b 15 4 ^^^ b 19 4)

/-- Path mask bits of R95. -/
def maskG : Nat := 0
def maskRO : Nat := 1
def maskPS : Nat := 3
def maskHM : Nat := 4
def maskEN : Nat := 5

/-! ## Views (R274) -/

/-- A view and its ancestors, the nearest first. -/
def viewChain : Nat → Map View → Nat → List Nat
  | 0, _, _ => [0]
  | n + 1, vs, v => if v = 0 then [0] else match vs.find v with | none => [0] | some w => v :: viewChain n vs w.parent

/-- The view in which accesses made in a view lie: its own, or, once it has been committed, that of the parent view, through
which its tag resolves from then on (R315). -/
def viewLive : Nat → Map View → Nat → Nat
  | 0, _, v => v
  | n + 1, vs, v =>
    if v = 0 then 0
    else match vs.find v with | some w => if w.state = 1 then viewLive n vs w.parent else v | none => v

def State.liveView (s : State) (view : Nat) : Nat := viewLive 64 s.views view

def State.chain (s : State) (view : Nat) : List Nat := viewChain 8 s.views (s.liveView view)

/-- The byte a view sees at a physical address: the nearest view along the ancestry that holds it (R274). -/
def State.byteAt (s : State) (view pa : Nat) : Byte :=
  match (s.chain view).findSome? (fun v => if v = 0 then none else (s.views.find v).bind (fun w => w.bytes.find pa)) with
  | some b => b
  | none => s.mem.get 0 pa

def State.bytesAt (s : State) (view pa n : Nat) : List Byte := (List.range n).map (fun i => s.byteAt view (pa + i))

/-- The bytes of a line in a view. -/
def State.lineData (s : State) (view line : Nat) : Mem :=
  if view = 0 then s.mem.slice (line * 128) 128
  else Map.sets 0 [] ((List.range 128).map (fun i => (line * 128 + i, s.byteAt view (line * 128 + i))))

/-- Record written bytes in a view. -/
def State.putBytes (s : State) (view : Nat) (ws : List (Nat × Byte)) : State :=
  let view := s.liveView view
  if view = 0 then { s with mem := s.mem.sets 0 ws }
  else { s with views := s.views.modify view (fun w => { w with bytes := ws.foldl (fun m e => m.put e.1 e.2) w.bytes }) }

/-- Bytes at consecutive addresses. -/
def spread (pa : Nat) (bs : List Byte) : List (Nat × Byte) := bs.mapIdx (fun i b => (pa + i, b))

/-- A view has written to a line, so it holds a copy of its own (R315). -/
def View.hasLine (w : View) (line : Nat) : Bool := w.bytes.keys.any (fun a => lineOf a == line)

/-- The view whose copy of a line a view sees: the nearest along its ancestry that holds one (R274, R315). -/
def State.copyView (s : State) (view line : Nat) : Nat :=
  ((s.chain view).find? (fun v => v != 0 && (match s.views.find v with | some w => w.hasLine line | none => false))).getD 0

/-- Lines that views other than 0 hold. -/
def State.viewLines (s : State) : Nat :=
  s.views.foldl (fun n e => n + ((e.2.bytes.keys.map lineOf).eraseDups).length) 0

/-- Lines that slices and view pool can hold for views (R283). -/
def State.viewRoom (s : State) : Nat := Config.sliceLines + s.window.vpsize.toNat / 128

/-- Whether writing these addresses in the view would need more space than there is (R283). -/
def State.viewExhausted (s : State) (view : Nat) (pas : List Nat) : Bool :=
  let view := s.liveView view
  if view = 0 then false
  else
    match s.views.find view with
    | none => false
    | some w =>
      let fresh := ((pas.map lineOf).eraseDups).filter (fun n => !w.hasLine n)
      !fresh.isEmpty && decide (s.viewLines + fresh.length > s.viewRoom)

/-! ## Timestamps (R307) -/

def State.timeOf (s : State) (view line : Nat) : LineTime := s.lines.get {} (line * 64 + s.liveView view)

/-- slice_load of R307 in a view and its ancestors: the state, wts and rts. -/
def State.sliceLoad (s : State) (view line pts : Nat) : State × Nat × Nat :=
  (s.chain view).foldl (fun r v =>
    let t := r.1.timeOf v line
    let t := if t.rts < pts + Config.lease then { t with rts := pts + Config.lease } else t
    ({ r.1 with lines := r.1.lines.put (line * 64 + v) t, ltime := max r.1.ltime t.wts },
     max r.2.1 t.wts, if r.2.2 = 0 then t.rts else min r.2.2 t.rts)) (s, 0, 0)

/-- A core that holds a copy of the line in the view or in a view below it, or past whose fence a gang read it
(R308, R309). -/
def Core.holdsLine (k : Core) (s : State) (view line : Nat) : Bool :=
  k.l1.any (fun e => e.line == line && (s.chain e.view).contains view)

def Crew.readPastFence (c : Crew) (line : Nat) : Bool :=
  c.gangs.any (fun g => match g.2.fence with | some f => f.lines.contains line | none => false)

/-- Send a lease break, or a view retag, to every core that holds the line (R307, R315). -/
def State.breakLeases (s : State) (view line : Nat) (retag : Bool) : State :=
  { s with cores := s.cores.map (fun e =>
      if e.2.holdsLine s view line || (match s.crewAt e.1 with | some c => c.readPastFence line | none => false) then
        (e.1, { e.2 with ctl := e.2.ctl ++ [if retag then .viewRetag line view else .leaseBreak line view] })
      else e) }

/-- slice_write of R307 without the bytes: the state and wts. A world's first write to a line retags it (R315). -/
def State.sliceWrite (s : State) (view line pts : Nat) : State × Nat :=
  let t := s.timeOf view line
  let wts := max pts (t.rts + 1)
  let view := s.liveView view
  let first := view != 0 && (match s.views.find view with | some w => !w.hasLine line | none => false)
  let s := s.breakLeases view line first
  ({ s with lines := s.lines.put (line * 64 + view) { wts := wts, rts := wts }, ltime := max s.ltime wts }, wts)

/-- The copy of a line that a view sees is poisoned (R317). -/
def State.linePoisoned (s : State) (view line : Nat) : Bool := s.poison.contains (line * 64 + s.copyView view line)

/-- A view's first copy of a poisoned line is made poisoned (R315, R317). -/
def State.copyPoison (s : State) (view : Nat) (pas : List Nat) : State :=
  if s.poison.isEmpty || view = 0 then s
  else
    { s with poison := s.poison ++ (((pas.map lineOf).eraseDups).filter (fun n =>
        s.copyView view n != s.liveView view && s.linePoisoned view n)).map (fun n => n * 64 + s.liveView view) }

/-- A view's copy of a line keeps its poison until one write in the view covers it (R317). -/
def State.clearPoison (s : State) (view : Nat) (pas : List Nat) : State :=
  if s.poison.isEmpty then s
  else
    { s with poison := s.poison.filter (fun k =>
        !(k % 64 == s.liveView view && (List.range 128).all (fun i => pas.contains (k / 64 * 128 + i)))) }

/-- Writes at physical addresses in a view, each line once: the state and the last wts. -/
def State.storeBytes (s : State) (view pts : Nat) (ws : List (Nat × Byte)) : State × Nat :=
  let r := ((ws.map (fun e => lineOf e.1)).eraseDups).foldl (fun r n =>
    let q := r.1.sliceWrite view n pts
    (q.1, max r.2 q.2)) (s.copyPoison view (ws.map Prod.fst), pts)
  ((r.1.putBytes view ws).clearPoison view (ws.map Prod.fst), r.2)

/-- Note the logical time of a write of a squad, or of a core's engines as its fifth writer (R314). -/
def State.noteWrite (s : State) (core writer time : Nat) : State :=
  { s with written := s.written.put (core * 8 + writer) (max (s.written.get 0 (core * 8 + writer)) time) }

/-! ## Leased copies and the read-only cache -/

/-- The L1 that holds a line for a core (R299). -/
def l1Owner (fused : Bool) (core line : Nat) : Nat :=
  if fused then core / 8 * 8 + (line % 8 ^^^ (line / 8 % 8)) else core

/-- FLAGS.FUSED of a launch (R345), in a cluster that it was placed on, while all the crews of that cluster run (R352);
a cluster of world crews elsewhere is not fused (R365). -/
def State.fusedAt (s : State) (l : Launch) (core : Nat) : Bool :=
  l.rcd.flags.getLsbD 2 && (List.range 8).all (fun i =>
    l.cores.contains (core / 8 * 8 + i) &&
      match s.crewAt (core / 8 * 8 + i) with | some c => c.launch == l.num | none => false)

/-- The L1 that holds a line for a core now. -/
def State.ownerAt (s : State) (core line : Nat) : Nat :=
  match (s.crewAt core).bind (fun c => s.launchOf c.launch) with
  | some l => l1Owner (s.fusedAt l core) core line
  | none => core

/-- In a cluster that is fused no L1 but the one of R299 keeps a copy of a line. -/
def State.fuseClusters (s : State) (l : Launch) : State :=
  { s with cores := s.cores.map (fun e =>
      if s.fusedAt l e.1 then (e.1, { e.2 with l1 := e.2.l1.filter (fun k => l1Owner true e.1 k.line == e.1) }) else e) }

/-- A generic load of a line: a leased copy, or a renewal at the slice (R307): the state, the new pts and the line. -/
def State.loadLine (s : State) (owner view pts line : Nat) : State × Nat × Mem :=
  match (s.coreAt owner).l1.find? (fun e => e.line == line && e.view == view && e.wts ≤ pts && pts ≤ e.rts) with
  | some e => (s, max pts e.wts, e.data)
  | none =>
    let r := s.sliceLoad view line pts
    let data := s.lineData view line
    let s := r.1.modCore owner (fun k =>
      { k with l1 := ({ line := line, view := view, wts := r.2.1, rts := r.2.2, data := data } ::
          k.l1.filter (fun e => e.line != line || e.view != view)).take Config.l1Lines })
    (s, max pts r.2.1, data)

/-- A line of the read-only cache (R300). -/
def Core.roLine (k : Core) (view line : Nat) : Option RoLine := k.ro.find? (fun e => e.line == line && e.view == view)

/-- Put a line into its set of the read-only cache (R297): of a full set the line filled longest ago leaves (log 26). -/
def Core.fillRo (k : Core) (e : RoLine) : Core :=
  let others := k.ro.filter (fun o => o.line != e.line || o.view != e.view)
  let set_ (o : RoLine) : Bool := o.line % Config.roSets == e.line % Config.roSets
  let leaves := (others.filter set_).drop (Config.roWays - 1)
  { k with ro := e :: others.filter (fun o => !leaves.contains o) }

/-- A load on the read-only path (R300). A load past a fence that is to drop the read-only lines misses (R199). -/
def State.loadRo (s : State) (miss : Bool) (core owner view pts line : Nat) : State × Nat × Mem :=
  match (if miss then none else (s.coreAt core).roLine view line) with
  | some e => (s, pts, e.data)
  | none =>
    let r := s.loadLine owner view pts line
    (r.1.modCore core (fun k => k.fillRo { line := line, view := view, data := r.2.2 }), r.2)

/-- A parity error in a read-only line drops it and refills it with the generic order's current value (R318). -/
def State.refillRo (s : State) (core owner view line : Nat) : State :=
  match (s.coreAt core).roLine view line with
  | none => s
  | some e => ((s.modCore core (fun k => { k with ro := k.ro.erase e })).loadRo true core owner view s.ltime line).1

/-! ## Scratchpads and barrier objects -/

/-- The bytes of a barrier object (R203). -/
def barrierBytes (b : Barrier) : List Byte :=
  bytesOfNat 2 b.arr ++ bytesOfNat 2 b.expc ++ bytesOfNat 4 b.bytes ++ bytesOfNat 4 b.expb ++
    [BitVec.ofNat 8 b.ph.toNat, 0, 0, 0]

def Crew.barrier (c : Crew) (n : Nat) : Barrier := c.barriers.getD n {}
def Crew.setBarrier (c : Crew) (n : Nat) (b : Barrier) : Crew := { c with barriers := c.barriers.set n b }

/-- check(n) of R204. -/
def Barrier.check (b : Barrier) : Barrier :=
  if b.arr ≥ b.expc ∧ b.bytes ≥ b.expb then { b with bytes := b.bytes - b.expb, arr := 0, expb := 0, ph := !b.ph }
  else b

/-- A byte arrival (R204). -/
def Barrier.land (b : Barrier) (n : Nat) : Barrier := { b with bytes := min (b.bytes + n) (2 ^ 32 - 1) }.check

/-- Bytes of a crew's scratchpad. -/
def Crew.padBytes (c : Crew) (off n : Nat) : List Byte := memBytes c.scratch off n

/-- Bytes of its barrier window. -/
def Crew.windowBytes (c : Crew) (off n : Nat) : List Byte :=
  let all := (List.range 32).flatMap (fun i => barrierBytes (c.barrier i))
  (List.range n).map (fun i => all.getD (off - 0x80000 + i) 0)

/-- Write scratchpad bytes; a word wholly written has no error left (R316). -/
def State.putPad (s : State) (core : Nat) (ws : List (Nat × Byte)) : State :=
  s.modCrew core (fun c =>
    { c with scratch := c.scratch.sets 0 ws
             padBad := c.padBad.filter (fun o => !(List.range 4).all (fun i => ws.any (fun w => w.1 == o + i))) })

/-- Full/empty bits (R186). -/
def Crew.setFull (c : Crew) (lines : List Nat) (v : Bool) : Crew :=
  { c with full := lines.foldl (fun f n => if v then f ||| (1#4096 <<< n) else f &&& ~~~(1#4096 <<< n)) c.full }

/-- The core a scratchpad path names (R181). -/
def padCore (core : Nat) (a : Addr) : Nat :=
  match (a.extractLsb' 60 4).toNat with
  | 3 => core / 8 * 8 + (a.extractLsb' 48 3).toNat
  | 4 => core / 64 * 64 + (a.extractLsb' 48 6).toNat
  | _ => core

/-! ## Phase counts (R311, R391) -/

/-- Two entries of close tables are of one destination, gang and phase. -/
def CloseEntry.same (e t : CloseEntry) : Bool := t.dest == e.dest && t.gang == e.gang && t.phase == e.phase

/-- An entry whose count equals its close's number leaves its table, and its completion is sent (R312, R391). -/
def Slices.matched (q : Slices) : Slices :=
  let full (e : CloseEntry) : Bool := e.close == some e.count
  { q with closes := q.closes.filter (fun e => !full e), completions := q.completions ++ q.closes.filter full }

/-- Entries of a slice's close table, and of a scratchpad port's (R391). -/
def closeEntries (dest : Nat) : Nat := if dest < 128 then 2048 else 256

/-- A destination's table has an entry of this gang and phase, or room for one. -/
def Slices.takes (q : Slices) (e : CloseEntry) : Bool :=
  q.closes.any e.same || decide ((q.closes.filter (fun t => t.dest == e.dest)).length < closeEntries e.dest)

/-- A write is counted in its entry, which it takes if there is none; at a full table it stays in the ejection buffer
(R311, R391). -/
def Slices.count (q : Slices) (e : CloseEntry) : Slices :=
  if q.closes.any e.same then
    { q with closes := q.closes.map (fun t => if e.same t then { t with count := t.count + 1 } else t) }
  else if q.takes e then { q with closes := q.closes ++ [{ e with count := 1 }] }
  else { q with stalled := q.stalled ++ [e] }

/-- Matched entries leave, and writes that waited for an entry take one, as often as that frees another. -/
def Slices.settle : Nat → Slices → Slices
  | 0, q => q.matched
  | n + 1, q =>
    let q := q.matched
    if q.stalled.isEmpty then q else Slices.settle n (q.stalled.foldl Slices.count { q with stalled := [] })

/-- A write arrives at its destination and is counted there (R311, R391). -/
def Slices.arrive (q : Slices) (e : CloseEntry) : Slices := (q.count e).settle (q.stalled.length + 1)

/-- A close arrives: it matches the entry of its gang and phase, or takes one (R312, R391). -/
def Slices.close (q : Slices) (e : CloseEntry) : Slices :=
  Slices.settle (q.stalled.length + 1)
    { q with closes :=
        if q.closes.any e.same then q.closes.map (fun t => if e.same t then { t with close := e.close, fence := e.fence } else t)
        else q.closes ++ [e] }

/-- Entries of a destination's close table from which on it asks for closes: 1536 of a slice's 2048 (R391), and the same
share of a scratchpad port's 256 (log 144). -/
def closeLimit (dest : Nat) : Nat := if dest < 128 then 1536 else 192

/-- Ask the owners of a crowded table's 64 oldest entries to close their phases (R391). -/
def State.askCloses (s : State) (dest : Nat) : State :=
  let here := s.slices.closes.filter (fun e => e.dest == dest)
  if here.length ≥ closeLimit dest then
    (here.take 64).foldl (fun s e =>
      match s.findGang e.gang with
      | some p => s.modCore p.1 (fun k => { k with ctl := k.ctl ++ [.closeRequest p.2 e.gang] })
      | none => s) s
  else s

/-- Count a write of a gang at its destination: a slice, or 128 + core for a scratchpad port. A counter that would pass
65 535 closes the phase first. -/
def State.countWrite (s : State) (core slot dest : Nat) : State :=
  match s.gangAt core slot with
  | none => s
  | some g =>
    let full := decide (g.sent.get 0 dest ≥ 65535)
    let s := if full then
        { s with slices := { s.slices with closing := s.slices.closing ++ g.sent.map (fun e =>
            { dest := e.1, gang := g.id, phase := g.phase, close := some e.2 }) } }
      else s
    let phase := if full then g.phase + 1 else g.phase
    let sent : Map Nat := if full then [] else g.sent
    let s := s.modGang core slot (fun g => { g with phase := phase, sent := sent.put dest (sent.get 0 dest + 1) })
    { s with slices := s.slices.arrive { dest := dest, gang := g.id, phase := phase } }.askCloses dest

/-- A slice holds a line that a miss or a prefetch brings in; a full one gives up the line it has held longest
(R297, log 26). -/
def Slices.bringIn (q : Slices) (line : Nat) : Slices :=
  if q.resident.contains line then q
  else
    let mine := q.resident.filter (fun n => homeSlice (n * 128) == homeSlice (line * 128))
    { q with resident := (if mine.length ≥ Config.linesPerSlice then q.resident.erase (mine.headD 0) else q.resident) ++ [line] }

/-! ## Accesses and their checks (R181, R182) -/

/-- The columns of R181's table, with the layout moves of R210. -/
inductive Cls where
  | load | lld | tileLoad | store | lst | tileStore | atom | red | ordAdd | ldFe | stFill | feClr
deriving DecidableEq, Repr

def Cls.writes : Cls → Bool
  | load | lld | tileLoad | ldFe => false | _ => true

/-- Stores that go to the side log where their page is absent (R333). -/
def Cls.logs : Cls → Bool
  | store | lst | tileStore | red | ordAdd => true | _ => false

/-- One access: its lane, its tangent plane (0 is the primal), its place in the unit, its address and size. -/
structure Req where
  lane : Nat
  plane : Nat := 0
  idx : Nat := 0
  addr : Addr
  size : Nat
deriving DecidableEq, Repr

def pathOf (a : Addr) : Nat := (a.extractLsb' 60 4).toNat

/-- R181's yes entries; wordKind says that the kind is .b32 or .b64. -/
def accepts (cls : Cls) (wordKind : Bool) (path : Nat) : Bool :=
  match path, cls with
  | 0, .ldFe | 0, .stFill | 0, .feClr => false
  | 0, _ => true
  | 1, .load | 1, .lld | 1, .tileLoad => true
  | 1, _ => false
  | 2, .ordAdd => false
  | 2, _ => true
  | 3, .ordAdd | 3, .ldFe | 3, .feClr | 4, .ordAdd | 4, .ldFe | 4, .feClr => false
  | 3, _ | 4, _ => true
  | 5, .load | 5, .tileLoad | 5, .store | 5, .tileStore | 5, .atom | 5, .red => true
  | 5, _ => false
  | 6, .load | 6, .store => wordKind
  | _, _ => false

/-- The must-be-zero bits of R181. -/
def zeroBitsOk (a : Addr) : Bool :=
  match pathOf a with
  | 0 | 1 | 5 => a.extractLsb' 56 4 == 0
  | 2 => a.extractLsb' 20 40 == 0
  | 3 => a.extractLsb' 51 9 == 0 && a.extractLsb' 20 28 == 0
  | 4 => a.extractLsb' 54 6 == 0 && a.extractLsb' 20 28 == 0
  | 6 => a.extractLsb' 32 28 == 0
  | _ => false

/-- What a world may not reach at all (R181, R197, R281). -/
def worldRefuses (depth : Nat) (cls : Cls) (path : Nat) : Bool :=
  depth ≥ 1 && (path == 3 || path == 4 || path == 6 || (path == 5 && cls == .atom))

/-- Step 1 of R182. -/
def pathOk (depth : Nat) (cls : Cls) (wordKind : Bool) (a : Addr) : Bool :=
  zeroBitsOk a && accepts cls wordKind (pathOf a) && !worldRefuses depth cls (pathOf a)

/-- Where an access lands. -/
inductive Loc where
  | mem (pa : Nat) (ro : Bool)
  | pad (core off : Nat)
  | bar (core off : Nat)
  | host (off : Nat)
  | reg (off : Nat)
deriving DecidableEq, Repr

/-- The location as an engine reads it, past the read-only cache. -/
def Loc.direct : Loc → Loc
  | .mem pa _ => .mem pa false
  | l => l

/-- Step 4 of R182, with the cases that wait. -/
inductive Place where
  | here (l : Loc)
  | fault
  | broken
  | absent (page : Addr) (shift : Nat) (migrating : Bool)
  | peer (core : Nat)
deriving DecidableEq, Repr

/-- Side-log entries whose page holds the address (R310, R336). -/
def State.loggedPage (s : State) (ctx : Nat) (va : Addr) : Option SideEntry :=
  let hit (e : SideEntry) : Bool := e.ctx == ctx && va.toNat % 2 ^ 56 / 2 ^ e.shift == e.page.toNat / 2 ^ e.shift
  match s.cores.findSome? (fun k => k.2.sideLog.find? hit) with
  | some e => some e
  | none => s.savedLog.find? hit

/-- Who an access is made for. -/
structure Agent where
  core : Nat
  launch : Nat
  ctx : Nat
  priv : Bool
deriving DecidableEq, Repr

def UnitCtx.agent (c : UnitCtx) : Agent :=
  { core := c.core, launch := c.launch.num, ctx := c.launch.rcd.ctx, priv := c.priv }

/-- A generic location (R322 to R336). -/
def placeGeneric (s : State) (w : Agent) (kind : AccessKind) (ro : Bool) (a : Addr) : Place :=
  match translate s w.core w.ctx w.priv kind a with
  | .unmapped => .fault
  | .broken => .broken
  | .absent p h m => .absent p h m
  | .pa pa =>
    match s.loggedPage w.ctx a with
    | some e => .absent e.page e.shift true
    | none => if pa ≥ memSize then .fault else .here (.mem pa ro)

/-- A saved crew of the launch is bound to the core (R341, R355). -/
def State.savedHere (s : State) (launch core : Nat) : Bool :=
  s.parked.any (fun p => p.bound && p.core == core && p.crew.launch == launch)

/-- A scratchpad location of a core (R181, R341). -/
def placePad (s : State) (w : Agent) (barOk : Bool) (core off size : Nat) : Place :=
  match s.crewAt core with
  | some c =>
    if c.launch ≠ w.launch then (if s.savedHere w.launch core then .peer core else .fault)
    else if off + size ≤ c.size then .here (.pad core off)
    else if barOk && decide (0x80000 ≤ off) && decide (off + size ≤ 0x80200) then .here (.bar core off)
    else .fault
  | none => if s.savedHere w.launch core then .peer core else .fault

/-- Step 4 of R182 for one access. -/
def place (s : State) (w : Agent) (kind : AccessKind) (barOk : Bool) (a : Addr) (size : Nat) : Place :=
  match pathOf a with
  | 0 => placeGeneric s w kind false a
  | 1 => placeGeneric s w kind true a
  | 2 | 3 | 4 => placePad s w barOk (padCore w.core a) (a.extractLsb' 0 20).toNat size
  | 5 =>
    let off := (a.extractLsb' 0 56).toNat
    if off + size ≤ s.window.hwsize.toNat then .here (.host off) else .fault
  | 6 => .here (.reg (a.extractLsb' 0 32).toNat)
  | _ => .fault

/-- The lowest lane that fails a step, with its first failing address (R182). -/
def lowestFail (rs : List Req) (ok : Req → Bool) : Option Req :=
  (rs.filter (fun r => !ok r)).foldl (fun b r =>
    match b with
    | none => some r
    | some o => if r.lane < o.lane then some r else b) none

/-- The access of a unit: what stops it, or where its accesses land. -/
inductive Access where
  | trap (t : Trap)
  | broken (va : Addr)
  | held (h : Hold) (s : State)
  | go (at_ : List (Req × Place)) (s : State)

def Cls.kind (cls : Cls) : AccessKind := if cls.writes then .store else .load

/-- The checks of R182 on every access of a unit, and the waits on absent pages and saved peers. pathBit says what
bits 63..60 of a tangent's address must equal (R185). -/
def access (c : UnitCtx) (s : State) (cls : Cls) (wordKind : Bool) (samePath : Req → Bool) (align : Req → Bool)
    (rs : List Req) : Access :=
  match lowestFail rs (fun r => pathOk c.crew.depth cls wordKind r.addr && samePath r) with
  | some r => .trap { cause := 5, lane := r.lane, addr := r.addr }
  | none =>
    match lowestFail rs (fun r => pathOf r.addr != 6 || c.priv) with
    | some r => .trap { cause := 0x0f, lane := r.lane }
    | none =>
      match lowestFail rs align with
      | some r => .trap { cause := 4, lane := r.lane, addr := r.addr }
      | none =>
        let ps := rs.map (fun r => (r, place s c.agent cls.kind (cls == .load || cls == .lld) r.addr r.size))
        match ps.find? (fun p => p.2 == .broken) with
        | some p => .broken p.1.addr
        | none =>
          match lowestFail rs (fun r => ps.all (fun p => p.1 != r || p.2 != .fault)) with
          | some r => .trap { cause := 5, lane := r.lane, addr := r.addr }
          | none =>
            -- the walks have been made: translations enter the TLBs, absent pages are posted
            let s := ps.foldl (fun s p =>
              match p.2 with
              | .here (.mem _ _) => s.fillTlb c.core c.launch.rcd.ctx c.priv cls.kind p.1.addr
              | .absent page _ m => s.postFault c.launch.rcd.ctx c.launch.num c.core cls.kind page m
              | _ => s) s
            match ps.findSome? (fun p => match p.2 with | .peer k => some k | _ => none) with
            | some k => .held (.peer k) s
            | none =>
              let pages := (ps.filterMap (fun p => match p.2 with | .absent page _ _ => some page | _ => none)).eraseDups
              if pages.isEmpty || cls.logs then .go ps s else .held (.page c.launch.rcd.ctx pages) s

/-- What an access that cannot be performed makes of the unit. -/
def stopGang (c : UnitCtx) (va : Addr) (s : State) : State :=
  (structureFault c.launch.rcd.ctx va s).modGang c.core c.slot (fun g => { g with stopped := true })

/-! ## Performing accesses -/

/-- The gang's pts after an access (R307). -/
def State.setPts (s : State) (core slot pts : Nat) : State := s.modGang core slot (fun g => { g with pts := pts })

/-- Acquire: later accesses see every write performed so far. -/
def State.acquire (s : State) (core slot : Nat) : State := s.modGang core slot (fun g => { g with pts := max g.pts s.ltime })

/-- The largest logical time of a write by the observers of a scope, seen from a squad of a core (R198); its core's engines,
which write for it, are among them (R314). -/
def State.scopeTime (s : State) (core squad : Nat) (sc : Scope) : Nat :=
  let latest (p : Nat → Bool) : Nat := s.written.foldl (fun t e => if p e.1 then max t e.2 else t) 0
  match sc with
  | .squad => latest (fun k => k == core * 8 + squad || k == core * 8 + 4)
  | .crew => latest (fun k => k / 8 == core)
  | .cluster => latest (fun k => k / 64 == core / 8)
  | .domain => latest (fun k => k / 512 == core / 64)
  | .span | .system => s.ltime

/-- The acquire of a fence: later accesses see the writes of its scope's observers (R199, R314). -/
def State.acquireScope (s : State) (core slot : Nat) (sc : Scope) : State :=
  let t := s.scopeTime core (squadOf slot) sc
  s.modGang core slot (fun g => { g with pts := max g.pts t })

/-- A poisoned location, as a view sees it (R316, R317). A line that the read-only cache holds is read from there
(R300). -/
def State.poisoned (s : State) (core view : Nat) (l : Loc) (size : Nat) : Bool :=
  match l with
  | .mem pa ro => s.linePoisoned view (lineOf pa) && !(ro && ((s.coreAt core).roLine view (lineOf pa)).isSome)
  | .pad core off | .bar core off =>
    match s.crewAt core with
    | some c => c.padBad.any (fun o => decide (off < o + 4) && decide (o < off + size))
    | none => false
  | _ => false

/-- Record a line read past an incomplete fence (R201). -/
def State.recordLine (s : State) (core slot line : Nat) : State :=
  s.modGang core slot (fun g => { g with fence := g.fence.map (fun f =>
    if f.lines.contains line then f else { f with lines := f.lines ++ [line] }) })

/-- Read n bytes at a location for a gang; reg gives the value of a device register. -/
def State.readLoc (s : State) (c : UnitCtx) (reg : State → Nat → Nat → List Byte) (l : Loc) (n : Nat) : List Byte × State :=
  match l with
  | .mem pa ro =>
    let pts := match s.gangAt c.core c.slot with | some g => g.pts | none => 0
    let owner := l1Owner (s.fusedAt c.launch c.core) c.core (lineOf pa)
    let miss := match c.gang.fence with | some f => f.kind != .rel && f.paths.getLsbD maskRO | none => false
    let r := if ro then s.loadRo miss c.core owner c.view pts (lineOf pa) else s.loadLine owner c.view pts (lineOf pa)
    (memBytes r.2.2 pa n, ((r.1.setPts c.core c.slot r.2.1).recordLine c.core c.slot (lineOf pa)))
  | .pad core off => (match s.crewAt core with | some k => k.padBytes off n | none => [], s)
  | .bar core off => (match s.crewAt core with | some k => k.windowBytes off n | none => [], s)
  | .host off => (memBytes s.host (s.window.hwbase.toNat + off) n, s)
  | .reg off => (reg s off n, s)

/-- What a write of a gang leaves of it: its pts, its squad's time and the count of its phase (R307, R311, R314). -/
def State.wrote (s : State) (c : UnitCtx) (pa time : Nat) : State :=
  ((s.setPts c.core c.slot time).noteWrite c.core c.squad time).countWrite c.core c.slot (homeSlice pa)

/-- A write on a peer path is counted at its core's scratchpad port, the issuing core's own too (R311). -/
def State.countPeer (s : State) (c : UnitCtx) (va : Addr) (core : Nat) : State :=
  if pathOf va == 2 then s else s.countWrite c.core c.slot (128 + core)

/-- Write bytes at the location of an address for a gang; reg performs a device-register write. -/
def State.writeLoc (s : State) (c : UnitCtx) (reg : State → Nat → List Byte → State) (va : Addr) (l : Loc)
    (bs : List Byte) : State :=
  match l with
  | .mem pa _ =>
    let pts := match s.gangAt c.core c.slot with | some g => g.pts | none => 0
    let r := s.storeBytes c.view pts (spread pa bs)
    r.1.wrote c pa r.2
  | .pad core off => (s.putPad core (spread off bs)).countPeer c va core
  | .bar _ _ => s
  | .host off => { s with host := s.host.sets 0 (spread (s.window.hwbase.toNat + off) bs) }
  | .reg off => reg s off bs

/-- A world whose space or effect queue is exhausted ends; the unit is not performed (R282, R283). -/
def endWorld (core : Nat) (status cause : BitVec 8) (s : State) : State :=
  s.modCrew core (fun c => if c.ending.isSome then c else { c with ending := some (status, cause) })

/-! ## The side log (R334) -/

/-- The entries a unit needs: one per tangent plane and absent page. -/
def logPages (ps : List (Req × Place)) : List (Nat × Addr × Nat) :=
  (ps.filterMap (fun p => match p.2 with | .absent page h _ => some (p.1.plane, page, h) | _ => none)).eraseDups

/-- Make the side-log entries of a unit: the gang's pts is advanced by one and recorded. -/
def State.logStores (s : State) (c : UnitCtx) (ps : List (Req × Place)) (item : Req → SideItem) : State :=
  match logPages ps with
  | [] => s
  | pages =>
    let pts := (match s.gangAt c.core c.slot with | some g => g.pts | none => 0) + 1
    let entries := pages.map (fun q =>
      { launch := c.launch.num, ctx := c.launch.rcd.ctx, page := q.2.1, shift := q.2.2, view := c.view, time := pts,
        core := c.core, squad := c.squad, gang := c.gang.id,
        items := (ps.filter (fun p => p.1.plane == q.1 &&
          (match p.2 with | .absent page _ _ => page == q.2.1 | _ => false))).map (fun p => item p.1) : SideEntry })
    let s := { s with ltime := max s.ltime pts }
    ((s.setPts c.core c.slot pts).noteWrite c.core c.squad pts).modCore c.core (fun k =>
      { k with sideLog := k.sideLog ++ entries })

/-- Side-log room for a unit (R334). -/
def State.logRoom (s : State) (c : UnitCtx) (ps : List (Req × Place)) : Bool :=
  decide ((s.coreAt c.core).sideLog.length + (logPages ps).length ≤ Config.sideLogEntries) || (logPages ps).isEmpty

end Sys2Proof.Machine
end

