-- ==== Sys2Proof/Machine/AtomOps.lean ====
section
/-! DEFINITION. The functions of atomics and reductions (R192, R193), ordered adds (R194, R195), and the replay of
side-logged writes when a page is resumed (R336). -/

namespace Sys2Proof.Machine

/-! ## Functions (R96, R192, R193) -/

/-- Width in bytes. -/
def atomSize (wide : Bool) : Nat := if wide then 8 else 4

/-- A floating add of encodings under RNE (R193). -/
def faddRne (f : Fmt) (a b : Nat) : Nat × Word := (Ex.add .rne (ex f a) (ex f b)).round f .rne 0

/-- apply(fn, old, b) of R192 with the flags it raises; cas and xchg are not applied here. -/
def applyAtom (fn : AtomFn) (wide : Bool) (old b : Addr) : Addr × Word :=
  let n := 8 * atomSize wide
  let o := old.setWidth n
  let v := b.setWidth n
  let keep (x : BitVec n) : Addr × Word := (x.setWidth 64, 0)
  match fn with
  | .add => keep (o + v)
  | .minS => keep (if o.slt v then o else v)
  | .maxS => keep (if o.slt v then v else o)
  | .minU => keep (if o.ult v then o else v)
  | .maxU => keep (if o.ult v then v else o)
  | .and => keep (o &&& v)
  | .or => keep (o ||| v)
  | .xor => keep (o ^^^ v)
  | .xchg => keep v
  | .cas => keep v
  | .fadd | .faddOrd =>
    let r := faddRne (if wide then .f64 else .f32) o.toNat v.toNat
    (BitVec.ofNat 64 r.1, r.2)
  | .faddF16 => packed .f16x2 (fun e => faddRne .f16 (elt .f16x2 old e) (elt .f16x2 b e))
  | .faddBf16 => packed .bf16x2 (fun e => faddRne .bf16 (elt .bf16x2 old e) (elt .bf16x2 b e))

/-- A value read from bytes. -/
def addrOf (bs : List Byte) : Addr := BitVec.ofNat 64 (natOfBytes bs)

/-- An indivisible read-modify-write of device memory in a view: the state, the old value and the flags. -/
def State.rmwMem (s : State) (view pts pa : Nat) (fn : AtomFn) (wide : Bool) (b cmp : Addr) :
    State × Addr × Word × Nat :=
  let old := addrOf (s.bytesAt view pa (atomSize wide))
  let r := applyAtom fn wide old b
  if fn == .cas && old != cmp then
    let q := s.sliceLoad view (lineOf pa) pts
    (q.1, old, 0, max pts q.2.1)
  else
    let q := s.storeBytes view pts (spread pa (bytesOfNat (atomSize wide) r.1.toNat))
    (q.1, old, r.2, q.2)

/-- OR flags into %flags, or for a tangent operation %tflags, of a squad of a crew. -/
def Crew.raise (c : Crew) (squad : Nat) (tangent : Bool) (fl : Word) : Crew :=
  c.modSquad squad (fun q => if tangent then { q with tflags := q.tflags ||| fl } else { q with flags := q.flags ||| fl })

/-- Raise the flags of a memory operation in its issuing squad (R193): of the launch's crew with the view on that core,
running or saved, else of the launch's crew that runs there (a task's view is not its crew's). -/
def State.raiseFor (s : State) (launch view core squad : Nat) (tangent : Bool) (fl : Word) : State :=
  let mine (c : Crew) : Bool := c.launch == launch && c.view == view
  let here (p : Crew → Bool) : Bool := match s.crewAt core with | some c => p c | none => false
  if fl = 0 then s
  else if here mine then s.modCrew core (fun c => c.raise squad tangent fl)
  else if s.parked.any (fun p => p.core == core && mine p.crew) then
    { s with parked := s.parked.map (fun p =>
        if p.core == core && mine p.crew then { p with crew := p.crew.raise squad tangent fl } else p) }
  else if here (fun c => c.launch == launch) then s.modCrew core (fun c => c.raise squad tangent fl)
  else s

/-! ## Ordered adds (R194, R195) -/

/-- Lexicographic order of keys. -/
def keyLt : List Nat → List Nat → Bool
  | [], [] => false
  | [], _ => true
  | _, [] => false
  | a :: as, b :: bs => decide (a < b) || (a == b && keyLt as bs)

/-- Insert in key order, after equal keys. -/
def insertKey (c : Contribution) : List Contribution → List Contribution
  | [] => [c]
  | d :: ds => if keyLt c.key d.key then c :: d :: ds else d :: insertKey c ds

/-- Contributions each slice holds before the overflow area is used (R195). -/
def sliceContributions : Nat := 4096

/-- Contributions in the overflow area: those beyond each slice's own. -/
def overflowCount (cs : List Contribution) : Nat :=
  (List.range 128).foldl (fun n i =>
    n + ((cs.filter (fun c => homeSlice c.pa == i)).length - sliceContributions)) 0

/-- Hold a contribution; a pool that cannot take it ends the launch with a fatal report (R195). -/
def State.contribute (s : State) (c : Contribution) : State :=
  let cs := s.ordered ++ [c]
  if overflowCount cs * Config.orderedBytes > s.window.ordsize.toNat then
    s.modLaunch c.launch (fun l => if l.st = .ending then l else { l with st := .ending, outcome := 8 })
  else { s with ordered := cs }

/-- The world of a view is to end because a write needs space that there is not (R283). -/
def Crew.exhaust (view : Nat) (c : Crew) : Crew :=
  if c.depth ≥ 1 && c.view == view && c.ending.isNone then { c with ending := some (9, 0) } else c

/-- The same, of a world that runs, or is saved or suspended: it ends once it runs again. -/
def State.exhaust (s : State) (view : Nat) : State :=
  { s with
    crews := s.crews.mapVals (Crew.exhaust view)
    parked := s.parked.map (fun p => { p with crew := p.crew.exhaust view }) }

/-- Cause 0x10 of an access that a gang no longer waits for, due at its next safe point (R166, R317). -/
def poisonAt (a : Addr) : Pend := { cause := 0x10, addr := a, at_ := .safePoint }

/-- Make a deferred trap pending in the gang of a name, whose crew runs, is saved or is suspended; of one that has ended it is
discarded (R158). -/
def State.pendGang (s : State) (gang : Nat) (p : Pend) : State :=
  let mark (c : Crew) : Crew := { c with gangs := c.gangs.mapVals (fun (g : Gang) =>
    if g.id = gang then { g with pending := g.pending ++ [p] } else g) }
  { s with crews := s.crews.mapVals mark, parked := s.parked.map (fun q => { q with crew := mark q.crew }) }

/-- Apply the contributions of a launch's round in a view, in key order, one rounding each (R195). One that a world's view
has no space for ends the world and is not applied (R283); one to a poisoned line is not applied either, and cause 0x10 becomes
pending in the gang that made it (R317, log 138). -/
def State.closeRound (s : State) (launch view : Nat) : State :=
  let mine (c : Contribution) : Bool := c.launch == launch && c.view == view
  let cs := (s.ordered.filter mine).foldl (fun l c => insertKey c l) []
  let s := { s with ordered := s.ordered.filter (fun c => !mine c) }
  cs.foldl (fun s c =>
    if s.viewExhausted view [c.pa] then s.exhaust view
    else if s.linePoisoned view (lineOf c.pa) then
      match c.gang with | some g => s.pendGang g (poisonAt (BitVec.ofNat 64 c.pa)) | none => s
    else
      let r := s.rmwMem view s.ltime c.pa .faddOrd c.wide c.value 0
      r.1.raiseFor c.launch c.view c.core c.squad c.tangent r.2.2.1) s

/-! ## Page resume (R336) -/

/-- Write a nibble of a byte. -/
def putNibble (old : Byte) (high : Bool) (v : BitVec 4) : Byte :=
  if high then v ++ old.extractLsb' 0 4 else old.extractLsb' 4 4 ++ v

def SideItem.va : SideItem → Addr
  | .bytes va _ | .nibble va _ _ | .rmw va _ _ _ _ | .ordered va _ => va

/-- Bytes that an item writes. -/
def SideItem.size : SideItem → Nat
  | .bytes _ bs => bs.length
  | .nibble _ _ _ => 1
  | .rmw _ _ wide _ _ => atomSize wide
  | .ordered _ c => atomSize c.wide

/-- A core's copies of a line in a view and in the views below it are gone at once. -/
def State.dropCopies (s : State) (view line : Nat) : State :=
  { s with cores := s.cores.mapVals (fun (k : Core) =>
      { k with l1 := k.l1.filter (fun e => e.line != line || !(s.chain e.view).contains view) }) }

/-- Apply one side-logged write in its entry's view (R336). Its place in the generic order is the one it took when it was
logged (R310): no copy of an older value outlives the replay, so no access after it sees one. The flags of a reduction are raised
here, which a fence does not wait for (log 119); on a poisoned line it takes cause 0x10 and writes nothing (R317). A write that the view has no space for ends the world (R283). -/
def State.replayItem (s : State) (e : SideEntry) (i : SideItem) (pa : Nat) : State :=
  if (match i with | .ordered _ _ => false | _ => s.viewExhausted e.view ((List.range i.size).map (pa + ·))) then
    s.exhaust e.view
  else
    let lines := ((List.range i.size).map (fun k => lineOf (pa + k))).eraseDups
    let settled (s : State) (time : Nat) : State :=
      (lines.foldl (fun s n => s.dropCopies e.view n) s).noteWrite e.core e.squad time
    match i with
    | .bytes _ bs => let r := s.storeBytes e.view e.time (spread pa bs); settled r.1 r.2
    | .nibble _ h v => let r := s.storeBytes e.view e.time [(pa, putNibble (s.byteAt e.view pa) h v)]; settled r.1 r.2
    | .rmw va fn wide v tangent =>
      if s.linePoisoned e.view (lineOf pa) then s.pendGang e.gang (poisonAt va)
      else
      let r := s.rmwMem e.view e.time pa fn wide v 0
      settled (r.1.raiseFor e.launch e.view e.core e.squad tangent r.2.2.1) r.2.2.2
    | .ordered _ c => s.contribute { c with pa := pa, view := e.view }

/-- The write of one item, or what keeps it (R336, R331): an item whose page is absent still stays logged, and one whose
page no longer permits the write is dropped (log 41). -/
def replayOne (e : SideEntry) (r : State × List SideItem) (i : SideItem) : State × List SideItem :=
  match walk r.1 e.ctx (i.va.toNat % 2 ^ 56) .store true with
  | .found t => (r.1.replayItem e i (t.pa (i.va.toNat % 2 ^ 56)), r.2)
  | .absent page _ m => (r.1.postFault e.ctx e.launch e.core .store page m, r.2 ++ [i])
  | .broken => (structureFault e.ctx i.va r.1, r.2)
  | .unmapped => (r.1, r.2)

/-- Put an entry back into the log it came from. -/
def State.logAgain (s : State) (e : SideEntry) (saved : Bool) : State :=
  if saved then { s with savedLog := s.savedLog ++ [e] }
  else s.modCore e.core (fun k => { k with sideLog := k.sideLog ++ [e] })

/-- Replay an entry: what is left of it goes back. -/
def replayEntry (s : State) (e : SideEntry × Bool) : State :=
  let r := e.1.items.foldl (replayOne e.1) (s, [])
  if r.2.isEmpty then r.1 else r.1.logAgain { e.1 with items := r.2 } e.2

/-- The order in which entries are replayed: ascending logical time, of those that one commit brought in the times they had
before it, then core; and with equal keys log position (R290, R336). -/
def SideEntry.key (e : SideEntry) : List Nat := e.time :: e.before

/-- Insert an entry after those of its key. -/
def insertEntry (e : SideEntry × Bool) : List (SideEntry × Bool) → List (SideEntry × Bool)
  | [] => [e]
  | d :: ds =>
    if keyLt e.1.key d.1.key || (e.1.key == d.1.key && decide (e.1.core < d.1.core)) then e :: d :: ds
    else d :: insertEntry e ds

/-- Release the groups held on a page (R336). -/
def releasePage (ctx : Nat) (inPage : Addr → Bool) (now : Nat) (f : Fibre) : Fibre :=
  match f.hold with
  | some (.page c ps) =>
    if c = ctx then
      let rest := ps.filter (fun p => !inPage p)
      { f with hold := some (.page c rest), since := if rest.isEmpty then now else f.since }
    else f
  | _ => f

/-- Release the engines of a crew of the context that hold on a page: they walk again (R336). -/
def Crew.releaseEngines (c : Crew) (inPage : Addr → Bool) : Crew := { c with away := c.away.filter (fun a => !inPage a.2) }

/-- A resumed page that was absent when a launch of its context started: the launch's code in it is what it holds now, before
any store of the launch is replayed (R77, log 12). -/
def Launch.addLate (s : State) (ctx : Nat) (va : Addr) (l : Launch) : Launch :=
  let v := va.toNat % 2 ^ 56
  if l.rcd.ctx != ctx then l
  else
    match walk s ctx v .fetch true, walk { s with mem := l.code } ctx v .fetch true with
    | .found _, .found _ => l
    | .found e, _ =>
      if l.late.any (fun p => v / 2 ^ p.shift == p.page.toNat / 2 ^ p.shift) then l
      else
        { l with late := l.late ++
            [{ page := BitVec.ofNat 64 (v / 2 ^ e.shift * 2 ^ e.shift), shift := e.shift, frame := e.frame
               code := s.mem.slice e.frame (2 ^ e.shift) }] }
    | _, _ => l

/-- Resume a page: replay its side log in order, then release what it held (R336). -/
def State.resumePage (s : State) (ctx : Nat) (va : Addr) : State :=
  let v := va.toNat % 2 ^ 56
  let hit (e : SideEntry) : Bool := e.ctx == ctx && v / 2 ^ e.shift == e.page.toNat / 2 ^ e.shift
  let shift := match s.loggedPage ctx va with
    | some e => e.shift
    | none => match walk s ctx v .load true with | .found e => e.shift | .absent _ h _ => h | _ => 12
  let inPage (p : Addr) : Bool := p.toNat / 2 ^ shift == v / 2 ^ shift
  let es := (s.savedLog.filter hit).map (fun e => (e, true)) ++
    (s.cores.flatMap (fun k => k.2.sideLog.filter hit)).map (fun e => (e, false))
  let s := { s with
    cores := s.cores.mapVals (fun (k : Core) => { k with sideLog := k.sideLog.filter (fun e => !hit e) }),
    savedLog := s.savedLog.filter (fun e => !hit e),
    launches := s.launches.map (Launch.addLate s ctx va),
    faults := s.faults.modify ctx (fun q => q.filter (fun r => !inPage r.va)) }
  let s := (es.foldl (fun l e => insertEntry e l) []).foldl replayEntry s
  { s with
    waiting := s.waiting.filter (fun w => !(w.ctx == ctx && inPage w.page)),
    crews := s.crews.mapVals (fun (k : Crew) =>
      let mine := match s.launchOf k.launch with | some l => l.rcd.ctx == ctx | none => false
      let k := { k with gangs := k.gangs.mapVals (fun (g : Gang) =>
        g.mapFibres (fun _ f => releasePage ctx inPage s.clock.toNat f)) }
      if mine then k.releaseEngines inPage else k) }

end Sys2Proof.Machine
end

