-- ==== Sys2Proof/Machine/Reports.lean ====
section
/-! DEFINITION. Reports to the host (R401). -/

namespace Sys2Proof.Machine

/-- The 32-byte entry of a report. -/
def reportBytes (r : Report) : List Byte :=
  bytesOfNat 1 r.type.toNat ++ bytesOfNat 1 r.code.toNat ++ bytesOfNat 2 r.ctx ++ bytesOfNat 4 r.launch ++
    bytesOfNat 4 r.ltag.toNat ++ bytesOfNat 1 r.cause.toNat ++ bytesOfNat 1 (min r.ndisc 255) ++ bytesOfNat 2 r.place ++
    bytesOfNat 8 r.pc.toNat ++ bytesOfNat 8 r.addr.toNat

/-- The ring takes no entry: it is full, or the driver has given it no size. -/
def State.ringFull (s : State) : Bool :=
  s.window.repsize == 0 || s.window.reptail - s.window.rephead == s.window.repsize

/-- Write a report at REPTAIL, raising MSI-X vector 0 where the ring was empty. -/
def State.putReport (s : State) (r : Report) : State :=
  let w := s.window
  { s with
    host := s.host.sets 0 (spread (w.repbase.toNat + 32 * (w.reptail.toNat % w.repsize.toNat)) (reportBytes r))
    window := { w with reptail := w.reptail + 1 }
    device := { s.device with msix := s.device.msix + (if w.reptail == w.rephead then 1 else 0) } }

/-- Reports that may be dropped: doldrums, overdue, dead letter and sump. -/
def droppable (t : BitVec 8) : Bool := t == 2 || t == 3 || t == 4 || t == 9

/-- Reports the control plane holds beyond the ring. -/
def heldReports : Nat := 4096

/-- A report that may not be dropped can be taken now. -/
def State.reportRoom (s : State) : Bool :=
  decide (s.device.reports.length < heldReports) || (s.device.reports.isEmpty && !s.ringFull)

/-- Post a report: into the ring, or held in order behind it. -/
def State.report (s : State) (r : Report) : State :=
  if s.device.reports.isEmpty && !s.ringFull then s.putReport r
  else if droppable r.type && decide (s.device.reports.length ≥ heldReports) then
    { s with mgmt := { s.mgmt with droppedReports := min (s.mgmt.droppedReports + 1) (2 ^ 64 - 1) } }
  else { s with device := { s.device with reports := s.device.reports ++ [r] } }

/-- Held reports enter the ring as far as it has room. -/
def drainReports : List Report → State → State
  | [], s => { s with device := { s.device with reports := [] } }
  | r :: rs, s => if s.ringFull then { s with device := { s.device with reports := r :: rs } } else drainReports rs (s.putReport r)

def State.drainRing (s : State) : State := drainReports s.device.reports s

end Sys2Proof.Machine
end

