-- ==== Sys2Proof/Machine/Window.lean ====
section
/-! DEFINITION. The register window (R397 to R400): reads and writes of its registers, by the host or on path 0x6. -/

namespace Sys2Proof.Machine

/-- The control plane never started (R403). -/
def State.neverStarted (s : State) : Bool :=
  s.device.bootst == 0x80 || s.device.bootst == 0x81 || s.device.bootst == 0x82

/-- The launch queue whose page holds an offset, and the offset in the page (R397). -/
def queuePage (off : Nat) : Option (Nat × Nat) :=
  if 0x10000 ≤ off ∧ off < 0x20000 then some ((off - 0x10000) / 0x1000, (off - 0x10000) % 0x1000) else none

/-- A launch queue's registers. -/
def State.queueAt (s : State) (q : Nat) : LaunchQueue := s.queues.getD q {}
def State.setQueue (s : State) (q : Nat) (l : LaunchQueue) : State := { s with queues := s.queues.set q l }

/-- The value of the 64-bit register at an offset that is a multiple of 8 (R397). -/
def State.readReg (s : State) (off : Nat) : Addr :=
  if off == 0xa8 then s.device.bootst.setWidth 64
  else if s.neverStarted then 0
  else
    match queuePage off with
    | some (q, r) =>
      let l := s.queueAt q
      if r == 0 then l.ring else if r == 8 then l.size else if r == 0x10 then l.tail else if r == 0x18 then l.head else 0
    | none =>
      let w := s.window
      match off with
      | 0x00 => Config.offered.setWidth 64
      | 0x08 => Config.offered.extractLsb' 64 64
      | 0x10 => w.featacc.setWidth 64
      | 0x18 => w.featacc.extractLsb' 64 64
      | 0x20 => w.ptrbase
      | 0x28 => w.ptrsize
      | 0x30 => w.pgctx
      | 0x40 => w.vpool
      | 0x48 => w.vpsize
      | 0x50 => w.ordpool
      | 0x58 => w.ordsize
      | 0x60 => w.hwbase
      | 0x68 => w.hwsize
      | 0x70 => w.spanrt
      | 0x78 => w.spanmap
      | 0x80 => w.dlbase
      | 0x88 => w.repbase
      | 0x90 => w.repsize
      | 0x98 => w.reptail
      | 0xa0 => w.rephead
      | _ => 0

/-- Write one half of FEATACC: a bit that FEATOFF does not offer is stored as 0 (R400). -/
def State.writeFeatacc (s : State) (high : Bool) (v : Addr) : State :=
  let f := s.window.featacc
  let f : BitVec 128 := if high then v ++ f.setWidth 64 else f.extractLsb' 64 64 ++ v
  { s with window := { s.window with featacc := f &&& Config.offered } }

/-- Write LQTAIL: a write that would make the queue hold more than LQSIZE records is ignored (R399). -/
def State.writeTail (s : State) (q : Nat) (v : Addr) : State :=
  let l := s.queueAt q
  if (v - l.head).toNat > l.size.toNat then s else s.setQueue q { l with tail := v }

/-- A launch is placed, resuming or saved (R398): it has been given cores and has not wholly ended (log 90). -/
def State.placedAny (s : State) : Bool := s.launches.any (fun l => !l.cores.isEmpty)

/-- Write the register at an offset (R397, R398). -/
def State.writeReg (s : State) (off : Nat) (v : Addr) : State :=
  if s.neverStarted then s
  else
    let idle := !s.placedAny
    let set (f : Window → Window) : State := { s with window := f s.window }
    let setIdle (f : Window → Window) : State := if idle then set f else s
    match queuePage off with
    | some (q, r) =>
      if r == 0 then (if idle then s.setQueue q { s.queueAt q with ring := v } else s)
      else if r == 8 then (if idle then s.setQueue q { s.queueAt q with size := v } else s)
      else if r == 0x10 then s.writeTail q v
      else s
    | none =>
      match off with
      | 0x10 => s.writeFeatacc false v
      | 0x18 => s.writeFeatacc true v
      | 0x20 => setIdle (fun w => { w with ptrbase := v })
      | 0x28 => setIdle (fun w => { w with ptrsize := v })
      | 0x30 => set (fun w => { w with pgctx := v })
      | 0x38 => s.resumePage (s.window.pgctx.setWidth 16).toNat v
      | 0x40 => setIdle (fun w => { w with vpool := v })
      | 0x48 => setIdle (fun w => { w with vpsize := v })
      | 0x50 => setIdle (fun w => { w with ordpool := v })
      | 0x58 => setIdle (fun w => { w with ordsize := v })
      | 0x60 => set (fun w => { w with hwbase := v })
      | 0x68 => set (fun w => { w with hwsize := v })
      | 0x70 => setIdle (fun w => { w with spanrt := v })
      | 0x78 => setIdle (fun w => { w with spanmap := v })
      | 0x80 => setIdle (fun w => { w with dlbase := v })
      | 0x88 => set (fun w => { w with repbase := v })
      | 0x90 => (set (fun w => { w with repsize := v })).drainRing
      | 0xa0 => (set (fun w => { w with rephead := v })).drainRing
      | _ => s

/-- The bytes of a .b32 or .b64 read on path 0x6. -/
def State.readRegBytes (s : State) (off n : Nat) : List Byte :=
  ((bytesOfNat 8 (s.readReg (off / 8 * 8)).toNat).drop (off % 8)).take n

/-- A .b32 or .b64 write on path 0x6; the other half of the register keeps its value. -/
def State.writeRegBytes (s : State) (off : Nat) (bs : List Byte) : State :=
  let old := bytesOfNat 8 (s.readReg (off / 8 * 8)).toNat
  s.writeReg (off / 8 * 8) (addrOf (old.take (off % 8) ++ bs ++ old.drop (off % 8 + bs.length)))

end Sys2Proof.Machine
end

