-- ==== Sys2Proof/Machine/LoadStore.lean ====
section
/-! DEFINITION. Loads and stores (R184, R185), full/empty lines (R186 to R190), atomics and reductions (R191 to R197),
prefetch and cache control (R208). -/

namespace Sys2Proof.Machine

/-! ## Shared pieces -/

/-- Make a deferred trap pending (R166). -/
def State.addPend (s : State) (core slot : Nat) (p : Pend) : State :=
  s.modGang core slot (fun g => { g with pending := g.pending ++ [p] })

/-- Make a deferred trap of the issuing unit pending: past an incomplete fence, a rollback takes it back (R202). -/
def State.addUnitPend (s : State) (c : UnitCtx) (p : Pend) : State :=
  (s.addPend c.core c.slot p).modGang c.core c.slot (fun g =>
    { g with fence := g.fence.map (fun f => { f with pends := f.pends ++ [p] }) })

/-- Count a corrected soft error of a core: CORR, saturating, and the telemetry counter (R179, R316, R405). -/
def State.noteCorrected (s : State) (core : Nat) : State :=
  s.modCore core (fun k =>
    { k with mcheck := if k.mcheck.setWidth 16 = 0xffff#16 then k.mcheck else k.mcheck + 1
             corrected := min (k.corrected + 1) (2 ^ 64 - 1) })

/-- A scratchpad location read in error: its core records the class (R179, R316). -/
def State.padError (s : State) (core : Nat) (a : Addr) : State :=
  if pathOf a == 2 || pathOf a == 3 || pathOf a == 4 then s.machineCheck (padCore core a) 3 else s

/-- Whether the paths that the lanes name make a load wait for an incomplete fence (R201, R202). -/
def loadStalls (c : UnitCtx) (addrs : List Addr) : Bool :=
  match c.gang.fence with
  | none => false
  | some f => decide (f.rollbacks ≥ 4) || addrs.any (fun a => pathOf a != 0 && pathOf a != 1)

/-- The register words of a loaded value (R100). -/
def loadImage (k : MemKind) (bs : List Byte) : List Word :=
  let v := natOfBytes bs
  match k with
  | .i8 => [(BitVec.ofNat 8 v).signExtend 32]
  | .i16 => [(BitVec.ofNat 16 v).signExtend 32]
  | .n8 | .n16 | .b32 | .f32 | .f16x2 | .bf16x2 => [BitVec.ofNat 32 v]
  | .b64 | .f64 => [BitVec.ofNat 32 v, BitVec.ofNat 32 (v / 2 ^ 32)]
  | .b128 => (List.range 4).map (fun j => BitVec.ofNat 32 (v / 2 ^ (32 * j)))

/-- Storage writes of a group at d; a group at g0 is discarded (R20). -/
def Gang.wrGroup (g : Gang) (plane lane : Nat) (d : Reg) (ws : List Word) : List (Nat × Word) :=
  if d = 0 then [] else (ws.mapIdx (fun j w => g.wr plane lane (d.toNat + j) w)).flatten

/-- The registers of a group as stored bytes. -/
def Gang.groupBytes (g : Gang) (plane lane n : Nat) (d : Reg) : List Byte :=
  if d = 0 then List.replicate n 0
  else ((List.range ((n + 3) / 4)).flatMap (fun j => bytesOfNat 4 (g.reg plane lane (d.toNat + j)).toNat)).take n

/-- Register keys of a lane's destination group, every plane. -/
def destKeys (c : UnitCtx) (lane : Nat) (d : Reg) (n : Nat) : List Nat :=
  if d = 0 then []
  else (List.range (c.t + 1)).flatMap (fun p => (List.range n).map (fun j =>
    regKey p (physIndex (c.gang.fibre lane).wbase (d.toNat + j)) lane))

/-- Write registers of the issuing gang. -/
def State.putGangRegs (s : State) (c : UnitCtx) (ws : List (Nat × Word)) : State :=
  s.modGang c.core c.slot (fun g => g.putRegs ws)

/-! ## Loads -/

/-- Where a load's planes come from: destination plane and location index under DUAL's mode (R185, R293). -/
def loadPlanes (c : UnitCtx) (k : MemKind) : List (Nat × Nat) :=
  let ts := (List.range c.t).map (· + 1)
  if !k.tangents then [(0, 0)]
  else
    match c.dual with
    | .implicit => (0, 0) :: ts.map (fun p => (p, p))
    | .seed => (0, 0) :: (ts.filter (· != c.dualK + 1)).map (fun p => (p, p))
    | .get => [(0, c.dualK + 1)]
    | .zero | .none => [(0, 0)]

/-- The address of location index p of an access: the primal, or a tangent (R185). -/
def tangentAddr (c : UnitCtx) (a : Addr) (p : Nat) : Addr := a + BitVec.ofNat 64 p * c.gang.tanstride

/-- What the other shadows of a load's destination become (R185, R293). -/
def otherShadow (c : UnitCtx) (k : MemKind) (lane p : Nat) : List Word :=
  if k.tangents && c.dual == .seed && p == c.dualK + 1 then
    (List.range k.regs).map (fun j => c.gang.reg 0 lane (if c.dualReg = 0 then 0 else c.dualReg + j))
  else List.replicate k.regs 0

/-- What a unit that loads has read so far. -/
structure Reading where
  s : State
  got : List (Req × List Byte) := []
  bad : List Req := []

/-- Read every access in order (R183); poisoned ones are set aside (R317). -/
def readAll (c : UnitCtx) (ps : List (Req × Place)) (s : State) : Reading :=
  ps.foldl (fun r p =>
    match p.2 with
    | .here l =>
      if r.s.poisoned c.core c.view l p.1.size then { r with bad := r.bad ++ [p.1] }
      else
        let q := r.s.readLoc c State.readRegBytes l p.1.size
        { r with s := q.2, got := r.got ++ [(p.1, q.1)] }
    | _ => r) { s := s }

/-- The deferred trap of poisoned reads: cause 0x10 at the lowest lane's address, due at the readers of the
destinations (R316, R317). -/
def State.poisonPend (s : State) (c : UnitCtx) (bad : List Req) (keys : List Nat) : State :=
  match bad with
  | [] => s
  | r :: _ =>
    (s.addUnitPend c { cause := 0x10, addr := r.addr, at_ := .regs keys }).padError c.core r.addr

/-- Lines of the scratchpad that the accesses of an ld.fe need full (R187). -/
def linesWanted (s : State) (ps : List (Req × Place)) : List Nat :=
  (ps.filterMap (fun p =>
    match p.2 with
    | .here (.pad core off) =>
      match s.crewAt core with
      | some k => if k.full.getLsbD (off / 128) then none else some (off / 128 * 128)
      | none => none
    | _ => none)).eraseDups

def hostOffset (p : Req × Place) : Option Nat := match p.2 with | .here (.host off) => some off | _ => none

/-- Host reads in flight in a core (R395). -/
def State.hostReadsAt (s : State) (core : Nat) : Nat :=
  match s.crewAt core with | some c => c.gangs.foldl (fun n g => n + g.2.hostReads.length) 0 | none => 0

/-- The tag of a new host read. -/
def nextTag (g : Gang) : Nat := (g.hostReads.foldl (fun n r => max n r.tag) 0) + 1

/-- A unit's host reads are in flight: their destinations are still to be written (R46, R395). -/
def State.awaitHost (s : State) (c : UnitCtx) (parts : List HostPart) : State :=
  if parts.isEmpty then s
  else
    s.modGang c.core c.slot (fun g =>
      { g with
        hostReads := g.hostReads ++ [{ tag := nextTag g, issued := s.clock.toNat, parts := parts }]
        destWait := g.destWait ++ parts.flatMap (fun p => p.dests) })

/-- Send the host reads of a load (R306, R395): they reach the host link in program order, so they read host memory as the
older accesses of the gang have left it (log 34). -/
def State.sendHostRead (s : State) (c : UnitCtx) (k : MemKind) (d : Reg) (ps : List (Req × Nat)) : State :=
  s.awaitHost c (ps.map (fun p =>
    let dests := if d = 0 then [] else (List.range k.regs).map (fun j =>
      regKey p.1.plane (physIndex (c.gang.fibre p.1.lane).wbase (d.toNat + j)) p.1.lane)
    { va := p.1.addr, dests := dests
      words := (loadImage k (memBytes s.host (s.window.hwbase.toNat + p.2) k.size)).take dests.length }))

/-- A part of a host read that writes these registers. -/
def hostPart (va : Addr) (ws : List (Nat × Word)) : HostPart := { va := va, dests := ws.map Prod.fst, words := ws.map Prod.snd }

/-- No read more can be sent to the host link (R395). -/
def State.hostFull (s : State) (core : Nat) : Bool := decide (s.hostReadsAt core ≥ 32)

/-- The address that a lane's access starts from (R180, R184). -/
def accessBase (c : UnitCtx) (x : Pfx) (a : Reg) (k : MemKind) (i : BitVec 7) (l : Nat) : Addr :=
  effective (c.pair l a) x i k.size

/-- The accesses of a load, plane by plane (R185, R293). -/
def loadReqs (c : UnitCtx) (x : Pfx) (a : Reg) (k : MemKind) (i : BitVec 7) : List Req :=
  (loadPlanes c k).flatMap (fun p => c.lanes.map (fun l =>
    { lane := l, plane := p.1, addr := tangentAddr c (accessBase c x a k i l) p.2, size := k.size }))

/-- ld and ld.fe (R184, R185, R187). -/
def loadUnit (fe : Bool) (x : Pfx) (d a : Reg) (k : MemKind) (i : BitVec 7) (s : State) :
    Host.Outcome State Fault Refusal :=
  issueUnit x { regs := regsOf true a ++ groupOf k.regs d, writes := groupOf k.regs d, seed := k.regs } (fun c s =>
    let base (l : Nat) := accessBase c x a k i l
    let planes := loadPlanes c k
    let rs := loadReqs c x a k i
    if loadStalls c (c.lanes.map base) || (fe && c.gang.fence.isSome) then .hold .fence s
    else
      match access c s (if fe then .ldFe else .load) (k == .b32 || k == .b64)
          (fun r => pathOf r.addr == pathOf (base r.lane)) (fun r => r.addr.toNat % k.size == 0) rs with
      | .trap t => .trap t 0
      | .broken va => .jump (stopGang c va s)
      | .held h s => .hold h s
      | .go ps s =>
        let wanted := if fe then linesWanted s ps else []
        let host := ps.filterMap (fun p => (hostOffset p).map (fun o => (p.1, o)))
        if !wanted.isEmpty then .hold (.lines wanted) s
        else if !host.isEmpty && s.hostFull c.core then .hold .hostRoom s
        else
          let r := readAll c (ps.filter (fun p => (hostOffset p).isNone)) s
          let badLanes := (r.bad.map (fun q => q.lane)).eraseDups
          let loaded := (r.got.filter (fun q => !badLanes.contains q.1.lane)).flatMap (fun q =>
            c.gang.wrGroup q.1.plane q.1.lane d (loadImage k q.2))
          let rest := (c.lanes.filter (fun l => !badLanes.contains l)).flatMap (fun l =>
            ((List.range c.t).map (· + 1)).flatMap (fun p =>
              if planes.any (fun q => q.1 == p) then [] else c.gang.wrGroup p l d (otherShadow c k l p)))
          let s := (r.s.putGangRegs c (loaded ++ rest)).sendHostRead c k d host
          .done (s.poisonPend c r.bad (badLanes.flatMap (fun l => destKeys c l d k.regs)))) s

def execLd (x : Pfx) (d a : Reg) (k : MemKind) (i : BitVec 7) (s : State) : Host.Outcome State Fault Refusal :=
  loadUnit false x d a k i s

def execLdFe (x : Pfx) (d a : Reg) (k : MemKind) (i : BitVec 7) (s : State) : Host.Outcome State Fault Refusal :=
  loadUnit true x d a k i s

/-! ## Stores -/

/-- The bytes of a stored location: location index p of a lane (R185, R293). -/
def storeSource (c : UnitCtx) (k : MemKind) (d : Reg) (lane p : Nat) : List Byte :=
  if p = 0 then c.gang.groupBytes (if k.tangents && c.dual == .get then c.dualK + 1 else 0) lane k.size d
  else
    match c.dual with
    | .seed =>
      if p = c.dualK + 1 then c.gang.groupBytes 0 lane k.size (BitVec.ofNat 7 c.dualReg)
      else c.gang.groupBytes p lane k.size d
    | .zero => List.replicate k.size 0
    | _ => c.gang.groupBytes p lane k.size d

/-- Location indices a store writes (R185, R293). -/
def storePlanes (c : UnitCtx) (k : MemKind) : List Nat :=
  if !k.tangents then [0]
  else
    match c.dual with
    | .implicit | .seed | .zero => List.range (c.t + 1)
    | .get | .none => [0]

/-- Addresses in device memory that a unit writes. -/
def memTargets (ps : List (Req × Place)) : List Nat :=
  ps.flatMap (fun p => match p.2 with | .here (.mem pa _) => (List.range p.1.size).map (pa + ·) | _ => [])

/-- The ends of a world that a write may cause before it is performed (R282, R283). -/
def worldEnds (c : UnitCtx) (s : State) (ps : List (Req × Place)) (defers : Bool) : Option (BitVec 8) :=
  if s.viewExhausted c.view (memTargets ps) then some 9
  else if defers && c.crew.depth ≥ 1 && decide (c.crew.effects.length ≥ 64) then some 0x0a
  else none

/-- Add an entry to a world's effect queue (R282). -/
def State.defer (s : State) (core : Nat) (e : Effect) : State :=
  s.modCrew core (fun c => { c with effects := c.effects ++ [e] })

/-- Perform the stores of a unit in order, with its side-log entries and a world's deferred host stores. -/
def performStores (c : UnitCtx) (ps : List (Req × Place)) (data : Req → List Byte) (s : State) : State :=
  let s := s.logStores c ps (fun r => .bytes r.addr (data r))
  let inWorld := decide (c.crew.depth ≥ 1)
  let s := ps.foldl (fun s p =>
    match p.2 with
    | .here (.host off) =>
      if inWorld then s else s.writeLoc c State.writeRegBytes p.1.addr (.host off) (data p.1)
    | .here l => s.writeLoc c State.writeRegBytes p.1.addr l (data p.1)
    | _ => s) s
  let host := ps.filterMap (fun p => (hostOffset p).map (fun o => EffectItem.bytes o (data p.1)))
  let s := if inWorld && !host.isEmpty then s.defer c.core (.host host) else s
  s.clearPoison c.view (memTargets ps)

/-- Set full the lines of scratchpad accesses (R188). -/
def fillLines (ps : List (Req × Place)) (s : State) : State :=
  ps.foldl (fun s p =>
    match p.2 with
    | .here (.pad core off) => s.modCrew core (fun k => k.setFull [off / 128] true)
    | _ => s) s

/-- The accesses of a store, plane by plane (R185, R293). -/
def storeReqs (c : UnitCtx) (x : Pfx) (a : Reg) (k : MemKind) (i : BitVec 7) : List Req :=
  (storePlanes c k).flatMap (fun p => c.lanes.map (fun l =>
    { lane := l, plane := p, addr := tangentAddr c (accessBase c x a k i l) p, size := k.size }))

/-- st and st.fill (R184, R185, R188). -/
def storeUnit (fill : Bool) (x : Pfx) (d a : Reg) (k : MemKind) (i : BitVec 7) (s : State) :
    Host.Outcome State Fault Refusal :=
  issueUnit x { regs := regsOf true a ++ groupOf k.regs d, shadows := if k.tangents then groupOf k.regs d else [],
                seed := k.regs, stall := true } (fun c s =>
    let base (l : Nat) := accessBase c x a k i l
    let rs := storeReqs c x a k i
    match access c s (if fill then .stFill else .store) (k == .b32 || k == .b64)
        (fun r => pathOf r.addr == pathOf (base r.lane)) (fun r => r.addr.toNat % k.size == 0) rs with
    | .trap t => .trap t 0
    | .broken va => .jump (stopGang c va s)
    | .held h s => .hold h s
    | .go ps s =>
      match worldEnds c s ps (ps.any (fun p => (hostOffset p).isSome)) with
      | some st => .jump (endWorld c.core st 0 s)
      | none =>
        if !s.logRoom c ps then .hold (.sideLog (logPages ps).length) s
        else
          let s := performStores c ps (fun r => storeSource c k d r.lane r.plane) s
          .done (if fill then fillLines ps s else s)) s

def execSt (x : Pfx) (d a : Reg) (k : MemKind) (i : BitVec 7) (s : State) : Host.Outcome State Fault Refusal :=
  storeUnit false x d a k i s

def execStFill (x : Pfx) (d a : Reg) (k : MemKind) (i : BitVec 7) (s : State) : Host.Outcome State Fault Refusal :=
  storeUnit true x d a k i s

/-- fe.clr (R189). -/
def execFeClr (x : Pfx) (a b : Reg) (s : State) : Host.Outcome State Fault Refusal :=
  issueUnit x { regs := regsOf true a ++ [b.toNat], stall := true } (fun c s =>
    let n (l : Nat) := (c.word l b).toNat
    let rs : List Req := c.lanes.map (fun l => { lane := l, addr := c.pair l a, size := 128 * n l })
    match access c s .feClr false (fun _ => true) (fun r => r.addr.toNat % 128 == 0) rs with
    | .trap t => .trap t 0
    | .broken va => .jump (stopGang c va s)
    | .held h s => .hold h s
    | .go ps s =>
      .done (ps.foldl (fun s p =>
        match p.2 with
        | .here (.pad core off) =>
          s.modCrew core (fun k => k.setFull ((List.range (n p.1.lane)).map (fun j => off / 128 + j)) false)
        | _ => s) s)) s

/-! ## Atomics and reductions -/

/-- Whether tangents take part (R193): fadd and fadd.ord under implicit mode. -/
def atomPlanes (c : UnitCtx) (fn : AtomFn) : List Nat :=
  if fn.tangents && c.dual == .implicit then List.range (c.t + 1) else [0]

/-- What a unit of atomics has done so far. -/
structure Rmw where
  s : State
  old : List (Req × Addr) := []
  bad : List Req := []

/-- The key of an ordered add (R194). -/
def addKey (c : UnitCtx) (r : Req) : List Nat :=
  [c.crew.index, c.squad, gangRank c.slot, r.lane, c.gang.order, r.lane, r.plane]

/-- One read-modify-write at its location (R192, R193, R195). -/
def rmwOne (c : UnitCtx) (fn : AtomFn) (wide : Bool) (b cmp : Req → Addr) (r : Rmw) (p : Req × Place) : Rmw :=
  let n := atomSize wide
  match p.2 with
  | .here l =>
    if r.s.poisoned c.core c.view l n then { r with bad := r.bad ++ [p.1] }
    else
      match l with
      | .mem pa _ =>
        let pts := match r.s.gangAt c.core c.slot with | some g => g.pts | none => 0
        if fn == .faddOrd then
          let q := r.s.sliceLoad c.view (lineOf pa) pts
          let old := addrOf (r.s.bytesAt c.view pa n)
          let s := (q.1.setPts c.core c.slot (max pts q.2.1)).contribute
            { launch := c.launch.num, view := c.view, pa := pa, wide := wide, value := b p.1, key := addKey c p.1,
              core := c.core, squad := c.squad, tangent := p.1.plane != 0, gang := some c.gang.id }
          { r with s := s.countWrite c.core c.slot (homeSlice pa), old := r.old ++ [(p.1, old)] }
        else
          let q := r.s.rmwMem c.view pts pa fn wide (b p.1) (cmp p.1)
          let s := if fn == .cas && q.2.1 != cmp p.1 then q.1.setPts c.core c.slot q.2.2.2 else q.1.wrote c pa q.2.2.2
          { r with s := if p.1.plane = 0 then s.raiseFlags c.core c.squad q.2.2.1 0
                        else s.raiseFlags c.core c.squad 0 q.2.2.1,
                   old := r.old ++ [(p.1, q.2.1)] }
      | .pad core off =>
        let old := addrOf (match r.s.crewAt core with | some k => k.padBytes off n | none => [])
        let q := applyAtom fn wide old (b p.1)
        let s := if fn == .cas && old != cmp p.1 then r.s
          else (r.s.putPad core (spread off (bytesOfNat n q.1.toNat))).countPeer c p.1.addr core
        { r with s := if p.1.plane = 0 then s.raiseFlags c.core c.squad q.2 0 else s.raiseFlags c.core c.squad 0 q.2,
                 old := r.old ++ [(p.1, old)] }
      | .host off =>
        if c.crew.depth ≥ 1 then { r with old := r.old ++ [(p.1, 0)] }
        else
          let at_ := r.s.window.hwbase.toNat + off
          let old := addrOf (memBytes r.s.host at_ n)
          let q := applyAtom fn wide old (b p.1)
          let s := if fn == .cas && old != cmp p.1 then r.s
            else { r.s with host := r.s.host.sets 0 (spread at_ (bytesOfNat n q.1.toNat)) }
          { r with s := if p.1.plane = 0 then s.raiseFlags c.core c.squad q.2 0 else s.raiseFlags c.core c.squad 0 q.2,
                   old := r.old ++ [(p.1, old)] }
      | _ => r
  | _ => r

/-- The accesses of an atomic or a reduction (R191, R193). The tangent adds follow the primals of every lane, plane by
plane, as R295 has it of loads and stores (log 125). -/
def atomReqs (c : UnitCtx) (a : Reg) (fn : AtomFn) (wide : Bool) : List Req :=
  (atomPlanes c fn).flatMap (fun p => c.lanes.map (fun l =>
    { lane := l, plane := p, addr := tangentAddr c (c.pair l a) p, size := atomSize wide }))

/-- atom and red (R191 to R197); d is the result register of atom. -/
def atomUnit (x : Pfx) (d? : Option Reg) (a b : Reg) (fn : AtomFn) (wide : Bool) (s : State) :
    Host.Outcome State Fault Refusal :=
  let dregs := match d? with | some d => regsOf wide d | none => []
  issueUnit x { regs := regsOf true a ++ regsOf wide b ++ (if fn == .cas then dregs else []) ++ dregs, writes := dregs,
                shadows := if fn.tangents then regsOf wide b else [], stall := true,
                feature := if fn == .faddOrd then some 5 else none } (fun c s =>
    let base (l : Nat) := c.pair l a
    let rs := atomReqs c a fn wide
    let cls : Cls := if fn == .faddOrd then .ordAdd else if d?.isSome then .atom else .red
    let value (r : Req) : Addr := c.gang.regN wide r.plane r.lane b.toNat
    let cmp (r : Req) : Addr := match d? with | some d => c.gang.regN wide 0 r.lane d.toNat | none => 0
    match access c s cls false (fun r => pathOf r.addr == pathOf (base r.lane))
        (fun r => r.addr.toNat % atomSize wide == 0) rs with
    | .trap t => .trap t 0
    | .broken va => .jump (stopGang c va s)
    | .held h s => .hold h s
    | .go ps s =>
      let absent := (ps.filterMap (fun p => match p.2 with | .absent page _ _ => some page | _ => none)).eraseDups
      match worldEnds c s ps (ps.any (fun p => (hostOffset p).isSome)) with
      | some st => .jump (endWorld c.core st 0 s)
      | none =>
        let fromHost (l : Nat) : Bool := d?.isSome && pathOf (base l) == 5
        if d?.isSome && !absent.isEmpty then .hold (.page c.launch.rcd.ctx absent) s
        else if c.lanes.any fromHost && s.hostFull c.core then .hold .hostRoom s
        else if !s.logRoom c ps then .hold (.sideLog (logPages ps).length) s
        else
          let s := s.logStores c ps (fun r =>
            if fn == .faddOrd then
              .ordered r.addr { launch := c.launch.num, view := c.view, pa := 0, wide := wide, value := value r,
                                key := addKey c r, core := c.core, squad := c.squad, tangent := r.plane != 0
                                gang := some c.gang.id }
            else .rmw r.addr fn wide (value r) (r.plane != 0))
          let r := ps.foldl (rmwOne c fn wide value cmp) { s := s }
          let host := ps.filterMap (fun p => (hostOffset p).map (fun o => EffectItem.rmw o fn wide (value p.1) (p.1.plane != 0)))
          let s := if c.crew.depth ≥ 1 && !host.isEmpty then r.s.defer c.core (.host host) else r.s
          let s := s.modGang c.core c.slot (fun g => { g with order := g.order + 1 })
          match d? with
          | none => .done (s.poisonPend c r.bad [])
          | some d =>
            let badLanes := (r.bad.map (fun q => q.lane)).eraseDups
            let good := r.old.filter (fun q => !badLanes.contains q.1.lane)
            let result (q : Req × Addr) : List (Nat × Word) := c.gang.wrN wide q.1.plane q.1.lane d.toNat q.2
            let zero (l : Nat) : List (Nat × Word) :=
              if (atomPlanes c fn).length = 1 then c.gang.zeroShadows c.t l wide d.toNat else []
            let now := (good.filter (fun q => !fromHost q.1.lane)).flatMap result ++
              (c.lanes.filter (fun l => !badLanes.contains l && !fromHost l)).flatMap zero
            let later := (good.filter (fun q => fromHost q.1.lane)).map (fun q =>
              hostPart q.1.addr (result q ++ if q.1.plane = 0 then zero q.1.lane else []))
            .done (((s.putGangRegs c now).awaitHost c later).poisonPend c r.bad
              (badLanes.flatMap (fun l => destKeys c l d (if wide then 2 else 1))))) s

def execAtom32 (x : Pfx) (d a b : Reg) (fn : AtomFn) (s : State) : Host.Outcome State Fault Refusal :=
  atomUnit x (some d) a b fn false s
def execAtom64 (x : Pfx) (d a b : Reg) (fn : AtomFn) (s : State) : Host.Outcome State Fault Refusal :=
  atomUnit x (some d) a b fn true s
def execRed32 (x : Pfx) (a b : Reg) (fn : AtomFn) (s : State) : Host.Outcome State Fault Refusal :=
  atomUnit x none a b fn false s
def execRed64 (x : Pfx) (a b : Reg) (fn : AtomFn) (s : State) : Host.Outcome State Fault Refusal :=
  atomUnit x none a b fn true s

/-! ## Prefetch and cache control (R208) -/

/-- The lines that the acting fibres name on paths 0x0 and 0x1 and that translate. -/
def namedLines (c : UnitCtx) (s : State) (a : Reg) : List Nat :=
  (c.lanes.filterMap (fun l =>
    let v := c.pair l a
    if (pathOf v == 0 || pathOf v == 1) && zeroBitsOk v then
      match placeGeneric s c.agent .load false v with
      | .here (.mem pa _) => some (lineOf pa)
      | _ => none
    else none)).eraseDups

/-- A line operation of each acting fibre. -/
def lineUnit (x : Pfx) (a : Reg) (f : UnitCtx → List Nat → State → State) (s : State) :
    Host.Outcome State Fault Refusal :=
  issueUnit x (needRW (regsOf true a) []) (fun c s => .done (f c (namedLines c s a) s)) s

/-- Ask the slices for lines; the replies fill the L1 that holds them (R299). -/
def requestLines (c : UnitCtx) (lines : List Nat) (s : State) : State :=
  let asked := lines.map (fun n =>
    SliceReq.load (l1Owner (s.fusedAt c.launch c.core) c.core n) c.slot n c.view c.gang.pts)
  { s with slices := { s.slices with requests := s.slices.requests ++ asked } }

/-- pref.l1: a hint, with no visible effect. -/
def execPrefL1 (x : Pfx) (a : Reg) (s : State) : Host.Outcome State Fault Refusal := lineUnit x a requestLines s
/-- pref.cc: a hint toward the cluster cache. -/
def execPrefCc (x : Pfx) (a : Reg) (s : State) : Host.Outcome State Fault Refusal := lineUnit x a requestLines s
/-- pref.ms: a hint toward the slice, which then holds the line. -/
def execPrefMs (x : Pfx) (a : Reg) (s : State) : Host.Outcome State Fault Refusal :=
  lineUnit x a (fun _ lines s => { s with slices := lines.foldl Slices.bringIn s.slices }) s
/-- cctl.wb: this model's L1s hold no dirty copy, so nothing is left to write back. -/
def execCctlWb (x : Pfx) (a : Reg) (s : State) : Host.Outcome State Fault Refusal := lineUnit x a (fun _ _ s => s) s
/-- cctl.inv drops the core's copies. -/
def execCctlInv (x : Pfx) (a : Reg) (s : State) : Host.Outcome State Fault Refusal :=
  lineUnit x a (fun c lines s =>
    s.modCore c.core (fun k => { k with l1 := k.l1.filter (fun e => !lines.contains e.line) })) s
/-- cctl.roinv drops the line from the read-only cache. -/
def execCctlRoinv (x : Pfx) (a : Reg) (s : State) : Host.Outcome State Fault Refusal :=
  lineUnit x a (fun c lines s =>
    s.modCore c.core (fun k => { k with ro := k.ro.filter (fun e => !lines.contains e.line) })) s

end Sys2Proof.Machine
end

