-- ==== Sys2Proof/Machine/Layout.lean ====
section
/-! DEFINITION. Layout registers (R28), the layout algebra (R209 to R213), verdicts (R214, R215), the bank-conflict
degree (R216, R217) and tile loads and stores (R218). -/

namespace Sys2Proof.Machine

/-! ## The image of a layout register (R28) -/

/-- A layout register's fields; the reserved bytes stay in the image. -/
structure Lay where
  ext : List Nat          -- six extents, innermost first
  step : List Int         -- six steps in elements
  nmode : Nat
  ew : Nat
  die : Nat
  circ : BitVec 8
  perm : List (Nat × Nat) -- four pairs: target bit, source bit
deriving DecidableEq, Repr

/-- Byte i of an image. -/
def layByte (v : BitVec 512) (i : Nat) : Byte := v.extractLsb' (8 * i) 8

def Lay.of (v : BitVec 512) : Lay :=
  { ext := (List.range 6).map (fun k => (v.extractLsb' (16 * k) 16).toNat)
    step := (List.range 6).map (fun k => (v.extractLsb' (96 + 32 * k) 32).toInt)
    nmode := (layByte v 36).toNat, ew := (layByte v 37).toNat, die := (layByte v 38).toNat
    circ := layByte v 39 &&& 0x3f#8
    perm := (List.range 4).map (fun j => ((layByte v (40 + 2 * j)).toNat, (layByte v (41 + 2 * j)).toNat)) }

/-- The image with these fields; its reserved bytes come from an old image. -/
def Lay.image (l : Lay) (old : BitVec 512) : BitVec 512 :=
  let bytes := l.ext.flatMap (bytesOfNat 2) ++ l.step.flatMap (fun i => bytesOfNat 4 (BitVec.ofInt 32 i).toNat) ++
    [BitVec.ofNat 8 l.nmode, BitVec.ofNat 8 l.ew, BitVec.ofNat 8 l.die, l.circ] ++
    l.perm.flatMap (fun p => [BitVec.ofNat 8 p.1, BitVec.ofNat 8 p.2])
  ((old >>> 384) <<< 384) ||| BitVec.ofNat 512 (natOfBytes bytes)

/-- The image as bytes. -/
def layBytes (v : BitVec 512) : List Byte := (List.range 64).map (layByte v)

/-- A layout read from memory: the reserved bits of CIRC read as zero (R10), the reserved bytes as they are (R210). -/
def layOfBytes (bs : List Byte) : BitVec 512 := BitVec.ofNat 512 (natOfBytes bs) &&& ~~~(0xc0#512 <<< 312)

/-- What lst stores: the reserved bytes as zero (R210). -/
def layStored (v : BitVec 512) : List Byte := (layBytes v).take 48 ++ List.replicate 16 0

def Gang.layout (g : Gang) (n : Nat) : BitVec 512 := g.layouts.get 0 n
def Gang.setLayout (g : Gang) (n : Nat) (v : BitVec 512) : Gang := { g with layouts := g.layouts.set 0 n v }

namespace Lay

/-- Element bits of a width code; bx codes give their blocks (R28). -/
def ewBits (ew : Nat) : Option Nat :=
  match ew with
  | 0x02 => some 4 | 0x03 => some 8 | 0x04 => some 16 | 0x05 => some 32 | 0x06 => some 64
  | 0x08 => some 128 | 0x09 => some 192 | 0x0a => some 288 | _ => none

/-- 4-bit and bx data. -/
def small (l : Lay) : Bool := l.ew == 2 || l.ew == 8 || l.ew == 9 || l.ew == 10

def bits (l : Lay) : Nat := (ewBits l.ew).getD 8

/-- Bytes of an element, 1 for 4-bit data. -/
def esize (l : Lay) : Nat := max (l.bits / 8) 1

/-- Alignment of a tile base (R58, R218). -/
def align (l : Lay) : Nat := match l.ew with | 8 => 16 | 9 => 8 | 10 => 4 | _ => l.esize

def extOf (l : Lay) (k : Nat) : Nat := if k < l.nmode then l.ext.getD k 1 else 1
def stepOf (l : Lay) (k : Nat) : Int := if k < l.nmode then l.step.getD k 1 else 1
def circOf (l : Lay) (k : Nat) : Bool := l.circ.getLsbD k

/-- An active PERM pair. -/
def permActive (l : Lay) : Bool := l.perm.any (fun p => p.1 != p.2)

/-- The lswz conditions on PERM (R212). -/
def permOk (ew : Nat) (perm : List (Nat × Nat)) : Bool :=
  perm.all (fun p => p.1 == p.2 ||
    (match ew with
     | 3 => decide (p.1 ≤ 19) && decide (p.2 ≤ 19)
     | 4 => decide (1 ≤ p.1) && decide (p.1 ≤ 19) && decide (p.2 ≤ 19)
     | 5 => decide (2 ≤ p.1) && decide (p.1 ≤ 19) && decide (p.2 ≤ 19)
     | 6 => decide (3 ≤ p.1) && decide (p.1 ≤ 19) && decide (p.2 ≤ 19)
     | _ => false))

/-- Valid layouts (R214). -/
def valid (l : Lay) : Bool :=
  decide (1 ≤ l.nmode) && decide (l.nmode ≤ 6) && (ewBits l.ew).isSome &&
  (List.range l.nmode).all (fun k => decide (1 ≤ l.extOf k)) &&
  (l.die == 0xff || decide (l.die < l.nmode)) && permOk l.ew l.perm

/-- Elements of the tile. -/
def count (l : Lay) : Nat := (List.range 6).foldl (fun n k => n * l.extOf k) 1

/-- Bits of the tile. -/
def tileBits (l : Lay) : Nat := l.count * l.bits

/-! ## The algebra (R212, R213) -/

/-- A layout that cannot be formed: NMODE 0, beside which the other bytes stay (R209, log 145). -/
def invalid (l : Lay) : Lay := { l with nmode := 0 }

/-- Steps that 32 bits hold. -/
def fits (l : Lay) : Bool := l.step.all (fun i => decide (-(2 ^ 31 : Nat) ≤ i) && decide (i < (2 ^ 31 : Nat)))

def orInvalid (a r : Lay) : Lay := if r.fits then r else a.invalid

/-- DIE after the modes from k on have moved by one; a value that names no mode stays (R212). -/
def dieMoved (l : Lay) (k : Nat) (up : Bool) : Nat :=
  if decide (k ≤ l.die) && decide (l.die < 6) then (if up then l.die + 1 else l.die - 1) else l.die

/-- Bits of CIRC below k, and those from k on. -/
def circLow (l : Lay) (k : Nat) : BitVec 8 := l.circ &&& ((1#8 <<< k) - 1)

def part (a : Lay) (b : Word) : Lay :=
  let m := (b.extractLsb' 0 3).toNat
  let n := (b.extractLsb' 8 8).toNat
  let e := a.ext.getD m 0
  if n < 2 || e % n != 0 || m ≥ a.nmode || a.nmode == 6 || a.circOf m || a.die == m then a.invalid
  else
    orInvalid a { a with
      ext := (a.ext.take m ++ [e / n, n] ++ a.ext.drop (m + 1)).take 6
      step := (a.step.take m ++ [a.step.getD m 0, a.step.getD m 0 * (e / n : Nat)] ++ a.step.drop (m + 1)).take 6
      nmode := a.nmode + 1
      circ := (a.circLow m ||| ((a.circ >>> (m + 1)) <<< (m + 2))) &&& 0x3f#8
      die := a.dieMoved (m + 1) true }

def swap {α : Type} (d : α) (l : List α) (i j : Nat) : List α := (l.set i (l.getD j d)).set j (l.getD i d)

def trans (a : Lay) (i j : Nat) : Lay :=
  if i ≥ a.nmode || j ≥ a.nmode then a.invalid
  else
    { a with
      ext := swap 0 a.ext i j, step := swap 0 a.step i j
      circ := (a.circ &&& ~~~((1#8 <<< i) ||| (1#8 <<< j))) ||| ((BitVec.ofBool (a.circOf i)).setWidth 8 <<< j) |||
        ((BitVec.ofBool (a.circOf j)).setWidth 8 <<< i)
      die := if a.die == i then j else if a.die == j then i else a.die }

def flat (a : Lay) (m : Nat) : Lay :=
  let e := a.ext.getD m 0 * a.ext.getD (m + 1) 0
  if m + 1 ≥ a.nmode || a.step.getD (m + 1) 0 != a.step.getD m 0 * (a.ext.getD m 0 : Int) || e > 65535 ||
      a.circOf m || a.circOf (m + 1) || a.die == m || a.die == m + 1 then a.invalid
  else
    { a with
      ext := (a.ext.take m ++ [e] ++ a.ext.drop (m + 2) ++ [a.ext.getD 5 0]).take 6
      step := (a.step.take m ++ [a.step.getD m 0] ++ a.step.drop (m + 2) ++ [a.step.getD 5 0]).take 6
      nmode := a.nmode - 1
      circ := a.circLow m ||| ((a.circ >>> (m + 2)) <<< (m + 1))
      die := a.dieMoved (m + 2) false }

/-- lswz (R212). A permutation that is not allowed leaves a layout that cannot be formed, with the bytes of a and the PERM asked
for (R209, log 145). -/
def swz (a : Lay) (b : Addr) : Lay :=
  let perm := (List.range 4).map (fun j => ((b.extractLsb' (16 * j) 8).toNat, (b.extractLsb' (16 * j + 8) 8).toNat))
  let r := { a with perm := perm }
  if permOk a.ew perm then r else r.invalid

/-- The mode of a that a step of b maps to, with the multiple q (R213). -/
def chainMode (a : Lay) (s : Int) (e : Nat) : List Nat → Nat → Option (Nat × Int)
  | [], _ => none
  | m :: ms, p =>
    if p = 0 then none
    else if s % (p : Int) = 0 && decide (s / (p : Int) * ((e : Int) - 1) < (a.extOf m : Int)) then some (m, s / (p : Int))
    else chainMode a s e ms (p * a.extOf m)

def chain (a b : Lay) : Lay :=
  let modes := List.range (min a.nmode 6)
  let maps := (List.range b.nmode).map (fun j =>
    let s := b.stepOf j
    if s < 0 then none
    else if s = 0 then (if modes.isEmpty then none else some (0, (0 : Int)))
    else a.chainMode s (b.extOf j) modes 1)
  let dies := (List.range b.nmode).filter (fun j => (maps.getD j none).map Prod.fst == some a.die)
  if b.ew != a.ew || b.nmode > 6 || maps.any Option.isNone || dies.length > 1 then a.invalid
  else
    orInvalid a { a with
      ext := b.ext, nmode := b.nmode
      step := a.step.mapIdx (fun j s => match maps.getD j none with
        | some (m, q) => q * a.stepOf m
        | none => s)
      circ := (List.range b.nmode).foldl (fun (c : BitVec 8) j => match maps.getD j none with
        | some (m, _) => if a.circOf m then c ||| (1#8 <<< j) else c
        | none => c) 0
      die := dies.headD 0xff }

/-! ## Addresses (R211) -/

/-- The coordinate of element k in mode m, mode 0 fastest. -/
def coord (l : Lay) (k m : Nat) : Nat := k / ((List.range m).foldl (fun n i => n * l.extOf i) 1) % l.extOf m

/-- The element offset of element k of the stream order. -/
def offset (l : Lay) (k : Nat) : Int :=
  (List.range (min l.nmode 6)).foldl (fun o m => o + (l.coord k m : Int) * l.stepOf m) 0

/-- The index one past the last element of a tile is odd: as 4-bit data it ends inside a byte (R53). -/
def endsOdd (l : Lay) : Bool := (l.offset (l.count - 1) + 1) % 2 != 0

/-- PERM on a scratchpad path. -/
def permute (l : Lay) (a : Addr) : Addr :=
  if pathOf a == 2 || pathOf a == 3 || pathOf a == 4 then
    l.perm.foldl (fun a p => if p.1 != p.2 && a.getLsbD p.2 then a ^^^ (1#64 <<< p.1) else a) a
  else a

/-- element_address for an element offset: the byte address, and whether a 4-bit element is the high one. -/
def addrAt (l : Lay) (base : Addr) (o : Int) : Addr × Bool :=
  if l.ew == 2 then (l.permute (base + BitVec.ofInt 64 (o / 2)), o % 2 == 1)
  else (l.permute (base + BitVec.ofInt 64 (o * (l.esize : Int))), false)

/-! ## Verdicts (R214, R215) -/

/-- Whether an engine accepts the layout for a base on a path; the copy box and the matrix shapes are not checked
here. -/
def accepted (l : Lay) (e : Engine) (path : Nat) : Bool :=
  let plain := (l.circ &&& 0x3f#8) == 0 && l.die == 0xff
  let s0 := l.stepOf 0
  let feed := s0 == 1 || (!l.small && decide (l.bits ≤ 32) && l.stepOf 1 == 1)
  l.valid && !(l.permActive && !(path == 2 || path == 3 || path == 4)) &&
  (match e with
   | .copy => s0 == 1 || !l.small
   | .lane => plain && l.tileBits % 2048 == 0 && decide (l.tileBits ≤ 32768) && (s0 == 1 || !l.small)
   | .afeed => plain && path == 2 && feed
   | .bload => plain && (path == 0 || path == 1 || path == 2) && feed)

/-! ## Pieces and degree (R216) -/

/-- A piece of a tile within a 4-byte word: where it lies in the stream, and in memory. -/
structure Piece where
  at_ : Nat                -- stream byte
  nib : Option Bool        -- high half of a byte of the stream, for 4-bit data
  addr : Addr
  high : Bool              -- high half of its byte in memory, for 4-bit data
  size : Nat
deriving DecidableEq, Repr

/-- The pieces of element k. -/
def pieces (l : Lay) (base : Addr) (k : Nat) : List Piece :=
  let r := l.addrAt base (l.offset k)
  if l.ew == 2 then [{ at_ := k / 2, nib := some (k % 2 == 1), addr := r.1, high := r.2, size := 1 }]
  else
    let n := min l.esize 4
    (List.range (l.esize / n)).map (fun j =>
      { at_ := k * l.esize + n * j, nib := none, addr := r.1 + BitVec.ofNat 64 (n * j), high := false, size := n })

/-- Every piece in stream order. -/
def tile (l : Lay) (base : Addr) : List Piece := (List.range l.count).flatMap (l.pieces base)

/-- The largest number of words that one bank receives. -/
def bankMax (ws : List Nat) : Nat :=
  (List.range 64).foldl (fun n b => max n (ws.filter (fun w => w % 64 == b)).length) 0

/-- The degree of words given with their places in the stream. -/
def degreeOf (ps : List (Nat × Nat)) : Nat :=
  let beats := (ps.foldl (fun n p => max n p.1) 0) / 256 + 1
  min 64 ((List.range beats).foldl (fun n b =>
    max n (bankMax (((ps.filter (fun p => p.1 / 256 == b)).map (fun p => p.2 % 2 ^ 20 / 4)).eraseDups))) 1)

/-- A scratchpad path. -/
def onPad (a : Addr) : Bool := pathOf a == 2 || pathOf a == 3 || pathOf a == 4

/-- The bank-conflict degree of a tile access. -/
def degree (l : Lay) (base : Addr) : Nat :=
  if onPad base then degreeOf ((l.tile base).map (fun p => (p.at_, p.addr.toNat))) else 1

end Lay

/-- Record a degree in %bankdeg (R38). -/
def Gang.noteDegree (g : Gang) (n : Nat) : Gang :=
  let d : BitVec 8 := BitVec.ofNat 8 n
  let m := g.bankdeg.extractLsb' 8 8
  { g with bankdeg := (((if m.ult d then d else m) ++ d : BitVec 16)).setWidth 32 }

/-! ## lld and lst (R210) -/

/-- The address of lld and lst. -/
def layAddr (c : UnitCtx) (a : Reg) (i : BitVec 11) : Addr := c.pair c.low a + BitVec.ofInt 64 (i.toInt * 64)

def layReq (c : UnitCtx) (a : Reg) (i : BitVec 11) : List Req :=
  [{ lane := c.low, addr := layAddr c a i, size := 64 }]

def execLld (x : Pfx) (l : LReg) (a : Reg) (i : BitVec 11) (s : State) : Host.Outcome State Fault Refusal :=
  issueUnit x { regs := regsOf true a, others := 1, stall := true } (fun c s =>
    if c.acts = 0 then .done s
    else
      match access c s .lld false (fun _ => true) (fun r => r.addr.toNat % 64 == 0) (layReq c a i) with
      | .trap t => .trap t 0
      | .broken va => .jump (stopGang c va s)
      | .held h s => .hold h s
      | .go ps s =>
        let r := readAll c ps s
        if !r.bad.isEmpty then
          .done ((r.s.addUnitPend c { cause := 0x10, addr := layAddr c a i, at_ := .layout l.toNat }).padError c.core
            (layAddr c a i))
        else
          let bs := r.got.flatMap (fun q => q.2)
          .done (r.s.modGang c.core c.slot (fun g => g.setLayout l.toNat (layOfBytes bs)))) s

def execLst (x : Pfx) (l : LReg) (a : Reg) (i : BitVec 11) (s : State) : Host.Outcome State Fault Refusal :=
  issueUnit x { regs := regsOf true a, stall := true, layouts := [l.toNat] } (fun c s =>
    if c.acts = 0 then .done s
    else
      match access c s .lst false (fun _ => true) (fun r => r.addr.toNat % 64 == 0) (layReq c a i) with
      | .trap t => .trap t 0
      | .broken va => .jump (stopGang c va s)
      | .held h s => .hold h s
      | .go ps s =>
        match worldEnds c s ps false with
        | some st => .jump (endWorld c.core st 0 s)
        | none =>
          if !s.logRoom c ps then .hold (.sideLog (logPages ps).length) s
          else .done (performStores c ps (fun _ => layStored (c.gang.layout l.toNat)) s)) s

/-! ## Forming layouts (R212, R213) -/

/-- A layout computed from register a of the group (R209). -/
def layoutUnit (x : Pfx) (n : Need) (d a : LReg) (f : UnitCtx → Lay → Lay) (s : State) :
    Host.Outcome State Fault Refusal :=
  issueUnit x { n with others := 1 } (fun c s =>
    if c.acts = 0 then .done s
    else
      let img := c.gang.layout a.toNat
      .done (s.modGang c.core c.slot (fun g => g.setLayout d.toNat ((f c (Lay.of img)).image img)))) s

def execLchain (x : Pfx) (d a b : LReg) (s : State) : Host.Outcome State Fault Refusal :=
  layoutUnit x { layouts := [a.toNat, b.toNat] } d a (fun c l => l.chain (Lay.of (c.gang.layout b.toNat))) s

def execLpart (x : Pfx) (d a : LReg) (b : Reg) (s : State) : Host.Outcome State Fault Refusal :=
  layoutUnit x { regs := [b.toNat], layouts := [a.toNat] } d a (fun c l => l.part (c.word c.low b)) s

def execLtrans (x : Pfx) (d a : LReg) (j i : BitVec 3) (s : State) : Host.Outcome State Fault Refusal :=
  layoutUnit x { layouts := [a.toNat] } d a (fun _ l => l.trans i.toNat j.toNat) s

def execLflat (x : Pfx) (d a : LReg) (m : BitVec 3) (s : State) : Host.Outcome State Fault Refusal :=
  layoutUnit x { layouts := [a.toNat] } d a (fun _ l => l.flat m.toNat) s

def execLswz (x : Pfx) (d a : LReg) (b : Reg) (s : State) : Host.Outcome State Fault Refusal :=
  layoutUnit x { regs := regsOf true b, layouts := [a.toNat] } d a (fun c l => l.swz (c.pair c.low b)) s

/-- lchk (R217): judged for a base at scratchpad offset 0. -/
def execLchk (x : Pfx) (p : PReg) (l : LReg) (e : Engine) (s : State) : Host.Outcome State Fault Refusal :=
  issueUnit x { preds := [p.toNat], others := 1, layouts := [l.toNat] } (fun c s =>
    if c.acts = 0 then .done s
    else
      let lay := Lay.of (c.gang.layout l.toNat)
      let ok := lay.accepted e 2
      let s := writeLanes c (c.lanes.map (fun n => (n, { preds := [(p.toNat, ok)] }))) s
      .done (if ok then s.modGang c.core c.slot (fun g => g.noteDegree (lay.degree 0x2000000000000000#64)) else s)) s

/-! ## ltile and stile (R218) -/

/-- The checks of the third step of R102, in R218's order: n is the number of registers. -/
def tileTrap (c : UnitCtx) (d : Reg) (lay : Lay) (path n : Nat) : Option Trap :=
  if !lay.accepted .lane path then some { cause := 3, lane := c.low }
  else
    match firstFail c.lanes (fun l => decide (d.toNat + n ≤ 128) &&
        ((List.range n).map (d.toNat + ·)).all (inAllocation c.w (c.gang.fibre l).wbase)) with
    | some l => some { cause := 1, lane := l }
    | none => none

/-- The accesses of a tile. -/
def tileReqs (c : UnitCtx) (ps : List Lay.Piece) : List Req :=
  ps.mapIdx (fun i p => { lane := c.low, idx := i, addr := p.addr, size := p.size })

/-- The base is aligned to the element (R218), and a tile of 4-bit data ends on a byte (R53, log 53). -/
def tileAligned (lay : Lay) (base : Addr) (n : Nat) (r : Req) : Bool :=
  base.toNat % lay.align == 0 && !(lay.ew == 2 && lay.endsOdd && r.idx + 1 == n)

/-- The registers of a tile past the first go through the operand buffer as the first does (R22). -/
def useTile (c : UnitCtx) (planes : List Nat) (rs : List Nat) (dirty : Bool) (s : State) : State :=
  s.modCrew c.core (bufferUses s.clock.toNat c.slot ((vectorKeys c.gang planes [c.low] rs).map (fun k => (k, dirty))))

/-- Assemble the stream from what its pieces read. -/
def streamBytes (n : Nat) (ps : List (Lay.Piece × List Byte)) : List Byte :=
  let m : Map Byte := ps.foldl (fun (m : Map Byte) p =>
    match p.1.nib with
    | none => p.2.mapIdx (fun i b => (i, b)) |>.foldl (fun m e => m.put (p.1.at_ + e.1) e.2) m
    | some high =>
      let b := p.2.headD 0
      let v : BitVec 4 := if p.1.high then b.extractLsb' 4 4 else b.extractLsb' 0 4
      m.put p.1.at_ (putNibble (m.get 0 p.1.at_) high v)) []
  (List.range n).map (fun i => m.get 0 i)

/-- Registers a tile takes: n words of each lane from the stream. -/
def laneOfByte (b : Nat) : Nat := b % 256 / 4

/-- ltile (R217). The registers of a tile whose first is g0 are g0, g1, g2 and so on (R20, log 142). -/
def execLtile (x : Pfx) (d a : Reg) (l : LReg) (s : State) : Host.Outcome State Fault Refusal :=
  issueUnit x { regs := regsOf true a ++ [d.toNat], writes := [d.toNat], layouts := [l.toNat] } (fun c s =>
    if c.acts = 0 then .done s
    else
      let lay := Lay.of (c.gang.layout l.toNat)
      let base := c.pair c.low a
      let n := lay.tileBits / 2048
      match tileTrap c d lay (pathOf base) n with
      | some t => .trap t 0
      | none =>
        let ps := lay.tile base
        let regs := (List.range n).map (d.toNat + ·)
        let need : Need := { regs := regs, writes := regs }
        if loadStalls c [base] || fenceStalls c need then .hold .fence s
        else if !(waitingKeys c need).isEmpty then .hold (.pendingDest (waitingKeys c need) none) s
        else if let some b := foundError c need then .error b
        else
          match access c s .tileLoad false (fun _ => true) (tileAligned lay base ps.length) (tileReqs c ps) with
          | .trap t => .trap t 0
          | .broken va => .jump (stopGang c va s)
          | .held h s => .hold h s
          | .go qs s =>
            if pathOf base == 5 && s.hostFull c.core then .hold .hostRoom s
            else
            let r := readAll c qs s
            let bytes := streamBytes (n * 256) (r.got.filterMap (fun q => (ps[q.1.idx]?).map (fun p => (p, q.2))))
            let bad := (r.bad.filterMap (fun q => (ps[q.idx]?).map (fun p => laneOfByte p.at_))).eraseDups
            let good := c.lanes.filter (fun k => !bad.contains k)
            let ws := good.flatMap (fun k => (List.range n).flatMap (fun j =>
              let w : Word := BitVec.ofNat 32 (natOfBytes ((bytes.drop (256 * j + 4 * k)).take 4))
              c.gang.wr 0 k (d.toNat + j) w ++ c.gang.zeroShadows c.t k false (d.toNat + j)))
            let s := if pathOf base == 5 then r.s.awaitHost c [hostPart base ws] else r.s.putGangRegs c ws
            let s := s.poisonPend c r.bad
              ((c.lanes.filter bad.contains).flatMap (fun k => regs.flatMap (fun j =>
                destKeys c k (BitVec.ofNat 7 j) 1)))
            .done ((useTile c c.planes (regs.drop 1) true s).modGang c.core c.slot (fun g =>
              { (clearErrors c need g).noteDegree (lay.degree base) with
                fence := g.fence.map (fun f => { f with writes := f.writes + (n - 1) * (c.t + 1) }) }))) s

/-- What a piece of a stile stores: the lane that holds it and its bytes, or a nibble. -/
def pieceItem (c : UnitCtx) (d : Reg) (p : Lay.Piece) : SideItem :=
  let w := (c.gang.reg 0 (laneOfByte p.at_) (d.toNat + p.at_ / 256)).toNat
  let b := w / 2 ^ (8 * (p.at_ % 4))
  match p.nib with
  | none => .bytes p.addr (bytesOfNat p.size b)
  | some high => .nibble p.addr p.high (BitVec.ofNat 4 (if high then b / 16 else b))

/-- The byte at a location now, for a nibble's merge. -/
def State.peek (s : State) (view : Nat) (l : Loc) : Byte :=
  match l with
  | .mem pa _ => s.byteAt view pa
  | .pad core off => (match s.crewAt core with | some k => k.scratch.get 0 off | none => 0)
  | .host off => s.host.get 0 (s.window.hwbase.toNat + off)
  | _ => 0

/-- Store one piece where it lands. -/
def storePiece (c : UnitCtx) (l : Loc) (i : SideItem) (s : State) : State :=
  match i with
  | .bytes va bs => s.writeLoc c State.writeRegBytes va l bs
  | .nibble va high v => s.writeLoc c State.writeRegBytes va l [putNibble (s.peek c.view l) high v]
  | _ => s

/-- The effect-queue form of a piece in the host window. -/
def SideItem.effect (i : SideItem) (off : Nat) : Option EffectItem :=
  match i with
  | .bytes _ bs => some (.bytes off bs)
  | .nibble _ high v => some (.nibble off high v)
  | _ => none

/-- stile (R218). Where elements overlap, the later one in stream order remains, whichever lanes hold them: R218 says it
of stile, where R183 names the higher lane (log 120). A first register g0 is as in ltile (log 142). -/
def execStile (x : Pfx) (d a : Reg) (l : LReg) (s : State) : Host.Outcome State Fault Refusal :=
  issueUnit x { regs := regsOf true a ++ [d.toNat], stall := true, layouts := [l.toNat], delivers := fun c p =>
      match p with
      | .regs keys => (keysOf c ((List.range ((Lay.of (c.gang.layout l.toNat)).tileBits / 2048)).map (d.toNat + ·))).any
          keys.contains
      | _ => false } (fun c s =>
    if c.acts = 0 then .done s
    else
      let lay := Lay.of (c.gang.layout l.toNat)
      let base := c.pair c.low a
      let n := lay.tileBits / 2048
      match tileTrap c d lay (pathOf base) n with
      | some t => .trap t 0
      | none =>
        let ps := lay.tile base
        let regs := (List.range n).map (d.toNat + ·)
        if !(waitingKeys c { regs := regs }).isEmpty then .hold (.pendingDest (waitingKeys c { regs := regs }) none) s
        else if let some b := foundError c { regs := regs } then .error b
        else
          match access c s .tileStore false (fun _ => true) (tileAligned lay base ps.length) (tileReqs c ps) with
          | .trap t => .trap t 0
          | .broken va => .jump (stopGang c va s)
          | .held h s => .hold h s
          | .go qs s =>
            let mine := qs.filter (fun q => match ps[q.1.idx]? with
              | some p => c.acts.getLsbD (laneOfByte p.at_)
              | none => false)
            let item (r : Req) : SideItem :=
              match ps[r.idx]? with | some p => pieceItem c d p | none => .bytes r.addr []
            match worldEnds c s mine (mine.any (fun q => (hostOffset q).isSome)) with
            | some st => .jump (endWorld c.core st 0 s)
            | none =>
              if !s.logRoom c mine then .hold (.sideLog (logPages mine).length) s
              else
                let inWorld := decide (c.crew.depth ≥ 1)
                let s := s.logStores c mine item
                let s := mine.foldl (fun s q =>
                  match q.2 with
                  | .here (.host off) => if inWorld then s else storePiece c (.host off) (item q.1) s
                  | .here l => storePiece c l (item q.1) s
                  | _ => s) s
                let host := mine.filterMap (fun q => (hostOffset q).bind (fun o => (item q.1).effect o))
                let s := if inWorld && !host.isEmpty then s.defer c.core (.host host) else s
                let s := s.clearPoison c.view (memTargets mine)
                .done ((useTile c [0] (regs.drop 1) false s).modGang c.core c.slot (fun g => g.noteDegree (lay.degree base)))) s

end Sys2Proof.Machine
end

