-- ==== Sys2Proof/Machine/Engine.lean ====
section
/-! DEFINITION. What the engines share: their reads of memory (R221, R317, R333), the elements of the matrix operand
formats (R53 to R60, R226, R227) and the identity of the gang that issued an operation. -/

/-! ## Matrix operand formats (R60, R83, R226) -/

namespace Sys2Proof.MFmt

/-- The cells an element takes (R60). -/
def cells : MFmt → Nat | .fp32 => 3 | .fp19 | .bf16 | .fp16 => 2 | _ => 1
/-- Formats of up to 8 magnitude bits (R60). -/
def narrow (f : MFmt) : Bool := f.cells == 1
def integer : MFmt → Bool | .i8 | .n8 | .i4 | .n4 => true | _ => false
/-- The element-width code a layout must have (R226). -/
def ew : MFmt → Nat
  | .fp32 | .fp19 => 5 | .bf16 | .fp16 => 4 | .fp8e4 | .fp8e5 | .i8 | .n8 | .fp6e3 | .fp6e2 => 3
  | .fp4 | .i4 | .n4 => 2 | .bx8 => 10 | .bx5 => 9 | .bx3 => 8
def fp6 : MFmt → Bool | .fp6e3 | .fp6e2 => true | _ => false
def nibble : MFmt → Bool | .fp4 | .i4 | .n4 => true | _ => false
/-- Elements of one unit of a layout's mode 0: 32 for a block (R58). -/
def block : MFmt → Nat | .bx8 | .bx5 | .bx3 => 32 | _ => 1
/-- Magnitude bits of a bx element (R56). -/
def bxBits : MFmt → Nat | .bx8 => 7 | .bx5 => 4 | _ => 2

/-- The value of an element's code; a bx code holds the element, its quad shift and the shared exponent (R54 to R57). -/
def decode (f : MFmt) (code : Nat) : Machine.Val :=
  match f with
  | .fp32 => Machine.decodeFp .f32 code
  | .fp19 => Machine.decodeFp .fp19 code
  | .bf16 => Machine.decodeFp .bf16 code
  | .fp16 => Machine.decodeFp .f16 code
  | .fp8e4 => Machine.decodeFp .fp8e4 code
  | .fp8e5 => Machine.decodeFp .fp8e5 code
  | .fp6e3 => Machine.decodeFp .fp6e3 code
  | .fp6e2 => Machine.decodeFp .fp6e2 code
  | .fp4 => Machine.decodeFp .fp4 code
  | .i8 => .ofInt (BitVec.ofNat 8 code).toInt
  | .n8 => .ofInt (code % 256 : Nat)
  | .i4 => .ofInt (BitVec.ofNat 4 code).toInt
  | .n4 => .ofInt (code % 16 : Nat)
  | .bx8 | .bx5 | .bx3 =>
    let m := f.bxBits
    let e := code / 1024
    let sh := code / 256 % 4
    if e = 255 then .nan false
    else .fin (code / 2 ^ m % 2 == 1) (code % 2 ^ m) ((e : Int) - 127 - sh - ((m : Int) - 1)) 1

end Sys2Proof.MFmt

namespace Sys2Proof.Machine

/-! ## Reads by an engine -/

/-- Who an engine of a core works for. -/
def State.agentAt (s : State) (core : Nat) : Option Agent :=
  match s.crewAt core with
  | none => none
  | some c => (s.launchOf c.launch).map (fun l =>
      { core := core, launch := l.num, ctx := l.rcd.ctx, priv := l.rcd.flags.getLsbD 0 })

/-- Where one byte of an engine's read lies. -/
def enginePlace (s : State) (w : Agent) (a : Addr) : Place :=
  if zeroBitsOk a then place s w .engineRead false a 1 else .fault

/-- What becomes of an engine's read. -/
inductive EngineRead where
  | ok
  | wait (pages : List (Addr × Bool))   -- absent pages, and whether each migrates (R333); none: a saved peer crew (R341)
  | broken (va : Addr)                  -- R331
  | poisoned (va : Addr)                -- R316, R317
deriving DecidableEq, Repr

/-- The outcome of reading these bytes: the worst first. -/
def engineRead (s : State) (w : Agent) (view : Nat) (as : List Addr) : EngineRead :=
  let ps := as.map (fun a => (a, enginePlace s w a))
  match ps.find? (fun p => p.2 == .broken) with
  | some p => .broken p.1
  | none =>
    let away := (ps.filterMap (fun p => match p.2 with | .absent page _ m => some (page, m) | _ => none)).eraseDups
    let peers := ps.any (fun p => match p.2 with | .peer _ => true | _ => false)
    if !away.isEmpty || peers then .wait away
    else
      match ps.find? (fun p => match p.2 with | .here l => s.poisoned w.core view l.direct 1 | _ => false) with
      | some p => .poisoned p.1
      | none => .ok

/-- The byte an engine reads in a view; one whose mapping has gone since the command issued is a free value (log 6). -/
def engineByte (s : State) (w : Agent) (view : Nat) (a : Addr) : Byte :=
  match enginePlace s w a with
  | .here l => s.peek view l
  | _ => (Config.freeValue (2 * ((s.drawn * 2 ^ 64 + s.clock.toNat) * 2 ^ 64 + a.toNat) + 1)).setWidth 8

/-- Post the fault records of a held read (R333). -/
def State.postPages (s : State) (w : Agent) (kind : AccessKind) (pages : List (Addr × Bool)) : State :=
  pages.foldl (fun s p => s.postFault w.ctx w.launch w.core kind p.1 p.2) s

/-- An engine operation holds on absent pages: fault records are posted, and it goes on once each page has been resumed
(R333, R336). -/
def State.engineWait (s : State) (w : Agent) (kind : AccessKind) (num : Nat) (pages : List (Addr × Bool)) : State :=
  (s.postPages w kind pages).modCrew w.core (fun c => { c with away := c.away ++ pages.map (fun p => (num, p.1)) })

/-- An engine operation still holds on a page that has not been resumed. -/
def Crew.isAway (c : Crew) (num : Nat) : Bool := c.away.any (fun a => a.1 == num)

/-- The issuing gang of an engine operation, if it has not ended. -/
def State.issuer (s : State) (core slot num : Nat) : Option Gang :=
  match s.gangAt core slot with
  | some g => if g.born ≤ num then some g else none
  | none => none

/-- Make a deferred trap pending in the issuing gang; one that has ended discards it (R158). -/
def State.pendIssuer (s : State) (core slot num : Nat) (p : Pend) : State :=
  match s.issuer core slot num with | some _ => s.addPend core slot p | none => s

/-- The byte addresses that hold an element at offset o, in units of the layout's elements (R211, R226). -/
def elemBytes (l : Lay) (f : MFmt) (base : Addr) (o : Int) : List Addr :=
  if f.fp6 then
    let b (j : Int) : Addr := l.permute (base + BitVec.ofInt 64 (6 * o / 8 + j))
    if 6 * o % 8 > 2 then [b 0, b 1] else [b 0]
  else if f.nibble then [(l.addrAt base o).1]
  else (List.range l.esize).map (fun j => (l.addrAt base o).1 + BitVec.ofNat 64 j)

/-- The code of element e of the unit at offset o, its bytes given. -/
def elemCode (byte : Addr → Byte) (l : Lay) (f : MFmt) (base : Addr) (o : Int) (e : Nat) : Nat :=
  let v := natOfBytes ((elemBytes l f base o).map byte)
  if f.fp6 then v / 2 ^ (6 * o % 8).toNat % 64
  else if f.nibble then (if (l.addrAt base o).2 then v / 16 else v % 16)
  else if f.block = 32 then
    let w := f.bxBits + 1
    v / 2 ^ (24 + w * e) % 2 ^ w + 256 * (v / 2 ^ (8 + 2 * (e / 4)) % 4) + 1024 * (v % 256)
  else if f = .fp19 then v / 2 ^ 13
  else v

/-- The offset of coordinates (c0, c1). -/
def offset2 (l : Lay) (c0 c1 : Nat) : Int := (c0 : Int) * l.stepOf 0 + (c1 : Int) * l.stepOf 1

/-- The shape checks of R226 and R230: lim0 bounds the elements along mode 0. -/
def shapeOk (l : Lay) (f : MFmt) (e : Engine) (path lim0 : Nat) : Bool :=
  l.accepted e path && l.ew == f.ew && (List.range 4).all (fun k => l.extOf (k + 2) == 1) &&
  decide (f.block * l.extOf 0 ≤ lim0) && decide (l.extOf 1 ≤ 128) &&
  (!f.fp6 || (l.stepOf 0 == 1 && l.extOf 0 % 4 == 0 && (l.nmode < 2 || l.stepOf 1 % 4 == 0)))

/-- Every unit of a tile, mode 0 fastest, with its coordinates. -/
def tileUnits (l : Lay) : List (Nat × Nat) :=
  (List.range (l.extOf 1)).flatMap (fun j => (List.range (l.extOf 0)).map (fun i => (i, j)))

/-- The byte addresses of a tile. -/
def tileAddrs (l : Lay) (f : MFmt) (base : Addr) : List Addr :=
  (tileUnits l).flatMap (fun u => elemBytes l f base (offset2 l u.1 u.2))

/-- The stream byte of byte j of unit k of a tile (R53, R216): an element of 6 bits starts in byte 6k/8, one of 4 bits lies
in byte k/2. -/
def streamByte (l : Lay) (f : MFmt) (k j : Nat) : Nat :=
  if f.fp6 then 6 * k / 8 + j else if f.nibble then k / 2 else k * l.esize + j

/-- The bank-conflict degree of a tile that an engine reads (R216). -/
def tileDegree (l : Lay) (f : MFmt) (base : Addr) : Nat :=
  if Lay.onPad base then
    Lay.degreeOf (((tileUnits l).mapIdx (fun k u => (elemBytes l f base (offset2 l u.1 u.2)).mapIdx (fun j a =>
      (streamByte l f k j, a.toNat)))).flatten)
  else 1

/-- Alignment of a tile's units (R53, R58, R226). -/
def unitAlign (l : Lay) (f : MFmt) : Nat := if f.fp6 || f.nibble then 1 else l.align

/-- The accesses of a tile as the checks at issue see them. -/
def unitReqs (l : Lay) (f : MFmt) (base : Addr) (plane : Nat) : List Req :=
  (tileUnits l).flatMap (fun u => (elemBytes l f base (offset2 l u.1 u.2)).mapIdx (fun j a =>
    { lane := 0, plane := plane, idx := j, addr := a, size := 1 }))

/-- Whether an access of 4-bit data would end inside its last byte (R53). -/
def endsInside (l : Lay) (f : MFmt) : Bool := f.nibble && l.endsOdd

/-- What stops an engine command at issue (R182): a trap, or a broken table. -/
inductive EngineCheck where
  | ok | trap (t : Trap) | broken (va : Addr)

/-- The checks of R182 on an engine's addresses; absent pages are no failure (R226). -/
def engineCheck (s : State) (w : Agent) (paths : Nat → Bool) (same : Req → Bool) (align : Req → Bool) (rs : List Req) :
    EngineCheck :=
  match lowestFail rs (fun r => zeroBitsOk r.addr && paths (pathOf r.addr) && same r) with
  | some r => .trap { cause := 5, lane := r.lane, addr := r.addr }
  | none =>
    match lowestFail rs align with
    | some r => .trap { cause := 4, lane := r.lane, addr := r.addr }
    | none =>
      match rs.find? (fun r => enginePlace s w r.addr == .broken) with
      | some r => .broken r.addr
      | none =>
        match lowestFail rs (fun r => enginePlace s w r.addr != .fault) with
        | some r => .trap { cause := 5, lane := r.lane, addr := r.addr }
        | none => .ok

end Sys2Proof.Machine
end

