-- ==== Sys2Proof/Machine/Matrix.lean ====
section
/-! DEFINITION. Matrix instructions (R219 to R241): the checks at issue, the command queue, and the completion of each
command with its sums (R73 to R76), its versions (R223, R224), the first-NaN record (R239) and B-macro parity (R240). -/

namespace Sys2Proof.Machine

/-! ## Tiles and versions -/

/-- Key of an accumulator element (R29). -/
def tileKey (t row col : Nat) : Nat := t * 2048 + row * 16 + col

def Crew.vcOf (c : Crew) (t : Nat) : BitVec 16 := c.vc.get 0 t
def Crew.vrOf (c : Crew) (t : Nat) : BitVec 16 := c.vr.get 0 t

/-- Add one to the saturation counter of a tile (R231, R238). -/
def addSat (m : Map Word) (t n : Nat) : Map Word := m.set 0 t (BitVec.ofNat 32 (min ((m.get 0 t).toNat + n) (2 ^ 32 - 1)))

/-- The tiles of a span. -/
def spanOf (t n : Nat) : List Nat := (List.range n).map (t + ·)

/-! ## The queue (R219) -/

/-- Enter a command: VR of the tiles it writes advances (R223). -/
def enqueue (c : UnitCtx) (op : MatOp) (tiles : List Nat) (s : State) : State :=
  let s := s.modCrew c.core (fun k =>
    { k with
      vr := tiles.foldl (fun m t => m.set 0 t (m.get 0 t + 1)) k.vr
      matq := k.matq ++ [{ op := op, num := s.engineOps, slot := c.slot, pc := c.pc, view := c.view }] })
  { s with engineOps := s.engineOps + 1 }

/-- Enter a command, or wait at issue while the queue is full, the span waited on kept. -/
def queueAfter (span : List Nat) (c : UnitCtx) (op : MatOp) (tiles : List Nat) (s : State) : Act :=
  if c.crew.matq.length ≥ Config.matrixEntries then .hold (.matrixFull span) s else .done (enqueue c op tiles s)

/-- Enter a command that waits on no versions. -/
def queueOr (c : UnitCtx) (op : MatOp) (tiles : List Nat) (s : State) : Act := queueAfter [] c op tiles s

/-- A matrix instruction: it waits for an incomplete fence and is a point where traps on its tiles are delivered
(R239). -/
def matNeed (regs : List Nat) (coll : Bool) (tiles : UnitCtx → List Nat) : Need :=
  { regs := regs, stall := true, collective := coll, delivers := fun c d => match d with
      | .tiles ts => (tiles c).any ts.contains
      | _ => false }

/-- A group that has waited on versions has passed the checks that stand before that wait (R231). -/
def waited (c : UnitCtx) : Bool := (waitedOn c).isSome

/-- The distance check and the wait of R224 on the tiles of a span: none where every tile has reached E. Where a tangent span
passes tile 23 it waits on the tiles there are (log 148). -/
def versionStop (c : UnitCtx) (span : List Nat) (e : BitVec 16) (s : State) : Option Act :=
  let tiles := span.filter (· < 24)
  if tiles.any (fun t => decide ((e - c.crew.vrOf t).toNat > 2 ^ 15)) then some (.trap { cause := 0x12, lane := c.low } 0)
  else if tiles.any (fun t => c.crew.vrOf t != e) then some (.hold (.version span e) s)
  else none

/-! ## mldb (R226, R228) -/

def Crew.slotB (c : Crew) (i : Nat) : BSlot := if i = 0 then c.b0 else c.b1
def Crew.setSlotB (c : Crew) (i : Nat) (b : BSlot) : Crew := if i = 0 then { c with b0 := b } else { c with b1 := b }

/-- The checks of R182 on a tile's units for one matrix command. -/
def tileCheck (c : UnitCtx) (s : State) (l : Lay) (f : MFmt) (paths : Nat → Bool) (planes : List Addr) :
    EngineCheck :=
  let rs := (planes.mapIdx (fun p b => unitReqs l f b p)).flatten
  let lasts := planes.map (fun b => (l.addrAt b (l.offset (l.count - 1))).1)
  engineCheck s c.agent paths (fun _ => true)
    (fun r => r.idx != 0 || (r.addr.toNat % unitAlign l f == 0 && !(endsInside l f && lasts.contains r.addr))) rs

def execMldb (x : Pfx) (sl : BitVec 1) (a : Reg) (l : LReg) (f : MFmt) (s : State) : Host.Outcome State Fault Refusal :=
  issueUnit x { matNeed (regsOf true a) true (fun _ => []) with layouts := [l.toNat] } (fun c s =>
    let img := c.gang.layout l.toNat
    let lay := Lay.of img
    let base := c.pair 0 a
    if !shapeOk lay f .bload (pathOf base) (384 / f.cells) then .trap { cause := 3, lane := 0 } 0
    else
      match (if waited c then .ok else tileCheck c s lay f (fun p => decide (p ≤ 2)) [base]) with
      | .trap t => .trap t 0
      | .broken va => .jump (stopGang c va s)
      | .ok =>
        match queueOr c (.loadB sl.toNat base img f) [] s with
        | .done s => .done (s.modCrew c.core (fun k =>
            k.setSlotB sl.toNat { k.slotB sl.toNat with issueValid := true, issueFmt := f, parityLost := false }))
        | r => r) s

/-! ## mma and mma.c (R229 to R233) -/

/-- K of the control word (R98). -/
def kOf (kc : BitVec 2) : Nat := match kc.toNat with | 0 => 128 | 1 => 64 | _ => 32

/-- The fields of the control word (R98). -/
structure MmaCtl where
  lay : Nat
  k : Nat
  slot : Nat
  fe : Bool
  nt : Nat

def mmaCtl (x : Pfx) : MmaCtl :=
  { lay := (x.x.extractLsb' 0 4).toNat, k := kOf (x.x.extractLsb' 4 2), slot := (x.x.extractLsb' 6 1).toNat,
    fe := x.x.getLsbD 7, nt := (x.x.extractLsb' 8 5).toNat }

/-- Step 5 of R231: the tile count, or the trap. -/
def slotCheck (c : UnitCtx) (m : MmaCtl) (d : Nat) (f : MFmt) : Nat ⊕ Trap :=
  let b := c.crew.slotB m.slot
  let cap := 24 / b.issueFmt.cells
  let n := if m.nt = 0 then cap else m.nt
  if !b.issueValid then .inr { cause := if b.parityLost then 0x11 else 1, lane := 0 }
  else if b.issueFmt.integer != f.integer || n > cap || d + n > 24 then .inr { cause := 1, lane := 0 }
  else .inl n

/-- Tiles a command with n primal tiles writes (R233). -/
def writtenTiles (c : UnitCtx) (d n : Nat) : List Nat := spanOf d (if c.dual = .none then n else n * (1 + c.t))

/-- The passes read tangent A tiles. -/
def readsTangents (c : UnitCtx) : Bool := decide (c.t ≥ 1) && (c.dual == .implicit || c.dual == .seed)

/-- Step 6 of R231: the tangent rules of R233. -/
def tangentCheck (c : UnitCtx) (m : MmaCtl) (d n : Nat) : Option Trap :=
  let b := c.crew.slotB m.slot
  let o := c.crew.slotB (1 - m.slot)
  if c.dual == .get || (c.dual == .seed && c.dualReg != 0) then some { cause := 1, detail := 2, lane := 0 }
  else if c.dual != .none && decide (d + n * (1 + c.t) > 24) then some { cause := 1, lane := 0 }
  else if readsTangents c && o.issueValid && o.issueFmt != b.issueFmt then some { cause := 1, lane := 0 }
  else none

/-- Every core of the cluster holds a crew of the launch, in no world (R232). -/
def coopLegal (c : UnitCtx) (s : State) : Bool :=
  c.crew.depth == 0 && (List.range 8).all (fun i =>
    match s.crewAt (c.core / 8 * 8 + i) with | some k => k.launch == c.crew.launch | none => false)

/-- The tiles an mma names, for delivery (R239): those whose versions it waits on, once it does (R231). -/
def mmaNames (x : Pfx) (d : TileNo) (c : UnitCtx) : List Nat :=
  let m := mmaCtl x
  (waitedOn c).getD <|
  let n := if m.nt = 0 then 24 / (c.crew.slotB m.slot).issueFmt.cells else m.nt
  writtenTiles c d.toNat n

/-- The span whose versions are waited on (R231): what the unit first found, or, at its first issue, what NT or the slot's
format gives. -/
def mmaSpan (c : UnitCtx) (m : MmaCtl) (d : Nat) (f : MFmt) : List Nat ⊕ Trap :=
  match waitedOn c with
  | some span => .inl span
  | none =>
    match (if m.nt = 0 then slotCheck c m d f else .inl m.nt) with
    | .inr t => .inr t
    | .inl n => .inl (writtenTiles c d n)

def mmaUnit (coop : Bool) (x : Pfx) (t : TileNo) (a b : Reg) (f : MFmt) (s : State) : Host.Outcome State Fault Refusal :=
  let m := mmaCtl x
  issueUnit x { matNeed (regsOf true a ++ [b.toNat]) true (mmaNames x t) with layouts := [m.lay] } (fun c s =>
    let img := c.gang.layout m.lay
    let lay := Lay.of img
    let base := c.pair 0 a
    let planes := base :: (if readsTangents c then (List.range c.t).map (fun k => tangentAddr c base (k + 1)) else [])
    let e := (c.word 0 b).setWidth 16
    if coop && !coopLegal c s then .trap { cause := 1, lane := 0 } 0
    else if !waited c && !shapeOk lay f .afeed (pathOf base) m.k then .trap { cause := 3, lane := 0 } 0
    else
      match (if waited c then .ok else tileCheck c s lay f (fun p => p == 2) planes) with
      | .trap t => .trap t 0
      | .broken va => .jump (stopGang c va s)
      | .ok =>
        match mmaSpan c m t.toNat f with
        | .inr t => .trap t 0
        | .inl span =>
          match versionStop c span e s with
          | some r => r
          | none =>
            match slotCheck c m t.toNat f with
            | .inr t => .trap t 0
            | .inl n =>
              -- another format in the slot may give another span than the one waited on
              if writtenTiles c t.toNat n != span then .trap { cause := 1, lane := 0 } 0
              else
                match tangentCheck c m t.toNat n with
                | some t => .trap t 0
                | none =>
                  queueAfter span c (.multiply coop t.toNat n base img m.slot f m.k m.fe
                    { dual := c.dual, k := c.dualK, withB := (c.crew.slotB (1 - m.slot)).issueValid }
                    c.t c.gang.tanstride (c.gang.ctl.getLsbD 8)) span s) s

def execMma (x : Pfx) (t : TileNo) (a b : Reg) (f : MFmt) (s : State) : Host.Outcome State Fault Refusal :=
  mmaUnit false x t a b f s
def execMmaC (x : Pfx) (t : TileNo) (a b : Reg) (f : MFmt) (s : State) : Host.Outcome State Fault Refusal :=
  mmaUnit true x t a b f s

/-! ## msca and mzero (R235, R236) -/

/-- Bytes of a scale array. -/
def scaleBytes : ScaleKind → Nat | .rowF32 => 512 | .colF32 => 64 | .rowE8 => 128 | .colE8 => 16 | .blkE8 => 144

/-- The fields of msca's register b. -/
def mscaDest (v : Word) : Nat := (v.extractLsb' 16 5).toNat

/-- msca (R235). Its array's addresses are checked before its version, as R231 orders an mma's checks (log 146). -/
def execMsca (x : Pfx) (t : TileNo) (a b : Reg) (k : ScaleKind) (s : State) : Host.Outcome State Fault Refusal :=
  issueUnit x (matNeed (regsOf true a ++ [b.toNat]) true (fun c => [t.toNat, mscaDest (c.word 0 b)])) (fun c s =>
    let v := c.word 0 b
    let base := c.pair 0 a
    let rs : List Req := (List.range (scaleBytes k)).map (fun j =>
      { lane := 0, idx := j, addr := base + BitVec.ofNat 64 j, size := 1 })
    if mscaDest v > 23 then .trap { cause := 1, lane := 0 } 0
    else
      match (if waited c then .ok else
          engineCheck s c.agent (fun p => decide (p ≤ 2)) (fun _ => true) (fun _ => base.toNat % 16 == 0) rs) with
      | .trap t => .trap t 0
      | .broken va => .jump (stopGang c va s)
      | .ok =>
        match versionStop c [t.toNat] (v.setWidth 16) s with
        | some r => r
        | none =>
          queueAfter [t.toNat] c (.scale t.toNat (mscaDest v) base k (v.getLsbD 21) (c.gang.ctl.getLsbD 8)) [] s) s

def execMzero (x : Pfx) (t n : TileNo) (s : State) : Host.Outcome State Fault Refusal :=
  issueUnit x (matNeed [] true (fun _ => [])) (fun c s => queueOr c (.zero t.toNat n.toNat) [] s) s

/-! ## mread and mwrite (R237) -/

/-- Tile of a selector. -/
def selTile (v : Word) : Nat := (v.extractLsb' 16 5).toNat
def selKey (v : Word) : Nat := tileKey (selTile v) (v.extractLsb' 0 7).toNat (v.extractLsb' 8 4).toNat

def MElem.wide : MElem → Bool | .ae48 => true | _ => false

/-- Selectors of the acting lanes. -/
def selectors (c : UnitCtx) (a : Reg) : List (Nat × Word) := c.lanes.map (fun l => (l, c.word l a))

def selNames (a : Reg) (c : UnitCtx) : List Nat := (selectors c a).map (fun q => selTile q.2)

/-- A selector that names no tile. -/
def selTrap (sel : List (Nat × Word)) : Option Trap :=
  (sel.find? (fun q => decide (selTile q.2 > 23))).map (fun q => { cause := 1, lane := q.1 })

def execMread (x : Pfx) (d a : Reg) (e : MElem) (s : State) : Host.Outcome State Fault Refusal :=
  let ds := regsOf (MElem.wide e) d
  issueUnit x { matNeed ([a.toNat] ++ ds) false (selNames a) with writes := ds } (fun c s =>
    if c.acts = 0 then .done s
    else
      let sel := selectors c a
      match selTrap sel with
      | some t => .trap t 0
      | none =>
        let dests := c.lanes.map (fun l => (l, destKeys c l d (if MElem.wide e then 2 else 1)))
        match queueOr c (.read e c.mode sel dests) [] s with
        | .done s => .done (s.modGang c.core c.slot (fun g =>
            { g with destWait := g.destWait ++ dests.flatMap (fun q => q.2) }))
        | r => r) s

def execMwrite (x : Pfx) (d a : Reg) (e : MElem) (s : State) : Host.Outcome State Fault Refusal :=
  issueUnit x (matNeed ([a.toNat] ++ regsOf (MElem.wide e) d) false (selNames a)) (fun c s =>
    if c.acts = 0 then .done s
    else
      let sel := selectors c a
      match selTrap sel with
      | some t => .trap t 0
      | none =>
        let tiles := (sel.map (fun q => selTile q.2)).eraseDups
        queueOr c (.write e sel (c.lanes.map (fun l => (l, c.val l (MElem.wide e) d))) tiles) tiles s) s

/-! ## mver, mwait and mstat (R238) -/

def execMver (x : Pfx) (d : Reg) (t : TileNo) (s : State) : Host.Outcome State Fault Refusal :=
  issueUnit x { matNeed [d.toNat] false (fun _ => [t.toNat]) with writes := [d.toNat] } (fun c s =>
    let v : Word := c.crew.vrOf t.toNat ++ c.crew.vcOf t.toNat
    .done (writeLanes c (c.lanes.map (fun l => (l, c.plain32 l d v))) s)) s

/-- The wait of mwait has ended. -/
def versionDone (c : Crew) (t : Nat) (e : BitVec 16) : Bool := decide ((c.vcOf t - e).toNat < 2 ^ 15)

def execMwait (x : Pfx) (t : TileNo) (b : Reg) (s : State) : Host.Outcome State Fault Refusal :=
  issueUnit x (matNeed [b.toNat] false (fun _ => [t.toNat])) (fun c s =>
    let e := (c.word c.low b).setWidth 16
    if c.acts = 0 then .done s
    else if versionDone c.crew t.toNat e then .done (s.acquire c.core c.slot)
    else .hold (.completed t.toNat e) s) s

def execMstat (x : Pfx) (d : Reg) (t : TileNo) (s : State) : Host.Outcome State Fault Refusal :=
  issueUnit x { matNeed [d.toNat] false (fun _ => [t.toNat]) with writes := [d.toNat] } (fun c s =>
    if c.acts = 0 then .done s
    else
      let dests := c.lanes.map (fun l => (l, destKeys c l d 1))
      match queueOr c (.stat t.toNat dests) [] s with
      | .done s => .done (s.modGang c.core c.slot (fun g =>
          { g with destWait := g.destWait ++ dests.flatMap (fun q => q.2) }))
      | r => r) s

/-! ## Completion: shared pieces -/

/-- The command at the head leaves the queue, and VC of the tiles it names advances (R223). -/
def State.popCmd (s : State) (core : Nat) (tiles : List Nat) : State :=
  s.modCrew core (fun c =>
    { c with matq := c.matq.drop 1, vc := tiles.foldl (fun m t => m.set 0 t (m.get 0 t + 1)) c.vc })

/-- An event on the command at the head of a core's queue. -/
def headEvent (core : Nat) (f : Crew → MatCmd → Agent → State → Option State) (s : State) :
    Host.Outcome State Fault Refusal :=
  match s.crewAt core, s.agentAt core with
  | some c, some w =>
    match c.matq with
    | [] => .next s
    | m :: _ => if c.isAway m.num then .next s else match f c m w s with | some t => .next t | none => .next s
  | _, _ => .next s

/-- What a read makes of the command: it goes on, or the engine holds, or the context's tables have failed. -/
def whenRead (s : State) (w : Agent) (m : MatCmd) (as : List Addr) (go : Option Addr → State) : State :=
  match engineRead s w m.view as with
  | .ok => go none
  | .poisoned va => (go (some va)).padError w.core va
  | .wait pages => s.engineWait w .engineRead m.num pages
  | .broken va => structureFault w.ctx va s

/-- Note a degree in the issuing gang. -/
def State.noteIssuer (s : State) (core : Nat) (m : MatCmd) (n : Nat) : State :=
  match s.issuer core m.slot m.num with
  | some _ => s.modGang core m.slot (fun g => g.noteDegree n)
  | none => s

/-- An uncorrectable error of accumulator memory met by a command (R316). -/
def accumulatorError (core : Nat) (m : MatCmd) (tiles : List Nat) (bad : Bool) (s : State) : State :=
  if !bad then s
  else
    let s := s.pendIssuer core m.slot m.num { cause := 0x10, addr := Config.freeValue (2 * s.drawn), at_ := .tiles tiles }
    { s.machineCheck core 4 with drawn := s.drawn + 1 }

/-! ## mldb completes (R227) -/

/-- An mldb into the slot is queued (R228). -/
def Crew.loadQueued (c : Crew) (slot : Nat) : Bool :=
  c.matq.any (fun m => match m.op with | .loadB i _ _ _ => i == slot | _ => false)

/-- A slot that has lost its contents: its issue-side state is what a queued mldb is to leave, if there is one (R228). -/
def Crew.loseSlot (c : Crew) (slot : Nat) (parity : Bool) : Crew :=
  let b := c.slotB slot
  let queued := c.loadQueued slot
  c.setSlotB slot { b with valid := false, issueValid := queued && b.issueValid,
                           parityLost := if queued then b.parityLost else parity }

/-- Fill the cells of a slot from a tile. -/
def fillCells (byte : Addr → Byte) (l : Lay) (f : MFmt) (base : Addr) : Map Nat :=
  (tileUnits l).foldl (fun (m : Map Nat) u =>
    (List.range f.block).foldl (fun (m : Map Nat) e =>
      m.set 0 (u.2 * 384 + (f.block * u.1 + e)) (elemCode byte l f base (offset2 l u.1 u.2) e)) m) []

def execMldbComplete (core : Nat) (s : State) : Host.Outcome State Fault Refusal :=
  headEvent core (fun _ m w s =>
    match m.op with
    | .loadB slot base img f =>
      let l := Lay.of img
      some (whenRead s w m (tileAddrs l f base) (fun bad =>
        match bad with
        | some va =>
          -- the operation fails (R317): the slot holds nothing (log 147)
          let s := s.pendIssuer core m.slot m.num { cause := 0x10, addr := va, at_ := .safePoint }
          (s.popCmd core []).modCrew core (fun c =>
            (c.loseSlot slot false).setSlotB slot { (c.loseSlot slot false).slotB slot with cells := [], badRows := [] })
        | none =>
          let cells := fillCells (engineByte s w m.view) l f base
          let s := (s.popCmd core []).modCrew core (fun c =>
            c.setSlotB slot { c.slotB slot with valid := true, fmt := f, cells := cells, badRows := [] })
          s.noteIssuer core m (tileDegree l f base)))
    | _ => none) s

/-! ## Sums (R73 to R75) -/

/-- An accumulator element as a value. -/
def aeVal (v : BitVec 48) : Val := decodeFp .ae48 v.toNat

/-- round_ae48 (R73): the element, and whether it saturated. -/
def roundAe (v : Val) : BitVec 48 × Bool :=
  let r := roundFp .ae48 .rne 0 v
  (BitVec.ofNat 48 r.1, r.2 &&& fMS != 0)

/-- Add terms to an accumulator exactly and round once (R73, R74). -/
def addTerms (acc : BitVec 48) (terms : List Val) : BitVec 48 × Bool :=
  roundAe (terms.foldl (fun v t => (addV .rne v t).v) (aeVal acc))

/-- Lists of n items at a time. -/
def chunks {α : Type} (n : Nat) (l : List α) : List (List α) :=
  (List.range ((l.length + n - 1) / n)).map (fun i => (l.drop (n * i)).take n)

/-- Integer formats. -/
def wholeFmt (f : MFmt) : Bool := decide (12 ≤ f.code)

/-- A product of two elements. One of integers is an exact integer, which is never −0 (R75). -/
def term (whole : Bool) (x y : Val) : Val :=
  let v := (mulV x y).v
  if whole && v.isZero then .zero false else v

/-- The accumulation of one element over a K-chunk: the element, and whether any of its roundings saturated. -/
def accumulate (narrow whole : Bool) (acc : BitVec 48) (a b : List Val) : BitVec 48 × Bool :=
  let ps := List.zipWith (term whole) a b
  (if narrow then [ps] else chunks 16 ps).foldl (fun r g =>
    let q := addTerms r.1 g
    (q.1, r.2 || q.2)) (acc, false)

/-- What passes have done to the tiles: tiles, saturation counters, primal and tangent flags, the first NaN. -/
structure MatOut where
  tiles : Map (BitVec 48)
  sat : Map Word
  fl : Word := 0
  tfl : Word := 0
  nan : Option (Nat × Nat) := none

/-- Put one element's new value, counting what it met; tangent passes record no NaN (R233). -/
def MatOut.put (o : MatOut) (tangent : Bool) (d : Nat) (row n : Nat) (v : BitVec 48) (sat : Bool) : MatOut :=
  let t := d + n / 16
  let isNan := (aeVal v).isNaN
  let f := flagIf isNan fMI ||| flagIf sat fMS
  { tiles := o.tiles.set 0 (tileKey t row (n % 16)) v
    sat := if sat then addSat o.sat t 1 else o.sat
    fl := if tangent then o.fl else o.fl ||| f
    tfl := if tangent then o.tfl ||| f else o.tfl
    nan := if isNan && !tangent && o.nan.isNone then some (row, n) else o.nan }

/-- Elements of a span in row order. -/
def spanElems (rows nt : Nat) : List (Nat × Nat) :=
  (List.range rows).flatMap (fun i => (List.range (16 * nt)).map (fun n => (i, n)))

/-- A pass: plane p of A times the cells of a slot, into the span at d. -/
def runPass (a : ATile) (p : Nat) (b : BSlot) (d nt : Nat) (tangent : Bool) (o : MatOut) : MatOut :=
  let plane := a.planes.getD p []
  let av (i k : Nat) : Val := if k < a.cols then a.fmt.decode (plane.getD (i * a.cols + k) 0) else .zero false
  let bv (k n : Nat) : Val := b.fmt.decode (b.cells.get 0 (k * 384 + n))
  (spanElems a.rows nt).foldl (fun o e =>
    let old := o.tiles.get 0 (tileKey (d + e.2 / 16) e.1 (e.2 % 16))
    let r := accumulate (a.fmt.narrow && b.fmt.narrow) (wholeFmt a.fmt && wholeFmt b.fmt) old ((List.range a.kdim).map (av e.1))
      ((List.range a.kdim).map (fun k => bv k e.2))
    o.put tangent d e.1 e.2 r.1 r.2) o

/-- The passes of R233 in order: each is the A plane, whether it takes the tangent slot, and its tangent tile set. -/
def passList (p : Passes) (t : Nat) : List (Nat × Bool × Nat) :=
  let ks := List.range t
  let withB (k : Nat) : List (Nat × Bool × Nat) := if p.withB then [(0, true, k + 1)] else []
  match p.dual with
  | .implicit => (0, false, 0) :: ks.flatMap (fun k => (k + 1, false, k + 1) :: withB k)
  | .seed => (0, false, 0) :: ks.flatMap (fun k => (k + 1, false, k + 1) :: (if k = p.k then withB k else []))
  | _ => [(0, false, 0)]

/-- Tiles of a queued multiply. -/
def multiplyTiles (d nt t : Nat) (p : Passes) : List Nat := spanOf d (if p.dual = .none then nt else nt * (1 + t))

/-- Clear tiles to +0. -/
def clearTiles (m : Map (BitVec 48)) (ts : List Nat) : Map (BitVec 48) := m.filter (fun e => !ts.contains (e.1 / 2048))

/-- All passes of a multiply on a crew's tiles. -/
def runPasses (c : Crew) (a : ATile) (slot d nt t : Nat) (p : Passes) : MatOut :=
  let o : MatOut := { tiles := c.tiles, sat := c.sat }
  let o := (passList p t).foldl (fun o q =>
    runPass a q.1 (c.slotB (if q.2.1 then 1 - slot else slot)) (d + nt * q.2.2) nt (q.2.2 != 0) o) o
  if p.dual = .zero then { o with tiles := clearTiles o.tiles (spanOf (d + nt) (nt * t)) } else o

/-- A mismatched core of a cooperative step: NaN in every row (R232). -/
def runMismatch (c : Crew) (rows : Nat) (d : Nat) (tiles : List Nat) (nt : Nat) : MatOut :=
  let o : MatOut := { tiles := c.tiles, sat := c.sat }
  let nan : BitVec 48 := BitVec.ofNat 48 Fmt.ae48.nanCode
  tiles.foldl (fun o t => (spanElems rows 1).foldl (fun o e => o.put (decide (t ≥ d + nt)) t e.1 e.2 nan false) o) o

/-! ## A tiles (R230 to R233) -/

/-- The planes of A that a multiply reads. -/
def planesOf (p : Passes) (t : Nat) : Nat := match p.dual with | .implicit | .seed => t | _ => 0

/-- The bases of A's planes. -/
def planeBases (base stride : Addr) (n : Nat) : List Addr := (List.range (n + 1)).map (fun p => base + BitVec.ofNat 64 p * stride)

/-- The addresses an A fetch reads. -/
def aAddrs (l : Lay) (f : MFmt) (base stride : Addr) (planes : Nat) : List Addr :=
  (planeBases base stride planes).flatMap (tileAddrs l f)

/-- The rows of A's planes, by plane base and row, in the order that the feeder reads them (R233, R372). -/
def aRows (l : Lay) (base stride : Addr) (planes : Nat) : List (Addr × Nat) :=
  (planeBases base stride planes).flatMap (fun b => (List.range (l.extOf 1)).map (fun i => (b, i)))

/-- The addresses that hold a row. -/
def rowAddrs (l : Lay) (f : MFmt) (r : Addr × Nat) : List Addr :=
  (List.range (l.extOf 0)).flatMap (fun k => elemBytes l f r.1 (offset2 l k r.2))

/-- The element codes of a row. -/
def rowCodes (byte : Addr → Byte) (l : Lay) (f : MFmt) (r : Addr × Nat) : List Nat :=
  (List.range (l.extOf 0)).flatMap (fun k => (List.range f.block).map (elemCode byte l f r.1 (offset2 l k r.2)))

/-- The A tile that rows make. -/
def tileOfRows (l : Lay) (f : MFmt) (kdim : Nat) (fe : Bool) (bad : Option Addr) (rows : List (List Nat)) : ATile :=
  { fmt := f, kdim := kdim, waitFull := fe, rows := l.extOf 1, cols := f.block * l.extOf 0, bad := bad
    planes := (chunks (l.extOf 1) rows).map List.flatten }

/-- The A tile as read at one moment. -/
def readATile (byte : Addr → Byte) (l : Lay) (f : MFmt) (kdim : Nat) (fe : Bool) (base stride : Addr) (planes : Nat)
    (bad : Option Addr) : ATile :=
  tileOfRows l f kdim fe bad ((aRows l base stride planes).map (rowCodes byte l f))

/-- Every scratchpad line that holds these bytes is full (R231). -/
def linesFull (c : Crew) (as : List Addr) : Bool := as.all (fun a => c.full.getLsbD (a.toNat % 2 ^ 20 / 128))

/-- The rows of A that the feeder has read, and a poisoned address among them. -/
structure Feed where
  rows : List (List Nat)
  bad : Option Addr

/-- The feeder reads rows, each once its lines are full where FE asks for it (R231, R372), until one cannot be read yet. -/
def feedRows (s : State) (w : Agent) (view : Nat) (c : Crew) (l : Lay) (f : MFmt) (fe : Bool) :
    List (Addr × Nat) → Feed → Feed × EngineRead
  | [], r => (r, .ok)
  | q :: qs, r =>
    let more : List (List Nat) := r.rows ++ [rowCodes (engineByte s w view) l f q]
    if fe && !linesFull c (rowAddrs l f q) then (r, .wait [])
    else
      match engineRead s w view (rowAddrs l f q) with
      | .ok => feedRows s w view c l f fe qs { r with rows := more }
      | .poisoned va => feedRows s w view c l f fe qs { rows := more, bad := r.bad.orElse (fun _ => some va) }
      | e => (r, e)

/-- Feed the A tile of the command at the head: with every row read, go on with the tile; else keep what has been read and
hold. -/
def feedA (s : State) (w : Agent) (c : Crew) (m : MatCmd) (l : Lay) (f : MFmt) (kdim : Nat) (fe : Bool)
    (base stride : Addr) (planes : Nat) (go : ATile → State) : State :=
  let r := feedRows s w m.view c l f fe ((aRows l base stride planes).drop m.fed.length) { rows := m.fed, bad := m.fedBad }
  let kept := s.modCrew w.core (fun c => { c with matq := match c.matq with
    | h :: q => { h with fed := r.1.rows, fedBad := r.1.bad } :: q
    | [] => [] })
  match r.2 with
  | .ok =>
    let t := go (tileOfRows l f kdim fe r.1.bad r.1.rows)
    match r.1.bad with | some va => t.padError w.core va | none => t
  | .wait pages => kept.engineWait w .engineRead m.num pages
  | .broken va => structureFault w.ctx va s
  | .poisoned _ => kept

/-! ## mma and mma.c complete -/

/-- A macro row of a slot, numbered slot × 128 + row, goes into error: the command that next reads it finds that (R373). -/
def Crew.spoilRow (c : Crew) : Option Nat → Crew
  | none => c
  | some r =>
    let b := c.slotB (r / 128 % 2)
    c.setSlotB (r / 128 % 2) { b with badRows := b.badRows ++ [r % 128] }

/-- A command that reads rows 0..kdim − 1 of a slot finds one in error (R373). -/
def Crew.rowLost (c : Crew) (kdim slot : Nat) : Bool := (c.slotB slot).badRows.any (fun r => decide (r < kdim))

/-- Record the first NaN and make its trap pending (R239). -/
def recordNan (core : Nat) (m : MatCmd) (tile row col : Nat) (ver : BitVec 16) (tiles : List Nat) (s : State) : State :=
  match s.issuer core m.slot m.num with
  | none => s
  | some g =>
    if g.lastnan.getLsbD 95 then s
    else
      let v : BitVec 128 := (ver.setWidth 128 <<< 96) ||| (1#128 <<< 95) ||| (BitVec.ofNat 128 tile <<< 88) |||
        (BitVec.ofNat 128 row <<< 80) ||| (BitVec.ofNat 128 col <<< 64) ||| m.pc.setWidth 128
      (s.modGang core m.slot (fun g => { g with lastnan := v })).addPend core m.slot
        { cause := 0x0b, addr := 0, at_ := .tiles tiles }

/-- Complete a multiply with its A tile; parity is a macro row that has gone into error (R240, R373). -/
def finishMultiply (core : Nat) (m : MatCmd) (a : ATile) (mine : Bool) (d nt slot t : Nat) (p : Passes)
    (record : Bool) (parity : Option Nat) (bad : Bool) (c : Crew) (s : State) : State :=
  let tiles := multiplyTiles d nt t p
  let c := c.spoilRow parity
  let s := s.modCrew core (fun c => c.spoilRow parity)
  let used := slot :: if (passList p t).any (fun q => q.2.1) then [1 - slot] else []
  let lost := used.filter (c.rowLost a.kdim)
  if a.bad.isSome then
    let s := s.popCmd core tiles
    s.pendIssuer core m.slot m.num { cause := 0x10, addr := a.bad.getD 0, at_ := .tiles tiles }
  else if !lost.isEmpty || used.any (fun i => !(c.slotB i).valid) then
    let s := (s.popCmd core tiles).modCrew core (fun c => lost.foldl (fun c i => c.loseSlot i true) c)
    let s := if lost.isEmpty then s else s.machineCheck core 6
    s.pendIssuer core m.slot m.num { cause := 0x11, addr := 0, at_ := .tiles tiles }
  else
    let o := if mine then runPasses c a slot d nt t p else runMismatch c a.rows d tiles nt
    let s := (s.popCmd core tiles).modCrew core (fun c => { c with tiles := o.tiles, sat := o.sat })
    let s := s.raiseFlags core (squadOf m.slot) o.fl o.tfl
    let s := match o.nan with
      | some (row, col) =>
        if record then
          let tile := d + col / 16
          recordNan core m tile row col (match s.crewAt core with | some c => c.vcOf tile | none => 0) tiles s
        else s
      | none => s
    accumulatorError core m tiles bad s

/-- The head multiply of a core completes; parity is a macro row in error, bad an error of accumulator memory. The degree that
its issuer notes is that of the primal A tile; a cooperative step notes it in the leader's issuing gang alone (R38, log 143). -/
def execMmaComplete (core : Nat) (parity : Option Nat) (bad : Bool) (s : State) : Host.Outcome State Fault Refusal :=
  headEvent core (fun c m w s =>
    match m.op with
    | .multiply coop d nt base img slot f kdim fe p t stride record =>
      let l := Lay.of img
      let n := planesOf p t
      match m.lead with
      | some a =>
        let mine := a.fmt == f && a.kdim == kdim && a.waitFull == fe
        let s := finishMultiply core m a mine d nt slot t p record parity bad c s
        some (if core % 8 = 0 then s.noteIssuer core m (tileDegree l f base) else s)
      | none =>
        if coop then none
        else
          some (feedA s w c m l f kdim fe base stride n (fun a =>
            (finishMultiply core m a true d nt slot t p record parity bad c s).noteIssuer core m (tileDegree l f base)))
    | _ => none) s

/-- A command at a queue's head that waits for its cooperative step. -/
def coopHead (s : State) (core : Nat) : Option MatCmd :=
  match s.crewAt core with
  | none => none
  | some c =>
    match c.matq with
    | m :: _ =>
      match m.op with
      | .multiply true _ _ _ _ _ _ _ _ _ _ _ _ => if m.lead.isNone then some m else none
      | _ => none
    | [] => none

/-- The planes of tangent A that a cooperative step reads: those that the passes of any of its commands need (R233,
log 58). -/
def coopPlanes (s : State) (cores : List Nat) : Nat :=
  cores.foldl (fun n k =>
    match coopHead s k with
    | some { op := .multiply _ _ _ _ _ _ _ _ _ p t _ _, .. } => max n (planesOf p t)
    | _ => n) 0

/-- With all eight commands at their heads, every core takes the leader's A (R232). -/
def execMmaCStepStart (cluster : Nat) (s : State) : Host.Outcome State Fault Refusal :=
  let cores := (List.range 8).map (fun i => cluster * 8 + i)
  if !cores.all (fun k => (coopHead s k).isSome) then .next s
  else
    headEvent (cluster * 8) (fun c m w s =>
      match m.op with
      | .multiply _ _ _ base img _ f kdim fe _ _ stride _ =>
        some (feedA s w c m (Lay.of img) f kdim fe base stride (coopPlanes s cores) (fun a =>
          cores.foldl (fun s k => s.modCrew k (fun c => { c with matq := match c.matq with
            | h :: r => { h with lead := some a } :: r
            | [] => [] })) s))
      | _ => none) s

/-! ## msca, mzero, mread, mwrite and mstat complete -/

/-- A scale from bytes. -/
def scaleVal (e8 : Bool) (bs : List Byte) : Val :=
  if e8 then
    let s := natOfBytes (bs.take 1)
    if s = 255 then .nan false else .fin false 1 ((s : Int) - 127) 1
  else decodeFp .f32 (natOfBytes (bs.take 4))

/-- factor(i, n) of R235. -/
def scaleFactor (k : ScaleKind) (bs : List Byte) (i n : Nat) : Val :=
  match k with
  | .rowF32 => scaleVal false (bs.drop (4 * i))
  | .colF32 => scaleVal false (bs.drop (4 * n))
  | .rowE8 => scaleVal true (bs.drop i)
  | .colE8 => scaleVal true (bs.drop n)
  | .blkE8 => (mulV (scaleVal true (bs.drop i)) (scaleVal true (bs.drop (128 + n)))).v

/-- The scaled tile. -/
def runScale (c : Crew) (src dst : Nat) (k : ScaleKind) (bs : List Byte) (acc : Bool) : MatOut :=
  (spanElems 128 1).foldl (fun o e =>
    let v := (mulV (aeVal (c.tiles.get 0 (tileKey src e.1 e.2))) (scaleFactor k bs e.1 e.2)).v
    let u := if acc then (addV .rne (aeVal (c.tiles.get 0 (tileKey dst e.1 e.2))) v).v else v
    let r := roundAe u
    o.put false dst e.1 e.2 r.1 r.2) { tiles := c.tiles, sat := c.sat }

def execMscaComplete (core : Nat) (bad : Bool) (s : State) : Host.Outcome State Fault Refusal :=
  headEvent core (fun c m w s =>
    match m.op with
    | .scale src dst base k acc record =>
      let as := (List.range (scaleBytes k)).map (fun j => base + BitVec.ofNat 64 j)
      some (whenRead s w m as (fun bad' =>
        match bad' with
        | some va => (s.popCmd core []).pendIssuer core m.slot m.num { cause := 0x10, addr := va, at_ := .tiles [dst] }
        | none =>
          let o := runScale c src dst k (as.map (engineByte s w m.view)) acc
          let s := (s.popCmd core []).modCrew core (fun c => { c with tiles := o.tiles, sat := o.sat })
          let s := s.raiseFlags core (squadOf m.slot) o.fl 0
          let s := match o.nan with
            | some (row, col) => if record then recordNan core m dst row col (c.vcOf dst) [dst] s else s
            | none => s
          accumulatorError core m [src, dst] bad s))
    | _ => none) s

def execMzeroComplete (core : Nat) (s : State) : Host.Outcome State Fault Refusal :=
  headEvent core (fun _ m _ s =>
    match m.op with
    | .zero d n => some ((s.popCmd core []).modCrew core (fun c =>
        { c with tiles := clearTiles c.tiles (spanOf d n)
                 sat := (spanOf d n).foldl (fun (m : Map Word) t => m.set 0 t 0) c.sat }))
    | _ => none) s

/-- The element of R237 as an image, and whether it saturated. -/
def readElem (e : MElem) (mode : RMode) (v : BitVec 48) : Addr × Bool :=
  let x := aeVal v
  let fp (f : Fmt) : Addr × Bool :=
    let r := roundFp f mode 0 x
    if x.isFin && r.2 &&& fOF != 0 then (BitVec.ofNat 64 (f.signCode x.neg? + f.maxCode), true)
    else (BitVec.ofNat 64 r.1, false)
  match e with
  | .f32 => fp .f32
  | .bf16 => fp .bf16
  | .f16 => fp .f16
  | .ae48 => (v.setWidth 64, false)
  | .i32 =>
    let r := roundIntTo 32 true mode 0 x
    (BitVec.ofInt 64 r.1, r.2 &&& fIV != 0)

/-- Write the destinations of a queued read: per lane its words, shadows zero (R237); the registers are then no longer
waited for (R46). -/
def writeBackCmd (core : Nat) (m : MatCmd) (dests : List (Nat × List Nat)) (val : Nat → List Word) (s : State) : State :=
  match s.issuer core m.slot m.num with
  | none => s
  | some g =>
    let ws := dests.flatMap (fun q =>
      if (g.fibre q.1).live then q.2.mapIdx (fun i k => (k, (val q.1).getD i 0)) else [])
    let done := dests.flatMap (fun q => q.2)
    (s.modGang core m.slot (fun g =>
      { g.putOldRegs ws with destWait := g.destWait.filter (fun k => !done.contains k) })).bufferDests core m.slot
        (ws.map Prod.fst)

def execMreadComplete (core : Nat) (bad : Bool) (s : State) : Host.Outcome State Fault Refusal :=
  headEvent core (fun c m _ s =>
    match m.op with
    | .read e mode sel dests =>
      let out := sel.map (fun q => (q.1, q.2, readElem e mode (c.tiles.get 0 (selKey q.2))))
      let sat := out.filter (fun q => q.2.2.2)
      let val (l : Nat) : List Word :=
        match out.find? (fun q => q.1 == l) with
        | some q => if MElem.wide e then [q.2.2.1.extractLsb' 0 32, q.2.2.1.extractLsb' 32 32] else [q.2.2.1.setWidth 32]
        | none => []
      let s := (s.popCmd core []).modCrew core (fun c =>
        { c with sat := sat.foldl (fun (n : Map Word) q => addSat n (selTile q.2.1) 1) c.sat })
      let s := s.raiseFlags core (squadOf m.slot) (flagIf (!sat.isEmpty) fMS) 0
      some (accumulatorError core m ((sel.map (fun q => selTile q.2)).eraseDups) bad (writeBackCmd core m dests val s))
    | _ => none) s

/-- A register image converted exactly into ae48 (R237). -/
def writeElem (e : MElem) (v : Addr) : BitVec 48 :=
  let x : Val := match e with
    | .f32 => decodeFp .f32 (v.toNat % 2 ^ 32)
    | .bf16 => decodeFp .bf16 (v.toNat % 2 ^ 16)
    | .f16 => decodeFp .f16 (v.toNat % 2 ^ 16)
    | .ae48 => decodeFp .ae48 (v.toNat % 2 ^ 48)
    | .i32 => .ofInt (v.setWidth 32).toInt
  (roundAe x).1

def execMwriteComplete (core : Nat) (s : State) : Host.Outcome State Fault Refusal :=
  headEvent core (fun _ m _ s =>
    match m.op with
    | .write e sel vals tiles =>
      some ((s.popCmd core tiles).modCrew core (fun c =>
        { c with tiles := (List.zip sel vals).foldl (fun (t : Map (BitVec 48)) q =>
            t.set 0 (selKey q.1.2) (writeElem e q.2.2)) c.tiles }))
    | _ => none) s

def execMstatComplete (core : Nat) (s : State) : Host.Outcome State Fault Refusal :=
  headEvent core (fun c m _ s =>
    match m.op with
    | .stat t dests => some (writeBackCmd core m dests (fun _ => [c.sat.get 0 t]) (s.popCmd core []))
    | _ => none) s

end Sys2Proof.Machine
end

