-- ==== Sys2Proof/Machine/Counter.lean ====
section
/-! DEFINITION. Completion counter records (R242 to R246): the signal of an operation, the enqueueing of its successor
task record (R243, R267, R268), and cwait and cstat. -/

namespace Sys2Proof.Machine

/-! ## Where a counter lies (R242) -/

/-- What becomes of an access to a counter or task record. -/
inductive RecPlace where
  | at_ (l : Loc)
  | unusable (cause : BitVec 8)
  | broken
  | away (pages : List (Addr × Bool))   -- absent, and whether migrating
deriving DecidableEq, Repr

/-- A record of n bytes, aligned to n, on path 0x0 or 0x2. -/
def recordPlace (s : State) (w : Agent) (kind : AccessKind) (n : Nat) (a : Addr) : RecPlace :=
  if pathOf a != 0 && pathOf a != 2 then .unusable 5
  else if a.toNat % n != 0 then .unusable 4
  else if !zeroBitsOk a then .unusable 5
  else
    match place s w kind false a n with
    | .here l => .at_ l
    | .fault => .unusable 5
    | .broken => .broken
    | .absent page _ m => .away [(page, m)]
    | .peer _ => .away []

def counterPlace (s : State) (w : Agent) (kind : AccessKind) (a : Addr) : RecPlace := recordPlace s w kind 16 a

/-- The bytes at a location in a view. -/
def State.peeks (s : State) (view : Nat) (l : Loc) (n : Nat) : List Byte :=
  (List.range n).map (fun i => match l with
    | .mem pa ro => s.peek view (.mem (pa + i) ro)
    | .pad core off => s.peek view (.pad core (off + i))
    | .bar core off => s.peek view (.bar core (off + i))
    | .host off => s.peek view (.host (off + i))
    | .reg off => s.peek view (.reg (off + i)))

/-- Device-memory addresses of a location. -/
def Loc.targets (l : Loc) (n : Nat) : List Nat := match l with | .mem pa _ => (List.range n).map (pa + ·) | _ => []

/-- An engine's write in a view, after everything performed so far (log 139); where a view's space is used up the world ends
instead (R283). -/
def State.putLoc (s : State) (core view : Nat) (l : Loc) (bs : List Byte) : State :=
  if s.viewExhausted view (l.targets bs.length) then endWorld core 9 0 s
  else
    match l with
    | .mem pa _ => let r := s.storeBytes view s.ltime (spread pa bs); r.1.noteWrite core 4 r.2
    | .pad core off => s.putPad core (spread off bs)
    | .host off => { s with host := s.host.sets 0 (spread (s.window.hwbase.toNat + off) bs) }
    | _ => s

/-! ## Task records (R267, R268) -/

/-- Fields of a task record. -/
def recNat (r : List Byte) (off n : Nat) : Nat := natOfBytes ((r.drop off).take n)
def recEntry (r : List Byte) : Addr := addrOf (r.take 8)
def recSucc (r : List Byte) : Addr := addrOf ((r.drop 32).take 8)

/-- A record that R268 does not refuse. -/
def recordOk (r : List Byte) : Bool :=
  decide (1 ≤ recNat r 28 2) && decide (recNat r 28 2 ≤ 64) && recNat r 0 8 % 4 == 0 && decide (recNat r 42 1 ≤ 3) &&
    decide (recNat r 43 1 ≤ 3) && recNat r 30 2 == 0 && recNat r 44 4 == 0

def TaskQueue.full (q : TaskQueue) : Bool := decide (q.recs.length ≥ q.cap)

/-- Count what a launch's crews have sent and had accepted (R361). -/
def State.countSent (s : State) (launch : Nat) : State := s.modLaunch launch (fun l => { l with sent := l.sent + 1 })
def State.countAccepted (s : State) (launch : Nat) : State :=
  s.modLaunch launch (fun l => { l with accepted := l.accepted + 1 })

/-- The record as the queue holds it: WTAG is written (R267). -/
def tagRecord (r : List Byte) (view : Nat) : List Byte := r.take 40 ++ bytesOfNat 2 view ++ (r.drop 42).take 22

/-- Where the next task record is copied to in device memory (log 20). -/
def State.taskCopy (s : State) : Nat := Config.pinnedCopies + 64 * (s.taskCount % Config.copyCount)

/-- Copy a record into the task queues' backing (R267; log 20): what the queue then holds of it. -/
def State.copyTask (s : State) (core : Nat) (bs : List Byte) : State × TaskRec :=
  ({ s with taskCount := s.taskCount + 1 }.putLoc core 0 (.mem s.taskCopy false) bs,
   { bytes := bs, addr := s.taskBase + BitVec.ofNat 64 (s.taskCopy - Config.pinnedCopies) })

/-- Put a record in a core's task queue. -/
def State.enqueueTask (s : State) (core : Nat) (r : List Byte) (view : Nat) : State :=
  let q := s.copyTask core (tagRecord r view)
  q.1.modCrew core (fun c => { c with tasks := { c.tasks with recs := c.tasks.recs ++ [q.2] } })

/-! ## Waits for a page outside the gangs and engine queues (R333) -/

/-- An access at an address waits for absent pages: fault records are posted, and it is made again once they have been
resumed (R336). -/
def State.awaitPages (s : State) (w : Agent) (kind : AccessKind) (a : Addr) (pages : List (Addr × Bool)) : State :=
  let s := s.postPages w kind pages
  { s with waiting := s.waiting ++ pages.map (fun p => { ctx := w.ctx, addr := a, page := p.1 }) }

def State.isAwaiting (s : State) (ctx : Nat) (a : Addr) : Bool := s.waiting.any (fun e => e.ctx == ctx && e.addr == a)

/-! ## Signals (R243) -/

/-- The first eight bytes of a counter after a signal, its new COUNT and its SUCC. -/
def bumpCounter (status : BitVec 16) (sat : Nat) (bs : List Byte) : List Byte × Nat × Addr :=
  let count := (recNat bs 0 4 + 2 ^ 32 - 1) % 2 ^ 32
  let st := recNat bs 4 2
  let st := if st = 0 then status.toNat else st
  (bytesOfNat 4 count ++ bytesOfNat 2 st ++ bytesOfNat 2 (min (recNat bs 6 2 + sat) 0xffff), count, addrOf ((bs.drop 8).take 8))

/-- What becomes of a signal. -/
inductive SigOut where
  | done (s : State)
  | unusable (cause : BitVec 8)
  | broken
  | away (pages : List (Addr × Bool))

/-- What becomes of a successor record. -/
inductive SuccOut where
  | enqueued (s : State)
  | waits (s : State)            -- its page is absent, or the task queue is full
  | refused (counter : Addr)     -- R268: its own successor counter is signalled with status 0x0003
  | lost                         -- its address fails R182, or the record cannot be read
  | broken                       -- R331

/-- Enqueue the record at an address on the core's own task queue. -/
def succEnqueue (s : State) (w : Agent) (view : Nat) (a : Addr) : SuccOut :=
  if s.isAwaiting w.ctx a then .waits s
  else
    match recordPlace s w .engineRead 64 a with
    | .at_ l =>
      let r := s.peeks view l 64
      if s.poisoned w.core view l 64 then .lost
      else if !recordOk r then .refused (recSucc r)
      else
        match s.crewAt w.core with
        | none => .lost
        | some c =>
          if c.tasks.full then .waits s
          else .enqueued ((s.countSent w.launch).countAccepted w.launch |>.enqueueTask w.core r view)
    | .away pages => .waits (s.awaitPages w .engineRead a pages)
    | .broken => .broken
    | .unusable _ => .lost

/-- A successor record's enqueueing is left to be made later (R243, R333). -/
def State.leaveSucc (s : State) (w : Agent) (view : Nat) (a : Addr) : State :=
  { s with packets := s.packets ++ [.succ a w.core view w.launch] }

/-- A successor record of the core waits for a page: its engines hold (R333). -/
def State.succHeld (s : State) (w : Agent) : Bool :=
  s.packets.any (fun p => match p with | .succ a k _ n => k == w.core && n == w.launch && s.isAwaiting w.ctx a | _ => false)

/-- Signal a counter in a view for an agent; a chain of refused successor records is followed as far as the fuel. A counter
that cannot be read is unusable (log 64). -/
def signalCounter : Nat → State → Agent → Nat → Addr → BitVec 16 → Nat → SigOut
  | 0, _, _, _, _, _, _ => .away []
  | fuel + 1, s, w, view, a, status, sat =>
    match counterPlace s w .engineWrite a with
    | .unusable cause => .unusable cause
    | .broken => .broken
    | .away p => .away p
    | .at_ l =>
      if s.isAwaiting w.ctx a then .away []
      else if s.poisoned w.core view l 16 then .unusable 0x10
      else
        let r := bumpCounter status sat (s.peeks view l 16)
        let s := s.putLoc w.core view l r.1
        if r.2.1 != 0 || r.2.2 == 0 then .done s
        else
          match succEnqueue s w view r.2.2 with
          | .enqueued s => .done s
          | .lost => .done s
          | .broken => .done (structureFault w.ctx r.2.2 s)
          | .waits s => .done (s.leaveSucc w view r.2.2)
          | .refused k =>
            if k = 0 then .done s
            else
              match signalCounter fuel s w view k 3 0 with
              | .done s => .done s
              | .away pages => .done ((s.awaitPages w .engineWrite k pages).leaveSucc w view r.2.2)
              | .broken => .done (structureFault w.ctx k s)
              | .unusable _ => .done s

def signalFuel : Nat := 16

/-- A signal made for an agent; one that cannot be made leaves the machine as it is, but for a structure fault (R331). -/
def State.signal (s : State) (w : Agent) (view : Nat) (a : Addr) (status : BitVec 16) (sat : Nat) : SigOut :=
  signalCounter signalFuel s w view a status sat

/-- The trap of an unusable counter (R242, R244). -/
def counterPend (cause : BitVec 8) (a : Addr) : Pend := { cause := cause, addr := a, at_ := .counter a }

/-- A signal for a gang's unit: no counter asks for nothing, and an unusable one leaves a trap pending in the gang
(R244). -/
def State.signalFor (s : State) (w : Agent) (slot view : Nat) (a : Addr) (status : BitVec 16) : SigOut :=
  if a = 0 then .done s
  else
    match s.signal w view a status 0 with
    | .unusable cause => .done (s.addPend w.core slot (counterPend cause a))
    | r => r

/-- A signal whose failure has no effect of its own. -/
def State.signalOr (s : State) (w : Agent) (view : Nat) (a : Addr) (status : BitVec 16) : State :=
  if a = 0 then s
  else match s.signal w view a status 0 with | .done t => t | .broken => structureFault w.ctx a s | _ => s

/-! ## cwait and cstat (R245, R246) -/

/-- Traps of operations on the counter that the unit names (R244). -/
def namesCounter (a : Reg) (c : UnitCtx) : Delivery → Bool
  | .counter k => k == c.pair c.low a
  | _ => false

/-- COUNT of the counter at an address less a target, as a signed value, is 0 or below (R245). -/
def countReached (bs : List Byte) (target : Word) : Bool :=
  decide ((BitVec.ofNat 32 (recNat bs 0 4) - target).toInt ≤ 0)

/-- Whether a group held in cwait would go on. -/
def counterReady (s : State) (w : Agent) (view : Nat) (a : Addr) (target : Word) : Bool :=
  match counterPlace s w .load a with
  | .at_ l => s.poisoned w.core view l 16 || countReached (s.peeks view l 4) target
  | _ => true

/-- The counter a unit reads, with what stops it. -/
def withCounter (c : UnitCtx) (a : Addr) (s : State) (f : Loc → State → Act) : Act :=
  match counterPlace s c.agent .load a with
  | .unusable cause => .trap { cause := cause, lane := c.low, addr := a } 0
  | .broken => .jump (stopGang c a s)
  | .away pages => .hold (.page c.launch.rcd.ctx (pages.map Prod.fst)) (s.postPages c.agent .load pages)
  | .at_ l => f l (match l with | .mem _ _ => s.fillTlb c.core c.launch.rcd.ctx c.priv .load a | _ => s)

/-- cwait (R245). -/
def execCwait (x : Pfx) (a b : Reg) (s : State) : Host.Outcome State Fault Refusal :=
  issueUnit x { regs := regsOf true a ++ [b.toNat], stall := true, delivers := namesCounter a } (fun c s =>
    if c.acts = 0 then .done s
    else
      withCounter c (c.pair c.low a) s (fun l s =>
        if s.poisoned c.core c.view l 16 then
          .done ((s.addPend c.core c.slot { cause := 0x10, addr := c.pair c.low a, at_ := .safePoint }).padError c.core
            (c.pair c.low a))
        else if countReached (s.peeks c.view l 4) (c.word c.low b) then .done (s.acquire c.core c.slot)
        else .hold (.counter (c.pair c.low a) (c.word c.low b)) s)) s

/-- cstat (R246). -/
def execCstat (x : Pfx) (d a : Reg) (s : State) : Host.Outcome State Fault Refusal :=
  issueUnit x { regs := regsOf true a ++ [d.toNat], writes := [d.toNat], stall := true, delivers := namesCounter a }
    (fun c s =>
      if c.acts = 0 then .done s
      else
        withCounter c (c.pair c.low a) s (fun l s =>
          if s.poisoned c.core c.view l 16 then
            .done ((s.addPend c.core c.slot { cause := 0x10, addr := c.pair c.low a,
                                              at_ := .regs (c.lanes.flatMap (fun l => destKeys c l d 1)) }).padError c.core
              (c.pair c.low a))
          else
            let v := BitVec.ofNat 32 (recNat (s.peeks c.view l 8) 4 4)
            .done (writeLanes c (c.lanes.map (fun l => (l, c.plain32 l d v))) s))) s

end Sys2Proof.Machine
end

