-- ==== Sys2Proof/Machine/Copy.lean ====
section
/-! DEFINITION. Tensor copies (R247 to R256, R369): the shape record, the checks of R253, the transform chain (R68 to
R72, R251), the scale array (R252), cpy and cpym, and the steps of the copy engine. -/

namespace Sys2Proof.Machine

/-! ## The shape record (R247) -/

structure Shape where
  base : Addr
  fmt : Nat
  rank : Nat
  circ : Nat
  tfl : Nat
  hseed : Addr
  scale : Addr
  ext : List Nat
  stride : List Int
  box : List Nat
  sblk : Nat
deriving DecidableEq, Repr

def Shape.of (bs : List Byte) : Shape :=
  let n (o k : Nat) := recNat bs o k
  { base := BitVec.ofNat 64 (n 0 8), fmt := n 8 1, rank := n 9 1, circ := n 10 1, tfl := n 11 1
    hseed := BitVec.ofNat 64 (n 16 8), scale := BitVec.ofNat 64 (n 24 8)
    ext := (List.range 5).map (fun d => n (32 + 4 * d) 4)
    stride := (List.range 5).map (fun d => (BitVec.ofNat 64 (n (56 + 8 * d) 8)).toInt)
    box := (List.range 5).map (fun d => n (96 + 2 * d) 2)
    sblk := n 106 1 }

namespace Shape
def extOf (r : Shape) (d : Nat) : Nat := r.ext.getD d 0
def strideOf (r : Shape) (d : Nat) : Int := r.stride.getD d 0
def boxOf (r : Shape) (d : Nat) : Nat := r.box.getD d 0
def circular (r : Shape) (d : Nat) : Bool := r.circ / 2 ^ d % 2 == 1
/-- Stochastic rounding, the Hadamard group size and the scratchpad-side format code. -/
def sr (r : Shape) : Bool := r.tfl / 128 == 1
def group (r : Shape) : Nat := 16 * 2 ^ (r.tfl / 16 % 4)
def tf (r : Shape) : Nat := if r.fmt = 16 then 16 else r.tfl % 16
/-- Elements of the box. -/
def count (r : Shape) : Nat := (List.range r.rank).foldl (fun n d => n * r.boxOf d) 1
end Shape

/-! ## Element formats of a copy: codes 0..15 of R83, and 16 for raw 64-bit -/

/-- Bits of one element in memory; of a whole block for bx (R53, R56). -/
def copyBits (f : Nat) : Nat :=
  match MFmt.ofCode f with
  | none => 64
  | some .fp32 | some .fp19 => 32
  | some .bf16 | some .fp16 => 16
  | some .fp8e4 | some .fp8e5 | some .i8 | some .n8 => 8
  | some .fp6e3 | some .fp6e2 => 6
  | some .fp4 | some .i4 | some .n4 => 4
  | some .bx8 => 288
  | some .bx5 => 192
  | some .bx3 => 128

def isBx (f : Nat) : Bool := f == 9 || f == 10 || f == 11
def isMx (f : Nat) : Bool := decide (4 ≤ f) && decide (f ≤ 8)
def isWideFmt (f : Nat) : Bool := decide (f ≤ 3)

/-- Elements that one memory image covers (R56). -/
def perImage (f : Nat) : Nat := if isBx f then 32 else 1
/-- Formats packed densely along dimension 0 (R247). -/
def isPacked (f : Nat) : Bool := decide (copyBits f < 8) || isBx f
/-- Elements that coordinate 0 counts in multiples of (R247). -/
def unitOf (f : Nat) : Nat := if isBx f then 32 else if copyBits f = 6 then 4 else if copyBits f = 4 then 2 else 1
/-- Alignment of an element (R53, R58). -/
def copyAlign (f : Nat) : Nat := match f with | 9 => 4 | 10 => 8 | 11 => 16 | _ => max (copyBits f / 8) 1
/-- Bytes of n elements (R53, R58). -/
def footprint (f n : Nat) : Nat := (n / perImage f * copyBits f + 7) / 8

/-! ## The chain (R251) -/

def xfTranspose (xf : BitVec 6) : Bool := xf.getLsbD 0
def xfStage (xf : BitVec 6) : Nat := (xf.extractLsb' 1 2).toNat
def xfHadamard (xf : BitVec 6) : Bool := xf.getLsbD 3

/-- What the checks and the chain of a copy depend on. -/
structure CopyJob where
  r : Shape
  load : Bool
  xf : BitVec 6
  origin : List Int
  offset : Nat
  seed : Word
deriving DecidableEq, Repr

namespace CopyJob
def rd (j : CopyJob) : Nat := if j.load then j.r.fmt else j.r.tf
def wr (j : CopyJob) : Nat := if j.load then j.r.tf else j.r.fmt
def org (j : CopyJob) (d : Nat) : Int := j.origin.getD d 0
/-- Whether values are computed, rather than images copied bit for bit. -/
def computes (j : CopyJob) : Bool := xfStage j.xf != 0 || xfHadamard j.xf || j.rd != j.wr
/-- The scale array is used (R252). -/
def scaled (j : CopyJob) : Bool := xfStage j.xf == 1 || (xfStage j.xf == 3 && isMx j.rd)
/-- Block size of the value stage. -/
def block (j : CopyJob) : Nat := if j.scaled then j.r.sblk else 32

/-- The rules of R247, R250 and R251 that fail with status 0x0003. -/
def contentsOk (j : CopyJob) : Bool :=
  let r := j.r
  let dims := List.range r.rank
  let t := xfTranspose j.xf
  decide (r.fmt ≤ 16) && decide (1 ≤ r.rank) && decide (r.rank ≤ 5) &&
  dims.all (fun d => r.extOf d != 0 && decide (1 ≤ r.boxOf d) && decide (r.boxOf d ≤ 1024)) &&
  (r.fmt != 16 || j.xf == 0) &&
  (match xfStage j.xf with
   | 0 => j.rd == j.wr || (isWideFmt j.rd && isWideFmt j.wr)
   | 1 => isWideFmt j.rd && isMx j.wr
   | 2 => isWideFmt j.rd && isBx j.wr
   | _ => (isMx j.rd || isBx j.rd) && isWideFmt j.wr) &&
  (!j.scaled || r.sblk == 16 || r.sblk == 32) &&
  (!xfHadamard j.xf || (isWideFmt j.rd && xfStage j.xf != 3 && !r.circular 0 && j.org 0 % r.group == 0 &&
    r.boxOf 0 % r.group == 0)) &&
  (!t || (decide (2 ≤ r.rank) && !isBx r.tf &&
    (copyBits r.tf == 4 || copyBits r.tf == 8 || copyBits r.tf == 16 || copyBits r.tf == 32)))

/-- The rules that fail with status 0x0004. -/
def unitsOk (j : CopyJob) : Bool :=
  let r := j.r
  let whole (n : Nat) : Bool := r.extOf 0 % n == 0 && j.org 0 % n == 0 && r.boxOf 0 % n == 0
  (if isPacked r.fmt then r.strideOf 0 == 0
   else r.strideOf 0 != 0 && r.strideOf 0 % (copyBits r.fmt / 8) == 0) &&
  whole (unitOf r.fmt) && r.boxOf 0 % unitOf r.tf == 0 && (xfStage j.xf == 0 || whole j.block)

/-! ### Coordinates (R249, R250) -/

/-- Memory coordinate of box coordinate b in dimension d. -/
def mem (j : CopyJob) (d b : Nat) : Int :=
  let c := j.org d + b
  if j.r.circular d then c % (j.r.extOf d : Int) else c

def inBounds (j : CopyJob) (d : Nat) (c : Int) : Bool := decide (0 ≤ c) && decide (c < j.r.extOf d)

/-- An element or, where whole bx blocks are copied, a block: its box and memory coordinates. -/
structure El where
  b : List Nat
  c : List Int
  inb : Bool
deriving DecidableEq, Repr

/-- Elements an entry stands for: 32 where bx blocks are copied whole. -/
def per (j : CopyJob) : Nat := if j.computes then 1 else perImage j.r.fmt

/-- Box coordinates, dimension 0 fastest. -/
def boxCoords (r : Shape) (step : Nat) : List (List Nat) :=
  (List.range r.rank).reverse.foldl (fun ts d =>
    let bs := if d = 0 then (List.range (r.boxOf 0 / step)).map (· * step) else List.range (r.boxOf d)
    ts.flatMap (fun t => bs.map (fun b => b :: t))) [[]]

def els (j : CopyJob) : List El :=
  (boxCoords j.r j.per).map (fun b =>
    let c := b.mapIdx (fun d x => j.mem d x)
    { b := b, c := c, inb := (c.mapIdx (fun d x => j.inBounds d x)).all id })

/-- Σ coord_d × Π_(e<d) extent_e (R66). -/
def linear (coord ext : List Nat) : Nat := (List.zip coord ext).foldr (fun p n => p.1 + p.2 * n) 0

/-- Offset in bytes, and bits within the byte, of coordinate 0 of a packed format. -/
def packedAt (f : Nat) (c0 : Int) : Int × Nat :=
  let bits := c0 / perImage f * copyBits f
  (bits / 8, (bits % 8).toNat)

/-- The exact address of an element less BASE, and the bit in its first byte. -/
def displacement (j : CopyJob) (c : List Int) : Int × Nat :=
  let rest := ((c.mapIdx (fun d x => if d = 0 then 0 else x * j.r.strideOf d))).foldl (· + ·) 0
  let c0 := c.headD 0
  if isPacked j.r.fmt then let p := packedAt j.r.fmt c0; (rest + p.1, p.2) else (rest + c0 * j.r.strideOf 0, 0)

def addr (j : CopyJob) (c : List Int) : Addr := j.r.base + BitVec.ofInt 64 (j.displacement c).1

/-- A bx block lies a whole number of blocks from the tensor's base (R58). The groups of fp6 elements are counted from the
first element of their row (log 126). -/
def wholeBlock (j : CopyJob) (c : List Int) : Bool :=
  !isBx j.r.fmt || (j.displacement c).1 % (copyBits j.r.fmt / 8 : Nat) == 0

/-- The bytes an element touches. -/
def bytesOf (j : CopyJob) (c : List Int) : List Addr :=
  let p := j.displacement c
  (List.range ((p.2 + copyBits j.r.fmt + 7) / 8)).map (fun (i : Nat) => j.r.base + BitVec.ofInt 64 (p.1 + (i : Int)))

/-- Entry of the enumeration that lies at place i of the box (R250). -/
def boxOrder (j : CopyJob) (i : Nat) : Nat :=
  if xfTranspose j.xf && decide (2 ≤ j.r.rank) then
    let n0 := j.r.boxOf 0
    let n1 := j.r.boxOf 1
    i / n1 % n0 + n0 * (i % n1 + n1 * (i / (n0 * n1)))
  else i

/-- The place in the box of an entry of the enumeration. -/
def boxPlace (j : CopyJob) (i : Nat) : Nat :=
  if xfTranspose j.xf && decide (2 ≤ j.r.rank) then
    let n0 := j.r.boxOf 0
    let n1 := j.r.boxOf 1
    i / n0 % n1 + n1 * (i % n0 + n0 * (i / (n0 * n1)))
  else i

/-! ### Arithmetic (R253) -/

/-- The lowest and highest in-bounds coordinates of a dimension. -/
def extremes (j : CopyJob) (d : Nat) : Option (Int × Int) :=
  (((List.range (j.r.boxOf d)).map (j.mem d)).filter (j.inBounds d)).foldl (fun e c =>
    match e with | none => some (c, c) | some (l, h) => some (min l c, max h c)) none

/-- The size of a path's location range (R181): offsets, of the peer paths with the core's number above them. -/
def pathMask (a : Addr) : Nat :=
  match pathOf a with | 2 => 2 ^ 20 | 3 => 2 ^ 51 | 4 => 2 ^ 54 | _ => 2 ^ 56

/-- The rules of arithmetic. -/
def arithmeticOk (j : CopyJob) : Bool :=
  let dims := List.range j.r.rank
  if dims.any (fun d => (j.extremes d).isNone) then true
  else
    let prods := dims.map (fun d =>
      let e := (j.extremes d).getD (0, 0)
      let p := e.1 * j.r.strideOf d
      let q := e.2 * j.r.strideOf d
      (min p q, max p q))
    let fits (i : Int) : Bool := decide (-(2 ^ 63 : Nat) ≤ i) && decide (i < (2 ^ 63 : Nat))
    let sums := dims.map (fun d => (prods.take (d + 1)).foldl (fun a p => (a.1 + p.1, a.2 + p.2)) ((0 : Int), (0 : Int)))
    let last := sums.getLastD (0, 0)
    let e0 := (j.extremes 0).getD (0, 0)
    let packed := isPacked j.r.fmt
    let f := j.r.fmt
    let lo := last.1 + (if packed then (packedAt f e0.1).1 else 0)
    let hi := last.2 + (if packed then ((e0.2 / perImage f * copyBits f + copyBits f - 1) / 8) else ((copyBits f / 8 : Nat) : Int) - 1)
    let m := pathMask j.r.base
    let reg : Int := (j.r.base.toNat / m * m : Nat)
    prods.all (fun p => fits p.1 && fits p.2) && sums.all (fun p => fits p.1 && fits p.2) &&
      decide (reg ≤ (j.r.base.toNat : Int) + lo) && decide ((j.r.base.toNat : Int) + hi < reg + m)

/-! ### The scale array (R252) -/

/-- The quantised side is the box: a quantising load or a dequantising store. -/
def scalesOnBox (j : CopyJob) : Bool := j.load == (xfStage j.xf == 1)

/-- Address of the scale of the block that begins at an element. -/
def scaleAddr (j : CopyJob) (e : El) : Addr :=
  let x := if j.scalesOnBox then e.b else e.c.map Int.toNat
  let ext := if j.scalesOnBox then j.r.box else j.r.ext
  j.r.scale + BitVec.ofNat 64 (linear (x.headD 0 / j.r.sblk :: x.drop 1) (ext.headD 0 / j.r.sblk :: ext.drop 1))

/-- Blocks of the copy: the index of each one's first element and its scale's address, where it is used. -/
def scales (j : CopyJob) (es : List El) : List (Nat × Addr) :=
  if !j.scaled then []
  else
    (es.mapIdx (fun i e => (i, e))).filterMap (fun p =>
      if p.1 % j.r.sblk == 0 && (j.scalesOnBox || p.2.inb) then some (p.1, j.scaleAddr p.2) else none)

end CopyJob

/-! ## Quantising (R68 to R70) -/

/-- Elements out of a stage: codes, flags and saturations. -/
structure Quant where
  scale : Nat := 0
  codes : List Nat := []
  fl : Word := 0
  sat : Nat := 0

/-- The largest magnitude of a list. -/
def maxAbs (xs : List Val) : Val := xs.foldl (fun m x => if ltV m x.absV then x.absV else m) (.zero false)

/-- floor(log2) of a nonzero finite value. -/
def floorLog2 : Val → Int
  | .fin _ n e d => if n = 0 then 0 else log2Ratio n d + e
  | _ => 0

/-- quantise_mx of R68; draw i is element i's draw. -/
def quantiseMx (f : Fmt) (mode : RMode) (draw : Nat → Nat) (xs : List Val) : Quant :=
  if xs.any (fun x => !x.isFin) then
    { scale := 0xff, codes := xs.map (fun _ => if f.hasNaN then f.nanCode else f.maxCode), fl := fIV }
  else
    let amax := maxAbs xs
    if amax.isZero then { codes := xs.map (fun _ => 0) }
    else
      let k := floorLog2 amax - f.emax
      let below := decide (k < -127)
      let above := decide (k > 127)
      let k := max (-127) (min 127 k)
      let out := xs.mapIdx (fun i x =>
        let r := roundFp f mode (draw i) (x.scale (-k))
        if r.2 &&& fOF != 0 then (f.signCode x.neg? + f.maxCode, fNX, 1) else (r.1, r.2 &&& fNX, 0))
      { scale := (k + 127).toNat, codes := out.map (·.1)
        fl := out.foldl (fun a o => a ||| o.2.1) (flagIf below fUF ||| flagIf above fOF)
        sat := out.foldl (fun n o => n + o.2.2) ((below || above).toNat) }

/-- round_int of a finite value times 2^k. -/
def roundScaled (mode : RMode) (draw : Nat) (x : Val) (k : Int) : Int × Bool :=
  match x with
  | .fin s n e d => roundToInt mode draw s n (e + k) d
  | _ => (0, true)

/-- The shift of a quad whose largest magnitude is qm (R70). -/
def quadShift (m : Nat) (e : Int) (qm : Val) : Nat :=
  let fits (sh : Nat) : Bool := decide ((roundScaled .rne 0 qm ((m : Int) - e + sh)).1 ≤ 2 ^ m - 1)
  if !fits 0 then 0 else if !fits 1 then 1 else if !fits 2 then 2 else 3

/-- quantise_bx of R70: the block as one little-endian number. -/
def quantiseBx (m : Nat) (mode : RMode) (draw : Nat → Nat) (xs : List Val) : Quant :=
  if xs.any (fun x => !x.isFin) then { codes := [0xff], fl := fIV }
  else
    let amax := maxAbs xs
    if amax.isZero then { codes := [0] }
    else
      let top : Int := 2 ^ m - 1
      let e := floorLog2 amax
      let e := if (roundScaled .rne 0 amax ((m : Int) - 1 - e)).1 > top then e + 1 else e
      let above := decide (e > 127)
      let below := decide (e < -127)
      let e := max (-127) (min 127 e)
      let shifts := (List.range 8).map (fun q => quadShift m e (maxAbs ((xs.drop (4 * q)).take 4)))
      let out := xs.mapIdx (fun i x =>
        let k := (m : Int) - 1 - e + (shifts.getD (i / 4) 0 : Nat)
        let v := roundScaled mode (draw i) x k
        let big := decide (v.1.natAbs > 2 ^ m - 1)
        let mag := min v.1.natAbs (2 ^ m - 1)
        let neg := decide (v.1 < 0) && mag != 0
        (mag + (if neg then 2 ^ m else 0), big, big || !v.2))
      let field := out.foldr (fun o n => o.1 + 2 ^ (m + 1) * n) 0
      let sh := shifts.foldr (fun a n => a + 4 * n) 0
      { codes := [(e + 127).toNat + 256 * sh + 2 ^ 24 * field]
        fl := flagIf above fOF ||| flagIf below fUF ||| flagIf (out.any (fun o => o.2.2)) fNX
        sat := out.foldl (fun n o => n + o.2.1.toNat) ((above || below).toNat) }

/-! ## The Hadamard rotation (R71, R72) -/

/-- h_n. -/
def hadamardScale (n : Nat) : Val :=
  decodeFp .f32 (match n with | 16 => 0x3e800000 | 32 => 0x3e3504f3 | 64 => 0x3e000000 | _ => 0x3db504f3)

def oddBits (n : Nat) : Bool := ((List.range 8).filter (fun i => n.testBit i)).length % 2 == 1

/-- The outputs of a group whose first coordinate is c, as fp32 codes with their flags. -/
def hadamard (seed : Addr) (c : Int) (xs : List Val) : List (Nat × Word) :=
  let n := xs.length
  if xs.any (fun x => !x.isFin) then xs.map (fun _ => (Fmt.f32.nanCode, fIV))
  else
    let signed := xs.mapIdx (fun j x => if (mix32 seed (BitVec.ofInt 64 (c + j))).getLsbD 0 then x.negate else x)
    (List.range n).map (fun i =>
      let terms := signed.mapIdx (fun j x => if oddBits (i &&& j) then x.negate else x)
      let sum := (terms.drop 1).foldl (fun a x => (addV .rne a x).v) (terms.headD (.zero false))
      roundFp .f32 .rne 0 (mulV sum (hadamardScale n)).v)

/-! ## From read-side codes to write-side codes -/

/-- The value of an element code; a bx element's code is that of R57's parts. -/
def copyValue (f code : Nat) : Val :=
  match MFmt.ofCode f with
  | none => .zero false
  | some .fp19 => decodeFp .fp19 (code / 2 ^ 13 % 2 ^ 19)
  | some m => m.decode code

/-- The values of a bx block. -/
def bxValues (f code : Nat) : List Val :=
  match MFmt.ofCode f with
  | none => []
  | some m =>
    let w := m.bxBits + 1
    (List.range 32).map (fun e => m.decode
      (code / 2 ^ (24 + w * e) % 2 ^ w + 256 * (code / 2 ^ (8 + 2 * (e / 4)) % 4) + 1024 * (code % 256)))

/-- The floating format of a code. -/
def copyFmt (f : Nat) : Fmt :=
  match f with
  | 0 => .f32 | 1 => .fp19 | 2 => .bf16 | 3 => .f16 | 4 => .fp8e4 | 5 => .fp8e5 | 6 => .fp6e3 | 7 => .fp6e2 | _ => .fp4

/-- A value rounded into a wide format's image. -/
def copyRound (f : Nat) (v : Val) : Nat × Word :=
  let r := roundFp (copyFmt f) .rne 0 v
  (if f = 1 then r.1 * 2 ^ 13 else r.1, r.2)

/-- What a chain gives: codes of the write side in enumeration order (one a block for bx), the scale codes by first
element, flags and saturations. -/
structure Chained where
  codes : List Nat
  scales : List (Nat × Nat) := []
  fl : Word := 0
  sat : Nat := 0

namespace CopyJob

/-- One run of elements along dimension 0, beginning at entry i of the enumeration. -/
def runRow (j : CopyJob) (es : List El) (i : Nat) (xs : List Val) (scale : Nat → Option Nat) : Chained :=
  let inb (k : Nat) : Bool := match es[k]? with | some e => e.inb | none => false
  let only (k : Nat) (w : Word) : Word := if inb k then w else 0
  let n := j.r.group
  let had := if xfHadamard j.xf then
      ((chunks n xs).mapIdx (fun g q => hadamard j.r.hseed (j.org 0 + (n * g : Nat)) q)).flatten
    else []
  let fl := (had.mapIdx (fun k h => only (i + k) h.2)).foldl (· ||| ·) 0
  let xs := if xfHadamard j.xf then had.map (fun h => decodeFp .f32 h.1) else xs
  let key : Addr := j.seed.setWidth 64 + 0x100000000#64
  let draw (k : Nat) : Nat :=
    if !j.r.sr then 0
    else
      match es[k]? with
      | none => 0
      | some e => (mix32 key (BitVec.ofNat 64 (if j.load then linear e.b j.r.box else linear (e.c.map Int.toNat) j.r.ext))).toNat
  let mode : RMode := if j.r.sr then .sr else .rne
  match xfStage j.xf with
  | 1 =>
    let qs := (chunks j.block xs).mapIdx (fun b q => (i + b * j.block, quantiseMx (copyFmt j.wr) mode (fun k => draw (i + b * j.block + k)) q))
    { codes := qs.flatMap (fun q => q.2.codes), scales := qs.map (fun q => (q.1, q.2.scale))
      fl := qs.foldl (fun a q => a ||| only q.1 q.2.fl) fl
      sat := qs.foldl (fun a q => a + if inb q.1 then q.2.sat else 0) 0 }
  | 2 =>
    let m := match MFmt.ofCode j.wr with | some m => m.bxBits | none => 2
    let qs := (chunks 32 xs).mapIdx (fun b q => (i + b * 32, quantiseBx m mode (fun k => draw (i + b * 32 + k)) q))
    { codes := qs.flatMap (fun q => if inb q.1 then q.2.codes else [0])
      fl := qs.foldl (fun a q => a ||| only q.1 q.2.fl) fl
      sat := qs.foldl (fun a q => a + if inb q.1 then q.2.sat else 0) 0 }
  | st =>
    let out := xs.mapIdx (fun k x =>
      let v := if st = 3 && j.scaled then
          match scale ((i + k) / j.r.sblk * j.r.sblk) with
          | some 255 => .nan false
          | some e => x.scale ((e : Int) - 127)
          | none => x
        else x
      let r := copyRound j.wr v
      (r.1, r.2 ||| sigFlag x))
    { codes := out.map (·.1), fl := (out.mapIdx (fun k o => only (i + k) o.2)).foldl (· ||| ·) fl }

/-- The whole chain on read-side codes in enumeration order, with the scale codes read. Between equal formats elements go
over bit for bit (R251); a bx block's reserved pad byte (R10, R56) and an fp19 image's low bits (R53) are written as zero
(log 66). -/
def chain (j : CopyJob) (es : List El) (codes : List Nat) (scale : Nat → Option Nat) : Chained :=
  if !j.computes then
    { codes :=
        if j.rd = 1 then codes.map (fun c => c / 2 ^ 13 * 2 ^ 13)
        else if isBx j.rd then codes.map (fun c => c % 2 ^ (copyBits j.rd - 8))
        else codes }
  else
    let xs := if isBx j.rd then codes.flatMap (bxValues j.rd) else codes.map (copyValue j.rd)
    let n0 := j.r.boxOf 0
    let rows := (chunks n0 xs).mapIdx (fun k q => j.runRow es (k * n0) q scale)
    { codes := rows.flatMap (·.codes), scales := rows.flatMap (·.scales)
      fl := rows.foldl (fun a q => a ||| q.fl) 0, sat := rows.foldl (fun a q => a + q.sat) 0 }

/-! ### Images -/

/-- A code at a bit of consecutive bytes. -/
def codeAt (bs : List Byte) (bit w : Nat) : Nat := natOfBytes bs / 2 ^ bit % 2 ^ w

/-- Codes packed into bytes, as many at a time as fill whole bytes. -/
def packCodes (w : Nat) (codes : List Nat) : List Byte :=
  let g := if w = 4 then 2 else if w = 6 then 4 else 1
  (chunks g codes).flatMap (fun q => bytesOfNat ((w * q.length + 7) / 8) (q.foldr (fun c n => c % 2 ^ w + 2 ^ w * n) 0))

/-- Entries of the enumeration that read-side codes and write-side codes stand for. -/
def entries (f : Nat) (j : CopyJob) (es : List El) : List El :=
  if isBx f && j.computes then ((chunks 32 es).map (fun q => q.headD ⟨[], [], false⟩)) else es

end CopyJob

/-! ## The checks of R253 -/

/-- The byte lies in the box of a receiving core. -/
def inBox (core : Nat) (cores : List Nat) (off n : Nat) (a : Addr) : Bool :=
  let p := pathOf a
  let o := (a.extractLsb' 0 20).toNat
  (p == 2 || p == 3 || p == 4) && cores.contains (padCore core a) && decide (off ≤ o) && decide (o < off + n)

/-- What the checks of a copy end with. -/
inductive CopyCheck where
  | ok
  | fail (status : BitVec 16) (addr : Addr)
  | broken (va : Addr)
  | wait (pages : List (AccessKind × Addr × Bool))   -- absent pages with the access that met each; none: a saved peer
deriving DecidableEq, Repr

/-- One access of a copy: its bytes, alignment, direction and whether its path is accepted. -/
structure CopyAcc where
  bytes : List Addr
  align : Nat
  kind : AccessKind
  path : Bool
  whole : Bool := true     -- a bx access begins at a whole number of blocks from the tensor's base (R58)

/-- The checks of R182 on the accesses, step by step. -/
def checkAccesses (s : State) (w : Agent) (as : List CopyAcc) : CopyCheck :=
  let first (a : CopyAcc) : Addr := a.bytes.headD 0
  match as.find? (fun a => !(a.path && a.bytes.all zeroBitsOk)) with
  | some a => .fail 1 (first a)
  | none =>
    match as.find? (fun a => (first a).toNat % a.align != 0 || !a.whole) with
    | some a => .fail 4 (first a)
    | none =>
      let ps := as.flatMap (fun a => a.bytes.map (fun b => (b, a.kind, place s w a.kind false b 1)))
      match ps.find? (fun p => p.2.2 == .broken) with
      | some p => .broken p.1
      | none =>
        match ps.find? (fun p => p.2.2 == .fault) with
        | some p => .fail 1 p.1
        | none =>
          let away := (ps.filterMap (fun p => match p.2.2 with | .absent page _ m => some (p.2.1, page, m) | _ => none)).eraseDups
          let peers := ps.any (fun p => match p.2.2 with | .peer _ => true | _ => false)
          if away.isEmpty && !peers then .ok else .wait away

/-- The path of the memory side is one that R254 accepts. -/
def memoryPathOk (load : Bool) (depth : Nat) (a : Addr) : Bool :=
  let p := pathOf a
  (p == 0 || (load && p == 1) || ((p == 3 || p == 4 || p == 5) && depth == 0))

/-- The box fits every receiver; one that is saved makes the copy wait (R256, R341). -/
def checkBoxes (s : State) (w : Agent) (multicast : Bool) (cores : List Nat) (off n : Nat) : CopyCheck :=
  let va (k : Nat) : Addr :=
    if multicast then (4#64 <<< 60) ||| (BitVec.ofNat 64 (k % 64) <<< 48) ||| BitVec.ofNat 64 off
    else (2#64 <<< 60) ||| BitVec.ofNat 64 off
  let judge (k : Nat) : CopyCheck :=
    match s.crewAt k with
    | some c =>
      if c.launch = w.launch then (if off + n ≤ c.size then .ok else .fail 1 (va k))
      else if s.savedHere w.launch k then .wait [] else .fail 1 (va k)
    | none => if s.savedHere w.launch k then .wait [] else .fail 1 (va k)
  let js := cores.map judge
  match js.find? (fun j => match j with | .fail _ _ => true | _ => false) with
  | some j => j
  | none => if js.contains (.wait []) then .wait [] else .ok

/-- The job of a queued copy, its record read. -/
def CopyOp.job (o : CopyOp) (image : List Byte) : CopyJob :=
  { r := Shape.of image, load := !o.store, xf := o.xf, origin := o.origin, offset := o.offset, seed := o.seed }

/-- The scratchpads that hold the box. -/
def CopyOp.cores (o : CopyOp) (core : Nat) : List Nat :=
  match o.multicast with
  | none => [core]
  | some (m, _) => (lanesOf m).map (fun i => core / 64 * 64 + i)

/-- A copy holds on absent pages; a fault record names the access that met each (R333). -/
def waitCopy (w : Agent) (o : CopyOp) (pages : List (AccessKind × Addr × Bool)) (s : State) : State :=
  pages.foldl (fun s p => s.engineWait w p.1 o.num [p.2]) s

/-- All the checks of R253 in order. -/
def checkCopy (s : State) (w : Agent) (depth : Nat) (o : CopyOp) (j : CopyJob) : CopyCheck :=
  let cores := o.cores w.core
  let n := footprint j.r.tf j.r.count
  if !j.contentsOk then .fail 3 0
  else if !j.unitsOk then .fail 4 o.shape
  else if o.offset % 16 != 0 then .fail 4 ((2#64 <<< 60) ||| BitVec.ofNat 64 o.offset)
  else if !j.arithmeticOk then .fail 2 o.shape
  else
    let es := j.els
    let inb := es.filter (fun e => e.inb)
    match (inb.flatMap (fun e => j.bytesOf e.c)).find? (inBox w.core cores o.offset n) with
    | some a => .fail 5 a
    | none =>
      let side : AccessKind := if j.load then .engineRead else .engineWrite
      if !memoryPathOk j.load depth j.r.base then .fail 1 (match inb with | e :: _ => j.addr e.c | [] => j.r.base)
      else
        let tensor := inb.map (fun e => ({ bytes := j.bytesOf e.c, align := copyAlign j.r.fmt, kind := side, path := true, whole := j.wholeBlock e.c } : CopyAcc))
        let scaleKind : AccessKind := if xfStage j.xf = 1 then .engineWrite else .engineRead
        let scale := (j.scales es).map (fun q =>
          ({ bytes := [q.2], align := 1, kind := scaleKind, path := pathOf q.2 == 0 || pathOf q.2 == 2 } : CopyAcc))
        let tensor := if isPacked j.r.fmt && !isBx j.r.fmt then tensor.map (fun a => { a with align := 1 }) else tensor
        match checkAccesses s w (tensor ++ scale), checkBoxes s w o.multicast.isSome cores o.offset n with
        | .broken va, _ => .broken va
        | .fail st a, _ => .fail st a
        | _, .fail st a => .fail st a
        | .wait p, _ => .wait p
        | _, .wait p => .wait p
        | _, _ => .ok

/-! ## Reading and planning the writes -/

/-- Bytes by line: the later bytes of a line after the earlier ones. -/
def byLine (ws : List (Nat × Byte)) : Map (List (Nat × Byte)) :=
  ws.foldl (fun (m : Map (List (Nat × Byte))) e => m.put (e.1 / 128) (m.get [] (e.1 / 128) ++ [e])) []

/-- Bytes at addresses, where the addresses lie. -/
def placed (s : State) (w : Agent) (ws : List (Addr × Byte)) : List (Loc × Byte) :=
  ws.filterMap (fun e => match place s w .engineWrite false e.1 1 with | .here l => some (l, e.2) | _ => none)

/-- Scratchpad bytes with their place in all scratchpads. -/
def padsOf (at_ : List (Loc × Byte)) : List (Nat × Byte) :=
  at_.filterMap (fun e => match e.1 with | .pad k o => some (k * 2 ^ 20 + o, e.2) | _ => none)

/-- The writes of a copy line by line: its box or tensor bytes and its scale bytes (R190, R252, R255). A scratchpad line is
set full where it holds bytes of the box, of a peer-path tensor, or of a load's scales (R186); a multicast's receivers
count every byte written to them (R256). -/
def linesOf (load : Bool) (cores : List Nat) (bar : Option Nat) (data scales : List (Loc × Byte)) : List CopyWrite :=
  let all := data ++ scales
  let mems := all.filterMap (fun e => match e.1 with | .mem pa _ => some (pa, e.2) | _ => none)
  let hosts := all.filterMap (fun e => match e.1 with | .host o => some (o, e.2) | _ => none)
  let filling := ((if load then padsOf all else padsOf data).map (fun e => e.1 / 128)).eraseDups
  (byLine mems).map (fun q => .mem q.1 q.2) ++ (byLine hosts).map (fun q => .host q.1 q.2) ++
    (byLine (padsOf all)).map (fun q => .pad (q.1 / 2 ^ 13) (q.1 % 2 ^ 13) (q.2.map (fun e => (e.1 % 2 ^ 20, e.2)))
      (filling.contains q.1) (if cores.contains (q.1 / 2 ^ 13) then bar else none))

/-- What a copy's chain gives. -/
structure CopyPlan where
  writes : List CopyWrite
  fl : Word
  sat : Nat

/-- The bytes of element k of a box at an offset. -/
def boxBytes (off wbit k : Nat) : List Addr :=
  (List.range ((wbit * k % 8 + wbit + 7) / 8)).map (fun i =>
    (2#64 <<< 60) ||| BitVec.ofNat 64 (off + (wbit * k / 8 + i)))

/-- The read side, element by element, with the scales that a dequantising copy reads: each is read once (R255). -/
def CopyJob.reads (j : CopyJob) : List (List Addr) :=
  let es := j.els
  let rds := CopyJob.entries j.rd j es
  (if j.load then (rds.filter (fun e => e.inb)).map (fun e => j.bytesOf e.c)
   else rds.mapIdx (fun i _ => boxBytes j.offset (copyBits j.rd) (j.boxPlace i))) ++
    (if xfStage j.xf == 3 then (j.scales es).map (fun q => [q.2]) else [])

/-- Run the chain on the bytes of the read side; every address has been checked. -/
def planCopy (s : State) (w : Agent) (o : CopyOp) (j : CopyJob) (byte : Addr → Byte) : CopyPlan :=
  let es := j.els
  let cores := o.cores w.core
  let rds := CopyJob.entries j.rd j es
  let wbit := copyBits j.rd
  let codes :=
    if j.load then
      rds.map (fun e => if e.inb then CopyJob.codeAt ((j.bytesOf e.c).map byte) (j.displacement e.c).2 wbit else 0)
    else
      -- positions outside the tensor enter as zero (R71)
      rds.mapIdx (fun i e => let k := j.boxPlace i
        if e.inb then CopyJob.codeAt ((boxBytes j.offset wbit k).map byte) (wbit * k % 8) wbit else 0)
  let scs := j.scales es
  let scale (i : Nat) : Option Nat := (scs.find? (fun q => q.1 == i)).map (fun q => (byte q.2).toNat)
  let out := j.chain es codes (if xfStage j.xf == 3 then scale else fun _ => none)
  let wrs := CopyJob.entries j.wr j es
  let data :=
    if j.load then
      let zeroed := List.zipWith (fun e c => if e.inb then c else 0) wrs out.codes
      let ordered := (List.range zeroed.length).map (fun i => zeroed.getD (j.boxOrder i) 0)
      let image := CopyJob.packCodes (copyBits j.wr) ordered
      cores.flatMap (fun k => image.mapIdx (fun i b => (Loc.pad k (o.offset + i), b)))
    else
      let g := if copyBits j.wr = 4 then 2 else if copyBits j.wr = 6 then 4 else 1
      let units := List.zip (chunks g wrs) (chunks g out.codes)
      placed s w (units.flatMap (fun u =>
        match u.1 with
        | e :: _ => if e.inb then (CopyJob.packCodes (copyBits j.wr) u.2).mapIdx (fun i b => (j.addr e.c + BitVec.ofNat 64 i, b)) else []
        | [] => []))
  let scaleBytes := if xfStage j.xf = 1 then
      placed s w (scs.filterMap (fun q => (out.scales.find? (fun p => p.1 == q.1)).map (fun p => (q.2, BitVec.ofNat 8 p.2))))
    else []
  { writes := linesOf j.load cores (o.multicast.map Prod.snd) data scaleBytes, fl := out.fl, sat := out.sat }

/-! ## cpy and cpym (R248, R256) -/

/-- The record as the engine reads it at issue (R247, R248). -/
inductive RecordRead where
  | got (image : Option (List Byte)) (fail : Option (BitVec 16 × Addr))
  | held (pages : List (Addr × Bool))
  | broken

def readShape (s : State) (w : Agent) (view : Nat) (a : Addr) : RecordRead :=
  if pathOf a > 2 || !zeroBitsOk a then .got none (some (1, a))
  else if a.toNat % 128 != 0 then .got none (some (4, a))
  else
    match place s w .engineRead false a 128 with
    | .here l => if s.poisoned w.core view l.direct 128 then .got none (some (6, a)) else .got (some (s.peeks view l 128)) none
    | .fault => .got none (some (1, a))
    | .broken => .broken
    | .absent page _ m => .held [(page, m)]
    | .peer _ => .held []

/-- Enter a copy into the core's copy queue (R248). Its operand block is a run of registers (log 142). -/
def copyUnit (x : Pfx) (store multi : Bool) (d a b : Reg) (s : State) : Host.Outcome State Fault Refusal :=
  let block := (List.range (if multi then 8 else 6)).map (d.toNat + ·)
  issueUnit x { regs := block ++ regsOf true a ++ regsOf true b, stall := true } (fun c s =>
    let blk (i : Nat) : Word := c.gang.reg 0 c.low (d.toNat + i)
    let counter := if multi then blk 7 ++ blk 6 else c.pair c.low b
    let mask := c.pair c.low b
    if c.acts = 0 then .done s
    else if multi && decide (c.crew.depth ≥ 1) then .trap { cause := 1, lane := c.low } 0
    else if multi && mask = 0 then
      match s.signal c.agent c.view counter 0 0 with
      | .done s => .done s
      | .unusable cause => .done (s.addPend c.core c.slot (counterPend cause counter))
      | .broken => .jump (stopGang c counter s)
      | .away pages => .hold (.page c.launch.rcd.ctx (pages.map Prod.fst)) (s.postPages c.agent .engineWrite pages)
    else if c.crew.copies.length ≥ Config.copyEntries then .hold .copyFull s
    else
      match readShape s c.agent c.view (c.pair c.low a) with
      | .broken => .jump (stopGang c (c.pair c.low a) s)
      | .held pages => .hold (.page c.launch.rcd.ctx (pages.map Prod.fst)) (s.postPages c.agent .engineRead pages)
      | .got image fail =>
        let o : CopyOp :=
          { num := s.engineOps, slot := c.slot, store := store
            multicast := if multi then some (mask, (x.x.extractLsb' 6 5).toNat) else none
            shape := c.pair c.low a, image := image, fail := fail
            origin := (List.range 5).map (fun i => (blk i).toInt), offset := (blk 5).toNat, counter := counter
            xf := x.x.extractLsb' 0 6, seed := c.seed, view := c.view }
        .done { s.modCrew c.core (fun k => { k with copies := k.copies ++ [o] }) with engineOps := s.engineOps + 1 }) s

def execCpyLoad (x : Pfx) (d a b : Reg) (s : State) : Host.Outcome State Fault Refusal := copyUnit x false false d a b s
def execCpyStore (x : Pfx) (d a b : Reg) (s : State) : Host.Outcome State Fault Refusal := copyUnit x true false d a b s
def execCpym (x : Pfx) (d a b : Reg) (s : State) : Host.Outcome State Fault Refusal := copyUnit x false true d a b s

/-! ## The copy engine (R369) -/

/-- The cause a status makes pending (R244). -/
def statusCause (st : BitVec 16) : BitVec 8 :=
  match st.toNat with | 1 => 5 | 2 => 7 | 3 => 3 | 4 => 4 | 5 => 5 | 6 => 0x10 | _ => 0

def State.modCopy (s : State) (core num : Nat) (f : CopyOp → CopyOp) : State :=
  s.modCrew core (fun c => { c with copies := c.copies.map (fun o => if o.num == num then f o else o) })

/-- A copy fails: its trap is pending, and it has nothing to write (R244). -/
def failCopy (core : Nat) (o : CopyOp) (st : BitVec 16) (a : Addr) (s : State) : State :=
  (s.modCopy core o.num (fun o =>
    { o with running := true, planned := true, toRead := [], writes := [], status := st })).pendIssuer core o.slot o.num
      { cause := statusCause st, addr := if st = 3 then 0 else a, at_ := .counter o.counter }

/-- Whether a copy's line for a core's scratchpad can land: its crew of the launch runs there. A saved one makes the copy
hold (R341); a line for a crew that has ended is gone (log 127). -/
inductive PadLand where
  | now | holds | gone
deriving DecidableEq, Repr

def padLand (s : State) (launch core : Nat) : PadLand :=
  match s.crewAt core with
  | some c => if c.launch = launch then .now else if s.savedHere launch core then .holds else .gone
  | none => if s.savedHere launch core then .holds else .gone

/-- A write that waits for a receiver to be resumed (R256, R341). -/
def CopyWrite.holds (s : State) (launch : Nat) : CopyWrite → Bool
  | .pad k _ _ _ _ => padLand s launch k == .holds
  | _ => false

/-- The next line that a copy in flight is to write is for a receiver that is saved (R341). -/
def CopyOp.holds (s : State) (launch : Nat) (o : CopyOp) : Bool :=
  o.planned && (match o.writes with | v :: _ => v.holds s launch | [] => false)

/-- One of the first n copies of the queue holds on an absent page or on a saved receiver, or a successor record does: what is
queued behind it waits (R333, R341). -/
def copiesHeld (s : State) (w : Agent) (c : Crew) (n : Nat) : Bool :=
  s.succHeld w || (c.copies.take n).any (fun o => c.isAway o.num || o.holds s w.launch)

/-- The copy that the engine would start: the oldest waiting one, while fewer than four are in flight. A world that is
about to end starts none (R286). -/
def nextCopy (c : Crew) : Option CopyOp :=
  if c.ending.isSome then none
  else if (c.copies.filter (fun o => o.running)).length ≥ Config.copiesInFlight then none
  else c.copies.find? (fun o => !o.running)

/-- The state as a copy sees it whose accesses have passed their checks: its host-mapped ones are made in the window then in
force (R398). -/
def CopyOp.windowed (o : CopyOp) (s : State) : State :=
  { s with window := { s.window with hwbase := o.hwbase, hwsize := o.hwsize } }

/-- With its read side read, a copy's chain runs (R251), once no page that it is to write is absent. -/
def finishReads (core : Nat) (w : Agent) (o : CopyOp) (j : CopyJob) (s : State) : State :=
  let p := planCopy (o.windowed s) w o j (fun a => o.got.get 0 a.toNat)
  s.modCopy core o.num (fun o => { o with planned := true, writes := p.writes, flags := p.fl, sat := p.sat })

/-- The engine reads the next elements of a copy, those that begin in one line (R255, R369); after the last of them the
chain runs. -/
def readCopy (core : Nat) (c : Crew) (w : Agent) (o : CopyOp) (j : CopyJob) (s : State) : State :=
  let lineOfEl (as : List Addr) : Nat := (as.headD 0).toNat / 128
  let now := o.toRead.takeWhile (fun as => lineOfEl as == lineOfEl (o.toRead.headD []))
  match engineRead (o.windowed s) w o.view now.flatten with
  | .poisoned va => (failCopy core o 6 va s).padError core va
  | .wait pages => s.engineWait w .engineRead o.num pages
  | .broken va => structureFault w.ctx va s
  | .ok =>
    let got := now.flatten.foldl (fun (m : Map Byte) a =>
      match m.find a.toNat with | some _ => m | none => m.put a.toNat (engineByte (o.windowed s) w o.view a)) o.got
    let o := { o with toRead := o.toRead.drop now.length, got := got }
    let s := s.modCopy core o.num (fun _ => o)
    if !o.toRead.isEmpty then s
    else
      match checkCopy (o.windowed s) w c.depth o j with
      | .wait pages => waitCopy w o pages s
      | .broken va => structureFault w.ctx va s
      | _ => finishReads core w o j s

/-- A copy starts: its checks (R253); then its data moves. -/
def startCopy (core : Nat) (c : Crew) (w : Agent) (o : CopyOp) (s : State) : State :=
  match counterPlace s w .engineWrite o.counter with
  | .unusable cause =>
    (s.modCrew core (fun k => { k with copies := k.copies.filter (fun p => p.num != o.num) })).pendIssuer core o.slot o.num
      (counterPend cause o.counter)
  | .broken => structureFault w.ctx o.counter s
  | _ =>
    match o.image, o.fail with
    | some image, _ =>
      let j := o.job image
      match checkCopy s w c.depth o j with
      | .fail st a => failCopy core o st a s
      | .broken va => structureFault w.ctx va s
      | .wait pages => waitCopy w o pages s
      | .ok =>
        let o := { o with running := true, hwbase := s.window.hwbase, hwsize := s.window.hwsize, toRead := j.reads, writes := (planCopy s w o j (fun _ => 0)).writes }
        let s := s.modCopy core o.num (fun _ => o)
        if o.toRead.isEmpty then finishReads core w o j s else s
    | none, some (st, a) => failCopy core o st a s
    | none, none => s

def execCopyStart (core : Nat) (s : State) : Host.Outcome State Fault Refusal :=
  match s.crewAt core, s.agentAt core with
  | some c, some w =>
    match nextCopy c with
    | some o => if copiesHeld s w c c.copies.length then .next s else .next (startCopy core c w o s)
    | none => .next s
  | _, _ => .next s

/-- The line a write covers. -/
def CopyWrite.line : CopyWrite → Nat × Nat × Nat
  | .pad core line _ _ _ => (0, core, line)
  | .mem line _ => (1, 0, line)
  | .host line _ => (2, 0, line)

/-- A scratchpad line of a copy lands: its bytes, its full bit, and the byte count of a multicast's barrier (R190). -/
def landPad (core line : Nat) (bytes : List (Nat × Byte)) (fill : Bool) (bar : Option Nat) (s : State) : State :=
  (s.putPad core bytes).modCrew core (fun c =>
    let c := if fill then c.setFull [line] true else c
    match bar with
    | none => c
    | some n => c.setBarrier n ((c.barrier n).land bytes.length))

/-- Land one write of a copy. -/
def landWrite (core launch : Nat) (o : CopyOp) (w : CopyWrite) (s : State) : State :=
  match w with
  | .pad k line bytes fill bar => if padLand s launch k = .now then landPad k line bytes fill bar s else s
  | .mem _ bytes =>
    if s.viewExhausted o.view (bytes.map Prod.fst) then endWorld core 9 0 s
    else
      let s := s.modCopy core o.num (fun o => { o with acks := o.acks + 1 })
      { s with slices := { s.slices with requests := s.slices.requests ++ [.write core o.num o.view 0 bytes] } }
  | .host _ bytes => { s with host := s.host.sets 0 (bytes.map (fun e => (o.hwbase.toNat + e.1, e.2))) }

/-- The k-th copy of a core's queue moves data: it reads on, or, with everything read, lands its next line, unless an older
copy in flight has still to write it (R255, R369). -/
def execCopyLineLand (core k : Nat) (s : State) : Host.Outcome State Fault Refusal :=
  match s.crewAt core, s.agentAt core with
  | some c, some w =>
    match c.copies[k]? with
    | none => .next s
    | some o =>
      if !o.running || copiesHeld s w c (k + 1) then .next s
      else if !o.planned then
        match o.image with | some image => .next (readCopy core c w o (o.job image) s) | none => .next s
      else
        match o.writes with
        | [] => .next s
        | v :: vs =>
          if (c.copies.take k).any (fun p => p.writes.any (fun u => u.line == v.line)) then .next s
          else .next (landWrite core w.launch o v (s.modCopy core o.num (fun o => { o with writes := vs })))
  | _, _ => .next s

/-- The k-th copy of a core's queue ends once all its writes are performed: its flags are raised and its counter is
signalled (R243, R251). -/
def execCopyEnd (core k : Nat) (s : State) : Host.Outcome State Fault Refusal :=
  match s.crewAt core, s.agentAt core with
  | some c, some w =>
    match c.copies[k]? with
    | none => .next s
    | some o =>
      if !o.planned || !o.writes.isEmpty || o.acks != 0 || copiesHeld s w c (k + 1) then .next s
      else
        let drop (s : State) : State :=
          (s.modCrew core (fun c => { c with copies := c.copies.filter (fun p => p.num != o.num) })).raiseFlags core
            (squadOf o.slot) o.flags 0
        match s.signal w o.view o.counter o.status o.sat with
        | .done s => .next (drop s)
        | .unusable cause => .next ((drop s).pendIssuer core o.slot o.num (counterPend cause o.counter))
        | .broken => .next (structureFault w.ctx o.counter s)
        | .away pages => .next (s.engineWait w .engineWrite o.num pages)
  | _, _ => .next s

end Sys2Proof.Machine
end

