-- ==== Sys2Proof/Machine/CrossLane.lean ====
section
/-! DEFINITION. The cross-lane instructions of majors 0x1e and 0x1f (R127 to R129). -/

namespace Sys2Proof.Machine

/-- The lane shfl reads (R128). -/
def shflSource (m : ShflMode) (i n : Nat) : Nat :=
  match m with
  | .idx => n % 64
  | .up => if i < n then i else i - n
  | .down => if i + n > 63 then i else i + n
  | .xor => i ^^^ (n % 64)

/-- The acting lanes whose source predicate, negated where n is set, is true (R129). -/
def votes (c : UnitCtx) (p : PReg) (n : Bool) : BitVec 64 :=
  maskWhere (fun l => c.acts.getLsbD l && (c.gang.predOf l p.toNat != n))

/-- A vote: predicate d of every acting lane (R129). -/
def voteUnit (x : Pfx) (p q : PReg) (f : UnitCtx → Bool) (s : State) : Host.Outcome State Fault Refusal :=
  issueUnit x (needPred [p, q] []) (laneUnit (fun c _ => { preds := [(p.toNat, f c)] })) s

/-- shfl with a lane operand of each lane's own (R127, R128, R115). -/
def shflUnit (x : Pfx) (d a : Reg) (m : ShflMode) (named : List Nat) (n : UnitCtx → Nat → Nat) (s : State) :
    Host.Outcome State Fault Refusal :=
  issueUnit x { needRW (a.toNat :: named) [d.toNat] with shadows := [a.toNat], cross := [a.toNat] } (laneUnit (fun c l =>
    c.moved l false d (fun p => (c.gang.regAnyLane c.w p (shflSource m l (n c l)) a.toNat).setWidth 64))) s

/-- shfl with an immediate lane operand (R128). -/
def execShfl (x : Pfx) (d a : Reg) (m : ShflMode) (n : BitVec 6) (s : State) : Host.Outcome State Fault Refusal :=
  shflUnit x d a m [] (fun _ _ => n.toNat) s

/-- shfl with the lane operand in a register (R128). -/
def execShflReg (x : Pfx) (d a : Reg) (m : ShflMode) (r : Reg) (s : State) : Host.Outcome State Fault Refusal :=
  shflUnit x d a m [r.toNat] (fun c l => (c.word l r).toNat) s

/-- ballot: the pair d gets the mask (R129). -/
def execBallot (x : Pfx) (d : Reg) (p : PReg) (n : Bool) (s : State) : Host.Outcome State Fault Refusal :=
  issueUnit x { needRW [] (regsOf true d) with preds := [p.toNat] } (laneUnit (fun c l => c.plain l true d (votes c p n))) s

/-- vote.any (R129). -/
def execVoteAny (x : Pfx) (d p : PReg) (n : Bool) (s : State) : Host.Outcome State Fault Refusal :=
  voteUnit x d p (fun c => votes c p n != 0) s

/-- vote.all (R129). -/
def execVoteAll (x : Pfx) (d p : PReg) (n : Bool) (s : State) : Host.Outcome State Fault Refusal :=
  voteUnit x d p (fun c => votes c p n == c.acts) s

/-- vote.uni (R129). -/
def execVoteUni (x : Pfx) (d p : PReg) (n : Bool) (s : State) : Host.Outcome State Fault Refusal :=
  voteUnit x d p (fun c => votes c p n == c.acts || votes c p n == 0) s

end Sys2Proof.Machine
end

