-- ==== Sys2Proof/Machine/Cvt.lean ====
section
/-! DEFINITION. Conversions, packing and unpacking: majors 0x30 to 0x34 (R138 to R141). -/

namespace Sys2Proof.Machine

/-- The floating format of a conversion format; none for an integer type. -/
def CFmtOf : CFmt → Option Fmt
  | .int _ => none | .f32 => some .f32 | .f16 => some .f16 | .bf16 => some .bf16 | .f64 => some .f64
  | .fp19 => some .fp19

/-- The encoding of a floating value held in a register or pair (R53, R138). -/
def fpImageIn (f : Fmt) (v : Addr) : Nat :=
  match f with | .fp19 => v.toNat / 2 ^ 13 % 2 ^ 19 | f => v.toNat % 2 ^ f.bits

/-- The register image of an encoding (R53, R138). -/
def fpImageOut (f : Fmt) (code : Nat) : Addr :=
  match f with | .fp19 => BitVec.ofNat 64 (code * 2 ^ 13) | _ => BitVec.ofNat 64 code

/-- The mode of cvt and cvt.pack. -/
def cvtMode (c : UnitCtx) : CvtMode → RMode
  | .ctl => c.mode | .rne => .rne | .rz => .rz | .rd => .rd | .ru => .ru

/-- Into an integer's range (R138). -/
def clampTo (t : IType) (v : Int) : Int := max (intMin t.bits t.signed) (min (intMax t.bits t.signed) v)

/-- One conversion (R138): the image of the result and its flags. -/
def convert (mode : RMode) (draw : Nat) (src dst : CFmt) (v : Addr) : Addr × Word :=
  match src, dst with
  | .int s, .int d => (intOut d (clampTo d (intIn s v)), 0)
  | .int s, dst =>
    match CFmtOf dst with
    | some f => let r := roundFp f mode draw (.ofInt (intIn s v)); (fpImageOut f r.1, r.2)
    | none => (0, 0)
  | src, .int d =>
    match CFmtOf src with
    | some f => let r := roundIntTo d.bits d.signed mode draw (decodeFp f (fpImageIn f v)); (intOut d r.1, r.2)
    | none => (0, 0)
  | src, dst =>
    match CFmtOf src, CFmtOf dst with
    | some f, some g => let r := (exAlone f (fpImageIn f v)).round g mode draw; (fpImageOut g r.1, r.2)
    | _, _ => (0, 0)

/-- Whether shadows go with the conversion: float to float alone (R138). -/
def convertsTangents (src dst : CFmt) : Bool := (CFmtOf src).isSome && (CFmtOf dst).isSome

/-- A conversion of one lane, tangents under the primal's rounding and draw (R138, R139). -/
def cvtLane (mode : RMode) (draw : Nat) (src dst : CFmt) (d a : Reg) (c : UnitCtx) (l : Nat) : LaneOut :=
  dualOut c l dst.wide d (convert mode draw src dst (c.val l src.wide a)) (fun k =>
    if convertsTangents src dst then convert mode draw src dst (c.gang.regN src.wide (k + 1) l a.toNat) else (0, 0))

def execCvt (x : Pfx) (d a : Reg) (m : CvtMode) (src dst : CFmt) (s : State) : Host.Outcome State Fault Refusal :=
  issueUnit x { needSeed dst.wide (regsOf src.wide a) (regsOf dst.wide d) with
      shadows := if convertsTangents src dst then regsOf src.wide a else [] } (laneUnit (fun c l =>
    cvtLane (cvtMode c m) 0 src dst d a c l)) s

/-- The draw of R66 for element j of a lane's results. -/
def cvtDraw (c : UnitCtx) (l : Nat) (b : Reg) (j : Nat) : Nat :=
  (mix32 (c.seed.setWidth 64) (BitVec.ofNat 64 ((c.word l b).toNat * 8 + j))).toNat

def execCvtSr (x : Pfx) (d a b : Reg) (dst : CFmt) (s : State) : Host.Outcome State Fault Refusal :=
  issueUnit x { needRW [a.toNat, b.toNat] [d.toNat] with
      shadows := if convertsTangents .f32 dst then [a.toNat] else [] } (laneUnit (fun c l =>
    cvtLane .sr (cvtDraw c l b 0) .f32 dst d a c l)) s

/-- The floating format of a pack format; for an integer one its width and signedness. -/
def packFmt : PFmt → Fmt ⊕ (Nat × Bool)
  | .f16 => .inl .f16 | .bf16 => .inl .bf16 | .fp8e4 => .inl .fp8e4 | .fp8e5 => .inl .fp8e5 | .fp6e3 => .inl .fp6e3
  | .fp6e2 => .inl .fp6e2 | .fp4 => .inl .fp4 | .i8 => .inr (8, true) | .n8 => .inr (8, false) | .i4 => .inr (4, true)
  | .n4 => .inr (4, false)

/-- Element j of a pack: its bits and flags (R140). -/
def packElt (p : PFmt) (mode : RMode) (draw : Nat) (v : Word) : Nat × Word :=
  match packFmt p with
  | .inl f => (exAlone .f32 v.toNat).round f mode draw
  | .inr (n, sg) =>
    let r := roundIntTo n sg mode draw (decodeFp .f32 v.toNat)
    ((BitVec.ofInt n r.1).toNat, r.2)

/-- A packed register (R53, R140). -/
def packWord (p : PFmt) (mode : RMode) (draw : Nat → Nat) (src : Nat → Word) : Word × Word :=
  (List.range p.count).foldl (fun r j =>
    let y := packElt p mode (draw j) (src j)
    (r.1 + BitVec.ofNat 32 (y.1 * 2 ^ (p.bits * j)), r.2 ||| y.2)) (0, 0)

/-- cvt.pack of one lane; shadow k is packed from the shadows k with the same draws (R140). A group at g0 reads as zero in
every part (R20). -/
def packLane (p : PFmt) (mode : RMode) (draw : Nat → Nat) (d a : Reg) (c : UnitCtx) (l : Nat) : LaneOut :=
  let src (plane j : Nat) := if a = 0 then 0 else c.gang.reg plane l (a.toNat + j)
  let y := packWord p mode draw (src 0)
  let ts := (List.range c.t).map (fun k => (k, packWord p mode draw (src (k + 1))))
  { regs := c.gang.wr 0 l d.toNat y.1 ++ ts.flatMap (fun s => c.gang.wr (s.1 + 1) l d.toNat s.2.1)
    flags := y.2
    tflags := ts.foldl (fun f s => f ||| s.2.2) 0 }

def execCvtPack (x : Pfx) (d a : Reg) (m : CvtMode) (p : PFmt) (s : State) : Host.Outcome State Fault Refusal :=
  issueUnit x (needMove (groupOf p.count a) [d.toNat]) (laneUnit (fun c l =>
    packLane p (cvtMode c m) (fun _ => 0) d a c l)) s

def execCvtPackSr (x : Pfx) (d a b : Reg) (p : PFmt) (s : State) : Host.Outcome State Fault Refusal :=
  issueUnit x { needRW (groupOf p.count a ++ [b.toNat]) [d.toNat] with shadows := groupOf p.count a } (laneUnit (fun c l =>
    packLane p .sr (cvtDraw c l b) d a c l)) s

/-- Element j of a packed register as fp32 (R141): exact; a NaN is the canonical one. -/
def unpackElt (p : PFmt) (v : Word) (j : Nat) : Nat × Word :=
  let code := v.toNat / 2 ^ (p.bits * j) % 2 ^ p.bits
  match packFmt p with
  | .inl f => (exAlone f code).round .f32 .rne 0
  | .inr (n, sg) =>
    roundFp .f32 .rne 0 (.ofInt (if sg then (BitVec.ofNat n code).toInt else (code : Int)))

/-- cvt.unpack (R141); a group at g0 is not written (R20). -/
def execCvtUnpack (x : Pfx) (d a : Reg) (p : PFmt) (s : State) : Host.Outcome State Fault Refusal :=
  issueUnit x (needMove [a.toNat] (groupOf p.count d)) (laneUnit (fun c l =>
    let el (plane j : Nat) := unpackElt p (c.gang.reg plane l a.toNat) j
    let places := (List.range (c.t + 1)).flatMap (fun plane => (List.range p.count).map (fun j => (plane, j)))
    { regs := if d = 0 then [] else places.flatMap (fun q => c.gang.wr q.1 l (d.toNat + q.2) (BitVec.ofNat 32 (el q.1 q.2).1))
      flags := (List.range p.count).foldl (fun f j => f ||| (el 0 j).2) 0
      tflags := places.foldl (fun f q => if q.1 = 0 then f else f ||| (el q.1 q.2).2) 0 })) s

end Sys2Proof.Machine
end

