-- ==== Sys2Proof/Machine/Sync.lean ====
section
/-! DEFINITION. Fences (R198 to R202), phase closes (R311, R312, R391), named barriers (R203 to R206), reduction rounds
and supersteps (R195, R196, R207), the agreements of a span (R394), control packets at a core (R389) and the slices'
requests and replies (R390). -/

namespace Sys2Proof.Machine

/-! ## Phases and closes (R311, R312, R391) -/

/-- Whether a destination is one that a path mask names. -/
def maskHolds (m : BitVec 6) (dest : Nat) : Bool := if dest < 128 then m.getLsbD maskG else m.getLsbD maskPS

/-- The next phase value still has an entry that has not matched (R391). -/
def phaseBusy (s : State) (g : Gang) : Bool :=
  let mine (e : CloseEntry) : Bool := e.gang == g.id && e.phase == g.phase + 1
  s.slices.closes.any mine || s.slices.stalled.any mine || s.slices.closing.any mine

/-- Close the gang's phase: a close to every destination it touched; the fence waits for those of its mask. -/
def State.closePhase (s : State) (core slot : Nat) (wait : Nat → Bool) : State :=
  match s.gangAt core slot with
  | none => s
  | some g =>
    let es := g.sent.map (fun e =>
      { dest := e.1, gang := g.id, phase := g.phase, close := some e.2, fence := wait e.1 : CloseEntry })
    let s := { s with slices := { s.slices with closing := s.slices.closing ++ es } }
    s.modGang core slot (fun g => { g with phase := g.phase + 1, sent := [] })

/-- Closes of a crew's gangs that have not matched. -/
def State.closesOf (s : State) (c : Crew) : Bool :=
  let mine (e : CloseEntry) : Bool := c.gangs.any (fun g => g.2.id == e.gang)
  s.slices.closes.any (fun e => mine e && e.close.isSome) || s.slices.closing.any mine || s.slices.completions.any mine

/-- A close reaches its destination: it matches the writes counted there, or waits for them (R312); one that needs an entry of
a full table lets the others go first (R391). -/
def execPhaseClose (s : State) : Host.Outcome State Fault Refusal :=
  match s.slices.closing.find? s.slices.takes with
  | none => .next s
  | some e => .next ({ s with slices := { s.slices with closing := s.slices.closing.erase e }.close e }.askCloses e.dest)

/-- A close completion reaches the gang (R312). -/
def execCloseCompletion (s : State) : Host.Outcome State Fault Refusal :=
  match s.slices.completions with
  | [] => .next s
  | e :: es =>
    let s := { s with slices := { s.slices with completions := es } }
    match s.findGang e.gang with
    | some p =>
      if e.fence then
        .next (s.modGang p.1 p.2 (fun g => { g with fence := g.fence.map (fun f => { f with closes := f.closes - 1 }) }))
      else .next s
    | none => .next s

/-! ## Fences -/

/-- What a rollback to this unit's end would restore (R202). -/
def checkpoint (c : UnitCtx) (g : Gang) : Checkpoint :=
  { fibres := (g.modLanes c.mask (fun _ f =>
      { f with pc := c.nextPc, hold := none, safe := none, arrived := false })).fibres
    regs := g.regs, layouts := g.layouts, ctl := g.ctl, bankdeg := g.bankdeg, tanstride := g.tanstride
    handler := g.handler }

/-- fence (R198 to R201): it completes in the background. It acts among the observers of its scope (R314). Host-mapped
writes are performed when they issue, so a release at system scope waits for no host-link completion (R312, log 118). -/
def fenceUnit (x : Pfx) (kind : FenceKind) (scope : Scope) (m : BitVec 6) (s : State) :
    Host.Outcome State Fault Refusal :=
  issueUnit x { stall := true } (fun c s =>
    if c.acts = 0 then .done s
    else if kind != .acq && phaseBusy s c.gang then .hold .phaseBusy s
    else
      let waits := if kind == .acq then 0 else (c.gang.sent.filter (fun e => maskHolds m e.1)).length
      let s := if kind == .acq then s else s.closePhase c.core c.slot (maskHolds m)
      let s := if kind != .rel && m.getLsbD maskRO then s.modCore c.core (fun k => { k with ro := [] }) else s
      let s := if kind == .rel then s else s.acquireScope c.core c.slot scope
      .done (s.modGang c.core c.slot (fun g =>
        { g with fence := some { kind := kind, scope := scope, paths := m, closes := waits, upTo := s.engineOps,
                                 back := checkpoint c g } }))) s

def execFenceFull (x : Pfx) (sc : Scope) (m : BitVec 6) (s : State) : Host.Outcome State Fault Refusal :=
  fenceUnit x .full sc m s
def execFenceAcq (x : Pfx) (sc : Scope) (m : BitVec 6) (s : State) : Host.Outcome State Fault Refusal :=
  fenceUnit x .acq sc m s
def execFenceRel (x : Pfx) (sc : Scope) (m : BitVec 6) (s : State) : Host.Outcome State Fault Refusal :=
  fenceUnit x .rel sc m s

/-- Engine operations of the gang issued before the fence that have yet to read their sources (R200). -/
def engineUnread (c : Crew) (slot upTo : Nat) : Bool :=
  c.matq.any (fun m => m.slot == slot && decide (m.num < upTo)) ||
  c.copies.any (fun o => o.slot == slot && decide (o.num < upTo) && !o.planned) ||
  (match c.stream with | some t => t.slot == slot && decide (t.num < upTo) | none => false)

/-- Those that have yet to complete. -/
def engineBusy (c : Crew) (slot upTo : Nat) : Bool :=
  engineUnread c slot upTo || c.copies.any (fun o => o.slot == slot && decide (o.num < upTo))

/-- A fence's conditions hold (R199, R200). -/
def fenceReady (c : Crew) (slot : Nat) (g : Gang) (f : FenceSt) : Bool :=
  f.closes == 0 &&
  (f.kind == .rel || !f.paths.getLsbD maskHM || g.hostReads.isEmpty) &&
  (!f.paths.getLsbD maskEN || (if f.kind == .rel then !engineUnread c slot f.upTo else !engineBusy c slot f.upTo))

/-- The group whose trap waits for the fence: the lanes at the PC and window of the trap's lane. -/
def lateGroup (g : Gang) (t : Trap) : BitVec 64 × Addr :=
  let o := g.fibre t.lane
  (maskWhere (fun l => (g.fibre l).live && (g.fibre l).hold == some .lateTrap && (g.fibre l).pc == o.pc &&
    (g.fibre l).wbase == o.wbase), o.pc)

/-- A fence completes: its buffered writes are in, its flags are raised, and a trap raised past it is delivered
(R167, R201). The read-only lines that other gangs have brought in meanwhile are dropped too (R199). -/
def execFenceComplete (core slot : Nat) (s : State) : Host.Outcome State Fault Refusal :=
  match s.crewAt core with
  | none => .next s
  | some c =>
    match c.gangs.find slot with
    | none => .next s
    | some g =>
      match g.fence with
      | none => .next s
      | some f =>
        if !fenceReady c slot g f then .next s
        else
          let s := s.raiseFlags core (squadOf slot) f.fl f.tfl
          let s := if f.kind == .rel then s else s.acquireScope core slot f.scope
          let s := if f.kind != .rel && f.paths.getLsbD maskRO then s.modCore core (fun k => { k with ro := [] }) else s
          let s := s.modGang core slot (fun g => { g with fence := none, late := none })
          match g.late with
          | none => .next s
          | some t =>
            let q := lateGroup g t
            let s := s.modGang core slot (fun g => { g with fibres := g.fibres.map (fun f =>
              if f.hold == some .lateTrap then { f with hold := none } else f) })
            .next (takeTrap core slot q.1 q.2 t s)

/-- Roll a gang back to its fence (R202). -/
def rollback (now : Nat) (g : Gang) : Gang :=
  match g.fence with
  | none => g
  | some f =>
    { g with
      fibres := f.back.fibres.map (fun b => { b with since := now })
      regs := f.back.regs, layouts := f.back.layouts, ctl := f.back.ctl, bankdeg := f.back.bankdeg,
      tanstride := f.back.tanstride, handler := f.back.handler
      pending := f.pends.foldl List.erase g.pending
      late := none
      fence := some { f with lines := [], writes := 0, rollbacks := f.rollbacks + 1, fl := 0, tfl := 0, pends := [] } }

/-! ## Control packets (R389) -/

/-- Drop a core's copies of a line whose view is the one named or lies below it. -/
def dropLine (s : State) (core line view : Nat) : State :=
  s.modCore core (fun k => { k with l1 := k.l1.filter (fun e => e.line != line || !(s.chain e.view).contains view) })

/-- The control packet that a core's interface takes now: the head of its buffer, one in a cycle (R389). -/
def Core.ctlHead (k : Core) (now : Nat) : Option CtlMsg := if k.ctlAt = some now then none else k.ctl.head?

/-- The control packet at the head of a core's interface has been taken. -/
def State.dropCtl (s : State) (core : Nat) : State :=
  s.modCore core (fun k => { k with ctl := k.ctl.drop 1, ctlAt := some s.clock.toNat })

/-- Act on the control packet that a core's interface takes. -/
def ctlEvent (core : Nat) (f : State → CtlMsg → Option State) (s : State) : Host.Outcome State Fault Refusal :=
  match (s.coreAt core).ctlHead s.clock.toNat with
  | none => .next s
  | some m => match f (s.dropCtl core) m with | some t => .next t | none => .next s

/-- Roll back the gangs of a core that read a line past their fences (R202, R309). -/
def rollbackReaders (core line : Nat) (s : State) : State :=
  s.modCrew core (fun c => { c with gangs := c.gangs.mapVals (fun g =>
    match g.fence with
    | some f => if f.lines.contains line then rollback s.clock.toNat g else g
    | none => g) })

/-- A lease break: the core's copy is dropped, and readers past a fence roll back (R202, R308). -/
def execLeaseBreak (core : Nat) (s : State) : Host.Outcome State Fault Refusal :=
  ctlEvent core (fun s m => match m with
    | .leaseBreak line view => some (rollbackReaders core line (dropLine s core line view))
    | _ => none) s

/-- A view retag: the world's core drops its copies of the parent's line (R315). -/
def execViewRetag (core : Nat) (s : State) : Host.Outcome State Fault Refusal :=
  ctlEvent core (fun s m => match m with
    | .viewRetag line view => some (rollbackReaders core line (dropLine s core line view))
    | _ => none) s

/-- Entries a shootdown drops (R177): those of a context, or those that cover an address; all when neither is named. -/
def shotDown (ctx : Option Nat) (va : Option Addr) (e : TlbEntry) : Bool :=
  match ctx, va with
  | some c, some a => e.covers c (a.toNat % 2 ^ 56)
  | some c, none => e.ctx == c
  | none, _ => true

/-- Drop read-only lines of a core that lie in any of the pages, each a first address and a shift. -/
def Core.dropPages (k : Core) (ps : List (Nat × Nat)) : Core :=
  { k with ro := k.ro.filter (fun e => !(ps.any (fun p => e.line * 128 / 2 ^ p.2 == p.1 / 2 ^ p.2))) }

/-- Whether a core holds, or is bound to, a crew of the context. -/
def coreOfCtx (s : State) (ctx core : Nat) : Bool :=
  let isOf (c : Crew) : Bool := match s.launchOf c.launch with | some l => l.rcd.ctx == ctx | none => false
  (match s.crewAt core with | some c => isOf c | none => false) ||
    s.parked.any (fun p => p.bound && p.core == core && isOf p.crew)

/-- The read-only lines of a core that a shootdown drops (R177): those in the pages of the entries it drops, every line of
a core that holds a crew of the context, or every line. -/
def State.shotLines (s : State) (core : Nat) (ctx : Option Nat) (va : Option Addr) (k : Core) : Core :=
  match ctx, va with
  | some _, some _ => k.dropPages ((k.tlb.filter (shotDown ctx va)).map (fun (e : TlbEntry) => (e.frame, e.shift)))
  | some c, none => if coreOfCtx s c core then { k with ro := [] } else k
  | none, _ => { k with ro := [] }

/-- A TLB shootdown: the matching L1 entries are dropped, with the core's read-only lines; its leaving the queue is the
acknowledgement (R177). -/
def execTlbShootdown (core : Nat) (s : State) : Host.Outcome State Fault Refusal :=
  ctlEvent core (fun s m => match m with
    | .shootdown ctx va => some (s.modCore core (fun k =>
        { s.shotLines core ctx va k with tlb := k.tlb.filter (fun e => !shotDown ctx va e) }))
    | _ => none) s

/-- A close request: the named gang's phase is closed as an implicit release, halted or not (R391). -/
def execCloseRequest (core : Nat) (s : State) : Host.Outcome State Fault Refusal :=
  ctlEvent core (fun s m => match m with
    | .closeRequest slot gang =>
      some (if (s.gangAt core slot).any (fun g => g.id == gang) then s.closePhase core slot (fun _ => false) else s)
    | _ => none) s

/-! ## Slices (R390) -/

/-- The line of a request, and its slice (R298). -/
def SliceReq.line : SliceReq → Nat
  | .load _ _ line _ _ => line
  | .write _ _ _ _ bytes => lineOf ((bytes.headD (0, 0)).1)
def SliceReq.slice (r : SliceReq) : Nat := homeSlice (r.line * 128)

def SliceReq.isLoad : SliceReq → Bool
  | .load _ _ _ _ _ => true
  | .write _ _ _ _ _ => false

/-- Miss entries of a slice (R390). -/
def missEntries : Nat := 64

/-- A miss entry waits for the line. -/
def Slices.misses (q : Slices) (line : Nat) : Bool := q.missing.any (fun r => r.line == line)

/-- A slice has a miss entry free. -/
def Slices.missRoom (q : Slices) (slice : Nat) : Bool :=
  decide ((((q.missing.filter (fun r => r.slice == slice)).map SliceReq.line).eraseDups).length < missEntries)

/-- What a slice does with a request: serve it, put it behind a miss entry, or leave it in its buffer (R390). An engine's write
brings its line with it (log 137). -/
inductive SliceTurn where
  | serve | queue | stay
deriving DecidableEq, Repr

def Slices.turn (q : Slices) (r : SliceReq) : SliceTurn :=
  if q.misses r.line then .queue
  else if !r.isLoad || q.resident.contains r.line then .serve
  else if q.missRoom r.slice then .queue else .stay

/-- The first request of a class that its slice can take: it heads its buffer there (R390). -/
def Slices.pick (q : Slices) (load : Bool) : Option Nat :=
  (List.range q.requests.length).find? (fun i =>
    match q.requests[i]? with
    | some r => r.isLoad == load && q.turn r != .stay &&
        !(q.requests.take i).any (fun o => o.isLoad == load && o.slice == r.slice)
    | none => false)

/-- A request is taken from its buffer; it is served, or it queues behind a miss entry. -/
def takeRequest (load : Bool) (serve : SliceReq → State → State) (s : State) : Host.Outcome State Fault Refusal :=
  match s.slices.pick load with
  | none => .next s
  | some i =>
    match s.slices.requests[i]? with
    | none => .next s
    | some r =>
      let q := { s.slices with requests := s.slices.requests.eraseIdx i }
      match s.slices.turn r with
      | .serve => .next (serve r { s with slices := q })
      | .queue => .next { s with slices := { q with missing := q.missing ++ [r] } }
      | .stay => .next s

/-- A slice serves the load at the head of its requests where the line is there, else the load takes a miss entry. -/
def execSliceLoad (s : State) : Host.Outcome State Fault Refusal :=
  takeRequest true (fun r s =>
    match r with
    | .load core slot line view pts =>
      let r := s.sliceLoad view line pts
      let data := r.1.lineData view line
      { r.1 with slices := { r.1.slices with
          replies := r.1.slices.replies ++ [.line core slot line view r.2.1 r.2.2 data] } }
    | _ => s) s

/-- A slice performs an engine's write: slice_write of R307, and its acknowledgement. It is ordered after everything performed
so far (log 139). -/
def execSliceWrite (s : State) : Host.Outcome State Fault Refusal :=
  takeRequest false (fun r s =>
    match r with
    | .write core copy view pts bytes =>
      let r := s.storeBytes view (max pts s.ltime) bytes
      { r.1 with slices := { r.1.slices with
          replies := r.1.slices.replies ++ [SliceReply.ack core copy r.2] } : State }.noteWrite core 4 r.2
    | _ => s) s

/-- The oldest miss is filled from HBM; the requests that queued behind its entry are served in their order, ahead of the
others. -/
def execSliceMissFill (s : State) : Host.Outcome State Fault Refusal :=
  match s.slices.missing with
  | [] => .next s
  | r :: _ =>
    let mine (o : SliceReq) : Bool := o.line == r.line
    let q := s.slices.bringIn r.line
    .next { s with slices := { q with
      missing := q.missing.filter (fun o => !mine o), requests := q.missing.filter mine ++ q.requests } }

/-- A line comes back: it fills the L1 that now holds it for the core (R299, R307). -/
def execLoadReply (s : State) : Host.Outcome State Fault Refusal :=
  match s.slices.replies with
  | .line core _ line view wts rts data :: rs =>
    let s := { s with slices := { s.slices with replies := rs } }
    let core := s.ownerAt core line
    -- a copy whose line has been written since is not installed
    if (s.timeOf view line).wts > wts then .next s
    else
      .next (s.modCore core (fun k =>
        { k with l1 := ({ line := line, view := view, wts := wts, rts := rts, data := data } ::
            k.l1.filter (fun e => e.line != line || e.view != view)).take Config.l1Lines }))
  | _ => .next s

/-- A write is acknowledged to the engine that sent it. -/
def execWriteAck (s : State) : Host.Outcome State Fault Refusal :=
  match s.slices.replies with
  | .ack core copy wts :: rs =>
    let s := { s with slices := { s.slices with replies := rs } }
    .next (s.modCrew core (fun c => { c with copies := c.copies.map (fun o =>
      if o.num == copy then { o with acks := o.acks - 1, pts := max o.pts wts } else o) }))
  | _ => .next s

/-! ## Named barriers (R204 to R206) -/

/-- Lanes of the unit whose arrival has not been counted. -/
def freshLanes (c : UnitCtx) : BitVec 64 := maskWhere (fun l => c.acts.getLsbD l && !(c.gang.fibre l).arrived)

/-- The arrival step of bar.arrive and bar.sync. -/
def barrierArrive (c : UnitCtx) (n : Nat) (count : Option Nat) (k : Nat) (s : State) : State :=
  let ph := (c.crew.barrier n).ph
  let s := s.closePhase c.core c.slot (fun _ => false)
  let s := s.modCrew c.core (fun cr =>
    let b := cr.barrier n
    cr.setBarrier n ({ b with expc := count.getD b.expc, arr := b.arr + k } : Barrier).check)
  s.modGang c.core c.slot (fun g =>
    { g with wp := if ph then g.wp ||| (1#32 <<< n) else g.wp &&& ~~~(1#32 <<< n) })

/-- A barrier unit that finds its object in error makes cause 0x10 pending, with the object's address, and does nothing else
(R316, log 108). -/
def onObject (c : UnitCtx) (n : Nat) (act : State → Act) (s : State) : Act :=
  let a := 0x2000000000080000#64 + BitVec.ofNat 64 (16 * n)
  if c.acts != 0 && s.poisoned c.core 0 (.bar c.core (0x80000 + 16 * n)) 16 then
    .done ((s.addUnitPend c { cause := 0x10, addr := a, at_ := .safePoint }).padError c.core a)
  else act s

/-- The count operand: absent where a = 0. -/
def barrierCount (c : UnitCtx) (a : Reg) : Option Nat := if a = 0 then none else some (c.word c.low a).toNat

/-- A count outside 1..4096 is illegal (R204). -/
def countOk : Option Nat → Bool
  | none => true
  | some n => decide (1 ≤ n) && decide (n ≤ 4096)

def execBarArrive (x : Pfx) (a : Reg) (n : BitVec 5) (s : State) : Host.Outcome State Fault Refusal :=
  issueUnit x { regs := [a.toNat], stall := true } (fun c => onObject c n.toNat (fun s =>
    if c.acts = 0 then .done s
    else if !countOk (barrierCount c a) then .trap { cause := 1, lane := c.low } 0
    else if phaseBusy s c.gang then .hold .phaseBusy s
    else .done (barrierArrive c n.toNat (barrierCount c a) (lanesOf c.acts).length s))) s

/-- The wait of bar.wait and bar.sync (R204, R205): the lanes whose phase has passed go on, as an acquire, and the others
are held. p is the phase that a lane waits to see the end of, and before is PH as the unit found it. -/
def barrierWait (c : UnitCtx) (n : Nat) (p : Nat → Bool) (before : Bool) (s : State) : Act :=
  match s.crewAt c.core with
  | none => .done s
  | some cr =>
    let ph := (cr.barrier n).ph
    let gone := maskWhere (fun l => c.mask.getLsbD l && (p l != ph || p l != before))
    if gone = c.mask then .done (s.acquire c.core c.slot)
    else if gone = 0 then .hold (.phase n ph) s
    else .part gone (.phase n ph) (s.acquire c.core c.slot)

/-- The phase that a lane held in a barrier unit waits to see the end of; otherwise a given one. -/
def heldPhase (c : UnitCtx) (l : Nat) (p : Bool) : Bool :=
  match (c.gang.fibre l).hold with | some (.phase _ q) => q | _ => p

def execBarWait (x : Pfx) (a : Reg) (n : BitVec 5) (s : State) : Host.Outcome State Fault Refusal :=
  issueUnit x { regs := [a.toNat], stall := true } (fun c => onObject c n.toNat (fun s =>
    if c.acts = 0 then .done s
    else
      let p := if a = 0 then c.gang.wp.getLsbD n.toNat else (c.word c.low a).getLsbD 0
      barrierWait c n.toNat (fun l => heldPhase c l p) (c.crew.barrier n.toNat).ph s)) s

/-- bar.sync: each fibre's arrival once, then its wait with the phase it found (R204, R206). -/
def execBarSync (x : Pfx) (a : Reg) (n : BitVec 5) (s : State) : Host.Outcome State Fault Refusal :=
  issueUnit x { regs := [a.toNat], stall := true } (fun c => onObject c n.toNat (fun s =>
    let fresh := freshLanes c
    let ph := (c.crew.barrier n.toNat).ph
    let p (l : Nat) : Bool := heldPhase c l (if (c.gang.fibre l).arrived then c.gang.wp.getLsbD n.toNat else ph)
    if c.acts = 0 then .done s
    else if fresh = 0 then barrierWait c n.toNat p ph s
    else if !countOk (barrierCount c a) then .trap { cause := 1, lane := c.low } 0
    else if phaseBusy s c.gang then .hold .phaseBusy s
    else
      let s := barrierArrive c n.toNat (barrierCount c a) (lanesOf fresh).length s
      barrierWait c n.toNat p ph (s.modGang c.core c.slot (fun g =>
        g.modLanes c.acts (fun _ f => { f with arrived := true }))))) s

def execBarExpect (x : Pfx) (a : Reg) (n : BitVec 5) (s : State) : Host.Outcome State Fault Refusal :=
  issueUnit x { regs := [a.toNat], stall := true } (fun c => onObject c n.toNat (fun s =>
    if c.acts = 0 || a = 0 then .done s
    else .done (s.modCrew c.core (fun cr =>
      let b := cr.barrier n.toNat
      cr.setBarrier n.toNat ({ b with expb := (b.expb + (c.word c.low a).toNat) % 2 ^ 32 } : Barrier).check)))) s

/-! ## Agreements of a span (R394) -/

/-- Children of a rank in the canonical tree. -/
def treeChildren (spanw r : Nat) : List Nat := [2 * r + 1, 2 * r + 2].filter (fun k => decide (k < spanw))

/-- Kinds by number: a message of the tree carries its kind in the two low bits of its value (log 46). -/
def Agreement.code : Agreement → Nat
  | .superstep => 0 | .round => 1 | .calm => 2 | .ending => 3
def Agreement.ofCode (n : Nat) : Agreement :=
  match n % 4 with | 0 => .superstep | 1 => .round | 2 => .calm | _ => .ending

def treeKey (launch : Nat) (kind : Agreement) : Nat := launch * 4 + kind.code

def State.tree (s : State) (launch : Nat) (kind : Agreement) : Tree := s.span.trees.get {} (treeKey launch kind)

/-- With its own value and every child's, a rank combines them in this order: its own, child 2r + 1's, child 2r + 2's. They are
added (log 46). -/
def Tree.combine (kids : List Nat) (t : Tree) : Tree :=
  match t.own with
  | none => t
  | some v =>
    if t.forwarded.isNone && kids.all (fun k => (t.values.find k).isSome) then
      { t with forwarded := some (kids.foldl (fun n k => (n + t.values.get 0 k) % 2 ^ 64) v) }
    else t

/-- The outcome of an agreement at a rank: its own result at rank 0, elsewhere what the parent has sent. -/
def Tree.outcome (rank : Nat) (t : Tree) : Option Nat := if rank = 0 then t.forwarded else t.values.find ((rank - 1) / 2)

/-- What a rank sends as its tree goes from one state to another: its result to its parent, the outcome to its children. -/
def treeSends (launch spanw rank : Nat) (kind : Agreement) (t u : Tree) : List TreeMsg :=
  let up := if rank != 0 && t.forwarded.isNone then
      u.forwarded.toList.map (fun v => { rank := (rank - 1) / 2, launch := launch, kind := kind, value := v : TreeMsg })
    else []
  let down := if (t.outcome rank).isNone then
      (u.outcome rank).toList.flatMap (fun v => (treeChildren spanw rank).map (fun k =>
        { rank := k, launch := launch, kind := kind, value := v : TreeMsg }))
    else []
  up ++ down

/-- Change the state of an agreement, and send what that asks for. -/
def State.setTree (s : State) (l : Launch) (kind : Agreement) (t : Tree) : State :=
  let r := s.span.rank.toNat
  let u := t.combine (treeChildren l.rcd.spanw r)
  { s with span := { s.span with
      trees := s.span.trees.put (treeKey l.num kind) u
      out := s.span.out ++ treeSends l.num l.rcd.spanw r kind (s.tree l.num kind) u } }

/-- Every package of the launch has agreed: the outcome is 0. -/
def State.agreed (s : State) (l : Launch) (kind : Agreement) : Bool :=
  decide (l.rcd.spanw ≤ 1) || (s.tree l.num kind).outcome s.span.rank.toNat == some 0

/-- The package gives its own value to an agreement, once; one on which the packages have not agreed begins again. -/
def State.offer (s : State) (l : Launch) (kind : Agreement) (v : Nat) : State :=
  let t := s.tree l.num kind
  if l.rcd.spanw ≤ 1 then s
  else if t.own.isNone then s.setTree l kind { t with own := some v }
  else if (t.outcome s.span.rank.toNat).any (· != 0) then
    { s with span := { s.span with trees := s.span.trees.erase (treeKey l.num kind) } }
  else s

/-- An agreement has been used up. -/
def State.endAgreement (s : State) (launch : Nat) (kind : Agreement) : State :=
  { s with span := { s.span with trees := s.span.trees.erase (treeKey launch kind) } }

/-- A launch has ended, and its agreements with it. -/
def State.endAgreements (s : State) (launch : Nat) : State :=
  { s with span := { s.span with trees := s.span.trees.filter (fun e => e.1 / 4 != launch) } }

/-- Do what the packages of a launch's span do together, once they have agreed; until then this one's value is given (R394). -/
def withAgreement (launch : Nat) (kind : Agreement) (alone : Bool) (v : Nat) (act : State → State) (s : State) :
    Host.Outcome State Fault Refusal :=
  match s.launchOf launch with
  | none => .next s
  | some l =>
    if alone then .next (act s)
    else if s.agreed l kind then .next ((act s).endAgreement launch kind)
    else .next (s.offer l kind v)

/-- A message of the canonical tree: a child's value, or the outcome from the parent (R394). -/
def execTreeAgreementMessage (launch child value : Nat) (s : State) : Host.Outcome State Fault Refusal :=
  match s.launchOf launch with
  | none => .next s
  | some l =>
    let kind := Agreement.ofCode value
    let t := s.tree launch kind
    .next (s.setTree l kind { t with values := t.values.put child (value / 4) })

/-! ## Reduction rounds and supersteps (R195, R196, R207) -/

/-- Crews of a launch, running and parked. -/
def State.crewsOf (s : State) (launch : Nat) : List Crew :=
  (s.crews.vals.filter (fun c => c.launch == launch)) ++ (s.parked.map (·.crew)).filter (fun c => c.launch == launch)

/-- Every live fibre of a crew has arrived at an instruction of this kind, and none waits in a bin. -/
def Crew.allArrived (c : Crew) (a : Arrival) : Bool :=
  c.gangs.all (fun g => g.2.fibres.all (fun f =>
    !f.live || (match f.hold with | some (.arrival b _) => a == b | _ => false))) &&
  c.squads.all (fun q => q.bins.isEmpty && q.formed.isEmpty)

/-- The crew is a parent suspended in wfork: it has not arrived (R196, R207). -/
def State.suspendedParent (s : State) (launch : Nat) : Bool :=
  s.parked.any (fun p => p.crew.launch == launch && p.why == .suspended)

/-- Release every fibre of a crew held at an arrival of this kind. -/
def Crew.releaseArrivals (c : Crew) (now ltime : Nat) (a : Arrival) : Crew :=
  { c with gangs := c.gangs.mapVals (fun (g : Gang) =>
      { g with pts := max g.pts ltime : Gang }.mapFibres (fun _ f =>
        match f.hold with
        | some (.arrival b next) => if a = b then f.release now next else f
        | _ => f)) }

/-- Apply f to every crew of a launch, running or parked. -/
def State.mapCrews (s : State) (launch : Nat) (f : Crew → Crew) : State :=
  { s with
    crews := s.crews.mapVals (fun c => if c.launch == launch then f c else c)
    parked := s.parked.map (fun p => if p.crew.launch == launch then { p with crew := f p.crew } else p) }

/-- Ordered adds of a launch's round in a view that are still in a side log (R335). -/
def State.loggedAdds (s : State) (launch view : Nat) : Bool :=
  let bad (e : SideEntry) : Bool := e.launch == launch && e.view == view && e.items.any (fun i => match i with | .ordered _ _ => true | _ => false)
  s.cores.any (fun k => k.2.sideLog.any bad) || s.savedLog.any bad

/-- rclose (R196). -/
def execRclose (x : Pfx) (s : State) : Host.Outcome State Fault Refusal :=
  issueUnit x { stall := true, feature := some 5 } (fun c s =>
    joinHold c (.arrival .roundClose c.nextPc) waitFor s) s

/-- The crews whose fibres a round's close counts: the launch's, or the world's own (R196). -/
def roundCrews (s : State) (launch view : Nat) : List Crew :=
  if view = 0 then s.crewsOf launch else (s.crewsOf launch).filter (fun c => c.view == view)

/-- A round of rclose can close, as far as this package goes. -/
def State.roundReady (s : State) (launch view : Nat) : Bool :=
  match s.launchOf launch with
  | none => false
  | some _ =>
    let cs := (roundCrews s launch view).filter (fun c => view != 0 || c.depth == 0)
    cs.any (fun c => c.gangs.any (fun g => g.2.fibres.any (fun f =>
      match f.hold with | some (.arrival .roundClose _) => f.live | _ => false))) &&
    cs.all (fun c => c.allArrived .roundClose) && !(view == 0 && s.suspendedParent launch) && !s.loggedAdds launch view

/-- A round closes: its contributions are applied, and each rclose returns (R195, R196). The launch's own round closes on every
package together (R394). -/
def execRoundClose (launch view : Nat) (s : State) : Host.Outcome State Fault Refusal :=
  if !s.roundReady launch view then .next s
  else
    withAgreement launch .round (view != 0) 0 (fun s =>
      let s := s.closeRound launch view
      let now := s.clock.toNat
      let t := s.ltime
      s.mapCrews launch (fun c => if c.view == view then c.releaseArrivals now t .roundClose else c)) s

/-- sstep (R207). -/
def execSstep (x : Pfx) (s : State) : Host.Outcome State Fault Refusal :=
  issueUnit x { stall := true, feature := some 2 } (fun c s =>
    if c.acts = 0 then .done s
    else if !c.launch.rcd.flags.getLsbD 3 || c.crew.depth ≥ 1 then .trap { cause := 1, lane := c.low } 0
    else if phaseBusy s c.gang then .hold .phaseBusy s
    else joinHold c (.arrival .superstep c.nextPc) waitFor (s.closePhase c.core c.slot (fun _ => false))) s

/-- Queue packets of a launch in flight. -/
def Packet.core : Packet → Nat
  | .entry _ _ core _ _ _ => core
  | .task _ _ core _ _ _ => core
  | .succ _ core _ _ => core

/-- The launch that a packet is of: a push's or a send's crew waits on its core for the answer, and a successor record names
its launch (R243, R260). -/
def State.packetOf (s : State) (launch : Nat) : Packet → Bool
  | .succ _ _ _ n => n == launch
  | p => match s.crewAt p.core with | some c => c.launch == launch | none => false

def State.packetsOf (s : State) (launch : Nat) : Bool := s.packets.any (s.packetOf launch)

/-- A superstep of a launch can complete: every fibre has arrived, and everything issued before is performed. -/
def State.stepReady (s : State) (launch : Nat) : Bool :=
  match s.launchOf launch with
  | none => false
  | some _ =>
    let cs := s.crewsOf launch
    cs.any (fun c => c.gangs.any (fun g => g.2.fibres.any (fun f => f.live))) &&
    cs.all (fun c => c.allArrived .superstep && c.copies.isEmpty && c.matq.isEmpty && c.stream.isNone &&
      c.gangs.all (fun g => g.2.hostReads.isEmpty) && !s.closesOf c) && !s.suspendedParent launch &&
    !s.packetsOf launch && !s.loggedAdds launch 0

/-- A superstep completes: the round closes and every sstep acts as a full fence at span scope (R207). -/
def execSuperstepComplete (launch : Nat) (s : State) : Host.Outcome State Fault Refusal :=
  if !s.stepReady launch then .next s
  else
    withAgreement launch .superstep false 0 (fun s =>
      let s := s.closeRound launch 0
      let now := s.clock.toNat
      let t := s.ltime
      let mine : List Nat := (s.crews.filter (fun e => e.2.launch == launch)).map Prod.fst
      let s := mine.foldl (fun s k => s.modCore k (fun q => { q with ro := [] })) s
      s.mapCrews launch (fun c => c.releaseArrivals now t .superstep)) s

/-- A contribution arrives at its slice and is held until its round closes (R195). -/
def execOrderedAddContribution (launch view pa : Nat) (wide : Bool) (value : Addr) (key : List Nat) (core squad : Nat)
    (s : State) : Host.Outcome State Fault Refusal :=
  match s.launchOf launch with
  | none => .next s
  | some _ =>
    if pa ≥ memSize then .fault (.outsideMemory pa)
    else .next (s.contribute { launch := launch, view := view, pa := pa, wide := wide, value := value, key := key,
                               core := core, squad := squad, tangent := key.getD 6 0 != 0 })

end Sys2Proof.Machine
end

