-- ==== Sys2Proof/Machine/System.lean ====
section
/-! DEFINITION. Special registers (R33 to R45, R174, R175, R320, R321) and the privileged instructions tlbinv, ctxq
and mcheck (R176 to R179). -/

namespace Sys2Proof.Machine

/-! ## Reading a special register -/

/-- Low and high words of a 64-bit value. -/
def loWord (v : Addr) : Word := v.extractLsb' 0 32
def hiWord (v : Addr) : Word := v.extractLsb' 32 32

/-- The word at a special-register number, as a lane reads it (R33, R175). -/
def specialWord (s : State) (c : UnitCtx) (lane n : Nat) : Word :=
  let g := c.gang
  let q := c.crew.squad c.squad
  let ctx := s.ctxAt c.launch.rcd.ctx
  match n with
  | 0x00 => loWord g.ctl
  | 0x01 => hiWord g.ctl
  | 0x02 => q.flags
  | 0x03 => q.tflags
  | 0x04 => g.bankdeg
  | 0x05 => ((g.fibre lane).pred ||| 1).setWidth 32
  | 0x08 => BitVec.ofNat 32 lane
  | 0x09 => BitVec.ofNat 32 (gangRank c.slot)
  | 0x0a => BitVec.ofNat 32 c.squad
  | 0x0b => BitVec.ofNat 32 (c.core % 8)
  | 0x0c => BitVec.ofNat 32 (c.core / 8 % 8)
  | 0x0d => BitVec.ofNat 32 (c.core / 64)
  | 0x0e => s.span.rank
  | 0x10 => loWord s.clock
  | 0x11 => hiWord s.clock
  | 0x12 => BitVec.ofNat 32 c.crew.world
  | 0x13 => BitVec.ofNat 32 c.crew.depth
  | 0x14 => BitVec.ofNat 32 c.t
  | 0x16 => loWord g.tanstride
  | 0x17 => hiWord g.tanstride
  | 0x18 => g.lastnan.extractLsb' 0 32
  | 0x19 => g.lastnan.extractLsb' 32 32
  | 0x1a => g.lastnan.extractLsb' 64 32
  | 0x1b => g.lastnan.extractLsb' 96 32
  | 0x1c => g.trapcause
  | 0x1e => loWord g.trappc
  | 0x1f => hiWord g.trappc
  | 0x20 => loWord g.trapaddr
  | 0x21 => hiWord g.trapaddr
  | 0x22 => q.spillct
  | 0x24 => loWord ctx.base
  | 0x25 => hiWord ctx.base
  | 0x26 => loWord ctx.lim
  | 0x27 => hiWord ctx.lim
  | 0x28 => loWord ctx.off
  | 0x29 => hiWord ctx.off
  | _ => 0

/-- Numbers of the privileged registers (R33). -/
def privilegedNumber (n : Nat) : Bool := decide (0x24 ≤ n) && decide (n ≤ 0x29)

/-- Registers whose read waits for the gang's older write-backs past a fence (R37, R201). -/
def squadNumber (n : Nat) : Bool := n == 2 || n == 3 || n == 0x22

/-- A read or a write of %flags or %tflags waits for every older instruction of its gang to write back (R37). -/
def waitsWriteBack (c : UnitCtx) (n : Nat) : Bool := (n == 2 || n == 3) && !c.gang.destWait.isEmpty

/-- Predicates that an access to a special register names: %pred holds p1 to p15 (R175). -/
def specialPreds (n : Nat) : List Nat := if n = 5 then (List.range 15).map (· + 1) else []

/-- srd (R37, R174, R175). -/
def execSrd (x : Pfx) (d : Reg) (w : Bool) (n : BitVec 8) (s : State) : Host.Outcome State Fault Refusal :=
  issueUnit x { regs := regsOf w d, writes := regsOf w d, preds := specialPreds n.toNat, stall := squadNumber n.toNat
                priv := privilegedNumber n.toNat }
    (fun c s =>
      if waitsWriteBack c n.toNat then .hold (.pendingDest c.gang.destWait none) s
      else laneUnit (fun c l =>
        let lo := specialWord s c l n.toNat
        c.plain l w d (if w then specialWord s c l (n.toNat + 1) ++ lo else lo.setWidth 64)) c s) s

/-! ## Writing a special register -/

/-- Replace word k of a value. -/
def putWord {m : Nat} (old : BitVec m) (k : Nat) (v : Word) : BitVec m :=
  let hole := (BitVec.allOnes 32).setWidth m <<< (32 * k)
  (old &&& ~~~hole) ||| (v.setWidth m <<< (32 * k))

/-- The bits of a gang register's word that are not reserved (R10, R35, R38, R42, R43). -/
def gangMask (n : Nat) : Word :=
  match n with
  | 0x00 => 0x000001fb#32
  | 0x04 => 0x0000ffff#32
  | 0x16 => 0xfffffffc#32
  | 0x19 => 0x0000ffff#32
  | 0x1a => 0x9f7f01ff#32
  | 0x1b => 0x0000ffff#32
  | 0x1c => 0x00ff3fff#32
  | _ => 0xffffffff#32

/-- Write a word of a gang-scoped register. -/
def Gang.putSpecial (g : Gang) (n : Nat) (v : Word) : Gang :=
  let v := v &&& gangMask n
  match n with
  | 0x00 | 0x01 => { g with ctl := putWord g.ctl n v }
  | 0x04 => { g with bankdeg := v }
  | 0x16 | 0x17 => { g with tanstride := putWord g.tanstride (n - 0x16) v }
  | 0x18 | 0x19 | 0x1a | 0x1b => { g with lastnan := putWord g.lastnan (n - 0x18) v }
  | 0x1c => { g with trapcause := v }
  | 0x1e | 0x1f => { g with trappc := putWord g.trappc (n - 0x1e) v }
  | 0x20 | 0x21 => { g with trapaddr := putWord g.trapaddr (n - 0x20) v }
  | _ => g

/-- The fields of the heap registers (R320). -/
def heapBaseMask : Addr := 0x00ffffffffe00001#64
def heapLimMask : Addr := 0x00ffffffffe00000#64
def heapOffMask : Addr := 0xffffffffffe00000#64

/-- Write a heap register: EN stands only after a write of %heapbase whose checks pass (R321). -/
def State.putHeap (s : State) (ctx n : Nat) (f : Addr → Addr) : State :=
  let k := s.ctxAt ctx
  let off (k : Ctx) : Ctx := { k with base := k.base &&& ~~~1#64 }
  let k :=
    if n ≤ 0x25 then
      let k := { k with base := f k.base &&& heapBaseMask }
      if k.base.getLsbD 0 && windowOk s.window k then k else off k
    else if n ≤ 0x27 then off { k with lim := f k.lim &&& heapLimMask }
    else off { k with off := f k.off &&& heapOffMask }
  { s with ctxs := s.ctxs.put ctx k }

/-- swr of a register of gang scope or wider: words v at n, and at n + 1 where the access is wide. -/
def writeSpecial (c : UnitCtx) (w : Bool) (n : Nat) (v : Addr) (s : State) : State :=
  if n == 2 then s.modCrew c.core (fun k => k.modSquad c.squad (fun q => { q with flags := loWord v &&& 0x7f#32 }))
  else if n == 3 then s.modCrew c.core (fun k => k.modSquad c.squad (fun q => { q with tflags := loWord v &&& 0x7f#32 }))
  else if privilegedNumber n then
    s.putHeap c.launch.rcd.ctx n (fun old => if w then v else putWord old (n % 2) (loWord v))
  else
    s.modGang c.core c.slot (fun g =>
      let g := g.putSpecial n (loWord v)
      if w then g.putSpecial (n + 1) (hiWord v) else g)

/-- swr (R33, R34, R37, R174, R175). -/
def execSwr (x : Pfx) (a : Reg) (w : Bool) (n : BitVec 8) (s : State) : Host.Outcome State Fault Refusal :=
  issueUnit x { regs := regsOf w a, preds := specialPreds n.toNat, stall := true, priv := privilegedNumber n.toNat } (fun c s =>
    if waitsWriteBack c n.toNat then .hold (.pendingDest c.gang.destWait none) s
    else if c.acts = 0 then .done s
    else if n.toNat == 5 then
      .done (s.modGang c.core c.slot (fun g => g.modLanes c.acts (fun l f =>
        { f with pred := (c.word l a).setWidth 16 ||| 1#16 })))
    else .done (writeSpecial c w n.toNat (c.val c.low w a) s)) s

/-! ## tlbinv (R177) -/

/-- Pages, as a first address and a shift, whose read-only lines an invalidation drops: those of matching entries in
any TLB of the package. -/
def droppedPages (s : State) (ctx : Option Nat) (va : Option Addr) : List (Nat × Nat) :=
  let all := s.cores.flatMap (fun k => k.2.tlb) ++ s.l2tlb.flatMap (fun k => k.2)
  ((all.filter (shotDown ctx va)).map (fun e => (e.frame, e.shift))).eraseDups

/-- The page that the tables or the window map the address to. -/
def mappedPage (s : State) (ctx : Nat) (va : Addr) : List (Nat × Nat) :=
  let v := va.toNat % 2 ^ 56
  if inWindow (s.ctxAt ctx) v then [(windowPa (s.ctxAt ctx) v / 4096 * 4096, 12)]
  else match walk s ctx v .load true with | .found e => [(e.frame, e.shift)] | _ => []

/-- Drop the read-only lines that an invalidation names. -/
def dropReadOnly (own : Nat) (ctx : Option Nat) (va : Option Addr) (s : State) : State :=
  match ctx, va with
  | some _, some a =>
    let ps := droppedPages s ctx va ++ mappedPage s own a
    { s with cores := s.cores.mapVals (fun (k : Core) => k.dropPages ps) }
  | some n, none => { s with cores := s.cores.map (fun e => if coreOfCtx s n e.1 then (e.1, { e.2 with ro := [] }) else e) }
  | none, _ => { s with cores := s.cores.mapVals (fun (k : Core) => { k with ro := [] }) }

/-- Drop the matching entries of the L2 TLBs and the issuing core's L1, and send shootdowns to the others. -/
def shootDown (core : Nat) (ctx : Option Nat) (va : Option Addr) (s : State) : State :=
  let hit := shotDown ctx va
  { s with
    l2tlb := s.l2tlb.mapVals (fun (t : List TlbEntry) => t.filter (fun e => !hit e))
    cores := s.cores.map (fun e =>
      if e.1 = core then (e.1, { e.2 with tlb := e.2.tlb.filter (fun t => !hit t) })
      else if e.2.tlb.any hit then (e.1, { e.2 with ctl := e.2.ctl ++ [.shootdown ctx va] })
      else e) }

/-- A shootdown is still on its way to some core. -/
def State.shootdowns (s : State) : Bool :=
  s.cores.any (fun k => k.2.ctl.any (fun m => match m with | .shootdown _ _ => true | _ => false))

/-- tlbinv: it holds its group until every TLB of the package has dropped the entries. -/
def tlbinvUnit (x : Pfx) (a : List Nat) (check : UnitCtx → Bool) (ctx : UnitCtx → Option Nat)
    (va : UnitCtx → Option Addr) (s : State) : Host.Outcome State Fault Refusal :=
  issueUnit x { regs := a, priv := true, stall := true } (fun c s =>
    if c.acts = 0 then .done s
    else if !check c then .trap { cause := 1, lane := c.low } 0
    else
      let s := if (c.gang.fibre c.low).arrived then s
        else shootDown c.core (ctx c) (va c) (dropReadOnly c.launch.rcd.ctx (ctx c) (va c) s)
      if s.shootdowns then
        .hold .shootdown (s.modGang c.core c.slot (fun g => g.modLanes c.acts (fun _ f => { f with arrived := true })))
      else .done s) s

def execTlbinvPage (x : Pfx) (a : Reg) (s : State) : Host.Outcome State Fault Refusal :=
  tlbinvUnit x (regsOf true a) (fun _ => true) (fun c => some c.launch.rcd.ctx) (fun c => some (c.pair c.low a)) s

def execTlbinvCtx (x : Pfx) (a : Reg) (s : State) : Host.Outcome State Fault Refusal :=
  tlbinvUnit x [a.toNat] (fun c => (c.word c.low a).extractLsb' 16 16 == 0)
    (fun c => some ((c.word c.low a).extractLsb' 0 16).toNat) (fun _ => none) s

def execTlbinvAll (x : Pfx) (s : State) : Host.Outcome State Fault Refusal :=
  tlbinvUnit x [] (fun _ => true) (fun _ => none) (fun _ => none) s

/-! ## ctxq and mcheck (R178, R179) -/

/-- A pre-emption request reaches a crew (R338); one that is pending stays as it is. -/
def Crew.request (c : Crew) (now : Nat) : Crew :=
  { c with preempt := some (c.preempt.getD { since := now }) }

/-- ctxq: a request for every crew of the launch that runs; one that names no running launch is ignored. -/
def execCtxq (x : Pfx) (a : Reg) (s : State) : Host.Outcome State Fault Refusal :=
  issueUnit x { regs := [a.toNat], priv := true } (fun c s =>
    if c.acts = 0 then .done s
    else
      let n := (c.word c.low a).toNat
      .done { s with crews := s.crews.mapVals (fun (k : Crew) => if k.launch == n then k.request s.clock.toNat else k) }) s

/-- mcheck: the core's status, whose V and CORR it clears. Every acting fibre's gD takes what the one read gives
(log 60). -/
def execMcheck (x : Pfx) (d : Reg) (s : State) : Host.Outcome State Fault Refusal :=
  issueUnit x { regs := [d.toNat], writes := [d.toNat], priv := true, stall := true } (fun c s =>
    if c.acts = 0 then .done s
    else
      let v := (s.coreAt c.core).mcheck
      let s := s.modCore c.core (fun k => { k with mcheck := v &&& 0x7fff0000#32 })
      .done (writeLanes c (c.lanes.map (fun l => (l, c.plain32 l d v))) s)) s

end Sys2Proof.Machine
end

