-- ==== Sys2Proof/Machine/Gangs.lean ====
section
/-! DEFINITION. The life of a gang: its start (R14, R19, R28, R346), the segments its squad reserves (R24, R353), exit
and texit (R157, R158, R269), gangs formed from spawn bins (R155, R156, R358) and task gangs (R359). -/

namespace Sys2Proof.Machine

/-! ## Starting a gang -/

/-- Segments a gang of the launch reserves (R24). -/
def reserveOf (r : Record) : Nat := (15 + 16 * r.wreg) * ((if r.flags.getLsbD 6 then 4 else 2) + r.tang)

/-- %ctl without its reserved bits (R35, R346). -/
def ctlMask : BitVec 64 := 0xffffffff000001fb#64

/-- What a gang starts with. -/
structure Seed where
  entry : Addr
  lanes : Nat
  arg : Addr                       -- g2:g3
  record : Addr := 0               -- g4:g5
  words : List Word := []          -- g1, lane by lane
  task : Option TaskRun := none
  role : BitVec 2 := 0
  roleIndex : Option Nat := none

/-- A gang at its start: the anchors of R19 and R156, everything else at its gang-start value. -/
def startGang (l : Launch) (s : State) (d : Seed) : Gang :=
  let pair (n : Nat) (v : Addr) (lane : Nat) : List (Nat × Word) :=
    [(regKey 0 n lane, loWord v), (regKey 0 (n + 1) lane, hiWord v)]
  { fibres := (List.range 64).map (fun i => { live := decide (i < d.lanes), pc := d.entry, since := s.clock.toNat,
                                              issued := s.clock.toNat })
    regs := Map.sets 0 [] ((List.range 64).flatMap (fun i =>
      (regKey 0 1 i, d.words.getD i 0) :: (pair 2 d.arg i ++ pair 4 d.record i)))
    ctl := l.rcd.ctl &&& ctlMask
    tanstride := l.rcd.tanstride &&& ~~~3#64
    task := d.task, role := d.role, roleIndex := d.roleIndex, lastIssue := s.clock.toNat, born := s.engineOps
    id := s.gangsMade }

/-- A gang has started: the next one gets another name. -/
def State.nameGang (s : State) : State := { s with gangsMade := s.gangsMade + 1 }

/-- The lowest free slot of a squad. -/
def Crew.freeSlot (c : Crew) (squad : Nat) : Option Nat :=
  ((List.range 16).map (fun i => 4 * i + squad)).find? (fun n => (c.gangs.find n).isNone)

/-- Gangs of a squad. -/
def Crew.gangCount (c : Crew) (squad : Nat) : Nat := (c.gangs.filter (fun g => squadOf g.1 == squad)).length

/-- The squad can reserve for one more gang and has a slot for it (R24, R353). -/
def Crew.canHold (c : Crew) (r : Record) (squad : Nat) : Bool :=
  decide ((c.squad squad).reserved + reserveOf r ≤ 4096) && (c.freeSlot squad).isSome

/-- Place a gang in a slot. -/
def Crew.place (c : Crew) (r : Record) (slot : Nat) (g : Gang) : Crew :=
  (c.setGang slot g).modSquad (squadOf slot) (fun q => { q with reserved := q.reserved + reserveOf r })

/-! ## The register file of a crew that leaves its slot (R47) -/

/-- The operand buffers' modified entries are written back, and the registers leave the register file. -/
def Crew.stow (c : Crew) (now : Nat) : Crew :=
  let c := c.gangs.keys.foldl (fun c slot => flushBuffer now slot c) c
  { c with
    gangs := c.gangs.mapVals (fun (g : Gang) => { g with buffer := [], stored := [] })
    squads := c.squads.map (fun q => { q with free := [(0, 4096)] }) }

/-- Every register is stored in the register file again, in its smallest form. -/
def Crew.unstow (c : Crew) (now : Nat) : Crew :=
  c.gangs.foldl (fun (c : Crew) (e : Nat × Gang) =>
    ((e.2.regs.keys.map (· / 64)).eraseDups).foldl (fun c k => writeBack now e.1 k c) c) c

/-- Counts of cycles stand still while a crew is saved (R358, R363). -/
def Gang.shifted (g : Gang) (d : Nat) : Gang :=
  { g with fibres := g.fibres.map (fun f => { f with since := f.since + d, issued := f.issued + d }), lastIssue := g.lastIssue + d }

/-- A squad as it runs again: slot 15 counts as the last that issued (R362). -/
def Squad.resumed (d : Nat) (q : Squad) : Squad :=
  { q with lastSlot := 15, bins := q.bins.map (fun b => { b with due := b.due + d }) }

/-- The crew as it runs again d cycles after its save. Its engines walk again (R340). -/
def Crew.resumed (c : Crew) (now d : Nat) : Crew :=
  { c with gangs := c.gangs.mapVals (fun (g : Gang) => g.shifted d), squads := c.squads.map (Squad.resumed d)
           away := [] }.unstow now

/-! ## Ending a gang -/

/-- Blocks that a gang's stored registers give back (R48). -/
def Gang.blocks (g : Gang) : List (Nat × Nat) :=
  g.stored.flatMap (fun e => match e.2.at_ with | some a => blocksBack a e.2.segs | none => [])

/-- The gang ends (R48, R158): its slot, segments, buffer and layouts are released; its pending traps are discarded, and
the first is recorded for the launch's report. -/
def endGang (core slot : Nat) (s : State) : State :=
  match s.crewAt core with
  | none => s
  | some c =>
    match c.gangs.find slot, s.launchOf c.launch with
    | some g, some l =>
      let s := s.closePhase core slot (fun _ => false)
      let s := s.modLaunch c.launch (fun l =>
        { l with ndisc := l.ndisc + g.pending.length
                 cause := if l.cause = 0 then (match g.pending with | p :: _ => p.cause | [] => 0) else l.cause })
      s.modCrew core (fun c =>
        let c := c.modSquad (squadOf slot) (fun q =>
          { q with reserved := q.reserved - reserveOf l.rcd, free := g.blocks ++ q.free })
        { c with gangs := c.gangs.erase slot
                 role := if g.roleMark.isSome then {} else c.role })
    | _, _ => s

/-- What ending a task gang does for its SUCC counter (R269). -/
def taskSignal (c : UnitCtx) (s : State) : SigOut :=
  match c.gang.task with
  | none => .done s
  | some k => s.signalFor c.agent c.slot c.view k.succ 0

/-- exit and texit: every acting fibre ends (R157). -/
def exitUnit (x : Pfx) (task : Bool) (s : State) : Host.Outcome State Fault Refusal :=
  issueUnit x { stall := true } (fun c s =>
    if c.acts = 0 then .done s
    else if task && c.gang.task.isNone then .trap { cause := 1, lane := c.low } 0
    else if (c.gang.liveMask &&& ~~~c.acts) != 0 then
      .jump (s.modGang c.core c.slot (fun g =>
        (g.modLanes c.mask (fun l f =>
          if c.acts.getLsbD l then { f with live := false } else { f with pc := c.nextPc })).leaveHandler c.acts))
    else
      match taskSignal c s with
      | .done s => .jump (endGang c.core c.slot s)
      | .unusable _ => .jump (endGang c.core c.slot s)
      | .broken => .jump (stopGang c (match c.gang.task with | some k => k.succ | none => 0) s)
      | .away pages => .hold (.page c.launch.rcd.ctx (pages.map Prod.fst)) (s.postPages c.agent .engineWrite pages)) s

def execExit (x : Pfx) (s : State) : Host.Outcome State Fault Refusal := exitUnit x false s
def execTexit (x : Pfx) (s : State) : Host.Outcome State Fault Refusal := exitUnit x true s

/-! ## Spawn bins (R155, R358) -/

/-- A bin's timer reaches the timeout: its fibres form a gang. -/
def execSpawnBinTimeout (core squad : Nat) (key : Addr) (s : State) : Host.Outcome State Fault Refusal :=
  match s.crewAt core with
  | none => .next s
  | some c =>
    match (c.squad squad).bins.find? (fun b => b.key == key) with
    | none => .next s
    | some b =>
      if s.clock.toNat < b.due then .next s
      else
        .next (s.modCrew core (fun c => c.modSquad squad (fun q =>
          { q with bins := q.bins.filter (fun o => o.key != key), formed := q.formed ++ [{ entry := key, args := b.args }] })))

/-- A crew that may start gangs: its world has not ended, and its launch goes on. A crew that is to be pre-empted keeps running
until it is saved (R342). -/
def Crew.mayStart (c : Crew) (l : Launch) : Bool := c.ending.isNone && l.st == .running

/-- The oldest formed gang of a squad starts, once the squad can hold it (R353). -/
def execSpawnedGangStart (core squad : Nat) (s : State) : Host.Outcome State Fault Refusal :=
  match s.crewAt core with
  | none => .next s
  | some c =>
    match (c.squad squad).formed, c.freeSlot squad, s.launchOf c.launch with
    | f :: fs, some slot, some l =>
      if !c.canHold l.rcd squad || !c.mayStart l then .next s
      else
        let g := startGang l s
          { entry := f.entry, lanes := f.args.length, arg := l.rcd.arg, words := f.args }
        .next (s.nameGang.setCrew core ((c.place l.rcd slot g).modSquad squad (fun q => { q with formed := fs })))
    | _, _, _ => .next s

/-! ## Task gangs (R359) -/

/-- The record that starts next: the lowest PRIO, the oldest among equals. -/
def nextTask (q : TaskQueue) : Option TaskRec :=
  q.recs.foldl (fun b r =>
    match b with
    | none => some r
    | some o => if recNat r.bytes 42 1 < recNat o.bytes 42 1 then some r else b) none

/-- The squad a task gang goes to: of those that can hold it the one with the fewest gangs, the lowest among equals. -/
def taskSquad (c : Crew) (r : Record) : Option Nat :=
  ((List.range 4).filter (c.canHold r)).foldl (fun b i =>
    match b with
    | none => some i
    | some j => if c.gangCount i < c.gangCount j then some i else b) none

/-- The view that a tag names when the gang starts: a committed view names the view that the commit entered, which may
have been committed itself since; none where the view was discarded (R359). Views nest four deep (R275). -/
def taskView : Nat → State → Nat → Option Nat
  | 0, _, _ => none
  | fuel + 1, s, tag =>
    if tag = 0 then some 0
    else
      match s.views.find tag with
      | none => none
      | some v => if v.state = 0 then some tag else if v.state = 1 then taskView fuel s v.parent else none

/-- A task gang starts with the record of the queue that comes first; one of a discarded view is dropped (R359). What the
record's sender and the operations before a signal have written is visible to it (R243, R260). -/
def execTaskGangStart (core : Nat) (s : State) : Host.Outcome State Fault Refusal :=
  match s.crewAt core with
  | none => .next s
  | some c =>
    match nextTask c.tasks, s.launchOf c.launch with
    | some r, some l =>
      if !c.mayStart l then .next s
      else
        let pop (c : Crew) : Crew := { c with tasks := { c.tasks with recs := c.tasks.recs.erase r } }
        match taskView 8 s (recNat r.bytes 40 2) with
        | none => .next (s.setCrew core (pop c))
        | some view =>
          match taskSquad c l.rcd with
          | none => .next s
          | some squad =>
            match c.freeSlot squad with
            | none => .next s
            | some slot =>
              let g := startGang l s
                { entry := recEntry r.bytes, lanes := recNat r.bytes 28 2, arg := addrOf ((r.bytes.drop 8).take 8)
                  record := r.addr, task := some { record := r.addr, succ := recSucc r.bytes, view := view }
                  role := BitVec.ofNat 2 (recNat r.bytes 43 1) }
              .next ((s.nameGang.setCrew core ((pop c).place l.rcd slot g)).acquire core slot)
    | _, _ => .next s

end Sys2Proof.Machine
end

