-- ==== Sys2Proof/Machine/Queues.lean ====
section
/-! DEFINITION. Architected queues (R257 to R262), tspawn (R268), the launch's lists (R270), calm (R271, R361) and roles
(R272, R364). -/

namespace Sys2Proof.Machine

/-! ## Handles (R257, R258) -/

def handleGen (h : Addr) : BitVec 12 := h.extractLsb' 52 12
def handleKind (h : Addr) : Nat := (h.extractLsb' 48 4).toNat
def handleSpan (h : Addr) : Nat := (h.extractLsb' 32 16).toNat
/-- The core a handle names, as domain × 64 + cluster × 8 + crew. -/
def handleCore (h : Addr) : Nat := (h.extractLsb' 6 9).toNat
def handleIndex (h : Addr) : Nat := (h.extractLsb' 0 3).toNat

/-- The checks of R258 for an instruction that wants a kind. -/
def handleOk (kind : Nat) (h : Addr) : Bool :=
  handleKind h == kind && h.extractLsb' 15 17 == 0 && h.extractLsb' 3 3 == 0 && (kind == 1 || handleIndex h == 0)

/-- The handle of a queue of a core (R257). -/
def makeHandle (kind span core index : Nat) (gen : BitVec 12) : Addr :=
  BitVec.ofNat 64 (gen.toNat * 2 ^ 52 + kind * 2 ^ 48 + span % 2 ^ 16 * 2 ^ 32 + core * 64 + index)

/-- The handle names a queue of this very core. -/
def State.isLocal (s : State) (core : Nat) (h : Addr) : Bool := handleSpan h == s.span.rank.toNat && handleCore h == core

/-! ## Queues -/

def Crew.queueAt (c : Crew) (q : Nat) : Queue := c.queues.getD q {}
def Crew.setQueue (c : Crew) (q : Nat) (v : Queue) : Crew := { c with queues := c.queues.set q v }
/-- Window and backing together (R258). -/
def Queue.full (q : Queue) : Bool := decide (q.entries.length ≥ 16 + q.back)
def Queue.push (q : Queue) (e : List Word) : Queue := { q with entries := q.entries ++ [e] }

/-- A crew that runs on a core or is bound to it, saved or suspended (R343). -/
inductive Holder where
  | running (core : Nat)
  | parked (id : Nat)
deriving DecidableEq, Repr

def State.holders (s : State) (core : Nat) : List (Holder × Crew) :=
  (match s.crewAt core with | some c => [(Holder.running core, c)] | none => []) ++
    (s.parked.filter (fun p => p.core == core)).map (fun p => (Holder.parked p.id, p.crew))

def State.modHolder (s : State) (h : Holder) (f : Crew → Crew) : State :=
  match h with
  | .running core => s.modCrew core f
  | .parked id => { s with parked := s.parked.map (fun p => if p.id == id then { p with crew := f p.crew } else p) }

/-- The crew whose queue has the handle's generation (R262). -/
def State.findQueue (s : State) (h : Addr) : Option (Holder × Crew) :=
  (s.holders (handleCore h)).find? (fun q =>
    if handleKind h = 2 then q.2.tasks.gen == handleGen h else (q.2.queueAt (handleIndex h)).gen == handleGen h)

/-- The queue of a handle has no room: window and backing of an architected queue, the backing of a task queue
(R258, R268). -/
def handleFull (c : Crew) (h : Addr) : Bool :=
  if handleKind h = 2 then c.tasks.full else (c.queueAt (handleIndex h)).full

/-- A handle names a queue that has no room. -/
def State.queueFull (s : State) (h : Addr) : Bool := match s.findQueue h with | some q => handleFull q.2 h | none => false

/-- Where the bytes of a dead letter lie in the ring of 64 KiB at DLBASE (R397): behind those of the letter before (log 133). -/
def State.deadBytes (s : State) (bytes : List Byte) : List (Nat × Byte) :=
  if s.window.dlbase.toNat + 65536 > memSize then []
  else bytes.mapIdx (fun i b => (s.window.dlbase.toNat + (s.device.deadAt + i) % 65536, b))

/-- A packet whose generation matches nothing goes to the destination core's dead-letter area, which is counted and
reported (R262, R401), and into the dead-letter ring (R397). -/
def State.deadLetter (s : State) (core : Nat) (bytes : List Byte) : State :=
  let s := (s.storeBytes 0 s.ltime (s.deadBytes bytes)).1
  { s with
    device := { s.device with dead := s.device.dead ++ [(core, bytes)], deadAt := (s.device.deadAt + bytes.length) % 65536 }
    mgmt := { s.mgmt with deadLetters := min (s.mgmt.deadLetters + 1) (2 ^ 64 - 1) } }.report { type := 4, place := core }

/-! ## qpop and qstat (R259, R261) -/

/-- Operations at which a bad-handle trap of R262 is delivered. -/
def queueOps (_ : UnitCtx) (d : Delivery) : Bool := d == .queueOps

/-- Pop the oldest entry: word i goes to lane i. -/
def popEntry (c : UnitCtx) (q : Nat) (d : Reg) (p : Option PReg) (s : State) : Option State :=
  match (c.crew.queueAt q).entries with
  | [] => none
  | e :: es =>
    let s := s.modCrew c.core (fun k => k.setQueue q { k.queueAt q with entries := es })
    some (writeLanes c (c.lanes.map (fun l =>
      (l, { c.plain32 l d (e.getD l 0) with preds := match p with | some p => [(p.toNat, true)] | none => [] }))) (s.acquire c.core c.slot))

def execQpop (x : Pfx) (d : Reg) (q : QReg) (s : State) : Host.Outcome State Fault Refusal :=
  issueUnit x { regs := [d.toNat], writes := [d.toNat], stall := true } (fun c s =>
    if c.acts = 0 then .done s
    else match popEntry c q.toNat d none s with | some t => .done t | none => .hold (.popEmpty q.toNat) s) s

def execQpopTry (x : Pfx) (d : Reg) (q : QReg) (p : PReg) (s : State) : Host.Outcome State Fault Refusal :=
  issueUnit x { regs := [d.toNat, d.toNat], writes := [d.toNat], preds := [p.toNat], others := 1, stall := true } (fun c s =>
    if c.acts = 0 then .done s
    else match popEntry c q.toNat d (some p) s with
      | some t => .done t
      | none => .done (writeLanes c (c.lanes.map (fun l => (l, { preds := [(p.toNat, false)] }))) s)) s

def execQstat (x : Pfx) (d : Reg) (q : QReg) (s : State) : Host.Outcome State Fault Refusal :=
  issueUnit x { regs := [d.toNat], writes := [d.toNat], stall := true, delivers := queueOps } (fun c s =>
    .done (writeLanes c (c.lanes.map (fun l =>
      (l, c.plain32 l d (BitVec.ofNat 32 (c.crew.queueAt q.toNat).entries.length)))) s)) s

/-! ## qpush (R260, R262, R281) -/

/-- Set qpush.try's predicate in the acting fibres. -/
def setTry (c : UnitCtx) (p : Option PReg) (v : Bool) (s : State) : State :=
  match p with
  | none => s
  | some p => writeLanes c (c.lanes.map (fun l => (l, { preds := [(p.toNat, v)] }))) s

/-- The words of an entry: every lane's, whether it acts or not (R127, R260). -/
def pushWords (c : UnitCtx) (a : Reg) : List Word := (List.range 64).map (fun l => c.gang.regAnyLane c.w 0 l a.toNat)

def entryBytes (ws : List Word) : List Byte := ws.flatMap (fun w => bytesOfNat 4 w.toNat)

/-- The bad-handle trap that a mismatch makes pending in the sender (R262). -/
def handlePend : Pend := { cause := 8, addr := 0, at_ := .queueOps }

/-- An entry enters the queue that a handle names, in a crew that runs or is bound to the core (R258, R280). -/
def State.pushTo (s : State) (k : Holder) (h : Addr) (ws : List Word) : State :=
  s.modHolder k (fun c => c.setQueue (handleIndex h) ((c.queueAt (handleIndex h)).push ws))

/-- A packet of the gang to the same queue has still to be answered: a younger one waits for it (R46). -/
def State.pushInFlight (s : State) (core slot : Nat) (h : Addr) : Bool :=
  s.packets.any (fun p => match p with
    | .entry k _ at_ n _ _ | .task k _ at_ n _ _ => k == h && at_ == core && n == slot
    | .succ _ _ _ _ => false)

/-- Registers and predicates of the gang that an answer is still to write (R46). -/
def State.awaitKeys (s : State) (c : UnitCtx) (keys : List Nat) : State :=
  s.modGang c.core c.slot (fun g => { g with destWait := g.destWait ++ keys })

/-- The answer has come, or the unit is to issue again: nothing waits for it any more. -/
def Gang.landed (g : Gang) (keys : List Nat) : Gang := { g with destWait := g.destWait.filter (fun k => !keys.contains k) }

/-- The predicate of a try, in the lanes that act. -/
def tryKeys (try_ : Option (PReg × BitVec 64)) : List Nat :=
  match try_ with | some (p, acts) => (lanesOf acts).map (predKey p.toNat) | none => []

/-- A push to a queue of the issuing core, of its running crew or of one that is bound to the core (R258, R260); to any
other core's it goes as a packet, and the group waits for the answer. -/
def pushUnit (x : Pfx) (p : Option PReg) (a b : Reg) (s : State) : Host.Outcome State Fault Refusal :=
  issueUnit x { regs := a.toNat :: regsOf true b, cross := [a.toNat], preds := p.toList.map (·.toNat),
                others := if p.isSome then 1 else 0, stall := true,
                delivers := queueOps }
    (fun c s =>
      let h := c.pair c.low b
      if c.acts = 0 then .done s
      else if !handleOk 1 h then .trap { cause := 8, lane := c.low } 0
      else if s.isLocal c.core h then
        match s.findQueue h with
        | none =>
          .done (setTry c p false ((s.deadLetter c.core (entryBytes (pushWords c a))).addPend c.core c.slot handlePend))
        | some (k, d) =>
          if handleFull d h then
            if p.isSome then .done (setTry c p false s) else .hold (.pushFull h) s
          else
            let s := (s.countSent c.launch.num).countAccepted c.launch.num
            .done (setTry c p true (s.pushTo k h (pushWords c a)))
      else if c.crew.depth ≥ 1 then
        if c.crew.effects.length ≥ 64 then .jump (endWorld c.core 0x0a 0 s)
        else .done (setTry c p true (s.defer c.core (.push h (pushWords c a))))
      else
        if s.pushInFlight c.core c.slot h then .hold (.queueBusy h) s
        else
          let try_ := p.map (fun p => (p, c.acts))
          let s := { s.countSent c.launch.num with
            packets := s.packets ++ [Packet.entry h (pushWords c a) c.core c.slot c.mask try_] }
          .jump (waitGroup c (.answer c.nextPc true) (s.awaitKeys c (tryKeys try_)))) s

def execQpush (x : Pfx) (a b : Reg) (s : State) : Host.Outcome State Fault Refusal := pushUnit x none a b s
def execQpushTry (x : Pfx) (p : PReg) (a b : Reg) (s : State) : Host.Outcome State Fault Refusal :=
  pushUnit x (some p) a b s

/-- A fibre whose group waits for an answer. -/
def Fibre.waitsAnswer (f : Fibre) : Bool := match f.hold with | some (.answer _ _) => true | _ => false

/-- The group of a gang still waits for its answer. -/
def Gang.awaits (g : Gang) (group : BitVec 64) : Bool := (lanesOf group).any (fun l => (g.fibre l).waitsAnswer)

/-- Release the group of a gang that waits for an answer, with what its acting lanes write: a try's predicate, and zero
in the registers of a status. -/
def answerGang (now : Nat) (group : BitVec 64) (try_ : Option (PReg × BitVec 64)) (taken : Bool) (keys : List Nat)
    (g : Gang) : Gang :=
  let g := g.landed (tryKeys try_ ++ keys)
  if !g.awaits group then g
  else
    (g.mapFibres (fun l f =>
      match group.getLsbD l, f.hold with
      | true, some (.answer next _) =>
        { f.release now next with
          pred := match try_ with
            | some (p, acts) => if acts.getLsbD l then setPred f.pred p.toNat taken else f.pred
            | none => f.pred }
      | _, _ => f)).putOldRegs (keys.map (fun k => (k, 0)))

/-- What an entry packet meets on arrival. -/
inductive Arrives where
  | wait | refused | mismatch | taken (h : Holder)
deriving DecidableEq, Repr

/-- The fate of a packet for an architected queue of this package. -/
def arrives (s : State) (h : Addr) (try_ : Bool) : Arrives :=
  if handleSpan h != s.span.rank.toNat then .wait
  else
    match s.findQueue h with
    | none => .mismatch
    | some q => if handleFull q.2 h then (if try_ then .refused else .wait) else .taken q.1

/-- The first packet in flight that can be handled, with its place. -/
def firstPacket (s : State) (ok : Packet → Bool) : Option (Nat × Packet) :=
  ((s.packets.mapIdx (fun i p => (i, p))).find? (fun q => ok q.2))

/-- A queue packet arrives: it is accepted, refused, or sent to the dead-letter area, and its sender is answered (R260,
R262). -/
def execQueuePacketArrival (s : State) : Host.Outcome State Fault Refusal :=
  match firstPacket s (fun p => match p with | .entry h _ _ _ _ t => arrives s h t.isSome != .wait | _ => false) with
  | some (i, .entry h ws core slot group t) =>
    let s := { s with packets := s.packets.eraseIdx i }
    let now := s.clock.toNat
    let answer (v : Bool) (s : State) : State := s.modGang core slot (answerGang now group t v [])
    let mine := (s.crewAt core).map (·.launch)
    let settled (s : State) : State := match mine with | some n => s.countAccepted n | none => s
    match arrives s h t.isSome with
    | .taken k => .next (answer true (settled (s.pushTo k h ws)))
    | .refused => .next (answer false (settled s))
    | .mismatch =>
      .next (answer false (settled ((s.deadLetter (handleCore h) (entryBytes ws)).addPend core slot handlePend)))
    | .wait => .next s
  | _ => .next s

/-! ## tspawn (R268) -/

/-- tspawn's status in the acting fibres. -/
def putStatus (c : UnitCtx) (d : Reg) (v : Word) (s : State) : State :=
  writeLanes c (c.lanes.map (fun l => (l, c.plain32 l d v))) s

/-- The cluster of a core of this package, where a world's send is local (R268). -/
def State.inCluster (s : State) (core : Nat) (h : Addr) : Bool :=
  handleSpan h == s.span.rank.toNat && handleCore h / 8 == core / 8

/-- Signal a record's own successor counter with a failure, then go on (R262, R268). -/
def failRecord (c : UnitCtx) (r : List Byte) (status : BitVec 16) (s : State) (go : State → Act) : Act :=
  match s.signalFor c.agent c.slot c.view (recSucc r) status with
    | .done s => go s
    | .unusable _ => go s
    | .broken => .jump (stopGang c (recSucc r) s)
    | .away pages => .hold (.page c.launch.rcd.ctx (pages.map Prod.fst)) (s.postPages c.agent .engineWrite pages)

/-- A record, its WTAG filled in, enters the task queue of a crew that runs or is bound to the core (R258, R280). -/
def State.sendTo (s : State) (k : Holder) (core : Nat) (r : List Byte) : State :=
  let q := s.copyTask core r
  q.1.modHolder k (fun c => { c with tasks := { c.tasks with recs := c.tasks.recs ++ [q.2] } })

/-- Send a record that R268 does not refuse. -/
def sendTask (c : UnitCtx) (d : Reg) (h : Addr) (r : List Byte) (s : State) : Act :=
  if c.crew.depth ≥ 1 && !s.inCluster c.core h then
    if c.crew.effects.length ≥ 64 then .jump (endWorld c.core 0x0a 0 s)
    else .done (putStatus c d 1 (s.defer c.core (.send h (tagRecord r c.view))))
  else if s.isLocal c.core h then
    match s.findQueue h with
    | none => failRecord c r 7 s (fun s => .done (putStatus c d 0 (s.deadLetter c.core r)))
    | some (k, q) =>
      if handleFull q h then .hold (.taskFull h) s
      else
        .done (putStatus c d 0 (((s.countSent c.launch.num).countAccepted c.launch.num).sendTo k c.core (tagRecord r c.view)))
  else
    if s.pushInFlight c.core c.slot h then .hold (.queueBusy h) s
    else
      let keys := c.lanes.flatMap (fun l => destKeys c l d 1)
      .jump (waitGroup c (.answer c.nextPc false)
        ({ s with packets := s.packets ++ [Packet.task h (tagRecord r c.view) c.core c.slot c.mask keys] }.awaitKeys c keys))

def execTspawn (x : Pfx) (d a b : Reg) (s : State) : Host.Outcome State Fault Refusal :=
  issueUnit x { regs := regsOf true a ++ regsOf true b ++ [d.toNat], writes := [d.toNat], stall := true } (fun c s =>
    let h := c.pair c.low b
    let at_ := c.pair c.low a
    if c.acts = 0 then .done s
    else if !handleOk 2 h then .trap { cause := 8, lane := c.low } 0
    else
      match recordPlace s c.agent .load 64 at_ with
      | .unusable cause => .trap { cause := cause, lane := c.low, addr := at_ } 0
      | .broken => .jump (stopGang c at_ s)
      | .away pages => .hold (.page c.launch.rcd.ctx (pages.map Prod.fst)) (s.postPages c.agent .load pages)
      | .at_ l =>
        let r := s.peeks c.view l 64
        if s.poisoned c.core c.view l 64 then
          .done ((s.addPend c.core c.slot
            { cause := 0x10, addr := at_, at_ := .regs (c.lanes.flatMap (fun l => destKeys c l d 1)) }).padError c.core at_)
        else if !recordOk r then
          failRecord c r 3 s (fun s =>
            .done (putStatus c d 2 (s.addPend c.core c.slot { cause := 3, addr := 0, at_ := .counter (recSucc r) })))
        else sendTask c d h r s) s

/-- A group of a gang waits for the answer to a push or a send. -/
def State.awaits (s : State) (core slot : Nat) (group : BitVec 64) : Bool :=
  match s.gangAt core slot with | some g => g.awaits group | none => false

/-- What becomes of a sent record that arrives (R262, R268). -/
inductive TaskArrives where
  | wait                               -- a full queue and no group to tell, another package, or a page to be resumed
  | refill                             -- a full queue: the group that waits goes back to issue
  | taken (h : Holder)
  | mismatch (s : State)               -- the record's own counter has been signalled
  | broken (s : State)                 -- R331
  | absent (s : State)                 -- the counter's page is absent

/-- The fate of a task packet, its sender's group given. -/
def taskArrives (s : State) (h : Addr) (r : List Byte) (core slot : Nat) (group : BitVec 64) : TaskArrives :=
  if handleSpan h != s.span.rank.toNat then .wait
  else
    match s.findQueue h, s.agentAt core with
    | some q, _ => if !handleFull q.2 h then .taken q.1 else if s.awaits core slot group then .refill else .wait
    | none, none => .mismatch s
    | none, some w =>
      if s.isAwaiting w.ctx (recSucc r) then .wait
      else
        match s.signalFor w slot (recNat r 40 2) (recSucc r) 7 with
        | .done s => .mismatch s
        | .unusable _ => .mismatch s
        | .broken => .broken (structureFault w.ctx (recSucc r) s)
        | .away pages => if pages.isEmpty then .wait else .absent (s.awaitPages w .engineWrite (recSucc r) pages)

/-- Who enqueues a successor record that waited, if its crew goes on (R243). -/
def State.succAgent (s : State) (core launch : Nat) : Option Agent :=
  (s.agentAt core).filter (fun w => w.launch == launch)

/-- A launch's agent on a core, whether its crew goes on or not. -/
def State.launchAgent (s : State) (core launch : Nat) : Option Agent :=
  (s.launchOf launch).map (fun l => { core := core, launch := launch, ctx := l.rcd.ctx, priv := l.rcd.flags.getLsbD 0 })

/-- What becomes of a successor record whose crew has gone. -/
inductive LostSucc where
  | waits                              -- for a page of it, or of its counter
  | absent (s : State)                 -- a page is found absent
  | gone (s : State)

/-- A successor record whose crew has gone is a mismatch (R262): the record goes to the core's dead-letter area, and its own
counter is signalled, each once its page is there. A record that cannot be read gives neither (log 65). -/
def State.loseSucc (s : State) (a : Addr) (core view launch : Nat) : LostSucc :=
  match s.launchAgent core launch with
  | none => .gone s
  | some w =>
    if s.isAwaiting w.ctx a then .waits
    else
      match recordPlace s w .engineRead 64 a with
      | .away pages => .absent (s.awaitPages w .engineRead a pages)
      | .at_ l =>
        let r := s.peeks view l 64
        let k := recSucc r
        if k = 0 then .gone (s.deadLetter core r)
        else if s.isAwaiting w.ctx k then .waits
        else
          match s.signal w view k 7 0 with
          | .done t => .gone (t.deadLetter core r)
          | .unusable _ => .gone (s.deadLetter core r)
          | .broken => .gone (structureFault w.ctx k (s.deadLetter core r))
          | .away pages => if pages.isEmpty then .waits else .absent (s.awaitPages w .engineWrite k pages)
      | _ => .gone s

/-- A successor record that waited can now be handled. -/
def succHandled (s : State) (a : Addr) (core view launch : Nat) : Bool :=
  match s.succAgent core launch with
  | none => !s.savedHere launch core && (match s.loseSucc a core view launch with | .waits => false | _ => true)
  | some w => match succEnqueue s w view a with | .waits _ => false | _ => true

/-- A sent record or a successor record that can now be handled: a record for a full queue goes back to the group that
waits, and stays in flight where none does. -/
def taskHandled (s : State) (p : Packet) : Bool :=
  match p with
  | .task h r core slot group _ => match taskArrives s h r core slot group with | .wait => false | _ => true
  | .succ a core view launch => succHandled s a core view launch
  | _ => false

/-- A task record arrives at its queue (R262, R268): a full queue leaves its sender waiting at issue. A successor record
that waited is enqueued (R243). -/
def execTaskRecordArrival (s : State) : Host.Outcome State Fault Refusal :=
  match firstPacket s (taskHandled s) with
  | some (i, .task h r core slot group keys) =>
    let drop (s : State) : State := { s with packets := s.packets.eraseIdx i }
    let now := s.clock.toNat
    let answer (s : State) : State :=
      (s.modGang core slot (answerGang now group none true keys)).bufferDests core slot keys
    match taskArrives s h r core slot group with
    | .wait => .next s
    | .refill => .next (drop (s.modGang core slot (fun g => (g.landed keys).mapFibres (fun l f =>
        if group.getLsbD l && f.waitsAnswer then { f with hold := some (.taskFull h), arrived := false } else f))))
    | .taken k =>
      let counted := match s.crewAt core with
        | some me => (s.countSent me.launch).countAccepted me.launch
        | none => s
      .next (answer (drop (counted.sendTo k core r)))
    | .mismatch t => .next (answer (drop (t.deadLetter (handleCore h) r)))
    | .broken t => .next (drop (t.modGang core slot (fun g => g.landed keys)))
    | .absent t => .next t
  | some (i, .succ a core view launch) =>
    let drop (s : State) : State := { s with packets := s.packets.eraseIdx i }
    match s.succAgent core launch with
    | none =>
      match s.loseSucc a core view launch with
      | .waits => .next s
      | .absent t => .next t
      | .gone t => .next (drop t)
    | some w =>
      match succEnqueue s w view a with
      | .enqueued t => .next (drop t)
      | .waits t => .next t
      | .lost => .next (drop s)
      | .broken => .next (drop (structureFault w.ctx a s))
      | .refused k =>
        if k = 0 then .next (drop s)
        else
          match s.signal w view k 3 0 with
          | .done u => .next (drop u)
          | .away pages => .next (s.awaitPages w .engineWrite k pages)
          | .broken => .next (drop (structureFault w.ctx k s))
          | .unusable _ => .next (drop s)
  | _ => .next s

/-! ## Lists (R270, R360) -/

/-- Backing entries of each list (R345). -/
def listCap (l : Launch) : Nat := if l.rcd.listb = 0 then 4096 else l.rcd.listb

/-- A list is full (R270). -/
def listFull (l : Launch) (n : Nat) : Bool := decide ((l.lists.get [] n).length ≥ listCap l)

/-- append: the acting lanes' items enter their lists as one run, in lane order; a full list holds the group. A run that
begins while there is room enters whole, so a list may pass LISTB by up to 63 items (log 128). -/
def execAppend (x : Pfx) (a b : Reg) (s : State) : Host.Outcome State Fault Refusal :=
  issueUnit x { regs := [a.toNat, b.toNat], stall := true } (fun c s =>
    if c.acts = 0 then .done s
    else if c.crew.depth ≥ 1 then .trap { cause := 1, lane := c.low } 0
    else
      match firstFail c.lanes (fun l => decide ((c.word l b).toNat ≤ 255)) with
      | some l => .trap { cause := 1, lane := l } 0
      | none =>
        let items (n : Nat) : List Word := (c.lanes.filter (fun l => (c.word l b).toNat == n)).map (fun l => c.word l a)
        let named := (c.lanes.map (fun l => (c.word l b).toNat)).eraseDups
        if named.any (listFull c.launch) then .hold (.listFull named) s
        else
          .done (s.modLaunch c.launch.num (fun l =>
            { l with lists := named.foldl (fun (m : Map (List Word)) n => m.set [] n (m.get [] n ++ items n)) l.lists
                     sent := l.sent + 1, accepted := l.accepted + 1 }))) s

/-- Take the oldest items lane by lane: what each lane gets, and the lists left. -/
def drainLanes (list : Nat → Nat) : List Nat → Map (List Word) → List (Nat × Option Word) × Map (List Word)
  | [], m => ([], m)
  | l :: ls, m =>
    match m.get [] (list l) with
    | [] => let r := drainLanes list ls m; ((l, none) :: r.1, r.2)
    | v :: vs => let r := drainLanes list ls (m.set [] (list l) vs); ((l, some v) :: r.1, r.2)

/-- drain. -/
def execDrain (x : Pfx) (d a : Reg) (p : PReg) (s : State) : Host.Outcome State Fault Refusal :=
  issueUnit x { regs := [a.toNat, d.toNat, d.toNat], writes := [d.toNat], preds := [p.toNat], others := 1, stall := true } (fun c s =>
    if c.acts = 0 then .done s
    else if c.crew.depth ≥ 1 then .trap { cause := 1, lane := c.low } 0
    else
      match firstFail c.lanes (fun l => decide ((c.word l a).toNat ≤ 255)) with
      | some l => .trap { cause := 1, lane := l } 0
      | none =>
        let r := drainLanes (fun l => (c.word l a).toNat) c.lanes c.launch.lists
        let s := s.modLaunch c.launch.num (fun l => { l with lists := r.2 })
        .done (writeLanes c (r.1.map (fun q => (q.1,
          match q.2 with
          | some v => { c.plain32 q.1 d v with preds := [(p.toNat, true)] }
          | none => { preds := [(p.toNat, false)] }))) s)) s

/-! ## Calm (R271, R361) -/

def execCalmwait (x : Pfx) (s : State) : Host.Outcome State Fault Refusal :=
  issueUnit x { stall := true } (fun c s =>
    if c.acts = 0 then .done s
    else if c.crew.depth ≥ 1 then .trap { cause := 1, lane := c.low } 0
    else joinHold c (.calm c.nextPc) waitGroup s) s

/-- A live fibre held in calmwait. -/
def Fibre.calm (f : Fibre) : Bool := match f.hold with | some (.calm _) => true | _ => false

/-- The conditions of R271 on this package. -/
def State.calm (s : State) (l : Launch) : Bool :=
  let cs := s.crewsOf l.num
  cs.any (fun c => !c.gangs.isEmpty) &&
  cs.all (fun c => c.gangs.all (fun g => g.2.fibres.all (fun f => !f.live || f.calm)) &&
    c.squads.all (fun q => q.bins.isEmpty && q.formed.isEmpty) && c.tasks.recs.isEmpty) &&
  !s.packetsOf l.num && l.lists.all (fun e => e.2.isEmpty)

/-- Cores whose interface has a launch's sweep at its head and takes it now (R389). -/
def State.answering (s : State) (launch : Nat) : List Nat :=
  (s.cores.filter (fun k => k.2.ctlHead s.clock.toNat == some (.calmSweep launch))).map Prod.fst

/-- A calm detector's sweep asks every core that runs a crew of the launch. -/
def State.poll (s : State) (l : Launch) : State :=
  let cores := (s.crews.filter (fun e => e.2.launch == l.num)).map Prod.fst
  let s := cores.foldl (fun s k => s.modCore k (fun q => { q with ctl := q.ctl ++ [.calmSweep l.num] })) s
  s.modLaunch l.num (fun l => { l with polled := some cores })

/-- The counts that a package gives to a span's agreement on calm: what has been sent less what has been accepted. -/
def Launch.inFlight (l : Launch) : Nat := (2 ^ 64 + l.sent - l.accepted) % 2 ^ 64

/-- The calm detector (R361): cores answer a sweep that has reached them, or a sweep begins, or its counts are in. The second of
two sweeps, 256 cycles apart, that finds the same counts releases every held group at once. -/
def execCalmSweep (launch : Nat) (s : State) : Host.Outcome State Fault Refusal :=
  let cores := s.answering launch
  if !cores.isEmpty then
    .next ((cores.foldl State.dropCtl s).modLaunch launch (fun l =>
      { l with polled := l.polled.map (fun p => p.filter (fun k => !cores.contains k)) }))
  else
    match s.launchOf launch with
    | none => .next s
    | some l =>
      let taken (w : Option (Nat × Nat × Nat)) : State := s.modLaunch launch (fun l => { l with sweep := w, polled := none })
      if !s.calm l then .next (taken none)
      else
        match l.polled, l.sweep with
        | some (_ :: _), _ => .next s
        | none, some (t, _, _) => .next (if s.clock.toNat < t + 256 then s else s.poll l)
        | none, none => .next (s.poll l)
        | some [], none => .next (taken (some (s.clock.toNat, l.sent, l.accepted)))
        | some [], some (_, sent, acc) =>
          if sent != l.sent || acc != l.accepted || (decide (l.rcd.spanw ≤ 1) && l.sent != l.accepted) then
            .next (taken (some (s.clock.toNat, l.sent, l.accepted)))
          else
            withAgreement launch .calm false l.inFlight (fun s =>
              let now := s.clock.toNat
              (s.modLaunch launch (fun l => { l with sweep := none, polled := none })).mapCrews launch (fun c =>
                { c with gangs := c.gangs.mapVals (fun (g : Gang) =>
                  g.mapFibres (fun _ f => match f.hold with | some (.calm next) => f.release now next | _ => f)) })) s

/-! ## Roles (R272, R364) -/

def execRole (x : Pfx) (d : Reg) (s : State) : Host.Outcome State Fault Refusal :=
  issueUnit x { regs := [d.toNat], writes := [d.toNat], stall := true } (fun c s =>
    .done (putStatus c d (c.gang.role.setWidth 32) s)) s

/-- rolewait: a marked gang takes its new role. -/
def execRolewait (x : Pfx) (s : State) : Host.Outcome State Fault Refusal :=
  issueUnit x { stall := true } (fun c s =>
    if c.acts = 0 then .done s
    else if c.mask != c.gang.liveMask then .trap { cause := 2, lane := c.low } 0
    else if !c.launch.rcd.flags.getLsbD 5 then .trap { cause := 1, lane := c.low } 0
    else
      match c.gang.roleMark with
      | none => .done s
      | some r =>
        let entry := c.launch.rcd.rent.getD (r.toNat - 1) 0
        let s := s.modGang c.core c.slot (fun g =>
          { g.modLanes c.mask (fun _ f => { f with pc := entry, wbase := 0, pred := 1 }) with role := r, roleMark := none })
        .jump (s.modCrew c.core (fun k => { k with role := {} }))) s

/-- The gangs of a crew in a role that the role machine counts. -/
def roleGangs (c : Crew) (r : BitVec 2) : List (Nat × Nat) :=
  c.gangs.filterMap (fun g => match g.2.roleIndex with
    | some i => if g.2.role == r then some (i, g.1) else none
    | none => none)

/-- Mark the gang of the highest index in a role for another, when the role has two or more. -/
def markGang (core : Nat) (from_ into : BitVec 2) (s : State) : State :=
  match s.crewAt core with
  | none => s
  | some c =>
    let gs := roleGangs c from_
    if gs.length < 2 then s.modCrew core (fun c => { c with role := {} })
    else
      let best := gs.foldl (fun (b : Nat × Nat) g => if g.1 ≥ b.1 then g else b) (0, 0)
      (s.modGang core best.2 (fun g => { g with roleMark := some into })).modCrew core (fun c => { c with role := { st := .marked } })

/-- The row of R364's table that the occupancy selects outside MARKED: the wait it calls for, if any. -/
def roleSide (o low high : Nat) : Option RoleSt :=
  if o < low then some .lowWait else if o > high then some .highWait else none

/-- T of R364. -/
def dwellTime (r : Record) : Nat := 64 * r.dwell

/-- The role machine after n cycles of one occupancy, and whether the dwell time is up in one of them: STEADY and the
timer values 0 to T − 1 of a wait are T + 1 places in turn, and a cycle at the last of them marks a gang, or leads back
to STEADY where the role has fewer than two. -/
def roleRun (m : RoleMachine) (o low high t : Nat) (enough : Bool) (n : Nat) : RoleMachine × Bool :=
  if n = 0 then (m, false)
  else
    match m.st, roleSide o low high with
    | .marked, _ => (m, false)
    | _, none => ({}, false)
    | st, some w =>
      let at_ := if st = w then m.timer + 1 + n else if st = .steady then n else n - 1
      let place (k : Nat) : RoleMachine := if k = 0 then {} else { st := w, timer := k - 1 }
      if at_ ≤ t then (place at_, false) else if enough then ({ st := w, timer := t - 1 }, true) else (place (at_ % (t + 1)), false)

/-- The role machine of a crew samples n cycles without a change of occupancy (R364): it marks a gang in the cycle in which
the dwell time is up. -/
def roleTick (core n : Nat) (s : State) : State :=
  match s.crewAt core with
  | none => s
  | some c =>
    match s.launchOf c.launch with
    | none => s
    | some l =>
      if !l.rcd.flags.getLsbD 5 then s
      else
        let o := (c.queueAt l.rcd.rq).entries.length
        let low := decide (o < l.rcd.low)
        let enough := decide (2 ≤ (roleGangs c (if low then 2 else 1)).length)
        let r := roleRun c.role o l.rcd.low l.rcd.high (dwellTime l.rcd) enough n
        let s := if r.1 = c.role then s else s.modCrew core (fun c => { c with role := r.1 })
        if !r.2 then s else if low then markGang core 2 1 s else markGang core 1 2 s

/-- The dwell time is up in this cycle: the role machine marks a gang, or goes back to STEADY (R364). -/
def execRoleDwellExpiry (core : Nat) (s : State) : Host.Outcome State Fault Refusal :=
  match s.crewAt core with
  | none => .next s
  | some c =>
    match s.launchOf c.launch with
    | none => .next s
    | some l =>
      let waits := c.role.st = .lowWait ∨ c.role.st = .highWait
      if waits ∧ c.role.timer + 1 = dwellTime l.rcd ∧
          roleSide (c.queueAt l.rcd.rq).entries.length l.rcd.low l.rcd.high = some c.role.st then
        .next (roleTick core 1 s)
      else .next s

end Sys2Proof.Machine
end

