-- ==== Sys2Proof/Machine/Streams.lean ====
section
/-! DEFINITION. The stream slot (R263 to R266, R374, R375): the program and its checks, strm, strm.stop and strm.wait, and
the micro-operations of an iteration point. -/

namespace Sys2Proof.Machine

/-! ## Micro-operations (R264) -/

namespace StreamOp
def opc (o : BitVec 64) : Nat := (o.extractLsb' 56 8).toNat
def vd (o : BitVec 64) : Nat := (o.extractLsb' 53 3).toNat
def va (o : BitVec 64) : Nat := (o.extractLsb' 50 3).toNat
def vb (o : BitVec 64) : Nat := (o.extractLsb' 47 3).toNat
def str (o : BitVec 64) : Nat := (o.extractLsb' 45 2).toNat
def aux (o : BitVec 64) : Nat := (o.extractLsb' 32 8).toNat
def imm (o : BitVec 64) : Word := o.extractLsb' 0 32

/-- A conversion code that CVT accepts: none of 64 bits. -/
def cvtCode (n : Nat) : Bool := match CFmt.ofCode n with | some f => !f.wide | none => false

/-- A word that no rule of R264 rejects, in a program of n streams. -/
def ok (n : Nat) (o : BitVec 64) : Bool :=
  o.extractLsb' 40 5 == 0 && decide (str o < n) &&
  (match opc o with
   | 0x01 | 0x02 => decide (aux o ≤ 4)
   | 0x03 | 0x04 | 0x05 | 0x06 | 0x07 | 0x08 | 0x09 | 0x0a | 0x0b | 0x0c => true
   | 0x10 => cvtCode (aux o % 16) && cvtCode (aux o / 16)
   | 0x11 => decide (aux o ≤ 1)
   | 0x12 => decide (2 ≤ aux o) && decide (aux o ≤ 6)
   | 0x20 => (imm o).extractLsb' 3 29 == 0
   | _ => false)
end StreamOp

/-! ## Programs (R263) -/

def progOps (bs : List Byte) (nstr nops : Nat) : List (BitVec 64) :=
  (List.range nops).map (fun i => BitVec.ofNat 64 (recNat bs (16 + 32 * nstr + 8 * i) 8))

/-- The header is in range (R263). -/
def headerOk (bs : List Byte) : Bool :=
  let n (o k : Nat) := recNat bs o k
  let within (v lo hi : Nat) : Bool := decide (lo ≤ v) && decide (v ≤ hi)
  within (n 0 1) 1 6 && within (n 1 1) 1 16 && within (n 2 1) 1 4 && n 3 1 == 0 &&
    (List.range (n 0 1)).all (fun k => n (4 + 2 * k) 2 != 0)

/-- The whole program is accepted (R264): no LDX takes its index from what an LDX loads. -/
def programOk (bs : List Byte) : Bool :=
  let ops := progOps bs (recNat bs 2 1) (recNat bs 1 1)
  let isLdx (o : BitVec 64) : Bool := StreamOp.opc o == 2
  ops.all (StreamOp.ok (recNat bs 2 1)) &&
    !ops.any (fun o => isLdx o && ops.any (fun q => isLdx q && StreamOp.vd q == StreamOp.va o))

/-- The stream that strm starts, P added to each base. -/
def streamOf (bs : List Byte) (p : Addr) (num slot view : Nat) : Stream :=
  let nl := recNat bs 0 1
  let ns := recNat bs 2 1
  { num := num, slot := slot, view := view
    lext := (List.range nl).map (fun k => recNat bs (4 + 2 * k) 2)
    bases := (List.range ns).map (fun i => BitVec.ofNat 64 (recNat bs (16 + 32 * i) 8) + p)
    strides := (List.range ns).map (fun i => (List.range nl).map (fun k =>
      (BitVec.ofNat 32 (recNat bs (24 + 32 * i + 4 * k) 4)).toInt))
    ops := progOps bs ns (recNat bs 1 1)
    at_ := List.replicate nl 0 }

/-! ## strm, strm.stop and strm.wait (R266) -/

/-- What becomes of reading part of the program. -/
inductive ProgRead where
  | got (bs : List Byte)
  | trap (t : Trap)
  | held (pages : List (Addr × Bool))
  | broken (va : Addr)
  | poisoned (va : Addr)

/-- Read n bytes of the program at an address. -/
def readProgram (s : State) (c : UnitCtx) (a : Addr) (n : Nat) : ProgRead :=
  let as := (List.range n).map (fun i => a + BitVec.ofNat 64 i)
  if pathOf a > 2 || !zeroBitsOk a then .trap { cause := 5, lane := c.low, addr := a }
  else if a.toNat % 64 != 0 then .trap { cause := 4, lane := c.low, addr := a }
  else
    match as.find? (fun b => enginePlace s c.agent b == .fault) with
    | some b => .trap { cause := 5, lane := c.low, addr := b }
    | none =>
      match engineRead s c.agent c.view as with
      | .broken va => .broken va
      | .wait pages => .held pages
      | .poisoned va => .poisoned va
      | .ok => .got (as.map (engineByte s c.agent c.view))

/-- The deferred trap of a stream access (R266). -/
def streamPend (cause : BitVec 8) (a : Addr) : Pend := { cause := cause, addr := a, at_ := .streamWait }

/-- strm (R266). A program on a poisoned line ends as one whose load faults does, without starting (R317, log 64). -/
def execStrm (x : Pfx) (a b : Reg) (s : State) : Host.Outcome State Fault Refusal :=
  issueUnit x { regs := regsOf true a ++ regsOf true b, stall := true, feature := some 4 } (fun c s =>
    let at_ := c.pair c.low a
    let held (pages : List (Addr × Bool)) : Act :=
      .hold (.page c.launch.rcd.ctx (pages.map Prod.fst)) (s.postPages c.agent .engineRead pages)
    let poisoned (va : Addr) : Act :=
      .done ((s.addPend c.core c.slot (streamPend 0x10 va)).padError c.core va)
    if c.acts = 0 then .done s
    else if c.crew.stream.isSome then .hold .streamBusy s
    else
      match readProgram s c at_ 16 with
      | .trap t => .trap t 0
      | .broken va => .jump (stopGang c va s)
      | .held pages => held pages
      | .poisoned va => poisoned va
      | .got head =>
        if !headerOk head then .trap { cause := 1, lane := c.low } 0
        else
          match readProgram s c at_ (16 + 32 * recNat head 2 1 + 8 * recNat head 1 1) with
          | .trap t => .trap t 0
          | .broken va => .jump (stopGang c va s)
          | .held pages => held pages
          | .poisoned va => poisoned va
          | .got bs =>
            if !programOk bs then .trap { cause := 1, lane := c.low } 0
            else
              let t := streamOf bs (c.pair c.low b) s.engineOps c.slot c.view
              .done { s.modCrew c.core (fun k => { k with stream := some t }) with engineOps := s.engineOps + 1 }) s

def execStrmStop (x : Pfx) (s : State) : Host.Outcome State Fault Refusal :=
  issueUnit x { stall := true, feature := some 4 } (fun c s =>
    if c.acts = 0 then .done s
    else .done (s.modCrew c.core (fun k => { k with stream := k.stream.map (fun t => { t with stop := true }) }))) s

def execStrmWait (x : Pfx) (s : State) : Host.Outcome State Fault Refusal :=
  issueUnit x { stall := true, feature := some 4, delivers := fun _ d => d == .streamWait } (fun c s =>
    if c.acts = 0 then .done s
    else if c.crew.stream.isSome then .hold .streamRuns s
    else .done s) s

/-! ## An iteration point (R265) -/

/-- Address of a stream at the current point. -/
def Stream.addr (t : Stream) (i : Nat) : Addr :=
  let off := (List.zip t.at_ (t.strides.getD i [])).foldl (fun n q => n + (q.1 : Int) * q.2) 0
  t.bases.getD i 0 + BitVec.ofInt 64 off

def Stream.word (t : Stream) (v l : Nat) : Word := t.vecs.get 0 (v * 64 + l)
def Stream.putVec (t : Stream) (v : Nat) (ws : List Word) : Stream :=
  { t with vecs := t.vecs.sets 0 (ws.mapIdx (fun l w => (v * 64 + l, w))) }

/-- The bytes of a vector. -/
def Stream.vecBytes (t : Stream) (v : Nat) : List Byte := entryBytes ((List.range 64).map (t.word v))

/-- Size in bytes of a load's width code, and its extension to 32 bits. -/
def ldSize (aux : Nat) : Nat := match aux with | 0 => 4 | 1 | 2 => 1 | _ => 2
def ldExtend (aux : Nat) (v : Nat) : Word :=
  match aux with
  | 2 => (BitVec.ofNat 8 v).signExtend 32
  | 4 => (BitVec.ofNat 16 v).signExtend 32
  | _ => BitVec.ofNat 32 v

/-- The vector that a register-only micro-operation gives, with its flags. -/
def streamAlu (t : Stream) (o : BitVec 64) : List (Word × Word) :=
  let imm := StreamOp.imm o
  let aux := StreamOp.aux o
  (List.range 64).map (fun l =>
    let x := t.word (StreamOp.va o) l
    let y := t.word (StreamOp.vb o) l
    let sh := (imm.extractLsb' 0 5).toNat
    match StreamOp.opc o with
    | 0x03 => (x + y, 0)
    | 0x04 => (x - y, 0)
    | 0x05 => (x * y, 0)
    | 0x06 => (x &&& y, 0)
    | 0x07 => (x ||| y, 0)
    | 0x08 => (x ^^^ y, 0)
    | 0x09 => (x + imm, 0)
    | 0x0a => (x <<< sh, 0)
    | 0x0b => (x >>> sh, 0)
    | 0x0c => (x.sshiftRight sh, 0)
    | 0x10 =>
      match CFmt.ofCode (aux % 16), CFmt.ofCode (aux / 16) with
      | some f, some g => let r := convert .rne 0 f g (x.setWidth 64); (loWord r.1, r.2)
      | _, _ => (0, 0)
    | 0x11 =>
      let bs := t.vecBytes (StreamOp.va o)
      let d : Int := if aux = 0 then (bs.getD l 0).toInt else (BitVec.ofNat 16 (natOfBytes ((bs.drop (2 * l)).take 2))).toInt
      (imm + BitVec.ofInt 32 d, 0)
    | _ =>
      match PFmt.ofCode aux with
      | none => (0, 0)
      | some p =>
        let bs := t.vecBytes (StreamOp.va o)
        let bit := p.bits * l
        let code := natOfBytes ((bs.drop (bit / 8)).take 2) / 2 ^ (bit % 8) % 2 ^ p.bits
        let sc := ((bytesOfNat 4 (t.word (StreamOp.vb o) 0).toNat).getD (l / 32) 0).toNat
        let e : Val := match packFmt p with | .inl f => decodeFp f code | .inr _ => .zero false
        let r := roundFp .f32 .rne 0 (if sc = 255 then .nan false else e.scale ((sc : Int) - 127))
        (BitVec.ofNat 32 r.1, r.2 ||| sigFlag e))

/-- What one micro-operation does. -/
inductive OpOut where
  | next (t : Stream) (fl : Word) (s : State)
  | stall (s : State)                       -- a PUSH to a full queue, or a load held on an absent page
  | fault (cause : BitVec 8) (addr : Addr)
  | broken (va : Addr)

/-- A stream load of 64 words (R182, R265, R333). -/
def streamLoad (s : State) (w : Agent) (depth : Nat) (t : Stream) (o : BitVec 64) (addr : Nat → Addr) : OpOut :=
  let n := ldSize (StreamOp.aux o)
  let as := (List.range 64).map addr
  let bytes (a : Addr) : List Addr := (List.range n).map (fun j => a + BitVec.ofNat 64 j)
  match as.find? (fun a => !(zeroBitsOk a && decide (pathOf a ≤ 5) && !worldRefuses depth .load (pathOf a))) with
  | some a => .fault 5 a
  | none =>
    match as.find? (fun a => a.toNat % n != 0) with
    | some a => .fault 4 a
    | none =>
      match as.find? (fun a => (bytes a).any (fun b => enginePlace s w b == .fault)) with
      | some a => .fault 5 a
      | none =>
        match engineRead s w t.view (as.flatMap bytes) with
        | .broken va => .broken va
        | .wait pages => .stall (s.engineWait w .engineRead t.num pages)
        | .poisoned va => .fault 0x10 va
        | .ok =>
          let vals := as.map (fun a => ldExtend (StreamOp.aux o) (natOfBytes ((bytes a).map (engineByte s w t.view))))
          .next (t.putVec (StreamOp.vd o) vals) 0 s

/-- What the next operation's load gave, where it has been performed ahead (R374). -/
def Stream.loaded (t : Stream) : Option (List Word) :=
  (t.ahead.find? (fun e => e.1 == t.at_ && e.2.1 == t.next)).map (fun e => e.2.2)

/-- The load of the next operation, unless it has been performed. -/
def loadOnce (s : State) (w : Agent) (depth : Nat) (t : Stream) (o : BitVec 64) (addr : Nat → Addr) : OpOut :=
  match t.loaded with
  | some ws => .next (t.putVec (StreamOp.vd o) ws) 0 s
  | none => streamLoad s w depth t o addr

def streamOp (core : Nat) (c : Crew) (w : Agent) (t : Stream) (o : BitVec 64) (s : State) : OpOut :=
  let step := (StreamOp.imm o).signExtend 64
  let base := t.addr (StreamOp.str o)
  match StreamOp.opc o with
  | 0x01 => loadOnce s w c.depth t o (fun l => base + BitVec.ofNat 64 l * step)
  | 0x02 => loadOnce s w c.depth t o (fun l => base + (t.word (StreamOp.va o) l).signExtend 64 * step)
  | 0x20 =>
    let q := (StreamOp.imm o).toNat % 8
    match s.crewAt core with
    | none => .stall s
    | some k =>
      if (k.queueAt q).full then .stall s
      else .next t 0 (s.setCrew core (k.setQueue q ((k.queueAt q).push ((List.range 64).map (t.word (StreamOp.va o))))))
  | _ =>
    let r := streamAlu t o
    .next (t.putVec (StreamOp.vd o) (r.map Prod.fst)) (r.foldl (fun f e => f ||| e.2) 0) s

/-- The point after the current one, loop 0 fastest; none after the last. -/
def nextPoint : List Nat → List Nat → Option (List Nat)
  | i :: is, n :: ns => if i + 1 < n then some ((i + 1) :: is) else (nextPoint is ns).map (fun r => 0 :: r)
  | _, _ => none

/-- Run the rest of a point: what the slot then holds. -/
def runPoint (core : Nat) (c : Crew) (w : Agent) : List (BitVec 64) → Stream → State → State
  | [], t, s =>
    let left : Option Stream := match nextPoint t.at_ t.lext with
      | some at_ => if t.stop then none else some { t with at_ := at_, next := 0, ahead := t.ahead.filter (fun e => e.1 != t.at_) }
      | none => none
    s.modCrew core (fun k => { k with stream := left })
  | o :: os, t, s =>
    match streamOp core c w t o s with
    | .next t fl s => runPoint core c w os { t with next := t.next + 1 } (s.raiseFlags core (squadOf t.slot) fl 0)
    | .stall s => s.modCrew core (fun k => { k with stream := some t })
    | .fault cause a =>
      let s := (s.modCrew core (fun k => { k with stream := none })).pendIssuer core t.slot t.num (streamPend cause a)
      if cause = 0x10 then s.padError core a else s
    | .broken va => structureFault w.ctx va s

/-! ### Loads of later points (R374) -/

/-- A load, and what a vector then holds. -/
def isLoad (o : BitVec 64) : Bool := StreamOp.opc o == 0x01 || StreamOp.opc o == 0x02

/-- Go through the operations of a point without its PUSHes, and keep what its loads give; false where one cannot be performed
now. No load is issued before its index vector is complete. -/
def aheadOps (core : Nat) (c : Crew) (w : Agent) (s : State) : List (BitVec 64) → Stream → Stream × Bool
  | [], t => (t, true)
  | o :: os, t =>
    if StreamOp.opc o = 0x20 then aheadOps core c w s os { t with next := t.next + 1 }
    else
      match streamOp core c w t o s with
      | .next u _ _ =>
        let u := if isLoad o && t.loaded.isNone then
            { u with ahead := u.ahead ++ [(t.at_, t.next, (List.range 64).map (u.word (StreamOp.vd o)))] }
          else u
        aheadOps core c w s os { u with next := u.next + 1 }
      | _ => (t, false)

/-- The loads performed once those of the rest of this point and of n − 1 later ones have been, as far as they can be. -/
def runAhead (core : Nat) (c : Crew) (w : Agent) (s : State) : Nat → Stream → List (List Nat × Nat × List Word)
  | 0, t => t.ahead
  | n + 1, t =>
    let r := aheadOps core c w s (t.ops.drop t.next) t
    match r.2, nextPoint t.at_ t.lext with
    | true, some at_ => if t.stop then r.1.ahead else runAhead core c w s n { r.1 with at_ := at_, next := 0 }
    | _, _ => r.1.ahead

/-- How many points ahead of its own the slot's loads now are, at most 8: a free value (R374, log 140). -/
def aheadBy (s : State) : Nat := (Config.freeValue (2 * s.drawn)).toNat % 9

/-- The slot performs loads of its point and of later ones, and then the micro-operations of its iteration point; while a
pre-emption is pending it starts none (R338), and neither does it in a world that is about to end. -/
def execStreamIterationPoint (core : Nat) (s : State) : Host.Outcome State Fault Refusal :=
  match s.crewAt core, s.agentAt core with
  | some c, some w =>
    match c.stream with
    | none => .next s
    | some t =>
      if c.ending.isSome || (c.preempt.isSome && t.next == 0) || c.isAway t.num then .next s
      else
        let t := { t with ahead := runAhead core c w s (aheadBy s + 1) t }
        let u := runPoint core c w (t.ops.drop t.next) t s
        .next (if u = s then s else { u with drawn := u.drawn + 1 })
  | _, _ => .next s

/-- The slot stands at a PUSH to a full queue (R375). -/
def Crew.pushStalls (c : Crew) (t : Stream) : Bool :=
  match t.ops[t.next]? with
  | some o => StreamOp.opc o == 0x20 && (c.queueAt ((StreamOp.imm o).toNat % 8)).full
  | none => false

end Sys2Proof.Machine
end

