-- ==== Sys2Proof/Machine/Worlds.lean ====
section
/-! DEFINITION. Worlds (R273 to R291, R365): wfork, wyield, wabort, wchoose and wstat, and the steps that start, end, resume
and commit what they ask for. -/

namespace Sys2Proof.Machine

/-! ## Slots and generations -/

/-- Generations of a core's q0..q7 and task queue (R31, R257). -/
def Core.gen (k : Core) (i : Nat) : BitVec 12 := k.gens.getD i 0

/-- A slot is released: its generations change (R257, R343). -/
def State.newGens (s : State) (core : Nat) : State :=
  s.modCore core (fun k => { k with gens := (List.range 9).map (fun i => k.gen i + 1) })

/-- A crew starts or resumes in a core's slot: every line leaves its read-only cache (R301), and nothing of an earlier crew is
left there. -/
def State.dropRo (s : State) (core : Nat) : State := s.modCore core (fun k => { k with ro := [], left := none })

/-- Empty queues of a slot with its generations. -/
def freshQueues (k : Core) (back : Nat) : List Queue := (List.range 8).map (fun i => { gen := k.gen i, back := back })
def freshTasks (k : Core) (cap : Nat) : TaskQueue := { gen := k.gen 8, cap := cap }

/-- A core whose saved crews were all saved for the launch. -/
def boundFor (s : State) (launch core : Nat) : Bool :=
  (s.parked.filter (fun p => p.bound && p.core == core)).all (fun p =>
    p.why == .saved && (match s.launchOf p.crew.launch with | some l => l.by_ == some launch | none => false))

/-- A core that is free for a launch: it holds no crew, and no saved crew is bound to it, but for one that the launch's
own priority pre-emption saved (R352). -/
def freeFor (s : State) (launch core : Nat) : Bool := (s.crewAt core).isNone && boundFor s launch core

/-- Cores free for a launch in the order of R365: of the cluster, the domain, the die, the package. -/
def grantOrder (s : State) (launch core : Nat) : List Nat :=
  let free := (List.range 512).filter (freeFor s launch)
  let cl := free.filter (fun k => k / 8 == core / 8)
  let dom := free.filter (fun k => k / 8 != core / 8 && k / 64 == core / 64)
  let die := free.filter (fun k => k / 64 != core / 64 && k / 128 == core / 128)
  cl ++ dom ++ die ++ free.filter (fun k => k / 128 != core / 128)

/-- Free view tags (R275). -/
def freeTags (s : State) : List Nat := ((List.range 63).map (· + 1)).filter (fun v => (s.views.find v).isNone)

/-! ## wfork (R276) -/

/-- A need shared by the crew-collective world instructions. -/
def worldNeed (regs writes : List Nat) : Need :=
  { regs := regs, writes := writes, stall := true, feature := some 0, worlds := true }

/-- Crew-collective arrival: every live fibre of the gang in one group, all acting (R276), before the checks of the
instruction itself (R102). -/
def arriveAll (c : UnitCtx) (legal : Bool) (a : Arrival) (s : State) : Act :=
  if c.acts != c.gang.liveMask then .trap { cause := 2, lane := c.low } 0
  else if !legal then .trap { cause := 1, lane := c.low } 0
  else .jump (waitFor c (.arrival a c.nextPc) s)

def execWfork (x : Pfx) (d : Reg) (n : BitVec 4) (s : State) : Host.Outcome State Fault Refusal :=
  issueUnit x { worldNeed [d.toNat] [d.toNat] with delivers := fun _ _ => true } (fun c s =>
    arriveAll c true (.fork d n.toNat) s) s

/-- Counts of a crew's forks that have arrived; none while some live fibre has not. -/
def Crew.forkCounts (c : Crew) : Option (List Nat) :=
  let fs := c.gangs.flatMap (fun g => g.2.fibres.filter (fun f => f.live))
  let ns := fs.map (fun f => match f.hold with | some (.arrival (.fork _ n) _) => some n | _ => none)
  if fs.isEmpty || ns.any (·.isNone) then none else some (ns.filterMap id)

/-- The matrix queue and the copies are drained, the stream stands at an iteration point or at a stalled PUSH, and no register
is still to be written (R276, R338, R375). -/
def Crew.drained (c : Crew) : Bool :=
  c.matq.isEmpty && c.copies.isEmpty && (match c.stream with | none => true | some t => t.next == 0 || c.pushStalls t) &&
    c.gangs.all (fun g => g.2.destWait.isEmpty && g.2.hostReads.isEmpty)

/-- wfork returns in every fibre with a status (R277). -/
def Crew.answerFork (now t : Nat) (v : Word) (c : Crew) : Crew :=
  { c with gangs := c.gangs.mapVals (fun (g : Gang) =>
      let ws := (List.range 64).flatMap (fun l =>
        match (g.fibre l).hold with
        | some (.arrival (.fork d _) _) => g.wr 0 l d.toNat v ++ g.zeroShadows t l false d.toNat
        | _ => [])
      { g.putRegs ws with fibres := g.fibres.map (fun f =>
          match f.hold with
          | some (.arrival (.fork _ _) next) => f.release now next
          | _ => f) }) }

/-- A gang as a world starts with it (R279). It makes its generic accesses in the world's view, a task gang's copy too
(R274). -/
def worldGang (s : State) (tag i : Nat) (g : Gang) : Gang :=
  { g with pending := [], hostReads := [], destWait := [], phase := 0, sent := [], order := 0, roleMark := none,
           born := s.engineOps, late := none, fence := none, id := s.gangsMade + i
           task := g.task.map (fun k => { k with view := tag }) }

/-- The crew of world w (R279). A pre-emption request that has come past the last arrival goes to each world (R344). -/
def worldCrew (s : State) (c : Crew) (l : Launch) (parent core w tag : Nat) : Crew :=
  let k := s.coreAt core
  let base : Crew :=
    { c with
      gangs := c.gangs.mapIdx (fun i g => (g.1, worldGang s tag i g.2))
      squads := c.squads.map (fun q => { q with flags := 0, tflags := 0, spillct := 0, lastSlot := 15 })
      queues := freshQueues k (match c.queues with | q :: _ => q.back | [] => 256)
      tasks := freshTasks k c.tasks.cap
      stream := none, role := {}, world := w, depth := c.depth + 1, view := tag, parent := some parent, fork := none
      effects := [], ending := none, score := 0, away := []
      preempt := c.preempt.map (fun _ => { since := s.clock.toNat }) }
  let base := (base.answerFork s.clock.toNat l.rcd.tang 0).unstow s.clock.toNat
  { base with squads := base.squads.map (fun q => { q with spillct := 0 }) }

/-- World w starts in a core's slot (R279). -/
def State.startWorld (s : State) (c : Crew) (l : Launch) (parent core w tag : Nat) : State :=
  let s := (s.newGens core).dropRo core
  let k := worldCrew s c l parent core w tag
  { s.setCrew core k with gangsMade := s.gangsMade + k.gangs.length }

/-- A fork's refusal, or what it needs: status, tags and cores (R276). -/
def forkStatus (s : State) (core : Nat) (c : Crew) (counts : List Nat) : Nat × List Nat × List Nat :=
  let n := counts.headD 0
  if counts.any (· != n) then (5, [], [])
  else if c.squads.any (fun q => !q.bins.isEmpty || !q.formed.isEmpty) then (6, [], [])
  else if c.depth = 4 then (4, [], [])
  else if (match c.fork with | some f => f.ended && !f.complete | none => false) then (7, [], [])
  else if (freeTags s).length < n then (3, [], [])
  else if (grantOrder s c.launch core).length < n - 1 then (2, [], [])
  else (0, (freeTags s).take n, core :: (grantOrder s c.launch core).take (n - 1))

/-- The fork needs the engines drained before its last two checks. -/
def forkDrains (s : State) (core : Nat) (c : Crew) (counts : List Nat) : Bool :=
  let st := (forkStatus s core c counts).1
  st == 0 || st == 2 || st == 3

/-- After the last arrival, and the drain, the fork is refused or the worlds start (R276 to R280, R365). -/
def execForkStart (core : Nat) (s : State) : Host.Outcome State Fault Refusal :=
  match s.crewAt core with
  | none => .next s
  | some c =>
    match c.forkCounts, s.launchOf c.launch with
    | some counts, some l =>
      if c.ending.isSome || (forkDrains s core c counts && !c.drained) then .next s
      else
        let now := s.clock.toNat
        match forkStatus s core c counts with
        | (0, tags, cores) =>
          let id := s.parkCount
          -- the parent is saved, its writes released (R280, R338)
          let s := c.gangs.keys.foldl (fun s slot => s.closePhase core slot (fun _ => false)) s
          let c := ((s.crewAt core).getD c).stow now
          let parent := { c with
            fork := some { n := tags.length }, preempt := none, role := {}
            gangs := c.gangs.mapVals (fun (g : Gang) => { g with roleMark := none }) }
          let s := { s with
            parkCount := id + 1
            parked := s.parked ++ [{ id := id, crew := parent, core := core, bound := false, why := .suspended, since := now }]
            views := tags.foldl (fun (m : Map View) v => m.put v { parent := c.view }) s.views }
          let slots := (List.zip tags cores).mapIdx (fun w q => (w, q))
          .next ((slots.foldl (fun (s : State) q => s.startWorld c l id q.2.2 q.1 q.2.1) s).fuseClusters l)
        | (st, _, _) => .next (s.modCrew core (fun c => c.answerFork now l.rcd.tang (BitVec.ofNat 32 st)))
    | _, _ => .next s

/-! ## wyield and wabort (R285, R286) -/

def execWyield (x : Pfx) (a : Reg) (s : State) : Host.Outcome State Fault Refusal :=
  issueUnit x (worldNeed [a.toNat] []) (fun c s =>
    arriveAll c (c.crew.depth != 0) (.worldYield (c.word 0 a)) s) s

def execWabort (x : Pfx) (s : State) : Host.Outcome State Fault Refusal :=
  issueUnit x (worldNeed [] []) (fun c s =>
    if c.acts = 0 then .done s
    else if c.crew.depth = 0 then .trap { cause := 1, lane := c.low } 0
    else .jump (endWorld c.core 2 0 s)) s

/-- Scores of the gangs that have arrived in wyield, by squad and then gang; none while some live gang has not. -/
def Crew.yieldScores (c : Crew) : Option (List (Nat × Word)) :=
  let score (g : Gang) : Option Word :=
    g.fibres.findSome? (fun f => match f.hold with | some (.arrival (.worldYield w) _) => if f.live then some w else none | _ => none)
  let waiting := c.squads.any (fun q => !q.bins.isEmpty || !q.formed.isEmpty)
  let all := c.gangs.all (fun g => g.2.fibres.all (fun f =>
    !f.live || (match f.hold with | some (.arrival (.worldYield _) _) => true | _ => false)))
  if c.gangs.isEmpty || waiting || !all then none
  else some (c.gangs.filterMap (fun g => (score g.2).map (fun w => (squadOf g.1 * 16 + gangRank g.1, w))))

/-- The score of the gang with the lowest %squad, then the lowest %gang. -/
def bestScore (l : List (Nat × Word)) : Word :=
  ((l.foldl (fun (b : Option (Nat × Word)) e =>
    match b with | none => some e | some o => if e.1 < o.1 then some e else b) none).map Prod.snd).getD 0

/-- Every gang has ended, none waits to start, and the engines are done. -/
def Crew.finished (c : Crew) : Bool :=
  c.gangs.isEmpty && c.squads.all (fun q => q.bins.isEmpty && q.formed.isEmpty) && c.tasks.recs.isEmpty &&
    c.matq.isEmpty && c.copies.isEmpty && c.stream.isNone

/-- How a world ends now: status, cause and score; none where it goes on (R285 to R287). The copies of an aborted world
that are in flight finish (R286, log 77). -/
def worldVerdict (c : Crew) : Option (BitVec 8 × BitVec 8 × Word) :=
  match c.ending with
  | some (st, cause) => if st = 2 ∧ c.copies.any (fun o => o.running) then none else some (st, cause, 0)
  | none =>
    match c.yieldScores with
    | some l => if c.matq.isEmpty && c.copies.isEmpty && c.stream.isNone then some (1, 0, bestScore l) else none
    | none => if c.finished then some (3, 0, 0) else none

/-- Change the side-log entries, those of saved crews too (R334, R339). -/
def State.mapLogs (s : State) (f : List SideEntry → List SideEntry) : State :=
  { s with cores := s.cores.mapVals (fun (k : Core) => { k with sideLog := f k.sideLog }), savedLog := f s.savedLog }

/-- Discard the views of worlds, with the side-log entries and the contributions made in them (R290, R336). -/
def State.discardViews (s : State) (vs : List Nat) : State :=
  { s.mapLogs (fun es => es.filter (fun e => !vs.contains e.view)) with
    ordered := s.ordered.filter (fun c => !vs.contains c.view)
    views := vs.foldl (fun (m : Map View) v => m.modify v (fun w => { w with state := 2 })) s.views }

/-- A fork left unchosen is discarded (R289). -/
def State.discardFork (s : State) (c : Crew) : State :=
  match c.fork with
  | some f => if f.ended && f.chosen.isNone && !f.complete then s.discardViews (f.outs.vals.map (·.view)) else s
  | none => s

/-- Copies in the L1 of the core's view end with the slot; lines of the read-only cache stay (R301). -/
def State.dropViewCopies (s : State) (core view : Nat) : State :=
  s.modCore core (fun k => { k with l1 := k.l1.filter (fun e => e.view != view || view == 0) })

/-- A world of a fork has ended on a core; the fork has ended once each of them has (R280, R287). World 0's slot, where it
is the parent's own, stays the parent's, and at the fork's end the parent takes its own core, where that is free; a parent of
depth 0 is bound to it in any case (R365). -/
def noteWorld (free : Nat → Bool) (now core w : Nat) (out : WorldOut) (effects : List Effect) (p : Parked) : Parked :=
  match p.crew.fork with
  | none => p
  | some f =>
    let f := { f with outs := f.outs.put w out, effects := f.effects.put w effects }
    let f := { f with ended := decide (f.outs.length ≥ f.n) }
    { p with crew := { p.crew with fork := some f }, ready := f.ended, readyAt := now
             bound := p.bound || (w == 0 && core == p.core) || (f.ended && (p.crew.depth == 0 || free p.core)) }

/-- A world ends: its round closes, once no contribution of it waits in a side log (R196, R335), its view and outcome stay
with the parent, and its slot returns (R287). -/
def execWorldEnd (core : Nat) (s : State) : Host.Outcome State Fault Refusal :=
  match s.crewAt core with
  | none => .next s
  | some c =>
    match c.parent, worldVerdict c with
    | some pid, some (st, cause, score) =>
      if c.depth = 0 || ((st = 1 || st = 3) && s.loggedAdds c.launch c.view) then .next s
      else
        let s := (if st = 1 || st = 3 then s.closeRound c.launch c.view else s).discardFork c
        let c := (s.crewAt core).getD c
        -- a contribution that the view has no space for ends the world as exhausted (R283)
        let (st, cause, score) := match c.ending with | some (a, b) => (a, b, 0) | none => (st, cause, score)
        let out : WorldOut :=
          { status := st, cause := cause, score := score, neff := c.effects.length, view := c.view
            sqFlags := c.squads.map (fun q => (q.flags, q.tflags)) }
        let s := (s.newGens core).dropViewCopies core c.view
        let s := { s with crews := s.crews.erase core }
        .next { s with parked := s.parked.map (fun p =>
          if p.id == pid then noteWorld (freeFor s c.launch) s.clock.toNat core c.world out c.effects p else p) }
    | _, _ => .next s

/-! ## wstat (R288) -/

/-- The status word of a world. -/
def statusWord (o : WorldOut) : Word :=
  let fl := (o.sqFlags.foldl (fun f q => f ||| q.1) (0 : Word)).toNat % 128
  BitVec.ofNat 32 (fl * 2 ^ 24 + o.neff * 2 ^ 16 + (if o.status = 4 then o.cause.toNat else 0) * 2 ^ 8 + o.status.toNat)

/-- The fork summary. -/
def summaryWord : Option Fork → Word
  | none => 0xf0
  | some f => BitVec.ofNat 32 (f.reason.toNat * 2 ^ 9 + f.complete.toNat * 2 ^ 8 +
      (if f.complete then f.chosen.getD 15 else 15) * 16 + f.n)

def wstatUnit (x : Pfx) (score : Bool) (d a : Reg) (s : State) : Host.Outcome State Fault Refusal :=
  issueUnit x (worldNeed [a.toNat, d.toNat] [d.toNat]) (fun c s =>
    let i := (c.word c.low a).toNat
    let out := match c.crew.fork with | some f => f.outs.find i | none => none
    let v : Word :=
      if i ≥ 8 then (if score then 0 else summaryWord c.crew.fork)
      else
        match out with
        | none => 0
        | some o => if score then (if o.status = 1 then o.score else 0) else statusWord o
    .done (putStatus c d v s)) s

def execWstatScore (x : Pfx) (d a : Reg) (s : State) : Host.Outcome State Fault Refusal := wstatUnit x true d a s
def execWstatStatus (x : Pfx) (d a : Reg) (s : State) : Host.Outcome State Fault Refusal := wstatUnit x false d a s

/-! ## wchoose (R289, R290) -/

def chooseUnit (x : Pfx) (regs : List Nat) (index : UnitCtx → Option Word) (s : State) : Host.Outcome State Fault Refusal :=
  issueUnit x (worldNeed regs []) (fun c s =>
    arriveAll c (match c.crew.fork with | some f => f.ended && !f.complete | none => false) (.choose (index c)) s) s

def execWchoose (x : Pfx) (a : Reg) (s : State) : Host.Outcome State Fault Refusal :=
  chooseUnit x [a.toNat] (fun c => some (c.word 0 a)) s
def execWchooseNone (x : Pfx) (s : State) : Host.Outcome State Fault Refusal := chooseUnit x [] (fun _ => none) s

/-- The indices that the gangs name; none while some live fibre has not arrived in wchoose. -/
def Crew.choices (c : Crew) : Option (List (Option Word)) :=
  let fs := c.gangs.flatMap (fun g => g.2.fibres.filter (fun f => f.live))
  let cs := fs.map (fun f => match f.hold with | some (.arrival (.choose i) _) => some i | _ => none)
  if fs.isEmpty || cs.any (·.isNone) then none else some (cs.filterMap id)

/-- The world a choice commits, or why it commits none (R289). -/
def chosenWorld (f : Fork) (cs : List (Option Word)) : Nat ⊕ BitVec 2 :=
  let first := cs.headD none
  if cs.any (· != first) then .inr 1
  else
    match first with
    | none => .inr 0
    | some w =>
      if w.toNat ≥ f.n then .inr 2
      else match f.outs.find w.toNat with
        | some o => if o.status = 1 then .inl w.toNat else .inr 3
        | none => .inr 3

/-- wchoose completes: C is set and every gang continues (R289, R290). -/
def finishChoice (core : Nat) (s : State) : State :=
  let now := s.clock.toNat
  let t := s.ltime
  s.modCrew core (fun c =>
    { c with
      fork := c.fork.map (fun f => { f with complete := true, effects := [] })
      gangs := c.gangs.mapVals (fun (g : Gang) =>
        { g with
          pts := max g.pts t
          fibres := g.fibres.map (fun f =>
            match f.hold with | some (.arrival (.choose _) next) => f.release now next | _ => f) }) })

/-- Side-log entries of a committed view are from now on the parent view's, at the commit's logical time and in the order they
had (R290, R336). -/
def State.retagLogs (s : State) (view into time : Nat) : State :=
  s.mapLogs (fun es => es.map (fun e =>
    if e.view = view then { e with view := into, time := time, before := e.time :: e.before } else e))

/-- The written bytes of a world enter the parent view at one logical time, those still in a side log included, and its
flags merge (R290 steps 1 and 2, R315). -/
def commitBytes (core : Nat) (c : Crew) (o : WorldOut) (s : State) : State :=
  match s.views.find o.view with
  | none => s
  | some v =>
    let lines := (v.bytes.keys.map lineOf).eraseDups
    let t := lines.foldl (fun n l => max n ((s.timeOf c.view l).rts + 1)) (s.ltime + 1)
    let bad := lines.filter (fun n => s.poison.contains (n * 64 + o.view))
    let s := ((s.storeBytes c.view t v.bytes).1).retagLogs o.view c.view t
    -- a poisoned copy of a line leaves the parent's poisoned (R317)
    let s := { s with poison := ((s.poison ++ bad.map (fun n => n * 64 + s.liveView c.view)).filter
      (fun k => k % 64 != o.view)).eraseDups }
    let s := { s with views := s.views.modify o.view (fun v => { v with state := 1, time := t, bytes := [] }) }
    s.modCrew core (fun c => { c with squads := c.squads.mapIdx (fun i q =>
      let fl := o.sqFlags.getD i (0, 0)
      { q with flags := q.flags ||| fl.1, tflags := q.tflags ||| fl.2 }) })

/-- The gang that deferred effects are performed for: the live one of the lowest rank. -/
def lowestGang (c : Crew) : Nat := c.gangs.keys.headD 0

/-- A report of a deferred store beyond the host window (R290, R401). -/
def State.reportStore (s : State) (c : Crew) (core off : Nat) : State :=
  let l := s.launchOf c.launch
  s.report { type := 7, ctx := match l with | some l => l.rcd.ctx | none => 0, launch := c.launch
             ltag := match l with | some l => l.rcd.ltag | none => 0, place := core, addr := BitVec.ofNat 64 off }

/-- One lane of a deferred host-mapped effect (R290 step 3). -/
def performItem (core : Nat) (c : Crew) (i : EffectItem) (s : State) : State :=
  let base := s.window.hwbase.toNat
  let put (off : Nat) (bs : List Byte) : State := { s with host := s.host.sets 0 (spread (base + off) bs) }
  let inside (off : Nat) : Bool := decide (off < s.window.hwsize.toNat)
  match i with
  | .bytes off bs => if inside off then put off bs else s.reportStore c core off
  | .nibble off h v => if inside off then put off [putNibble (s.host.get 0 (base + off)) h v] else s.reportStore c core off
  | .rmw off fn wide v tangent =>
    if inside off then
      let r := applyAtom fn wide (addrOf (memBytes s.host (base + off) (atomSize wide))) v
      (put off (bytesOfNat (atomSize wide) r.1.toNat)).modCrew core (fun c => c.raise (squadOf (lowestGang c)) tangent r.2)
    else s.reportStore c core off

/-- The effects still to perform of the committed world. -/
def Fork.left (f : Fork) : List Effect := match f.chosen with | some w => f.effects.get [] w | none => []

/-- A packet of the crew's lowest gang is still in flight. -/
def State.sendsInFlight (s : State) (core slot : Nat) : Bool :=
  s.packets.any (fun p => match p with
    | .entry _ _ k n _ _ => k == core && n == slot
    | .task _ _ k n _ _ => k == core && n == slot
    | .succ _ _ _ _ => false)

/-- The items of a deferred effect in order, as far as there is room for the report that one may make (R401): those left. -/
def performItems (core : Nat) (c : Crew) : List EffectItem → State → State × List EffectItem
  | [], s => (s, [])
  | i :: is, s => if s.reportRoom then performItems core c is (performItem core c i s) else (s, i :: is)

/-- Perform the next deferred effect of a commit into view 0; a push or a send waits to be accepted. -/
def performEffect (core : Nat) (c : Crew) (e : Effect) (s : State) : State :=
  let slot := lowestGang c
  let took (rest : List Effect) (s : State) : State := s.modCrew core (fun c => { c with fork := c.fork.map (fun f =>
    match f.chosen with | some w => { f with effects := f.effects.modify w (fun l => rest ++ l.drop 1) } | none => f) })
  match e with
  | .host items =>
    let r := performItems core c items s
    took (if r.2.isEmpty then [] else [.host r.2]) r.1
  | .push h ws => took [] { s.countSent c.launch with packets := s.packets ++ [.entry h ws core slot 0 none] }
  | .send h r => took [] { s with packets := s.packets ++ [.task h (tagRecord r c.view) core slot 0 []] }

/-- Step by step, a choice: the worlds not chosen are discarded, the chosen one's bytes, flags and effects enter the
parent view, and wchoose completes (R289, R290). -/
def execWorldCommit (core : Nat) (s : State) : Host.Outcome State Fault Refusal :=
  match s.crewAt core with
  | none => .next s
  | some c =>
    match c.fork, c.choices with
    | some f, some cs =>
      if !f.ended || f.complete || c.ending.isSome then .next s
      else
        match f.chosen with
        | some _ =>
          match f.left with
          | e :: _ => if s.sendsInFlight core (lowestGang c) || !s.reportRoom then .next s else .next (performEffect core c e s)
          | [] => if s.sendsInFlight core (lowestGang c) then .next s else .next (finishChoice core s)
        | none =>
          match chosenWorld f cs with
          | .inr reason =>
            let s := s.discardViews (f.outs.vals.map (·.view))
            .next (finishChoice core (s.modCrew core (fun c => { c with fork := some { f with reason := reason } })))
          | .inl w =>
            let others := (f.outs.filter (fun o => o.1 != w)).map (fun o => o.2.view)
            let effects := f.effects.get [] w
            let s := s.discardViews others
            let s := match f.outs.find w with | some o => commitBytes core c o s | none => s
            let keep : Map (List Effect) := if c.view = 0 then [(w, effects)] else []
            let s := s.modCrew core (fun c => { c with fork := some { f with chosen := some w, effects := keep } })
            if c.view != 0 && decide (c.effects.length + effects.length > 64) then .next (endWorld core 0x0a 0 s)
            else
              let s := s.modCrew core (fun c => { c with effects := if c.view = 0 then c.effects else c.effects ++ effects })
              .next (if c.view != 0 || effects.isEmpty then finishChoice core s else s)
    | _, _ => .next s

/-! ## Background work on views (R275) -/

/-- A task record, queued or in flight, or a task gang names the tag. -/
def State.namesTag (s : State) (tag : Nat) : Bool :=
  let hit (r : TaskRec) : Bool := recNat r.bytes 40 2 == tag
  let names (c : Crew) : Bool :=
    c.tasks.recs.any hit || c.gangs.any (fun g => match g.2.task with | some k => k.view == tag | none => false)
  s.crews.any (fun c => names c.2) || s.parked.any (fun p => names p.crew) ||
    s.packets.any (fun p => match p with | .task _ r _ _ _ _ => recNat r 40 2 == tag | _ => false)

/-- A side-log entry has been made in the view. -/
def State.logsView (s : State) (tag : Nat) : Bool :=
  s.cores.any (fun k => k.2.sideLog.any (fun e => e.view == tag)) || s.savedLog.any (fun e => e.view == tag)

/-- What a read-only line of a tag that has become free is tagged with: it stays in its cache (R301), and no access names it. -/
def deadTag : Nat := 64

/-- A committed view has been merged, or a discarded one dropped: its tag becomes free once no task record and no side-log
entry names it (R275, R359). Descendants go first. What a task gang of another crew has written in a committed view since has
entered the parent's at once (R315; log 129). -/
def execViewBackgroundMerge (tag : Nat) (s : State) : Host.Outcome State Fault Refusal :=
  match s.views.find tag with
  | none => .next s
  | some v =>
    if v.state = 0 || s.views.any (fun e => e.2.parent == tag) || s.namesTag tag || (v.state == 1 && s.logsView tag) then .next s
    else
      let s := if v.state = 1 then s else s.discardViews [tag]
      .next { s with
        views := s.views.erase tag
        poison := s.poison.filter (fun k => k % 64 != tag)
        lines := s.lines.filter (fun e => e.1 % 64 != tag)
        cores := s.cores.mapVals (fun (k : Core) =>
          { k with l1 := k.l1.filter (fun e => e.view != tag)
                   ro := k.ro.map (fun (e : RoLine) => if e.view = tag then { e with view := deadTag } else e) }) }

end Sys2Proof.Machine
end

