-- ==== Sys2Proof/Machine/Place.lean ====
section
/-! DEFINITION. Which launch the scheduler serves next, and where (R351, R352, R354, R355). -/

namespace Sys2Proof.Machine

/-! ## Placement (R352) -/

/-- LEVEL 0: each crew in turn takes the free core of the cluster that has the fewest free cores. -/
def placeSingles (free : List Nat) : Nat → Option (List Nat)
  | 0 => some []
  | n + 1 =>
    let count (k : Nat) : Nat := (free.filter (fun j => j / 8 == k)).length
    let best := (List.range 64).foldl (fun (b : Option Nat) k =>
      if count k = 0 then b
      else match b with | none => some k | some j => if count k < count j then some k else b) none
    match best.bind (fun k => free.find? (fun j => j / 8 == k)) with
    | none => none
    | some core => (placeSingles (free.erase core) n).map (core :: ·)

/-- LEVEL 1 to 3: whole units of free cores, in ascending order. -/
def placeUnits (free : Nat → Bool) (unit n : Nat) : Option (List Nat) :=
  let units := (List.range (512 / unit)).filter (fun u => (List.range unit).all (fun i => free (u * unit + i)))
  if units.length * unit < n then none
  else some ((units.take (n / unit)).flatMap (fun u => (List.range unit).map (u * unit + ·)))

/-- Insert in ascending order. -/
def insertNat (n : Nat) : List Nat → List Nat
  | [] => [n]
  | m :: ms => if n ≤ m then n :: m :: ms else m :: insertNat n ms

def ascending (l : List Nat) : List Nat := l.foldr insertNat []

/-- Cores for every crew of a launch, in crew-index order (R347), or none. -/
def placeCrews (free : Nat → Bool) (r : Record) : Option (List Nat) :=
  match r.level with
  | 0 => (placeSingles ((List.range 512).filter free) r.crews).map ascending
  | 1 => placeUnits free 8 r.crews
  | 2 => placeUnits free 64 r.crews
  | _ => placeUnits free 512 r.crews

/-! ## The order of service (R351, R365) -/

/-- Saved crews of a launch. -/
def State.savedOf (s : State) (launch : Nat) : List Parked :=
  s.parked.filter (fun p => p.crew.launch == launch && p.why == .saved)

/-- Effective level of a launch of queue q that has waited w cycles. -/
def effectiveLevel (q w : Nat) : Nat := if q < 4 then q else max 4 (q - w / 2 ^ 22)

/-- Since when a launch has been on the resume list. -/
def waitsSince (s : State) (l : Launch) : Nat :=
  if l.st = .preempted then l.preemptedAt
  else (s.savedOf l.num).foldl (fun n p => max n p.since) 0

/-- A candidate for cores: the head of a queue, a launch on the resume list, or a suspended parent that has joined it. -/
inductive Candidate where
  | head (queue : Nat)
  | resume (launch : Nat)
  | parent (id : Nat)
deriving DecidableEq, Repr

def State.parkedAt (s : State) (id : Nat) : Option Parked := s.parked.find? (fun p => p.id == id)

/-- The key by which candidates are served: effective level, the resume list first, the lower queue, the earlier. -/
def serviceKey (s : State) : Candidate → List Nat
  | .head q =>
    match (s.queues.getD q {}).current with
    | none => []
    | some h => [effectiveLevel q (s.clock.toNat - h.since), 1, q, h.since]
  | .resume n =>
    match s.launchOf n with
    | none => []
    | some l => [effectiveLevel l.queue (s.clock.toNat - waitsSince s l), 0, l.queue, waitsSince s l]
  | .parent id =>
    match (s.parkedAt id).bind (fun p => (s.launchOf p.crew.launch).map (fun l => (p, l))) with
    | none => []
    | some (p, l) => [effectiveLevel l.queue (s.clock.toNat - p.readyAt), 0, l.queue, p.readyAt]

/-- An eligible head: its dependences are met, and no earlier record of its queue is still to end. -/
def State.eligible (s : State) (q : Nat) : Option Head :=
  match (s.queues.getD q {}).current with
  | some h => if h.depsMet then some h else none
  | none => none

/-- Cores that a head whose victims are being saved needs: those it is to take once they have gone (R354). -/
def headNeeds (s : State) (x : Launch) : List Nat :=
  let isVictim (n : Nat) : Bool := match s.launchOf n with | some l => l.by_ == some x.num | none => false
  if !s.launches.any (fun l => l.by_ == some x.num) then []
  else
    (placeCrews (fun k => boundFor s x.num k && ((s.crewAt k).map (·.launch)).all isVictim) x.rcd).getD []

/-- Cores that heads before a candidate in the order need (R351, log 85). -/
def neededBefore (s : State) (c : Candidate) : List Nat :=
  (List.range 16).flatMap (fun q =>
    match s.eligible q with
    | some h => if keyLt (serviceKey s (.head q)) (serviceKey s c) then headNeeds s h.launch else []
    | none => [])

/-- Cores for the head of a queue. -/
def headCores (s : State) (q : Nat) (h : Head) : Option (List Nat) :=
  let needed := neededBefore s (.head q)
  placeCrews (fun k => freeFor s h.launch.num k && !needed.contains k) h.launch.rcd

/-! ## The resume list (R340, R355) -/

/-- The core for a parked crew of depth 0, or for a parent whose slot is kept: its own. For a world crew that core or, in the
order of R365 from it, another free one. -/
def resumeCore (s : State) (p : Parked) (ok : Nat → Bool) : Option Nat :=
  if p.bound then (if (s.crewAt p.core).isNone then some p.core else none)
  else (p.core :: grantOrder s p.crew.launch p.core).find? (fun k => freeFor s p.crew.launch k && ok k)

/-- Cores for saved crews. -/
def resumeCores (s : State) (ok : Nat → Bool) : List Parked → List Nat → Option (List (Nat × Nat))
  | [], _ => some []
  | p :: ps, taken =>
    match resumeCore s p (fun k => ok k && !taken.contains k) with
    | none => none
    | some k => if ok k then (resumeCores s ok ps (k :: taken)).map ((p.id, k) :: ·) else none

/-- Bound crews first, so that no world crew takes a core that one of them needs. -/
def resumeOrder (ps : List Parked) : List Parked := ps.filter (·.bound) ++ ps.filter (fun p => !p.bound)

/-- Where the saved crews of a launch resume, all at once; none while one is still being saved. -/
def canResume (s : State) (l : Launch) : Option (List (Nat × Nat)) :=
  if l.st = .ending || (s.savedOf l.num).isEmpty || s.crews.any (fun c => c.2.launch == l.num && c.2.preempt.isSome) then none
  else
    let needed := neededBefore s (.resume l.num)
    resumeCores s (fun k => !needed.contains k) (resumeOrder (s.savedOf l.num)) []

/-- The core a suspended parent resumes on once its worlds have ended (R280, R365). -/
def parentCore (s : State) (p : Parked) : Option Nat :=
  let needed := neededBefore s (.parent p.id)
  if p.why == .suspended && p.ready then resumeCore s p (fun k => !needed.contains k) else none

/-- Whether a candidate can place now. A parent bound to its core takes it without being served. -/
def canServe (s : State) : Candidate → Bool
  | .head q => match s.eligible q with | none => false | some h => (headCores s q h).isSome
  | .resume n => match s.launchOf n with | none => false | some l => (canResume s l).isSome
  | .parent id => match s.parkedAt id with | none => false | some p => !p.bound && (parentCore s p).isSome

/-- The candidate that is served next: of those that can place, the first in order. -/
def serveNext (s : State) : Option Candidate :=
  let cs := (List.range 16).map Candidate.head ++ s.launches.map (fun l => Candidate.resume l.num) ++
    s.parked.map (fun p => Candidate.parent p.id)
  (cs.filter (canServe s)).foldl (fun (b : Option Candidate) c =>
    match b with
    | none => some c
    | some o => if keyLt (serviceKey s c) (serviceKey s o) then some c else b) none

/-! ## Priority pre-emption (R354) -/

/-- Insert a launch: descending queue number, then the latest start. -/
def insertVictim (l : Launch) : List Launch → List Launch
  | [] => [l]
  | m :: ms => if l.queue > m.queue || (l.queue == m.queue && l.started > m.started) then l :: m :: ms else m :: insertVictim l ms

/-- Victims, in the order they are taken, until the launch can place. -/
def takeVictims (s : State) (x : Launch) : List Launch → List Nat → Option (List Nat)
  | vs, taken =>
    let isFree (core : Nat) : Bool :=
      freeFor s x.num core ||
      (((s.crewAt core).map (·.launch)).all taken.contains &&
        s.parked.all (fun p => !(p.bound && p.core == core) || taken.contains p.crew.launch ||
          (match s.launchOf p.crew.launch with | some l => l.by_ == some x.num | none => false)))
    if (placeCrews isFree x.rcd).isSome then some taken
    else match vs with | [] => none | v :: vs => takeVictims s x vs (taken ++ [v.num])

/-- The victims of a head that has waited 2^20 cycles. -/
def victims (s : State) (q : Nat) (h : Head) : Option (List Nat) :=
  if s.clock.toNat < h.since + 2 ^ 20 || (placeCrews (freeFor s h.launch.num) h.launch.rcd).isSome then none
  else
    let vs := (s.launches.filter (fun l => l.st == .running && decide (4 ≤ l.queue) && decide (q < l.queue))).foldl
      (fun vs l => insertVictim l vs) []
    takeVictims s h.launch vs []

end Sys2Proof.Machine
end

