-- ==== Sys2Proof/Machine/Preempt.lean ====
section
/-! DEFINITION. Pre-emption: requests, the save and the resumption of a crew, and the overdue report (R163 to R165, R338
to R344); the end of a crew (R159, R356); the walker's probe and the resume of a page (R329, R336). -/

namespace Sys2Proof.Machine

/-! ## Requests (R338, R342) -/

def execPreemptionRequest (core : Nat) (s : State) : Host.Outcome State Fault Refusal :=
  .next (s.modCrew core (fun c => c.request s.clock.toNat))

/-- A request is cancelled: the crew no longer stops at its safe points; groups stopped there issue again. -/
def execPreemptionCancel (core : Nat) (s : State) : Host.Outcome State Fault Refusal :=
  .next (s.modCrew core (fun c => { c with preempt := none }))

/-! ## What counts as stopped (R163 to R165) -/

/-- Holds on an absent page, for side-log room there too, or on a saved peer, whose overdue reason is 2. -/
def Hold.awayFrom : Hold → Bool
  | .page _ _ | .peer _ | .sideLog _ => true
  | _ => false

/-- A live fibre has stopped: at a safe point, in a SAFE-marked wait or sleep, or held by another group's handler once
its remote push or send has been answered. -/
def Gang.laneStopped (g : Gang) (l : Nat) : Bool :=
  let f := g.fibre l
  !f.live || (match f.hold with | some h => h.atSafePoint && f.safe.isSome | none => false) ||
    (match g.handler with | some m => !m.getLsbD l | none => false) &&
      (match f.hold with | some (.answer _ _) => false | _ => true)

def Gang.allStopped (g : Gang) : Bool := (List.range 64).all g.laneStopped

/-- Every gang has stopped, with no incomplete fence and nothing still to be written to its registers. -/
def Crew.gangsStopped (c : Crew) : Bool :=
  c.gangs.all (fun g => g.2.allStopped && g.2.fence.isNone && g.2.destWait.isEmpty && g.2.hostReads.isEmpty)

/-- A collective that is past its last arrival completes before the save (R344). -/
def Crew.collectiveDue (c : Crew) : Bool := c.forkCounts.isSome || c.yieldScores.isSome || c.choices.isSome

/-! ## The save (R47, R339) -/

/-- The registers of a lane that its image holds: with a live set the anchors and the live window, with none all. -/
def savedReg (f : Fibre) (whole : Bool) (phys : Nat) : Bool :=
  whole || decide (phys < 16) ||
    (match f.safe with
     | some v => f.live && decide (f.wbase + 16 ≤ phys) && decide (phys < f.wbase + 16 + v.toNat)
     | none => false)

/-- A lane saved with every register: one of a handler group, or one held by a handler away from a safe point (R164). -/
def Gang.wholeLane (g : Gang) (l : Nat) : Bool :=
  match g.handler with
  | none => false
  | some m => m.getLsbD l || !(match (g.fibre l).hold with | some h => h.atSafePoint && (g.fibre l).safe.isSome | none => false)

/-- How a saved fibre is held when its crew runs again: its unit issues again, but for arrivals and waits that keep
what they have performed (R164, R165). -/
def Fibre.saved (f : Fibre) : Fibre :=
  match f.hold with
  | some (.arrival _ _) | some (.bins _) | some (.peer _) | some (.sideLog _) => f
  | some (.page c _) => { f with hold := some (.page c []) }
  | some (.calm _) => { f with hold := none, safe := none, arrived := false }
  | some .safePoint | some (.sleep _) => { f with hold := none, safe := none }
  | some h => if h.atSafePoint then { f with hold := none, safe := none } else f
  | none => f

/-- A gang as saved: the registers outside its live sets read zero (R89). R47 and R339 name no layout register: they are
kept (log 121). -/
def Gang.saved (g : Gang) : Gang :=
  { g with
    regs := g.regs.filter (fun (e : Nat × Word) =>
      let lane := e.1 % 64
      savedReg (g.fibre lane) (g.wholeLane lane) (e.1 / 64 % 1024))
    fibres := g.fibres.map Fibre.saved
    roleMark := none }

/-- The crew's image: what its operand buffers hold modified is written back first (R47). -/
def Crew.saved (c : Crew) (now : Nat) : Crew :=
  let c := c.stow now
  { c with gangs := c.gangs.mapVals Gang.saved, role := {}, preempt := none }

/-- A launch with no crew running has been pre-empted (R355). -/
def State.notePreempted (s : State) (launch : Nat) : State :=
  if s.crews.any (fun c => c.2.launch == launch) || (s.savedOf launch).isEmpty then s
  else s.modLaunch launch (fun l => if l.st = .running then { l with st := .preempted, preemptedAt := s.clock.toNat } else l)

/-- No crew of a context runs. -/
def State.ctxIdle (s : State) (ctx : Nat) : Bool :=
  !s.crews.any (fun c => match s.launchOf c.2.launch with | some l => l.rcd.ctx == ctx | none => false)

/-- The control plane loads the heap window of a context whose first crew is to start or resume (R321, log 130). -/
def State.enterCtx (s : State) (ctx : Nat) : State := if s.ctxIdle ctx then s.loadWindow ctx else s

/-- It writes the window back when the context's last crew has been saved (R321). -/
def State.leaveCtx (s : State) (ctx : Nat) : State := if s.ctxIdle ctx then s.storeWindow ctx else s

/-- Context of a launch. -/
def State.ctxOf (s : State) (launch : Nat) : Nat := match s.launchOf launch with | some l => l.rcd.ctx | none => 0

/-- Once a crew has stopped and drained it releases its writes; when they have all been performed it is saved and its
slot is freed (R338, R339, R343). -/
def execCrewSave (core : Nat) (s : State) : Host.Outcome State Fault Refusal :=
  match s.crewAt core with
  | none => .next s
  | some c =>
    if c.preempt.isNone || c.ending.isSome || !c.gangsStopped || !c.drained || c.collectiveDue then .next s
    else if c.gangs.any (fun g => !g.2.sent.isEmpty) then
      .next (c.gangs.keys.foldl (fun s slot => s.closePhase core slot (fun _ => false)) s)
    else if s.closesOf c then .next s
    else
      let mine (e : SideEntry) : Bool := e.launch == c.launch
      let p : Parked :=
        { id := s.parkCount, crew := c.saved s.clock.toNat, core := core, bound := c.depth == 0, why := .saved, since := s.clock.toNat }
      let logged := (s.coreAt core).sideLog.filter mine
      let s := s.modCore core (fun k => { k with sideLog := k.sideLog.filter (fun e => !mine e) })
      .next ((({ s with
        savedLog := s.savedLog ++ logged
        crews := s.crews.erase core
        parked := s.parked ++ [p]
        parkCount := s.parkCount + 1 }).notePreempted c.launch).leaveCtx (s.ctxOf c.launch))

/-! ## Resumption (R340, R355) -/

/-- One saved crew goes to its core. -/
def resumeOne (s : State) (p : Nat × Nat) : State :=
  match s.parkedAt p.1 with
  | none => s
  | some q =>
    let now := s.clock.toNat
    let s := s.enterCtx (s.ctxOf q.crew.launch)
    ({ s with crews := s.crews.put p.2 (q.crew.resumed now (now - q.since))
              parked := s.parked.filter (fun o => o.id != p.1) }).dropRo p.2

/-- A launch on the resume list resumes, every saved crew of it at once, when it is its turn (R351, R355). -/
def execCrewResume (parked : Nat) (s : State) : Host.Outcome State Fault Refusal :=
  match s.parkedAt parked with
  | none => .next s
  | some p =>
    match s.launchOf p.crew.launch with
    | none => .next s
    | some l =>
      if serveNext s ≠ some (.resume l.num) then .next s
      else
        match canResume s l with
        | none => .next s
        | some cores =>
          let l : Launch := { l with st := if l.st = .preempted then .running else l.st, by_ := none }
          .next (((cores.foldl resumeOne s).modLaunch l.num (fun _ => l)).fuseClusters l)

/-- A suspended parent resumes with status 1 once every world has ended: in the slot kept for it, or, from the resume list, in
its turn (R280, R365). -/
def execParentResume (parked : Nat) (s : State) : Host.Outcome State Fault Refusal :=
  match s.parkedAt parked with
  | none => .next s
  | some p =>
    match s.launchOf p.crew.launch with
    | none => .next s
    | some l =>
      if l.st != .running || !(p.bound || serveNext s == some (.parent parked)) then .next s
      else
        match parentCore s p with
        | none => .next s
        | some core =>
          let now := s.clock.toNat
          let c := (p.crew.answerFork now l.rcd.tang 1).resumed now (now - p.since)
          let s := s.enterCtx l.rcd.ctx
          .next (({ s with crews := s.crews.put core c, parked := s.parked.filter (fun q => q.id != parked) }.dropRo
            core).fuseClusters l)

/-! ## The overdue report (R342) -/

/-- The reason that a lane has not stopped; a sleep and a yield are no units of R165. -/
def overdueReason (f : Fibre) : BitVec 8 :=
  match f.hold with
  | some (.sleep _) | some (.yielded _ _) => 0
  | some h => if h.awayFrom && f.safe.isNone then 2 else if h.atSafePoint && f.safe.isNone then 1 else 0
  | none => 0

/-- The first group not yet stopped: its slot's gang in slot order, and of that gang the lowest PC. -/
def firstUnstopped (c : Crew) : Option (Addr × BitVec 8) :=
  c.gangs.findSome? (fun g =>
    ((List.range 64).filter (fun l => !g.2.laneStopped l)).foldl (fun (b : Option (Addr × BitVec 8)) l =>
      let f := g.2.fibre l
      match b with
      | none => some (f.pc, overdueReason f)
      | some o => if f.pc.toNat < o.1.toNat then some (f.pc, overdueReason f) else some o) none)

/-- The PC of each group of a gang that has not stopped. -/
def Gang.unstoppedPcs (g : Gang) : List Addr :=
  ((((List.range 64).filter (fun l => !g.laneStopped l)).map (fun l => ((g.fibre l).pc, (g.fibre l).wbase))).eraseDups).map
    Prod.fst

/-- The report is due: 2^20 cycles have passed since the request reached the crew. -/
def overdue (s : State) (c : Crew) : Bool :=
  match c.preempt with
  | some p => !p.reported && decide (p.since + 2 ^ 20 ≤ s.clock.toNat)
  | none => false

def execPreemptionOverdue (core : Nat) (s : State) : Host.Outcome State Fault Refusal :=
  match s.crewAt core with
  | none => .next s
  | some c =>
    if !overdue s c then .next s
    else
      let l := s.launchOf c.launch
      let g := firstUnstopped c
      let r : Report :=
        { type := 3, code := (g.map Prod.snd).getD 3, ctx := (l.map (·.rcd.ctx)).getD 0, launch := c.launch
          ltag := (l.map (·.rcd.ltag)).getD 0, place := core, pc := (g.map Prod.fst).getD 0 }
      let note : OverdueNote :=
        { launch := c.launch, core := core, code := r.code, gangs := c.gangs.mapVals Gang.unstoppedPcs }
      let s := s.modCrew core (fun c => { c with preempt := c.preempt.map (fun p => { p with reported := true }) })
      .next (({ s with device := { s.device with overdue := s.device.overdue ++ [note] } } : State).report r)

/-! ## The end of a crew (R159, R343, R356) -/

/-- Everything that keeps a finished crew's slot: a successor record that waits for its task queue. -/
def State.succOf (s : State) (core launch : Nat) : Bool :=
  s.packets.any (fun p => match p with | .succ _ k _ n => k == core && n == launch | _ => false)

/-- What a crew leaves in its slot when it ends (R417, R425). -/
def Crew.leaves (c : Crew) : Left :=
  { launch := c.launch, scratch := c.scratch, full := c.full, barriers := c.barriers
    flags := c.squads.map (fun q => (q.flags, q.tflags)) }

/-- A crew of depth 0 ends once its gangs, bins, tasks and engine work are done: a fork left unchosen is discarded, the
slot is released and its generations change. -/
def execCrewEnd (core : Nat) (s : State) : Host.Outcome State Fault Refusal :=
  match s.crewAt core with
  | none => .next s
  | some c =>
    if c.depth != 0 || !c.finished || s.succOf core c.launch then .next s
    else
      let s := ((s.discardFork c).newGens core).modCore core (fun k => { k with left := some c.leaves })
      .next ({ s with crews := s.crews.erase core }.notePreempted c.launch)

/-! ## The walker and the page-resume register (R329, R336) -/

/-- The walker probes the tables for an access of a core's crew: a translation enters the TLBs, an absent page is
posted, and a malformed table ends the context's launches (R323, R331, R333). -/
def execPageWalk (core : Nat) (va : Addr) (kind : Nat) (s : State) : Host.Outcome State Fault Refusal :=
  match s.agentAt core with
  | none => .next s
  | some w =>
    let k := AccessKind.ofCode kind
    if inWindow (s.ctxAt w.ctx) (va.toNat % 2 ^ 56) then .next s
    else
      .next (match walk s w.ctx (va.toNat % 2 ^ 56) k w.priv with
        | .unmapped => s
        | .broken => structureFault w.ctx va s
        | .absent page _ m => s.postFault w.ctx w.launch core k page m
        | .found _ => s.fillTlb core w.ctx w.priv k va)

def execPageResume (ctx : Nat) (va : Addr) (s : State) : Host.Outcome State Fault Refusal := .next (s.resumePage ctx va)

end Sys2Proof.Machine
end

