-- ==== Sys2Proof/Machine/Launch.lean ====
section
/-! DEFINITION. Launches (R319, R345 to R357): posting and taking a record, its checks, its dependences, the placement
of its crews, priority pre-emption, the end of a launch and its cancelling. -/

namespace Sys2Proof.Machine

/-! ## The record (R345) -/

/-- A launch record's fields from its 256 bytes; reserved bits are left out (R10). -/
def parseRecord (r : List Byte) : Record :=
  let n (off k : Nat) : Nat := recNat r off k
  let a (off : Nat) : Addr := BitVec.ofNat 64 (n off 8)
  { entry := a 0, arg := a 8, handler := a 16, htab := a 24, doneAt := a 40, dep := [a 48, a 56, a 64, a 72]
    ltag := BitVec.ofNat 32 (n 80 4), spanw := n 84 2, ctx := n 86 2, crews := n 88 2, gangs := n 90 1, wreg := n 91 1
    scratch := n 92 4, flags := BitVec.ofNat 16 (n 96 2) &&& 0x00fd#16, tang := n 98 1, level := n 99 1, sto := n 100 2
    qback := n 102 2, taskb := n 104 4, listb := n 108 4, ctl := a 112, tanstride := a 120
    rent := [a 128, a 136, a 144], rcnt := [n 152 1, n 153 1, n 154 1], rq := n 155 1 % 8, low := n 156 1, high := n 157 1
    dwell := n 158 2 }

/-- The agent of the control plane: it works for a launch and belongs to no core. -/
def controlCore : Nat := 512
def controlAgent (l : Launch) : Agent :=
  { core := controlCore, launch := l.num, ctx := l.rcd.ctx, priv := l.rcd.flags.getLsbD 0 }

/-! ## The checks of R349 -/

def Record.roles (r : Record) : Bool := r.flags.getLsbD 5
def aligned (n : Nat) (a : Addr) : Bool := a.toNat % n == 0

/-- Entries of a backing size field: 0 for the default, or in its range. -/
def sizeOk (hi n : Nat) : Bool := n == 0 || (decide (16 ≤ n) && decide (n ≤ hi))

/-- Fields in their ranges. SPANW 0 is none of R345's values; the example records that name no SPANW are read with 1 (log 141). -/
def rangesOk (r : Record) : Bool :=
  decide (1 ≤ r.spanw) && decide (1 ≤ r.crews) && decide (r.crews ≤ 512) && decide (1 ≤ r.gangs) && decide (r.gangs ≤ 64) &&
    decide (1 ≤ r.wreg) && decide (r.wreg ≤ 32) && r.scratch % 128 == 0 && decide (r.scratch ≤ 524288) &&
    decide (r.tang ≤ 4) && decide (r.level ≤ 3) && sizeOk (2 ^ 20) r.taskb && sizeOk (2 ^ 24) r.listb

/-- The role fields, which are judged when ROLES is set. -/
def rolesOk (r : Record) : Bool :=
  !r.roles ||
    (r.entry == 0 && r.rent.all (aligned 4) && r.rcnt.foldl (· + ·) 0 == r.gangs && r.rcnt.getD 0 0 != 0 &&
      r.rcnt.getD 1 0 != 0 && decide (r.low < r.high) && decide (r.low ≤ 16) && decide (1 ≤ r.dwell))

/-- The placement level suits the crews. -/
def levelOk (r : Record) : Bool :=
  !(r.flags.getLsbD 2 && r.level == 0) && (r.level != 1 || r.crews % 8 == 0) && (r.level != 2 || r.crews % 64 == 0) &&
    (r.level != 3 || r.crews == 512)

/-- The features the launch asks for are accepted (R103). -/
def featuresOk (f : BitVec 128) (r : Record) : Bool :=
  (r.tang == 0 || f.getLsbD 1) && (!r.flags.getLsbD 3 || f.getLsbD 2) && (!r.flags.getLsbD 4 || f.getLsbD 0) &&
    (!r.flags.getLsbD 2 || f.getLsbD 3)

/-- A squad of an empty core can reserve for its initial gangs (R24). -/
def segmentsOk (r : Record) : Bool := decide ((r.gangs + 3) / 4 * reserveOf r ≤ 4096)

/-- Queue and task backing of the launch's crews. -/
def backOf (r : Record) : Nat := if r.flags.getLsbD 7 then r.qback else 256
def tasksOf (r : Record) : Nat := if r.taskb = 0 then 4096 else r.taskb

/-- Pinned memory that the launch takes: backing of queues, tasks and lists, the save areas (R339) and the handle table
writes. -/
def pinnedNeed (r : Record) : Nat :=
  let save := 640 * 1024 + r.scratch + r.gangs * (1024 + (15 + 16 * r.wreg) * (1 + r.tang) * 256)
  r.crews * (8 * backOf r * 256 + tasksOf r * 64 + save) + 256 * (if r.listb = 0 then 4096 else r.listb) * 4 +
    (if r.htab = 0 then 0 else 128 * r.crews)

/-- What the control plane meets at an address that it must be able to use. -/
inductive Usable where
  | yes | no
  | away (pages : List (Addr × Bool))
  | broken (va : Addr)                 -- R331
deriving DecidableEq, Repr

def Usable.and : Usable → Usable → Usable
  | .broken a, _ | _, .broken a => .broken a
  | .no, _ | _, .no => .no
  | .away p, .away q => .away (p ++ q)
  | .away p, .yes | .yes, .away p => .away p
  | .yes, .yes => .yes

/-- A location on path 0x0 of the launch's context. -/
def usableAt (s : State) (w : Agent) (kind : AccessKind) (a : Addr) : Usable :=
  if pathOf a != 0 || !zeroBitsOk a then .no
  else
    match place s w kind false a 1 with
    | .here _ => .yes
    | .absent page _ m => .away [(page, m)]
    | .broken => .broken a
    | _ => .no

/-- The handle table's bytes, judged page by page. -/
def tableUsable (s : State) (l : Launch) : Usable :=
  let r := l.rcd
  if r.htab = 0 then .yes
  else if !aligned 128 r.htab then .no
  else
    let n := 128 * r.crews
    let firsts := r.htab :: ((List.range (n / 4096 + 1)).map (fun i =>
      BitVec.ofNat 64 ((r.htab.toNat / 4096 + 1 + i) * 4096))).filter (fun a => decide (a.toNat < r.htab.toNat + n))
    firsts.foldl (fun u a => u.and (usableAt s (controlAgent l) .engineWrite a)) .yes

/-- A completion counter that the control plane signals. -/
def doneUsable (s : State) (l : Launch) : Usable :=
  if l.rcd.doneAt = 0 then .yes
  else if !aligned 16 l.rcd.doneAt then .no
  else usableAt s (controlAgent l) .engineWrite l.rcd.doneAt

/-- What the checks of a record come to: accepted, refused with an outcome code, waiting for absent pages of the handle
table or of DONE, or a structure fault. -/
inductive Checked where
  | accepted
  | refused (code : BitVec 8)
  | away (pages : List (Addr × Bool))
  | broken (va : Addr)
deriving DecidableEq, Repr

/-- The checks of R349, in the order of the outcome table (R357); those that follow an absent page are made once it has been
resumed. -/
def checkLaunch (s : State) (l : Launch) : Checked :=
  let r := l.rcd
  if r.flags.getLsbD 0 && decide (4 ≤ l.queue) then .refused 1
  else if !rangesOk r || !aligned 4 r.entry || !aligned 4 r.handler || !rolesOk r || !levelOk r then .refused 2
  else
    match (tableUsable s l).and (doneUsable s l) with
    | .no => .refused 2
    | .broken va => .broken va
    | .away p => .away p
    | .yes =>
      if !featuresOk l.features r then .refused 3
      else if !segmentsOk r || Config.pinnedShort (pinnedNeed r) then .refused 4
      else .accepted

/-! ## Taking a record (R319, R348, R349, R399) -/

/-- The host posts records by writing LQTAIL (R399). -/
def execLaunchQueuePost (queue : Nat) (tail : Addr) (s : State) : Host.Outcome State Fault Refusal :=
  .next (if s.neverStarted || decide (queue ≥ 16) then s else s.writeTail queue tail)

/-- The launch number after n. -/
def nextNumber (n : Nat) : Nat := if n ≥ 2 ^ 32 - 1 then 1 else n + 1

/-- The 256 bytes of the record at the head of a queue; none where its address is misaligned or lies outside device
memory. -/
def headBytes (s : State) (q : LaunchQueue) : Option (List Byte) :=
  let at_ := q.ring.toNat + 8 * (q.head.toNat % q.size.toNat)
  if at_ + 8 > memSize then none
  else
    let a := memNat s.mem at_ 8
    if a % 256 != 0 || decide (a + 256 > memSize) then none else some (memBytes s.mem a 256)

/-- The control plane takes and places records: it has started, and no thermal stop has come (R403, R406). -/
def State.planeRuns (s : State) : Bool := s.device.bootst == 1 && s.mgmt.hot.isNone

/-- An earlier record of the queue has been taken and neither placed nor ended. -/
def State.queueBusy (s : State) (q : Nat) : Bool := s.launches.any (fun l => l.queue == q && l.st == .ending && l.cores.isEmpty)

/-- A launch that is not to start goes to its end with an outcome. -/
def State.refuse (s : State) (q : Nat) (l : Launch) (code : BitVec 8) : State :=
  { s.setQueue q { s.queueAt q with current := none } with
    launches := s.launches ++ [{ l with st := .ending, outcome := code }] }

/-- A walk of the control plane for a head met a malformed table: the head's launch ends with every other of its context
(R331). -/
def State.breakHead (s : State) (q : Nat) (l : Launch) (va : Addr) : State :=
  (structureFault l.rcd.ctx va s).refuse q { l with cause := 6, fatalAddr := va } 7

/-- The checks of a head, with the features accepted now (R398): it is refused, or waits on absent pages, or goes on to its
dependences. -/
def State.checkHead (s : State) (q : Nat) (h : Head) : State :=
  let l := { h.launch with features := s.window.featacc }
  let h := { h with launch := l }
  match checkLaunch s l with
  | .refused code => s.refuse q l code
  | .broken va => s.breakHead q l va
  | .away pages =>
    (pages.foldl (fun s p => s.awaitPages (controlAgent l) .engineWrite p.1 [p]) s).setQueue q
      { s.queueAt q with current := some { h with away := pages.map Prod.fst } }
  | .accepted => s.setQueue q { s.queueAt q with current := some { h with checked := true } }

/-- The control plane takes the record at the head of a queue, numbers it and checks it; checks that waited on an
absent page are made again. -/
def execLaunchRecordTake (queue : Nat) (s : State) : Host.Outcome State Fault Refusal :=
  if !s.planeRuns || decide (queue ≥ 16) || s.queueBusy queue then .next s
  else
    let q := s.queueAt queue
    match q.current with
    | some h =>
      if h.checked || h.away.any (s.isAwaiting h.launch.rcd.ctx) then .next s else .next (s.checkHead queue h)
    | none =>
      if q.head == q.tail || q.size == 0 then .next s
      else
        let l : Launch := { num := s.nextLaunch, queue := queue, rcd := {}, features := s.window.featacc }
        let t := { s with nextLaunch := nextNumber s.nextLaunch }.setQueue queue { q with head := q.head + 1 }
        match headBytes s q with
        | none => .next (t.refuse queue l 2)
        | some bs => .next (t.checkHead queue { launch := { l with rcd := parseRecord bs } })

/-! ## Dependences (R350) -/

/-- What a dependence comes to. -/
inductive Dep where
  | met | pending | failed | unusable
  | away (at_ : Addr) (pages : List (Addr × Bool))
  | broken (va : Addr)                 -- R331
deriving DecidableEq, Repr

def depState (s : State) (l : Launch) (a : Addr) : Dep :=
  if !aligned 16 a then .unusable
  else if s.isAwaiting l.rcd.ctx a then .pending
  else
    match usableAt s (controlAgent l) .load a with
    | .no => .unusable
    | .away p => .away a p
    | .broken va => .broken va
    | .yes =>
      match place s (controlAgent l) .load false a 16 with
      | .here loc =>
        let bs := s.peeks 0 loc 16
        if s.poisoned controlCore 0 loc 16 then .unusable
        else if !countReached bs 0 then .pending else if recNat bs 4 2 != 0 then .failed else .met
      | _ => .unusable

/-- The control plane reads the counters of a head that has passed its checks. -/
def execDependencyCheck (queue : Nat) (s : State) : Host.Outcome State Fault Refusal :=
  match (s.queueAt queue).current with
  | none => .next s
  | some h =>
    if !h.checked || h.depsMet || !s.planeRuns then .next s
    else
      let ds := (h.launch.rcd.dep.filter (· != 0)).map (depState s h.launch)
      match ds.findSome? (fun d => match d with | .broken va => some va | _ => none) with
      | some va => .next (s.breakHead queue h.launch va)
      | none =>
        if ds.contains .unusable then .next (s.refuse queue h.launch 2)
        else
        let s := ds.foldl (fun s d => match d with | .away a p => s.awaitPages (controlAgent h.launch) .load a p | _ => s) s
        if ds.any (fun d => match d with | .away _ _ | .pending => true | _ => false) then .next s
        else if ds.contains .failed then .next (s.refuse queue h.launch 5)
        else .next (s.setQueue queue { s.queueAt queue with current := some { h with depsMet := true, since := s.clock.toNat } })

/-! ## Placement (R346, R347, R352, R364) -/

/-- The role of an initial gang: 1 LOAD, 2 CONVERT, 3 STORE, and 0 without roles. -/
def initialRole (r : Record) (i : Nat) : BitVec 2 :=
  if !r.roles then 0
  else if i < r.rcnt.getD 0 0 then 1
  else if i < r.rcnt.getD 0 0 + r.rcnt.getD 1 0 then 2
  else 3

/-- Initial gang i of a crew. A launch that has waited on counters has acquired what their signals released (R350). -/
def initialGang (s : State) (l : Launch) (i : Nat) : Gang :=
  let role := initialRole l.rcd i
  { startGang l s
      { entry := if role = 0 then l.rcd.entry else l.rcd.rent.getD (role.toNat - 1) 0, lanes := 64, arg := l.rcd.arg
        role := role, roleIndex := if l.rcd.roles then some i else none } with
    pts := if l.rcd.dep.any (· != 0) then s.ltime else 0
    id := s.gangsMade + i }

/-- A crew as it starts on a core (R346). -/
def startCrew (s : State) (l : Launch) (core index : Nat) : Crew :=
  let r := l.rcd
  let k := s.coreAt core
  let c : Crew :=
    { launch := l.num, index := index, squads := List.replicate 4 {}, size := r.scratch
      barriers := List.replicate 32 { expc := r.gangs * 64 }
      queues := freshQueues k (backOf r), tasks := freshTasks k (tasksOf r) }
  (List.range r.gangs).foldl (fun c i => c.place r i (initialGang s l i)) c

/-- The 16 handles of a core's crew as the handle table holds them (R257). -/
def handleBlock (s : State) (core : Nat) : List Byte :=
  let k := s.coreAt core
  let span := s.span.rank.toNat
  ((List.range 8).flatMap (fun i => bytesOfNat 8 (makeHandle 1 span core i (k.gen i)).toNat)) ++
    bytesOfNat 8 (makeHandle 2 span core 0 (k.gen 8)).toNat ++ List.replicate 56 0

/-- Write bytes at a virtual address of the launch's context, byte by byte where they translate. -/
def State.controlWrite (s : State) (l : Launch) (a : Addr) (bs : List Byte) : State :=
  (s.storeBytes 0 s.ltime (((List.range bs.length).map (fun i =>
    match place s (controlAgent l) .engineWrite false (a + BitVec.ofNat 64 i) 1 with
    | .here (.mem pa _) => [(pa, bs.getD i 0)]
    | _ => [])).flatten)).1

/-- A crew of a launch starts on a core. -/
def State.startOn (s : State) (l : Launch) (core index : Nat) : State :=
  { s.setCrew core (startCrew s l core index) with gangsMade := s.gangsMade + l.rcd.gangs }

/-- Place a launch on cores: the context's heap window, new generations, the handle table, then every crew. Its code is
memory as it stands now (R77). -/
def placeLaunch (s : State) (l : Launch) (cores : List Nat) : State :=
  let s := s.enterCtx l.rcd.ctx
  let s := cores.foldl (fun s k => (s.newGens k).dropRo k) s
  let s := if l.rcd.htab = 0 then s
    else (cores.mapIdx (fun i k => (i, k))).foldl (fun s p =>
      s.controlWrite l (l.rcd.htab + BitVec.ofNat 64 (128 * p.1)) (handleBlock s p.2)) s
  let l := { l with cores := cores, code := s.mem, heap := s.ctxAt l.rcd.ctx, started := s.clock.toNat, st := .running }
  let s := { s with launches := s.launches ++ [l] }
  ((cores.mapIdx (fun i k => (i, k))).foldl (fun s p => s.startOn l p.2 p.1) s).fuseClusters l

/-- An eligible launch is placed, all at once, when it is its turn (R351, R352). -/
def execLaunchPlacement (queue : Nat) (s : State) : Host.Outcome State Fault Refusal :=
  match s.eligible queue with
  | none => .next s
  | some h =>
    if serveNext s ≠ some (.head queue) || !s.planeRuns then .next s
    else
      match headCores s queue h with
      | none => .next s
      | some cores => .next (placeLaunch (s.setQueue queue { s.queueAt queue with current := none }) h.launch cores)

/-- A launch that has waited 2^20 cycles has its victims pre-empted (R354). -/
def execPriorityPreemption (queue : Nat) (s : State) : Host.Outcome State Fault Refusal :=
  match s.eligible queue with
  | none => .next s
  | some h =>
    match victims s queue h with
    | none => .next s
    | some vs =>
      let now := s.clock.toNat
      .next { s with
        crews := s.crews.mapVals (fun (c : Crew) => if vs.contains c.launch then c.request now else c)
        launches := s.launches.map (fun l => if vs.contains l.num then { l with by_ := some h.launch.num } else l) }

/-! ## The end of a launch (R356, R357, R402) -/

/-- Drop every crew of a launch, its views, and the views of its forks that no choice has completed. -/
def State.dropCrews (s : State) (launch : Nat) : State :=
  let cs := s.crewsOf launch
  let views := cs.flatMap (fun c => (if c.view = 0 then [] else [c.view]) ++
    (match c.fork with | some f => if f.complete || f.chosen.isSome then [] else f.outs.vals.map (·.view) | none => []))
  let cores := (s.crews.filter (fun c => c.2.launch == launch)).map Prod.fst
  let s := cores.foldl (fun s k => s.newGens k) s
  ({ s with
    crews := s.crews.filter (fun c => c.2.launch != launch)
    parked := s.parked.filter (fun p => p.crew.launch != launch) }).discardViews views

/-- Side-log entries of a launch that wait for their page. -/
def State.logged (s : State) (launch : Nat) : Bool :=
  s.cores.any (fun k => k.2.sideLog.any (fun e => e.launch == launch)) || s.savedLog.any (fun e => e.launch == launch)

/-- The completion report of a launch. -/
def completion (l : Launch) (doneBad : Bool) : Report :=
  { type := 1, code := l.outcome, ctx := l.rcd.ctx, launch := l.num, ltag := l.rcd.ltag, cause := l.cause, ndisc := l.ndisc
    place := l.fatalCore, pc := l.fatalPc, addr := if doneBad then l.rcd.doneAt else l.fatalAddr }

/-- Signal a launch's DONE: an absent page makes the launch wait; one that can no longer be signalled is noted (R356), and a
walk that meets malformed tables ends this launch too as such (R331, log 134). -/
def signalDone (l : Launch) (s : State) : State :=
  let sent (f : Launch → Launch) (s : State) : State := s.modLaunch l.num (fun l => f { l with doneSent := true })
  if l.doneSent then s
  else if l.rcd.doneAt = 0 then sent id s
  else
    match s.signal (controlAgent l) 0 l.rcd.doneAt (if l.outcome = 0 then 0 else 3) 0 with
    | .done s => sent id s
    | .away pages => s.awaitPages (controlAgent l) .engineWrite l.rcd.doneAt pages
    | .broken =>
      sent (fun l => { l with outcome := 7, cause := 6, fatalAddr := l.rcd.doneAt }) (structureFault l.rcd.ctx l.rcd.doneAt s)
    | .unusable _ => sent (fun l => { l with doneBad := true }) s

/-- Post the completion report of a launch whose DONE has been signalled: the launch has ended. -/
def reportEnd (n : Nat) (s : State) : State :=
  match s.launchOf n with
  | some l =>
    if l.doneSent then
      ({ s with launches := s.launches.filter (fun m => m.num != n) }.endAgreements n).report (completion l l.doneBad)
    else s
  | none => s

/-- Signal DONE, then post the completion report. -/
def finishLaunch (l : Launch) (s : State) : State := reportEnd l.num (signalDone l s)

/-- The end of a launch: crews that a fatal end leaves are dropped, the round closes once no contribution of it waits in a
side log, the side log is replayed, DONE is signalled and the report is posted. -/
def execLaunchEnd (launch : Nat) (s : State) : Host.Outcome State Fault Refusal :=
  match s.launchOf launch with
  | none => .next s
  | some l =>
    if l.st != .ending && !(s.crewsOf launch).isEmpty then .next s
    else if l.st != .ending && !s.agreed l .ending then .next (s.offer l .ending 0)
    else
      let s := s.dropCrews launch
      if s.loggedAdds launch 0 then .next s
      else
        let s := s.closeRound launch 0
        if s.logged launch || !s.reportRoom then .next s else .next (finishLaunch l s)

/-- A launch cancelled by the driver goes to its end, whether it has been placed or not. -/
def execLaunchCancel (launch : Nat) (s : State) : Host.Outcome State Fault Refusal :=
  match (List.range 16).find? (fun q => match (s.queueAt q).current with | some h => h.launch.num == launch | none => false) with
  | some q =>
    match (s.queueAt q).current with
    | some h => .next (s.refuse q h.launch 9)
    | none => .next s
  | none =>
    .next (s.modLaunch launch (fun l => if l.st = .ending then l else { l with st := .ending, outcome := 9 }))

end Sys2Proof.Machine
end

