-- ==== Sys2Proof/Machine/Shake.lean ====
section
/-! DEFINITION. SHAKE256 with 64 bytes of output, as R403 and R404 use it (FIPS 202: PRESUMED, log 23). -/

namespace Sys2Proof.Machine

/-- Round constants. -/
def keccakRc : List (BitVec 64) :=
  [0x0000000000000001, 0x0000000000008082, 0x800000000000808a, 0x8000000080008000, 0x000000000000808b, 0x0000000080000001,
   0x8000000080008081, 0x8000000000008009, 0x000000000000008a, 0x0000000000000088, 0x0000000080008009, 0x000000008000000a,
   0x000000008000808b, 0x800000000000008b, 0x8000000000008089, 0x8000000000008003, 0x8000000000008002, 0x8000000000000080,
   0x000000000000800a, 0x800000008000000a, 0x8000000080008081, 0x8000000000008080, 0x0000000080000001, 0x8000000080008008]

/-- Rotation of the lane at x + 5y. -/
def keccakRot : List Nat :=
  [0, 1, 62, 28, 27, 36, 44, 6, 55, 20, 3, 10, 43, 25, 39, 41, 45, 15, 21, 8, 18, 2, 61, 56, 14]

/-- One round on 25 lanes. -/
def keccakRound (a : List (BitVec 64)) (rc : BitVec 64) : List (BitVec 64) :=
  let at_ (l : List (BitVec 64)) (i : Nat) : BitVec 64 := l.getD i 0
  let c := (List.range 5).map (fun x => at_ a x ^^^ at_ a (x + 5) ^^^ at_ a (x + 10) ^^^ at_ a (x + 15) ^^^ at_ a (x + 20))
  let d := (List.range 5).map (fun x => at_ c ((x + 4) % 5) ^^^ (at_ c ((x + 1) % 5)).rotateLeft 1)
  let r := (List.range 25).map (fun i => (at_ a i ^^^ at_ d (i % 5)).rotateLeft (keccakRot.getD i 0))
  -- the lane that lands at (X, Y) comes from x = X + 3Y, y = X
  let b := (List.range 25).map (fun i => at_ r ((i % 5 + 3 * (i / 5)) % 5 + 5 * (i % 5)))
  (List.range 25).map (fun i =>
    let x := i % 5
    let y := 5 * (i / 5)
    at_ b i ^^^ (~~~(at_ b ((x + 1) % 5 + y)) &&& at_ b ((x + 2) % 5 + y)) ^^^ (if i = 0 then rc else 0))

def keccakF (a : List (BitVec 64)) : List (BitVec 64) := keccakRc.foldl keccakRound a

/-- Lane i of a block of bytes. -/
def blockLane (bs : List Byte) (i : Nat) : BitVec 64 := BitVec.ofNat 64 (natOfBytes ((bs.drop (8 * i)).take 8))

/-- Absorb blocks of 136 bytes, the last one padded. -/
def shakeAbsorb : Nat → List Byte → List (BitVec 64) → List (BitVec 64)
  | 0, bs, a =>
    let block := bs ++ [0x1f#8] ++ List.replicate (135 - bs.length) 0
    let mixed := a.mapIdx (fun i v => if i < 17 then v ^^^ blockLane block i else v)
    keccakF (mixed.mapIdx (fun i v => if i = 16 then v ^^^ 0x8000000000000000#64 else v))
  | n + 1, bs, a =>
    shakeAbsorb n (bs.drop 136) (keccakF (a.mapIdx (fun i v => if i < 17 then v ^^^ blockLane bs i else v)))

/-- SHAKE256, 64 bytes. -/
def shake256 (bs : List Byte) : List Byte :=
  ((shakeAbsorb (bs.length / 136) bs (List.replicate 25 0)).take 8).flatMap (fun v => bytesOfNat 8 v.toNat)

end Sys2Proof.Machine
end

