-- ==== Sys2Proof/Machine/Manage.lean ====
section
/-! DEFINITION. Power, reset and boot (R40, R403), attestation (R404), the register and management windows as the host
writes them (R397 to R400, R405), the clock and the thermal stop (R406), and host reads (R395). -/

namespace Sys2Proof.Machine

/-! ## Power, reset and boot -/

/-- The part with every piece of device state at its reset value: the flash and what lies outside the device remain, and, at a
reset, the package's place in its span. -/
def State.cold (s : State) (powered keep : Bool) : State :=
  { State.reset with
    agenda := s.agenda, turn := s.turn, drawn := s.drawn, host := s.host
    device := { State.reset.device with powered := powered, flash := s.device.flash }
    span := { State.reset.span with rank := if keep then s.span.rank else 0 } }

/-- Extend the measurement log by the digest of a block (R404). -/
def State.extendLog (s : State) (block : List Byte) : State :=
  let entry := shake256 block
  { s with mgmt := { s.mgmt with log := s.mgmt.log ++ [entry], measure := shake256 (s.mgmt.measure ++ entry) } }

def State.setBoot (s : State) (st : Word) : State := { s with device := { s.device with bootst := st } }

/-- The ROM's work: it reads the image, verifies its signature, trains memory and starts the control plane, or stops
(R403). -/
def boot (readable trained : Bool) (s : State) : State :=
  if !readable then s.setBoot 0x81
  else if !Config.imageVerifies s.device.flash then s.setBoot 0x80
  else if !trained then s.setBoot 0x82
  else (s.extendLog s.device.flash).setBoot 1

/-- Power comes on, or the part comes out of reset: the ROM runs once. -/
def execPowerOn (readable trained : Bool) (s : State) : Host.Outcome State Fault Refusal :=
  if s.device.powered then (if s.device.bootst == 0 then .next (boot readable trained s) else .next s)
  else .next (boot readable trained (s.cold true false))

/-- Device reset: every register takes its reset value and %clock counts from 0 (R40); device memory keeps its bytes
(DESIGN CHOICE, log 24). -/
def execDeviceReset (s : State) : Host.Outcome State Fault Refusal :=
  .next (if s.device.powered then { s.cold true true with mem := s.mem } else s)

/-- At power-off nothing survives but the flash and the fuses (R403). -/
def execPowerOff (s : State) : Host.Outcome State Fault Refusal := .next (s.cold false false)

/-- A firmware image is written to flash; it is verified at the next reset (R403). -/
def execFirmwareImageWrite (image : List Byte) (s : State) : Host.Outcome State Fault Refusal :=
  .next { s with device := { s.device with flash := image } }

/-! ## Attestation (R404) -/

def execMeasurementLogExtend (block : List Byte) (s : State) : Host.Outcome State Fault Refusal :=
  .next (if s.device.bootst == 1 then s.extendLog block else s)

/-- What a quote signs. -/
def quoteBytes (s : State) (nonce : List Byte) : List Byte :=
  s.mgmt.log.flatten ++ s.mgmt.measure ++ bytesOfNat 16 s.window.featacc.toNat ++ nonce

/-- Some launch queue is between launches: none of its launches is placed, resuming or saved. -/
def State.betweenLaunches (s : State) : Bool :=
  (List.range 16).any (fun q => !s.launches.any (fun l => l.queue == q && !l.cores.isEmpty))

/-- A quote, with the accepted features as they stand when it starts. It is made between launches of the request's own queue,
which is one of those that are between launches (log 93). -/
def execAttestationQuote (nonce : List Byte) (s : State) : Host.Outcome State Fault Refusal :=
  if s.device.bootst != 1 || nonce.isEmpty || decide (nonce.length > 64) || !s.betweenLaunches then .next s
  else
    let q : Quote :=
      { log := s.mgmt.log, measure := s.mgmt.measure, featacc := s.window.featacc, nonce := nonce
        signature := Config.identitySignature (quoteBytes s nonce) }
    .next { s with mgmt := { s.mgmt with quotes := s.mgmt.quotes ++ [q] } }

/-! ## The windows -/

/-- A FEATACC write; word says which half (R400). -/
def execFeataccWrite (word : Bool) (value : Addr) (s : State) : Host.Outcome State Fault Refusal :=
  .next (s.writeReg (if word then 0x18 else 0x10) value)

/-- A host write to a register of the register window (R397, R398): .b64 at a register, or .b32 at its upper half. A .b32 write
of the lower half is the .b64 write that leaves the upper one as it reads. -/
def execRegisterWindowWrite (offset : Nat) (value : Addr) (s : State) : Host.Outcome State Fault Refusal :=
  .next (if offset % 8 = 0 then s.writeReg offset value
    else if offset % 8 = 4 then s.writeRegBytes offset (bytesOfNat 4 value.toNat) else s)

/-- A value that R405 lets a setting take. -/
def settingOk : Setting → Bool
  | .ageing v => decide (v ≤ 2 ^ 20)
  | .doldrums v => decide (v ≤ 2 ^ 40)
  | .weight c v => decide (c < 4) && decide (1 ≤ v) && decide (v ≤ 15)
  | .debugHalt v => decide (v < 2 ^ 32)
  | .power v => decide (1500 ≤ v) && decide (v ≤ 3600)

/-- The first cycle after this one whose %clock is a multiple of 1024. -/
def applyCycle (now : Nat) : Nat := (now / 1024 + 1) * 1024

def execManagementWindowWrite (setting : Setting) (s : State) : Host.Outcome State Fault Refusal :=
  .next (if settingOk setting then
    { s with mgmt := { s.mgmt with writes := s.mgmt.writes ++ [(applyCycle s.clock.toNat, setting)] } }
  else s)

/-- A setting takes its value. -/
def applySetting (m : Mgmt) : Setting → Mgmt
  | .ageing v => { m with ageing := v }
  | .doldrums v => { m with doldrums := v }
  | .weight c v => { m with weights := m.weights.set c v }
  | .debugHalt v => { m with debugHalt := v }
  | .power v => { m with power := v }

/-- The settings written whose cycle has come take effect, in the order of their writing. -/
def State.applySettings (s : State) : State :=
  let due (w : Nat × Setting) : Bool := decide (w.1 ≤ s.clock.toNat)
  let m := (s.mgmt.writes.filter due).foldl (fun m w => applySetting m w.2) s.mgmt
  { s with mgmt := { m with writes := s.mgmt.writes.filter (fun w => !due w) } }

/-- The cycle in which settings apply has come; the passing of cycles itself does as much. -/
def execManagementSettingApply (s : State) : Host.Outcome State Fault Refusal := .next s.applySettings

/-! ## Clock and heat (R406) -/

/-- Lowest and nominal core clock in MHz (R2). -/
def clockFloor : Nat := 1200
def clockNominal : Nat := 2500

/-- The measured power exceeds the limit, or a die has passed 105 °C. -/
def Mgmt.strained (m : Mgmt) : Bool := decide (m.watts > m.power) || m.temps.any (fun t => decide (t > 105))

/-- Cycles in 10 ms of the clock as it is. -/
def Mgmt.tenMs (m : Mgmt) : Nat := 10000 * m.clockMhz

/-- Both conditions have cleared for 10 ms. -/
def Mgmt.cleared (m : Mgmt) (now : Nat) : Bool :=
  !m.strained && (match m.coolFrom with | some t => decide (t + m.tenMs ≤ now) | none => false)

/-- The sensors are read: power and temperatures as they are measured at a %clock value (log 135), and since when the conditions
have been clear. -/
def Mgmt.sample (m : Mgmt) (now : Nat) : Mgmt :=
  let m := { m with temps := (List.range 4).map (Config.dieCelsius now), watts := Config.moduleWatts now }
  { m with coolFrom := if m.strained then none else some (m.coolFrom.getD now) }

/-- The clock is lowered by a step while the conditions call for it. -/
def execClockLower (s : State) : Host.Outcome State Fault Refusal :=
  .next (if s.mgmt.strained then { s with mgmt := { s.mgmt with clockMhz := max clockFloor (s.mgmt.clockMhz - 100) } } else s)

/-- It is raised again once both conditions have cleared for 10 ms. -/
def execClockRaise (s : State) : Host.Outcome State Fault Refusal :=
  .next (if s.mgmt.cleared s.clock.toNat then
    { s with mgmt := { s.mgmt with clockMhz := min clockNominal (s.mgmt.clockMhz + 100) } } else s)

/-- Steps 1 and 2 of a thermal stop: issue and engines stop, every launch ends with outcome 0x0a, and its contributions
and side-log entries are dropped. -/
def stopAll (die : Nat) (s : State) : State :=
  let gone (n : Nat) : Bool := (s.launchOf n).isSome
  let s := s.launches.foldl (fun s l => s.dropCrews l.num) s
  { s with
    launches := s.launches.map (fun l => if l.st = .ending then l else { l with st := .ending, outcome := 0x0a })
    ordered := s.ordered.filter (fun c => !gone c.launch)
    cores := s.cores.mapVals (fun (k : Core) => { k with sideLog := [] })
    savedLog := [], waiting := []
    mgmt := { s.mgmt with hot := some die } }

/-- A die has passed 115 °C. -/
def Mgmt.tooHot (m : Mgmt) (die : Nat) : Bool := decide (m.temps.getD die 0 > 115)

/-- Post the completion reports of the launches, in order, as far as there is room (R401). -/
def reportEnds : List Launch → State → State
  | [], s => s
  | l :: ls, s => if s.reportRoom then reportEnds ls (reportEnd l.num s) else s

/-- A die has passed 115 °C: the launches end, every DONE is signalled, then the launches are reported, then the stop itself, and
the control plane stops. A launch whose DONE page is absent holds the reports until it has ended, and so does a full ring. -/
def execThermalStop (die : Nat) (s : State) : Host.Outcome State Fault Refusal :=
  if s.device.bootst != 1 || !(s.mgmt.hot.isSome || s.mgmt.tooHot die) then .next s
  else
    let d := s.mgmt.hot.getD die
    let s := stopAll d s
    let s := s.launches.foldl (fun s l => signalDone l s) s
    if s.launches.any (fun l => !l.doneSent) then .next s
    else
      let s := reportEnds s.launches s
      if !s.launches.isEmpty || !s.reportRoom then .next s
      else .next ((s.report { type := 0x0a, code := BitVec.ofNat 8 d }).setBoot 0x83)

/-! ## Host reads (R395) -/

/-- Cycles after which a read counts as failed. -/
def hostTimeout : Nat := 2 ^ 24

/-- The words that a completed read writes. -/
def hostWords (r : HostRead) : List (Nat × Word) := r.parts.flatMap (fun p => List.zip p.dests p.words)

/-- A host read ends: its destinations are written with what the host's memory held when it issued, those of exited fibres
apart (R157, R184, R306), or it counts as a poisoned line. -/
def endHostRead (core slot tag : Nat) (failed : Bool) (s : State) : State :=
  match s.gangAt core slot with
  | none => s
  | some g =>
    match g.hostReads.find? (fun r => r.tag == tag) with
    | none => s
    | some r =>
      let keys := r.parts.flatMap (fun p => p.dests)
      let live (k : Nat) : Bool := (g.fibre (k % 64)).live
      let s := s.modGang core slot (fun g =>
        { g with hostReads := g.hostReads.filter (fun q => q.tag != tag), destWait := keys.foldl (fun l k => l.erase k) g.destWait })
      if failed then
        s.addPend core slot { cause := 0x10, addr := (r.parts.head?.map (·.va)).getD 0, at_ := .regs (keys.filter live) }
      else
        (s.modGang core slot (fun g => g.putOldRegs ((hostWords r).filter (fun w => live w.1)))).bufferDests core slot
          (keys.filter live)

/-- A completion that does not arrive within 2^24 cycles comes too late: the read has failed (R395). -/
def execHostReadCompletion (core slot tag : Nat) (error : Bool) (s : State) : Host.Outcome State Fault Refusal :=
  let late := match (s.gangAt core slot).bind (fun g => g.hostReads.find? (fun r => r.tag == tag)) with
    | some r => decide (r.issued + hostTimeout < s.clock.toNat)
    | none => false
  .next (endHostRead core slot tag (error || late) s)

def execHostReadTimeout (core slot tag : Nat) (s : State) : Host.Outcome State Fault Refusal :=
  match (s.gangAt core slot).bind (fun g => g.hostReads.find? (fun r => r.tag == tag)) with
  | none => .next s
  | some r => .next (if r.issued + hostTimeout ≤ s.clock.toNat then endHostRead core slot tag true s else s)

end Sys2Proof.Machine
end

