-- ==== Sys2Proof/Machine/Fabric.lean ====
section
/-! DEFINITION. The isobar fabric: its stops, loops and routes, the traffic classes, injection, ejection and escape sumps (R378
to R388), the reply entries of the cores (R389) and the span-link ports (R392, R393). Packets move in time only: what an access
does is performed where it issues or is served (R388; log 25). -/

namespace Sys2Proof.Machine

/-! ## Stops, loops and routes (R378 to R381) -/

/-- Die and stop number of a stop identifier. -/
def dieOf (stop : Nat) : Nat := stop / 64
def stopOf (stop : Nat) : Nat := stop % 64

/-- Stop identifiers: 8 bits. -/
def stopCount : Nat := 256

/-- The cluster stop of a core, numbered domain × 64 + cluster × 8 + crew. -/
def coreStop (core : Nat) : Nat := core / 128 % 4 * 64 + core / 64 % 2 * 8 + core / 8 % 8

/-- The slice stop of a slice, numbered domain × 16 + index. -/
def sliceStop (slice : Nat) : Nat := slice / 32 % 4 * 64 + 16 + slice % 32

/-- A core of a cluster stop. -/
def stopCore (stop : Nat) (core : BitVec 3) : Nat := stop / 64 * 128 + stop % 64 / 8 * 64 + stop % 8 * 8 + core.toNat

/-- Bridge 3 of a die, which carries its span-link ports, and of die 0 the host link (R380). -/
def portStop (die : Nat) : Nat := die * 64 + 51

/-- Stops of a loop in visiting order: loops 0..31 are spoke loops 2x + h, 32 and 33 the cluster rings, 34 + k transit
loop k; there are 38 (R379). -/
def loopStops (loop : Nat) : List Nat :=
  if loop < 32 then loop / 2 :: ((List.range 16).map (16 + 16 * (loop % 2) + ·) ++ [48, 49, 50, 51])
  else if loop = 32 then List.range 16
  else if loop = 33 then (List.range 16).reverse
  else if loop < 38 then (48 + (loop - 34)) :: List.range 48
  else []

/-- A stop's place on a loop. -/
def placeOn (loop stop : Nat) : Option Nat :=
  let i := (loopStops loop).findIdx (· == stop)
  if i < (loopStops loop).length then some i else none

/-- The place on a loop of the stop that an identifier names. -/
def placeAt (loop stop : Nat) : Option Nat := if stop < stopCount then placeOn loop (stopOf stop) else none

/-- The bridge that joins two dies (R380). -/
def bridgeTo (i j : Nat) : Nat := (i ^^^ j) - 1

/-- The loop on which a packet travels from a stop, on that stop's die (R381). What has come over a bridge goes on by its
transit loop; what leaves the package, by transit loop 3 (log 96). -/
def route (src dst : Nat) : Nat :=
  let a := stopOf src
  let b := stopOf dst
  if dieOf src ≠ dieOf dst then 34 + bridgeTo (dieOf src) (dieOf dst)
  else if a ≥ 48 then 34 + (a - 48)
  else if b ≥ 48 then 37
  else if a < 16 ∧ b < 16 then (if (b + 16 - a) % 16 ≤ (a + 16 - b) % 16 then 32 else 33)
  else if a < 16 then 2 * a + (b - 16) / 16
  else if b < 16 then 2 * b + (a - 16) / 16
  else 34 + b % 4

/-- The slot that passes a place at a %clock value: a hop takes two cycles and a link carries one slot a cycle, so a
loop of n stops has 2n slots (R382). -/
def slotAt (loop place now : Nat) : Nat :=
  let n := 2 * (loopStops loop).length
  (2 * place + n - now % n) % n

def slotKey (die loop slot : Nat) : Nat := (die * 38 + loop) * 128 + slot

/-- The stop of a loop where a packet leaves it: its destination, or the bridge toward its die (R381). -/
def exitStop (die loop : Nat) (p : FabPacket) : Nat :=
  if dieOf p.dst.toNat = die then stopOf p.dst.toNat
  else 48 + (if 34 ≤ loop then loop - 34 else bridgeTo die (dieOf p.dst.toNat))

/-! ## Messages and classes (R383) -/

/-- What a packet carries. -/
inductive Message where
  | load | write | peer | host | device | walk | send
  | line | ack | result | peerReply | answer
  | engineRead | engineWrite | engineReply | replay | merge | spill | image
  | leaseBreak | viewRetag | shootdown | close | completion | closeRequest | agreement | preempt | interrupt
deriving DecidableEq, Repr

/-- Its class: 0 REQ, 1 RSP, 2 BLK, 3 CTL. -/
def Message.cls : Message → Nat
  | .load | .write | .peer | .host | .device | .walk | .send => 0
  | .line | .ack | .result | .peerReply | .answer => 1
  | .engineRead | .engineWrite | .engineReply | .replay | .merge | .spill | .image => 2
  | .leaseBreak | .viewRetag | .shootdown | .close | .completion | .closeRequest | .agreement | .preempt | .interrupt => 3

/-- KIND: its place in its class (log 136). -/
def Message.kind : Message → Nat
  | .load | .line | .engineRead | .leaseBreak => 0
  | .write | .ack | .engineWrite | .viewRetag => 1
  | .peer | .result | .engineReply | .shootdown => 2
  | .host | .peerReply | .replay | .close => 3
  | .device | .answer | .merge | .completion => 4
  | .walk | .spill | .closeRequest => 5
  | .send | .image | .agreement => 6
  | .preempt => 7
  | .interrupt => 8

/-- The reply that a request of a class and kind calls for, if any. -/
def replyTo (cls kind : Nat) : Option Message :=
  match cls, kind with
  | 0, 0 | 0, 5 => some .line
  | 0, 1 => some .ack
  | 0, 2 => some .peerReply
  | 0, 6 => some .answer
  | 2, 0 | 2, 1 => some .engineReply
  | _, _ => none

/-- A packet of a message. -/
def Message.packet (m : Message) (src dst core addr view : Nat) (data : List Byte) : FabPacket :=
  { cls := BitVec.ofNat 2 m.cls, kind := BitVec.ofNat 6 m.kind, src := BitVec.ofNat 8 src, dst := BitVec.ofNat 8 dst
    core := BitVec.ofNat 3 core, addr := BitVec.ofNat 64 addr, view := BitVec.ofNat 6 view, flit := !data.isEmpty, data := data }

/-! ## Stops -/

/-- Ring order: CTL, RSP, REQ, BLK. -/
def ringOrder : List Nat := [3, 1, 0, 2]

/-- Place of a class in ring order. -/
def ringIndex (c : Nat) : Nat := match c with | 3 => 0 | 1 => 1 | 0 => 2 | _ => 3

/-- The weights at reset, which are the credits then (R384). -/
def defaultWeights : List Nat := [8, 4, 4, 1]

/-- Ejection-buffer entries of a stop by class (R385); a reply always has its reserved entry at a cluster stop (R389). -/
def ejectRoom (stop cls : Nat) : Nat :=
  if stop < 16 then (if cls = 1 then 128 * 8 else 16)
  else if stop < 48 then (if cls = 0 then 32 else 16)
  else 32

def Fabric.stopAt (f : Fabric) (stop : Nat) : Stop := f.stops.get {} stop
def Fabric.setStop (f : Fabric) (stop : Nat) (t : Stop) : Fabric := { f with stops := f.stops.put stop t }

/-- A class is paused at a stop while its sump entry is occupied (R387). -/
def Stop.paused (t : Stop) (cls : Nat) : Bool := (t.sump.find cls).isSome

/-- The queue of a class on a loop. -/
def Stop.queue (t : Stop) (loop cls : Nat) : List FabPacket := t.queues.get [] (loop * 4 + cls)
def Stop.setQueue (t : Stop) (loop cls : Nat) (q : List FabPacket) : Stop :=
  { t with queues := t.queues.set [] (loop * 4 + cls) q }

/-- Put a packet at the end of an injection queue; its AGE counts from when it becomes the head. -/
def Stop.enqueue (t : Stop) (now loop : Nat) (p : FabPacket) : Stop :=
  t.setQueue loop p.cls.toNat
    (t.queue loop p.cls.toNat ++ [{ p with laps := 0, age := 0, since := now, promoted := none, passed := none }])

/-- A packet enters the fabric at a stop, on its route. -/
def Fabric.send (f : Fabric) (now at_ : Nat) (p : FabPacket) : Fabric :=
  f.setStop at_ ((f.stopAt at_).enqueue now (route at_ p.dst.toNat) p)

/-! ## Injection (R384) -/

/-- The class that an opportunity serves by credits, with the credits and pointer after it. -/
def creditPick (weights : List Nat) (t : Stop) (loop : Nat) : Option (Nat × List Nat × Nat) :=
  let cr := (t.credits.find loop).getD defaultWeights
  let p := t.pointer.get 0 loop
  let ready (i : Nat) : Bool := let c := ringOrder.getD i 0; !(t.queue loop c).isEmpty && !t.paused c
  let cand (cr : List Nat) : List Nat := (List.range 4).filter (fun i => ready i && decide (cr.getD i 0 > 0))
  let from_ (p : Nat) (l : List Nat) : Option Nat := ((List.range 4).map (fun i => (p + i) % 4)).find? l.contains
  let (cr, p) := if (cand cr).isEmpty && (List.range 4).any ready then (weights, 0) else (cr, p)
  (from_ p (cand cr)).map (fun i => (ringOrder.getD i 0, cr.set i (cr.getD i 0 - 1), i))

/-- The promoted head that an opportunity serves first: the one that reached 64 earliest, ties in ring order. -/
def promotedPick (t : Stop) (loop : Nat) : Option Nat :=
  (ringOrder.filterMap (fun c =>
    match t.queue loop c with
    | h :: _ => if h.age == 64 && !t.paused c then some (c, h.promoted.getD 0) else none
    | [] => none)).foldl (fun (b : Option (Nat × Nat)) e =>
      match b with | none => some e | some o => if e.2 < o.2 then some e else b) none |>.map Prod.fst

/-- A head's AGE after n cycles from now in which it is not injected; one whose class is paused keeps it. -/
def FabPacket.older (now n : Nat) (paused : Bool) (p : FabPacket) : FabPacket :=
  let start := max now p.since
  let a := min 64 (p.age.toNat + (now + n - start))
  if paused then { p with since := max (now + n) p.since }
  else
    { p with age := BitVec.ofNat 7 a
             promoted := if a = 64 && p.promoted.isNone then some (start + 64 - p.age.toNat) else p.promoted }

/-- The heads of every injection queue over n cycles. -/
def Fabric.age (now n : Nat) (f : Fabric) : Fabric :=
  { f with stops := f.stops.mapVals (fun (t : Stop) =>
      { t with queues := t.queues.map (fun e =>
          (e.1, match e.2 with | h :: q => h.older now n (t.paused (e.1 % 4)) :: q | [] => [])) }) }

/-- What a stop injects on a loop in this cycle, if it has an opportunity: at most one packet. -/
def injectBy (pick : Stop → Option (Nat × Stop)) (stop loop : Nat) (s : State) : State :=
  match placeAt loop stop with
  | none => s
  | some place =>
    let now := s.clock.toNat
    let f := s.fabric
    let t := f.stopAt stop
    let key := slotKey (dieOf stop) loop (slotAt loop place now)
    if t.acted.get 0 loop = now + 1 || (f.slots.find key).isSome then s
    else
      match pick t with
      | none => s
      | some (c, u) =>
        match u.queue loop c with
        | [] => s
        | p :: q =>
          let q := match q with | h :: r => { h with since := now + 1 } :: r | [] => []
          let u := { u.setQueue loop c q with acted := u.acted.put loop (now + 1) }
          { s with fabric := { f.setStop stop u with slots := f.slots.put key p } }

/-- A promoted head goes first, and leaves the credits as they are. -/
def pickPromoted (loop : Nat) (t : Stop) : Option (Nat × Stop) := (promotedPick t loop).map (fun c => (c, t))

/-- The whole choice of R384. -/
def pickAny (weights : List Nat) (loop : Nat) (t : Stop) : Option (Nat × Stop) :=
  match pickPromoted loop t with
  | some r => some r
  | none => (creditPick weights t loop).map (fun r =>
      (r.1, { t with credits := t.credits.put loop r.2.1, pointer := t.pointer.put loop r.2.2 }))

/-- One cycle of a stop's injection on a loop. -/
def execPacketInject (stop loop : Nat) (s : State) : Host.Outcome State Fault Refusal :=
  .next (injectBy (pickAny s.mgmt.weights loop) stop loop s)

/-- A head whose AGE has reached 64 is injected ahead of the credits. -/
def execAgePromotion (stop loop : Nat) (s : State) : Host.Outcome State Fault Refusal :=
  .next (injectBy (pickPromoted loop) stop loop s)

/-! ## Ejection and the sump (R385, R386) -/

/-- The packet in the slot passing a stop, where it leaves the loop there and has not been dealt with in this cycle. -/
def leaving (s : State) (stop loop : Nat) : Option (Nat × FabPacket) :=
  match placeAt loop stop with
  | none => none
  | some place =>
    let key := slotKey (dieOf stop) loop (slotAt loop place s.clock.toNat)
    match s.fabric.slots.find key with
    | some p =>
      if exitStop (dieOf stop) loop p == stopOf stop && p.passed != some s.clock.toNat then some (key, p) else none
    | none => none

/-- A packet at its destination ejects where its class has a free entry, or goes round again. -/
def eject (stop loop : Nat) (s : State) : State :=
  match leaving s stop loop with
  | none => s
  | some (key, p) =>
    let now := s.clock.toNat
    let c := p.cls.toNat
    let f := s.fabric
    let t := f.stopAt stop
    if (t.eject.get [] c).length < ejectRoom (stopOf stop) c then
      { s with fabric := { f.setStop stop { t with eject := t.eject.put c (t.eject.get [] c ++ [p]) } with
                             slots := f.slots.erase key } }
    else
      -- at LAPS 4 a free sump entry takes it: SUMP_DIVERSION
      let laps : BitVec 3 := if p.laps == 4 then 4 else p.laps + 1
      if p.laps == 4 && !t.paused c then s
      else { s with fabric := { f with slots := f.slots.put key { p with laps := laps, passed := some now } } }

def execPacketEject (stop loop : Nat) (s : State) : Host.Outcome State Fault Refusal := .next (eject stop loop s)

/-- A packet that fails to eject at LAPS 4 enters its class's sump entry, where that is empty; a counter that saturates
is reported. -/
def divert (stop loop : Nat) (s : State) : State :=
  match leaving s stop loop with
  | none => s
  | some (key, p) =>
    let c := p.cls.toNat
    let t := s.fabric.stopAt stop
    if p.laps != 4 || (t.eject.get [] c).length < ejectRoom (stopOf stop) c || t.paused c then s
    else
      let n := t.diverted.get 0 c
      let t := { t with sump := t.sump.put c p, diverted := t.diverted.put c (min (n + 1) (2 ^ 32 - 1)) }
      let f := s.fabric.setStop stop t
      let s := { s with fabric := { f with slots := f.slots.erase key } }
      if n = 2 ^ 32 - 2 then s.report { type := 9 } else s

def execSumpDiversion (stop loop : Nat) (s : State) : Host.Outcome State Fault Refusal := .next (divert stop loop s)

/-! ## Taking packets from the ejection buffers (R386, R389, R390) -/

/-- A sump entry moves into an ejection entry that is free (R386). -/
def Stop.drainSump (stop : Nat) (t : Stop) : Stop :=
  ringOrder.foldl (fun (t : Stop) c =>
    match t.sump.find c with
    | some p =>
      if (t.eject.get [] c).length < ejectRoom stop c then
        { t with eject := t.eject.put c (t.eject.get [] c ++ [p]), sump := t.sump.erase c }
      else t
    | none => t) t

/-- The stop takes one packet: CTL, RSP, REQ, BLK in that order, BLK at least once in four while it waits. -/
def Stop.takeOne (stop : Nat) (t : Stop) : Stop × Option FabPacket :=
  let waiting (c : Nat) : Bool := !(t.eject.get [] c).isEmpty
  let c? := if waiting 2 && decide (t.sinceBlk ≥ 3) then some 2 else ringOrder.find? waiting
  match c? with
  | none => (t, none)
  | some c =>
    (({ t with eject := t.eject.set [] c ((t.eject.get [] c).drop 1)
               sinceBlk := if c = 2 || !waiting 2 then 0 else t.sinceBlk + 1 } : Stop).drainSump stop,
     (t.eject.get [] c).head?)

/-! ### Reply entries (R389) -/

/-- Reply entries of a core. -/
def replyEntries : Nat := 128

/-- The requests of a core that wait for a reply entry are sent as far as there are entries. -/
def sendWaiting (core : Nat) : Nat → State → State
  | 0, s => s
  | n + 1, s =>
    let k := s.coreAt core
    match k.outbox with
    | [] => s
    | p :: ps =>
      if k.reserved.length ≥ replyEntries then s
      else
        let s := s.modCore core (fun k => { k with outbox := ps, reserved := k.reserved ++ [k.tag], tag := k.tag + 1 })
        sendWaiting core n { s with fabric := s.fabric.send s.clock.toNat (coreStop core) { p with tag := k.tag } }

/-- A core sends a packet: a request that expects a reply once it has a reply entry. -/
def State.sendFrom (s : State) (core : Nat) (p : FabPacket) : State :=
  if (replyTo p.cls.toNat p.kind.toNat).isSome then
    sendWaiting core replyEntries (s.modCore core (fun k => { k with outbox := k.outbox ++ [p] }))
  else { s with fabric := s.fabric.send s.clock.toNat (coreStop core) p }

/-- A reply frees its entry. -/
def State.freeReply (s : State) (core : Nat) (tag : BitVec 13) : State :=
  sendWaiting core replyEntries (s.modCore core (fun k => { k with reserved := k.reserved.erase tag }))

/-! ### Span-link ports, the sending side (R392, R393) -/

def State.portAt (s : State) (port : Nat) : Port := s.span.ports.get {} port
def State.setPort (s : State) (port : Nat) (q : Port) : State :=
  { s with span := { s.span with ports := s.span.ports.put port q } }

/-- Ports that a packet to a package may use: the mask of the span route table, 16 bits for each %span (R393, log 136). -/
def State.portMask (s : State) (span : Nat) : Nat := memNat s.mem (s.window.spanrt.toNat + 2 * span) 2

/-- The first usable port in the mask's rotation from a place (R393). -/
def State.portFrom (s : State) (span start : Nat) : Option Nat :=
  ((List.range 16).map (fun i => (start + i) % 16)).find? (fun p => (s.portMask span).testBit p && !(s.portAt p).down)

/-- Where the rotation starts: for a line, at four bits of mix32 of the span rank and the line's address, else at the source
gang's number. -/
def State.portStart (s : State) (line : Option Nat) (gang : Nat) : Nat :=
  match line with
  | some n => (mix32 (s.span.rank.setWidth 64) (BitVec.ofNat 64 (n * 128))).toNat % 16
  | none => gang % 16

/-- A packet at bridge 3 leaves the package: into the queue of its class at its port, or on the host link. -/
def State.leavePackage (s : State) (p : FabPacket) : State :=
  match p.port with
  | none => { s with span := { s.span with gale := s.span.gale + 1 } }
  | some port =>
    let q := s.portAt port
    s.setPort port { q with out := q.out.put p.cls.toNat (q.out.get [] p.cls.toNat ++ [p]) }

/-- A port that is up sends the head of its first class in ring order that has a credit, in a frame with the next sequence
number; the credits that it used before have come back (log 136). Traffic waits while the port is down. -/
def Port.sendOne (q : Port) : Port :=
  if q.down then q
  else
    let q := { q with used := [] }
    match ringOrder.find? (fun c => !(q.out.get [] c).isEmpty && decide (q.used.get 0 c < Config.portCredits)) with
    | none => q
    | some c => { q with out := q.out.set [] c ((q.out.get [] c).drop 1), used := q.used.put c (q.used.get 0 c + 1), sent := q.sent + 1 }

/-! ### What a packet does where it is taken -/

/-- A bridge stop passes what it has taken over its link to the other die (R380, R381). -/
def crossBridge (now die stop : Nat) (p : FabPacket) (f : Fabric) : Fabric :=
  let far := die ^^^ (stop - 48 + 1)
  let at_ := if p.dst.toNat = portStop far then portStop far else far * 64 + stop
  f.setStop at_ ((f.stopAt at_).enqueue now (if p.dst.toNat = portStop far then 37 else 34 + (stop - 48)) p)

/-- The reply to a request that a stop has taken: a line's reply carries the line. -/
def State.replyPacket (s : State) (p : FabPacket) (m : Message) : FabPacket :=
  let data := if m = .line then s.bytesAt p.view.toNat (p.addr.toNat / 128 * 128) 128 else []
  { m.packet p.dst.toNat p.src.toNat p.core.toNat p.addr.toNat p.view.toNat data with tag := p.tag }

/-- A stop has taken a packet: a bridge passes it on, a request is answered, a reply frees its entry. -/
def State.taken (s : State) (stop : Nat) (p : FabPacket) : State :=
  let now := s.clock.toNat
  if stopOf stop ≥ 48 then
    if dieOf p.dst.toNat = dieOf stop then s.leavePackage p
    else { s with fabric := crossBridge now (dieOf stop) (stopOf stop) p s.fabric }
  else
    match replyTo p.cls.toNat p.kind.toNat with
    | some m => { s with fabric := s.fabric.send now stop (s.replyPacket p m) }
    | none => if stopOf stop < 16 && p.cls != 3 then s.freeReply (stopCore stop p.core) p.tag else s

/-- A stop takes one packet in a cycle. -/
def State.serveStop (s : State) (stop : Nat) : State :=
  let t := s.fabric.stopAt stop
  if t.served = s.clock.toNat + 1 then s
  else
    match t.takeOne (stopOf stop) with
    | (_, none) => s
    | (u, some p) =>
      ({ s with fabric := s.fabric.setStop stop { u with served := s.clock.toNat + 1 } } : State).taken stop p

/-! ## A cycle of the fabric -/

/-- Stops and loops where a packet leaves its loop in this cycle. -/
def State.exits (s : State) : List (Nat × Nat) :=
  s.fabric.slots.filterMap (fun e =>
    let die := e.1 / 128 / 38
    let loop := e.1 / 128 % 38
    let stop := die * 64 + exitStop die loop e.2
    if (leaving s stop loop).any (fun r => r.1 == e.1) then some (stop, loop) else none)

/-- Stops and loops with packets to inject. -/
def State.injects (s : State) : List (Nat × Nat) :=
  (s.fabric.stops.flatMap (fun e => e.2.queues.map (fun q => (e.1, q.1 / 4)))).eraseDups

/-- What the fabric still has to do in this cycle: packets eject or are diverted, each stop takes one, stops inject and ports
send. -/
def fabricCycle (s : State) : State :=
  let s := s.exits.foldl (fun s e => divert e.1 e.2 (eject e.1 e.2 s)) s
  let s := s.fabric.stops.keys.foldl State.serveStop s
  let s := s.injects.foldl (fun s e => injectBy (pickAny s.mgmt.weights e.2) e.1 e.2 s) s
  { s with span := { s.span with ports := s.span.ports.mapVals Port.sendOne } }

/-- The fabric holds no packet. -/
def State.fabricIdle (s : State) : Bool :=
  s.fabric.slots.isEmpty && s.span.ports.all (fun q => q.2.out.isEmpty) &&
    s.fabric.stops.all (fun t => t.2.queues.isEmpty && t.2.eject.all (fun e => e.2.isEmpty) && t.2.sump.isEmpty)

/-! ## Span-link ports, the receiving side (R392) -/

/-- A packet from a header (R382). -/
def packetOf (h : BitVec 128) : FabPacket :=
  { cls := h.extractLsb' 126 2, laps := h.extractLsb' 123 3, age := h.extractLsb' 116 7, phase := h.extractLsb' 114 2
    flit := h.getLsbD 113, dst := h.extractLsb' 104 8, src := h.extractLsb' 96 8, view := h.extractLsb' 90 6
    kind := h.extractLsb' 84 6, core := h.extractLsb' 81 3, tag := h.extractLsb' 68 13, addr := h.extractLsb' 0 64 }

/-- A received packet with its flit, which another package has sent: free bytes (log 1). -/
def receivedPacket (port seq : Nat) (h : BitVec 128) : FabPacket :=
  let p := packetOf h
  { p with data := if p.flit then (List.range 128).map (fun i =>
      (Config.freeValue (2 * ((seq * 16 + port) * 128 + i) + 1)).setWidth 8) else [] }

/-- A frame's packet goes on from bridge stop 3 of the port's die: by transit loop 3, or by the transit loop of the bridge toward
its die (log 96). -/
def deliverFrame (now port : Nat) (p : FabPacket) (f : Fabric) : Fabric :=
  let die := port / 4
  let k := bridgeTo die (dieOf p.dst.toNat)
  if dieOf p.dst.toNat = die then f.setStop (portStop die) ((f.stopAt (portStop die)).enqueue now 37 p)
  else f.setStop (die * 64 + 48 + k) ((f.stopAt (die * 64 + 48 + k)).enqueue now (34 + k) p)

/-- Frames that wait for their turn are delivered in sequence. -/
def deliverWaiting (now : Nat) : Nat → Port → Nat → Fabric → Port × Fabric
  | 0, q, _, f => (q, f)
  | n + 1, q, port, f =>
    match q.waiting.find? (fun w => w.1 == q.seq) with
    | none => (q, f)
    | some w => deliverWaiting now n { q with seq := q.seq + 1, waiting := q.waiting.erase w } port (deliverFrame now port w.2 f)

/-- A frame arrives: with a CRC error it is asked for again; otherwise it is delivered in sequence. -/
def execSpanFrameReceive (port seq : Nat) (crcOk : Bool) (header : BitVec 128) (s : State) :
    Host.Outcome State Fault Refusal :=
  if port ≥ 16 then .next s
  else
    let q := s.portAt port
    if q.down then .next s
    else if !crcOk then .next (s.setPort port { q with fails := q.fails.put seq (q.fails.get 0 seq + 1), resend := q.resend + 1 })
    else
      let q := { q with fails := q.fails.erase seq }
      if seq < q.seq then .next (s.setPort port q)
      else
        let q := { q with waiting := q.waiting ++ [(seq, receivedPacket port seq header)] }
        let r := deliverWaiting s.clock.toNat q.waiting.length q port s.fabric
        .next ({ s with fabric := r.2 }.setPort port r.1)

/-- A frame that has failed sixteen times in a row takes its port down, which is reported. -/
def execSpanPortDown (port : Nat) (s : State) : Host.Outcome State Fault Refusal :=
  let q := s.portAt port
  if q.down || !q.fails.any (fun e => decide (e.2 ≥ 16)) || !s.reportRoom then .next s
  else .next ((s.setPort port { q with down := true }).report { type := 5 })

end Sys2Proof.Machine
end

