-- ==== Sys2Proof/Machine/Fp.lean ====
section
/-! DEFINITION. Floating-point arithmetic, comparison and the transcendentals: majors 0x20 to 0x2a and 0x35
(R130 to R137). -/

namespace Sys2Proof.Machine

/-! ## Two operands and fused (R130) -/

/-- a + b. -/
def fpAdd : FpOp where
  primal m f a b _ := (Ex.add m (ex f a) (ex f b)).round f m 0
  tangent m f _ _ _ ta tb _ := (Ex.add m (ex f ta) (ex f tb)).round f m 0

/-- a − b. -/
def fpSub : FpOp where
  primal m f a b _ := (Ex.add m (ex f a) (ex f b).neg).round f m 0
  tangent m f _ _ _ ta tb _ := (Ex.add m (ex f ta) (ex f tb).neg).round f m 0

/-- a × b; tangent ta × b + a × tb. -/
def fpMul : FpOp where
  primal m f a b _ := (Ex.mul (ex f a) (ex f b)).round f m 0
  tangent m f a b _ ta tb _ :=
    (Ex.add m (Ex.mul (ex f ta) (ex f b)) (Ex.mul (ex f a) (ex f tb))).round f m 0

/-- a × b + d; tangent ta × b + a × tb + td. -/
def fpFma : FpOp where
  old := true
  primal m f a b d := (Ex.add m (Ex.mul (ex f a) (ex f b)) (ex f d)).round f m 0
  tangent m f a b _ ta tb td :=
    (Ex.add m (Ex.add m (Ex.mul (ex f ta) (ex f b)) (Ex.mul (ex f a) (ex f tb))) (ex f td)).round f m 0

/-- a / b; tangent (ta − y × tb) / b. -/
def fpDiv : FpOp where
  primal m f a b _ := (Ex.div (ex f a) (ex f b)).round f m 0
  tangent m f _ b y ta tb _ :=
    (Ex.div (Ex.add m (ex f ta) (Ex.mul (ex f y) (ex f tb)).neg) (ex f b)).round f m 0

/-! ## Minimum and maximum (R131) -/

/-- What fmin and fmax select: a, b, or a NaN. -/
inductive Pick where
  | a | b | nan
deriving DecidableEq, Repr

/-- a is below b, −0 below +0. -/
def belowSigned (a b : Val) : Bool := ltV a b || (eqV a b && a.neg? && !b.neg?)

/-- The operand selected. -/
def pickOf (wantMax : Bool) (a b : Val) : Pick :=
  if a.isNaN then (if b.isNaN then .nan else .b)
  else if b.isNaN then .a
  else if wantMax then (if belowSigned a b then .b else .a)
  else if belowSigned b a then .b else .a

/-- The selected encoding; the tangent is copied exactly. -/
def fpPick (wantMax : Bool) : FpOp where
  primal _ f a b _ :=
    let u := decodeFp f a
    let v := decodeFp f b
    (match pickOf wantMax u v with | .a => a | .b => b | .nan => f.nanCode, sigFlag u ||| sigFlag v)
  tangent _ f a b _ ta tb _ :=
    (match pickOf wantMax (decodeFp f a) (decodeFp f b) with | .a => ta | .b => tb | .nan => f.nanCode, 0)

/-! ## One operand (R132) -/

/-- a with its sign inverted; tangent −ta. -/
def fpNeg : FpOp where
  primal m f a _ _ := (exAlone f a).neg.round f m 0
  tangent m f a _ _ ta _ _ :=
    if (decodeFp f a).isNaN then (f.nanCode, 0) else (exAlone f ta).neg.round f m 0

/-- a with its sign cleared; the tangent follows a's sign bit. -/
def fpAbs : FpOp where
  primal m f a _ _ := (let v := decodeFp f a; (⟨v.absV, sigFlag v⟩ : Ex)).round f m 0
  tangent m f a _ _ ta _ _ :=
    if (decodeFp f a).isNaN then (f.nanCode, 0)
    else if (decodeFp f a).neg? then (exAlone f ta).neg.round f m 0 else (exAlone f ta).round f m 0

/-- √a, or 1/√a (R132). -/
def rootOf (inverse : Bool) (m : RMode) (f : Fmt) (a : Val) : Nat × Word :=
  match a with
  | .nan s => (f.nanCode, flagIf s fIV)
  | .inf s => if s then (f.nanCode, fIV) else if inverse then (0, 0) else (f.infCode, 0)
  | .fin s n e d =>
    if n == 0 then (if inverse then (f.signCode s + f.infCode, fDZ) else (f.signCode s, 0))
    else if s then (f.nanCode, fIV)
    else if inverse then roundSqrt f m d (-e) n else roundSqrt f m n e d

/-- The number 2. -/
def exTwo : Ex := .of (.ofInt 2)

/-- √a; tangent ta / (2 × y). -/
def fpSqrt : FpOp where
  primal m f a _ _ := rootOf false m f (decodeFp f a)
  tangent m f _ _ y ta _ _ := (Ex.div (ex f ta) (Ex.mul exTwo (ex f y))).round f m 0

/-- 1/a; tangent −ta × y × y. -/
def fpRcp : FpOp where
  primal m f a _ _ := (Ex.div (.of (.ofInt 1)) (ex f a)).round f m 0
  tangent m f _ _ y ta _ _ := (Ex.mul (Ex.mul (ex f ta).neg (ex f y)) (ex f y)).round f m 0

/-- 1/√a; tangent −ta × y × y × y / 2. -/
def fpRsq : FpOp where
  primal m f a _ _ := rootOf true m f (decodeFp f a)
  tangent m f _ _ y ta _ _ :=
    (Ex.div (Ex.mul (Ex.mul (Ex.mul (ex f ta).neg (ex f y)) (ex f y)) (ex f y)) exTwo).round f m 0

/-- The class mask of an element (R135). -/
def classMask (f : Fmt) (code : Nat) : Nat :=
  let normal := code / 2 ^ f.mbits % 2 ^ f.ebits != 0
  match decodeFp f code with
  | .nan s => if s then 1 else 2
  | .inf s => if s then 4 else 512
  | .fin s n _ _ =>
    if n == 0 then (if s then 32 else 64)
    else if normal then (if s then 8 else 256) else (if s then 16 else 128)

/-! ## Comparison (R136) -/

/-- The value of a condition and the IV it raises. -/
def fpCond (cd : FCond) (a b : Val) : Bool × Word :=
  let un := a.isNaN || b.isNaN
  let quiet := sigFlag a ||| sigFlag b
  let loud := flagIf un fIV
  match cd with
  | .eq => (eqV a b, quiet)
  | .ne => (!eqV a b, quiet)
  | .lt => (ltV a b, loud)
  | .le => (ltV a b || eqV a b, loud)
  | .gt => (ltV b a, loud)
  | .ge => (ltV b a || eqV a b, loud)
  | .un => (un, quiet)
  | .or => (!un, quiet)

/-! ## Meanings -/

def execFadd (x : Pfx) (d a b : Reg) (t : FType) (s : State) : Host.Outcome State Fault Refusal :=
  fpUnit x fpAdd t d a b s
def execFsub (x : Pfx) (d a b : Reg) (t : FType) (s : State) : Host.Outcome State Fault Refusal :=
  fpUnit x fpSub t d a b s
def execFmul (x : Pfx) (d a b : Reg) (t : FType) (s : State) : Host.Outcome State Fault Refusal :=
  fpUnit x fpMul t d a b s
def execFfma (x : Pfx) (d a b : Reg) (t : FType) (s : State) : Host.Outcome State Fault Refusal :=
  fpUnit x fpFma t d a b s
def execFdiv (x : Pfx) (d a b : Reg) (t : FType) (s : State) : Host.Outcome State Fault Refusal :=
  fpUnit x fpDiv t d a b s
def execFmin (x : Pfx) (d a b : Reg) (t : FType) (s : State) : Host.Outcome State Fault Refusal :=
  fpUnit x (fpPick false) t d a b s
def execFmax (x : Pfx) (d a b : Reg) (t : FType) (s : State) : Host.Outcome State Fault Refusal :=
  fpUnit x (fpPick true) t d a b s
def execFneg (x : Pfx) (d a : Reg) (t : FType) (s : State) : Host.Outcome State Fault Refusal :=
  fpUnit1 x fpNeg t d a s
def execFabs (x : Pfx) (d a : Reg) (t : FType) (s : State) : Host.Outcome State Fault Refusal :=
  fpUnit1 x fpAbs t d a s
def execFsqrt (x : Pfx) (d a : Reg) (t : FType) (s : State) : Host.Outcome State Fault Refusal :=
  fpUnit1 x fpSqrt t d a s
def execFrcp (x : Pfx) (d a : Reg) (t : FType) (s : State) : Host.Outcome State Fault Refusal :=
  fpUnit1 x fpRcp t d a s
def execFrsq (x : Pfx) (d a : Reg) (t : FType) (s : State) : Host.Outcome State Fault Refusal :=
  fpUnit1 x fpRsq t d a s

/-- fclass: the masks of the elements, in one register (R135). -/
def execFclass (x : Pfx) (d a : Reg) (t : FType) (s : State) : Host.Outcome State Fault Refusal :=
  issueUnit x (needRW (regsOf t.wide a) [d.toNat]) (laneUnit (fun c l =>
    c.plain l false d (packed t (fun e => (classMask (eltFmt t) (elt t (c.val l t.wide a) e), 0))).1)) s

/-- round_fp(a × 2^e) (R133). -/
def fpScale (e : Int) : FpOp where
  primal m f a _ _ := (let v := exAlone f a; (⟨v.v.scale e, v.fl⟩ : Ex)).round f m 0
  tangent m f _ _ _ ta _ _ := (let v := exAlone f ta; (⟨v.v.scale e, v.fl⟩ : Ex)).round f m 0

def execFscale (x : Pfx) (d a b : Reg) (t : FType) (s : State) : Host.Outcome State Fault Refusal :=
  issueUnit x { needSeed t.wide (regsOf t.wide a ++ [b.toNat]) (regsOf t.wide d) with shadows := regsOf t.wide a } (laneUnit (fun c l =>
    fpLane (fpScale (c.word l b).toInt) t d a a c l)) s

/-- Σ of products rounded once to fp32 (R134): the terms, then the addend. -/
def dotRound (m : RMode) (ts : List Ex) : Nat × Word :=
  match ts with
  | [] => (0, 0)
  | t :: ts => (ts.foldl (Ex.add m) t).round .f32 m 0

/-- fdot2 (R134). -/
def execFdot2 (x : Pfx) (d a b : Reg) (t : FType) (s : State) : Host.Outcome State Fault Refusal :=
  issueUnit x (needMove [a.toNat, b.toNat, d.toNat] [d.toNat]) (laneUnit (fun c l =>
    let el (p : Nat) (n : Reg) (e : Nat) : Ex := ex (eltFmt t) (elt t (c.gang.regN false p l n.toNat) e)
    let addend (p : Nat) : Ex := ex .f32 (c.gang.reg p l d.toNat).toNat
    let y := dotRound c.mode [Ex.mul (el 0 a 0) (el 0 b 0), Ex.mul (el 0 a 1) (el 0 b 1), addend 0]
    dualOut c l false d (BitVec.ofNat 64 y.1, y.2) (fun k =>
      let z := dotRound c.mode [Ex.mul (el (k + 1) a 0) (el 0 b 0), Ex.mul (el 0 a 0) (el (k + 1) b 0),
        Ex.mul (el (k + 1) a 1) (el 0 b 1), Ex.mul (el 0 a 1) (el (k + 1) b 1), addend (k + 1)]
      (BitVec.ofNat 64 z.1, z.2)))) s

/-- fcmp: predicate p, IV by R136. -/
def execFcmp (x : Pfx) (cd : FCond) (p : PReg) (a b : Reg) (t : FType) (s : State) :
    Host.Outcome State Fault Refusal :=
  issueUnit x (needPred [p] (regsOf t.wide a ++ regsOf t.wide b)) (laneUnit (fun c l =>
    let r := fpCond cd (decodeFp (eltFmt t) (elt t (c.val l t.wide a) 0)) (decodeFp (eltFmt t) (elt t (c.val l t.wide b) 0))
    { preds := [(p.toNat, r.1)], flags := r.2 })) s

/-- A transcendental of R137. -/
def fpTrans (f : Trans) : FpOp where
  primal m _ a _ _ := transPrimal f m (decodeFp .f32 a)
  tangent m _ a _ _ ta _ _ := transTangent f m (decodeFp .f32 a) (decodeFp .f32 ta)

def execFexp2 (x : Pfx) (d a : Reg) (s : State) : Host.Outcome State Fault Refusal :=
  fpUnit1 x (fpTrans .exp2) .f32 d a s
def execFlog2 (x : Pfx) (d a : Reg) (s : State) : Host.Outcome State Fault Refusal :=
  fpUnit1 x (fpTrans .log2) .f32 d a s
def execFsin (x : Pfx) (d a : Reg) (s : State) : Host.Outcome State Fault Refusal :=
  fpUnit1 x (fpTrans .sin) .f32 d a s
def execFcos (x : Pfx) (d a : Reg) (s : State) : Host.Outcome State Fault Refusal :=
  fpUnit1 x (fpTrans .cos) .f32 d a s
def execFtanh (x : Pfx) (d a : Reg) (s : State) : Host.Outcome State Fault Refusal :=
  fpUnit1 x (fpTrans .tanh) .f32 d a s

end Sys2Proof.Machine
end

