-- ==== Sys2Proof/Machine/Int.lean ====
section
/-! DEFINITION. The integer instructions of majors 0x01..0x1d (R112 to R126) and the predicate instructions of R150. -/

namespace Sys2Proof.Machine

/-! ## Shared forms -/

/-- d := f a b on integers of a type (R118). -/
def intUnit (x : Pfx) (d a b : Reg) (t : IType) (f : Int → Int → Int) (s : State) :
    Host.Outcome State Fault Refusal :=
  issueUnit x (needRW (regsOf t.wide a ++ regsOf t.wide b) (regsOf t.wide d)) (laneUnit (fun c l =>
    c.plain l t.wide d (intOut t (f (c.int l t a) (c.int l t b))))) s

/-- d := f a b on bits (R121). -/
def logicUnit (x : Pfx) (d a b : Reg) (w : Bool) (f : Addr → Addr → Addr) (s : State) :
    Host.Outcome State Fault Refusal :=
  issueUnit x (needRW (regsOf w a ++ regsOf w b) (regsOf w d)) (laneUnit (fun c l =>
    c.plain l w d (f (c.val l w a) (c.val l w b)))) s

/-- d := f a n, n the count in the single register b (R120). -/
def shiftUnit (x : Pfx) (d a b : Reg) (t : IType) (f : Nat → Addr → Nat → Addr) (s : State) :
    Host.Outcome State Fault Refusal :=
  issueUnit x (needRW (regsOf t.wide a ++ [b.toNat]) (regsOf t.wide d)) (laneUnit (fun c l =>
    c.plain l t.wide d (f t.bits (c.val l t.wide a) (c.word l b).toNat))) s

/-- d := f a of one operand, d single or a pair (R119). -/
def unaryUnit (x : Pfx) (d a : Reg) (w dw : Bool) (f : Addr → Addr) (s : State) : Host.Outcome State Fault Refusal :=
  issueUnit x (needRW (regsOf w a) (regsOf dw d)) (laneUnit (fun c l => c.plain l dw d (f (c.val l w a)))) s

/-- d := f a #i, a 32-bit operation with an immediate (R122). -/
def immUnit (x : Pfx) (d a : Reg) (i : BitVec 11) (f : Word → Word → Word) (s : State) :
    Host.Outcome State Fault Refusal :=
  issueUnit x (needRW [a.toNat] [d.toNat]) (laneUnit (fun c l => c.plain32 l d (f (c.word l a) (imm32 x i)))) s

/-- Predicate p := cond x y (R126). -/
def cmpUnit (x : Pfx) (p : PReg) (regs : List Nat) (f : UnitCtx → Nat → Bool) (s : State) :
    Host.Outcome State Fault Refusal :=
  issueUnit x (needPred [p] regs) (laneUnit (fun c l => { preds := [(p.toNat, f c l)] })) s

/-- The bits of a value, the lowest first. -/
def bitsOf (n : Nat) (v : Addr) : List Bool := (List.range n).map v.getLsbD

/-- Leading zeros of the low n bits (R119). -/
def leadingZeros (n : Nat) (v : Addr) : Nat := ((bitsOf n v).reverse.takeWhile (fun b => !b)).length

/-- Set bits of the low n bits (R119). -/
def popCount (n : Nat) (v : Addr) : Nat := ((bitsOf n v).filter id).length

/-- The low n bits in reverse order (R119). -/
def bitReverse (n : Nat) (v : Addr) : Addr := (BitVec.ofBoolListLE (bitsOf n v).reverse).setWidth 64

/-- Width of a register or pair. -/
def widthOf (w : Bool) : Nat := if w then 64 else 32

/-- The field of R123: position, and width cut at bit 31. -/
def bitField (b : Word) : Nat × Nat :=
  let pos := (b.extractLsb' 0 5).toNat
  (pos, Nat.min (Nat.min (b.extractLsb' 8 6).toNat 32) (32 - pos))

/-- bfx of R123. -/
def bitExtract (signed : Bool) (a b : Word) : Word :=
  let f := bitField b
  let v := (a >>> f.1) &&& BitVec.ofNat 32 (2 ^ f.2 - 1)
  if signed && f.2 != 0 && v.getLsbD (f.2 - 1) then v ||| ~~~(BitVec.ofNat 32 (2 ^ f.2 - 1)) else v

/-- bfi of R123. -/
def bitInsert (a b d : Word) : Word :=
  let f := bitField b
  let mask : Word := BitVec.ofNat 32 (2 ^ f.2 - 1) <<< f.1
  (d &&& ~~~mask) ||| ((a <<< f.1) &&& mask)

/-- Byte j of prmt (R124). -/
def permuteByte (a b old : Word) (j : Nat) : Byte :=
  let sel := (old >>> (4 * j)).setWidth 4
  let byte : Byte := ((b ++ a : Addr) >>> (8 * (sel.toNat % 8))).setWidth 8
  if sel.getLsbD 3 then (if byte.getLsbD 7 then 0xff else 0) else byte

/-- prmt of R124. -/
def permuteBytes (a b old : Word) : Word :=
  permuteByte a b old 3 ++ permuteByte a b old 2 ++ permuteByte a b old 1 ++ permuteByte a b old 0

/-! ## Arithmetic (R118) -/

/-- v := x + y (R118) -/
def execAdd (x : Pfx) (d a b : Reg) (t : IType) (s : State) : Host.Outcome State Fault Refusal :=
  intUnit x d a b t (fun x y => x + y) s

/-- v := x − y (R118) -/
def execSub (x : Pfx) (d a b : Reg) (t : IType) (s : State) : Host.Outcome State Fault Refusal :=
  intUnit x d a b t (fun x y => x - y) s

/-- v := x × y (R118) -/
def execMul (x : Pfx) (d a b : Reg) (t : IType) (s : State) : Host.Outcome State Fault Refusal :=
  intUnit x d a b t (fun x y => x * y) s

/-- v := floor(x × y / 2^N) (R118). -/
def execMulh (x : Pfx) (d a b : Reg) (t : IType) (s : State) : Host.Outcome State Fault Refusal :=
  intUnit x d a b t (fun x y => (x * y) / (2 ^ t.bits : Nat)) s

/-- v := x × y + z, z the old d (R118). -/
def execMad (x : Pfx) (d a b : Reg) (t : IType) (s : State) : Host.Outcome State Fault Refusal :=
  issueUnit x (needRW (regsOf t.wide a ++ regsOf t.wide b ++ regsOf t.wide d) (regsOf t.wide d)) (laneUnit (fun c l =>
    c.plain l t.wide d (intOut t (c.int l t a * c.int l t b + c.int l t d)))) s

/-- v := smaller of x, y (R118). -/
def execMin (x : Pfx) (d a b : Reg) (t : IType) (s : State) : Host.Outcome State Fault Refusal :=
  intUnit x d a b t (fun x y => if x ≤ y then x else y) s

/-- v := larger of x, y (R118). -/
def execMax (x : Pfx) (d a b : Reg) (t : IType) (s : State) : Host.Outcome State Fault Refusal :=
  intUnit x d a b t (fun x y => if x ≥ y then x else y) s

/-! ## Shifts and logic (R120, R121) -/

/-- shl (R120). -/
def execShl (x : Pfx) (d a b : Reg) (t : IType) (s : State) : Host.Outcome State Fault Refusal :=
  shiftUnit x d a b t shiftLeft s

/-- shr (R120). -/
def execShr (x : Pfx) (d a b : Reg) (t : IType) (s : State) : Host.Outcome State Fault Refusal :=
  shiftUnit x d a b t shiftRight s

/-- sar (R120). -/
def execSar (x : Pfx) (d a b : Reg) (t : IType) (s : State) : Host.Outcome State Fault Refusal :=
  shiftUnit x d a b t shiftArith s

/-- and (R121). -/
def execAnd (x : Pfx) (d a b : Reg) (w : Bool) (s : State) : Host.Outcome State Fault Refusal :=
  logicUnit x d a b w (fun u v => u &&& v) s

/-- or (R121). -/
def execOr (x : Pfx) (d a b : Reg) (w : Bool) (s : State) : Host.Outcome State Fault Refusal :=
  logicUnit x d a b w (fun u v => u ||| v) s

/-- xor (R121). -/
def execXor (x : Pfx) (d a b : Reg) (w : Bool) (s : State) : Host.Outcome State Fault Refusal :=
  logicUnit x d a b w (fun u v => u ^^^ v) s

/-- andn (R121). -/
def execAndn (x : Pfx) (d a b : Reg) (w : Bool) (s : State) : Host.Outcome State Fault Refusal :=
  logicUnit x d a b w (fun u v => u &&& ~~~v) s

/-! ## Single-operand functions (R119) -/

/-- abs(x) modulo 2^N (R119). -/
def execAbs (x : Pfx) (d a : Reg) (w : Bool) (s : State) : Host.Outcome State Fault Refusal :=
  unaryUnit x d a w w (fun v =>
    BitVec.ofInt 64 (if (v.setWidth (widthOf w)).toInt < 0 then -(v.setWidth (widthOf w)).toInt
      else (v.setWidth (widthOf w)).toInt)) s

/-- −x modulo 2^N (R119). -/
def execNeg (x : Pfx) (d a : Reg) (w : Bool) (s : State) : Host.Outcome State Fault Refusal :=
  unaryUnit x d a w w (fun v => -v) s

/-- Count of leading zeros, a single register (R119). -/
def execClz (x : Pfx) (d a : Reg) (w : Bool) (s : State) : Host.Outcome State Fault Refusal :=
  unaryUnit x d a w false (fun v => BitVec.ofNat 64 (leadingZeros (widthOf w) v)) s

/-- Count of set bits, a single register (R119). -/
def execPopc (x : Pfx) (d a : Reg) (w : Bool) (s : State) : Host.Outcome State Fault Refusal :=
  unaryUnit x d a w false (fun v => BitVec.ofNat 64 (popCount (widthOf w) v)) s

/-- Bits in reverse order (R119). -/
def execBrev (x : Pfx) (d a : Reg) (w : Bool) (s : State) : Host.Outcome State Fault Refusal :=
  unaryUnit x d a w w (fun v => bitReverse (widthOf w) v) s

/-- x, with its tangents (R115, R119). -/
def execMov (x : Pfx) (d a : Reg) (w : Bool) (s : State) : Host.Outcome State Fault Refusal :=
  issueUnit x (needMove (regsOf w a) (regsOf w d)) (laneUnit (fun c l =>
    c.moved l w d (fun p => c.gang.regN w p l a.toNat))) s

/-! ## Bit fields, byte permute, select and compare (R123 to R126) -/

/-- bfx.i32 and bfx.n32 (R123). -/
def execBfx (x : Pfx) (d a b : Reg) (sg : Bool) (s : State) : Host.Outcome State Fault Refusal :=
  issueUnit x (needRW [a.toNat, b.toNat] [d.toNat]) (laneUnit (fun c l =>
    c.plain32 l d (bitExtract sg (c.word l a) (c.word l b)))) s

/-- bfi.n32 (R123). -/
def execBfi (x : Pfx) (d a b : Reg) (s : State) : Host.Outcome State Fault Refusal :=
  issueUnit x (needRW [a.toNat, b.toNat, d.toNat] [d.toNat]) (laneUnit (fun c l =>
    c.plain32 l d (bitInsert (c.word l a) (c.word l b) (c.word l d)))) s

/-- prmt (R124). -/
def execPrmt (x : Pfx) (d a b : Reg) (s : State) : Host.Outcome State Fault Refusal :=
  issueUnit x (needRW [a.toNat, b.toNat, d.toNat] [d.toNat]) (laneUnit (fun c l =>
    c.plain32 l d (permuteBytes (c.word l a) (c.word l b) (c.word l d)))) s

/-- Per lane, a if the predicate is true, else b, with tangents (R115, R125). -/
def execSel (x : Pfx) (d a b : Reg) (p : PReg) (s : State) : Host.Outcome State Fault Refusal :=
  issueUnit x { needMove [a.toNat, b.toNat] [d.toNat] with preds := [p.toNat] } (laneUnit (fun c l =>
    c.moved l false d (fun k => c.gang.regN false k l (if c.gang.predOf l p.toNat then a else b).toNat))) s

/-- cmp (R126). -/
def execCmp (x : Pfx) (cd : ICond) (p : PReg) (a b : Reg) (t : IType) (s : State) : Host.Outcome State Fault Refusal :=
  cmpUnit x p (regsOf t.wide a ++ regsOf t.wide b) (fun c l => intCond cd (c.int l t a) (c.int l t b)) s

/-- cmpi.i32 (R126). -/
def execCmpiI32 (x : Pfx) (cd : ICond) (p : PReg) (a : Reg) (i : BitVec 11) (s : State) : Host.Outcome State Fault Refusal :=
  cmpUnit x p [a.toNat] (fun c l => intCond cd (c.word l a).toInt (imm32 x i).toInt) s

/-- cmpi.n32: the immediate is a 32-bit pattern (R126). -/
def execCmpiN32 (x : Pfx) (cd : ICond) (p : PReg) (a : Reg) (i : BitVec 11) (s : State) : Host.Outcome State Fault Refusal :=
  cmpUnit x p [a.toNat] (fun c l => intCond cd (c.word l a).toNat (imm32 x i).toNat) s

/-! ## Immediate forms (R122, R125) -/

/-- addi (R120, R122). -/
def execAddi (x : Pfx) (d a : Reg) (i : BitVec 11) (s : State) : Host.Outcome State Fault Refusal :=
  immUnit x d a i (fun u v => u + v) s

/-- muli (R120, R122). -/
def execMuli (x : Pfx) (d a : Reg) (i : BitVec 11) (s : State) : Host.Outcome State Fault Refusal :=
  immUnit x d a i (fun u v => u * v) s

/-- shli (R120, R122). -/
def execShli (x : Pfx) (d a : Reg) (i : BitVec 11) (s : State) : Host.Outcome State Fault Refusal :=
  immUnit x d a i (fun u v => (shiftLeft 32 (u.setWidth 64) v.toNat).setWidth 32) s

/-- shri (R120, R122). -/
def execShri (x : Pfx) (d a : Reg) (i : BitVec 11) (s : State) : Host.Outcome State Fault Refusal :=
  immUnit x d a i (fun u v => (shiftRight 32 (u.setWidth 64) v.toNat).setWidth 32) s

/-- sari (R120, R122). -/
def execSari (x : Pfx) (d a : Reg) (i : BitVec 11) (s : State) : Host.Outcome State Fault Refusal :=
  immUnit x d a i (fun u v => (shiftArith 32 (u.setWidth 64) v.toNat).setWidth 32) s

/-- andi (R120, R122). -/
def execAndi (x : Pfx) (d a : Reg) (i : BitVec 11) (s : State) : Host.Outcome State Fault Refusal :=
  immUnit x d a i (fun u v => u &&& v) s

/-- ori (R120, R122). -/
def execOri (x : Pfx) (d a : Reg) (i : BitVec 11) (s : State) : Host.Outcome State Fault Refusal :=
  immUnit x d a i (fun u v => u ||| v) s

/-- xori (R120, R122). -/
def execXori (x : Pfx) (d a : Reg) (i : BitVec 11) (s : State) : Host.Outcome State Fault Refusal :=
  immUnit x d a i (fun u v => u ^^^ v) s

/-- andni (R120, R122). -/
def execAndni (x : Pfx) (d a : Reg) (i : BitVec 11) (s : State) : Host.Outcome State Fault Refusal :=
  immUnit x d a i (fun u v => u &&& ~~~v) s

/-- movi (R125). -/
def execMovi (x : Pfx) (d : Reg) (i : BitVec 11) (s : State) : Host.Outcome State Fault Refusal :=
  issueUnit x (needRW [] [d.toNat]) (laneUnit (fun c l => c.plain32 l d (imm32 x i))) s

/-- lui (R125). -/
def execLui (x : Pfx) (d : Reg) (i : BitVec 18) (s : State) : Host.Outcome State Fault Refusal :=
  issueUnit x (needRW [] [d.toNat]) (laneUnit (fun c l => c.plain32 l d (i ++ 0#14))) s

/-- lea: no address check (R125). -/
def execLea (x : Pfx) (d a : Reg) (i : BitVec 11) (s : State) : Host.Outcome State Fault Refusal :=
  issueUnit x (needRW (regsOf true a) (regsOf true d)) (laneUnit (fun c l =>
    c.plain l true d (c.pair l a + imm64 x i))) s

/-! ## Predicates (R150) -/

/-- d := f of two predicates, each negated where its bit is set (R150). -/
def predUnit (x : Pfx) (d : PReg) (ps : List PReg) (f : Gang → Nat → Bool) (s : State) : Host.Outcome State Fault Refusal :=
  issueUnit x (needPred (d :: ps) []) (laneUnit (fun c l => { preds := [(d.toNat, f c.gang l)] })) s

/-- A predicate operand with its negation bit. -/
def predIn (g : Gang) (l : Nat) (n : Bool) (p : PReg) : Bool := g.predOf l p.toNat != n

/-- pand (R150). -/
def execPand (x : Pfx) (d : PReg) (n : Bool) (a : PReg) (m : Bool) (b : PReg) (s : State) : Host.Outcome State Fault Refusal :=
  predUnit x d [a, b] (fun g l => predIn g l n a && predIn g l m b) s

/-- por (R150). -/
def execPor (x : Pfx) (d : PReg) (n : Bool) (a : PReg) (m : Bool) (b : PReg) (s : State) : Host.Outcome State Fault Refusal :=
  predUnit x d [a, b] (fun g l => predIn g l n a || predIn g l m b) s

/-- pxor (R150). -/
def execPxor (x : Pfx) (d : PReg) (n : Bool) (a : PReg) (m : Bool) (b : PReg) (s : State) : Host.Outcome State Fault Refusal :=
  predUnit x d [a, b] (fun g l => predIn g l n a != predIn g l m b) s

/-- pnot (R150). -/
def execPnot (x : Pfx) (d : PReg) (n : Bool) (a : PReg) (s : State) : Host.Outcome State Fault Refusal :=
  predUnit x d [a] (fun g l => !predIn g l n a) s

/-- pset (R150). -/
def execPset (x : Pfx) (d : PReg) (a : Reg) (s : State) : Host.Outcome State Fault Refusal :=
  cmpUnit x d [a.toNat] (fun c l => c.word l a != 0) s

end Sys2Proof.Machine
end

