-- ==== Sys2Proof/Decode.lean ====
section
/-! DEFINITION. Decoding a unit: the words that stand before an instruction (R85 to R90), the instruction word by its
major opcode (R78, R92 to R99), and the named rejection of every sequence that is no instruction (R101). After it the
encoder, from the same tables, and the entry the host numbers words by. -/

namespace Sys2Proof

/-- The fields of a form R word (R78); forms I, U and B join some of them. -/
structure Fields where
  op : BitVec 7
  d  : BitVec 7
  a  : BitVec 7
  b  : BitVec 7
  f  : BitVec 4
deriving DecidableEq, Repr

/-- Split a word (R78). -/
def splitWord (w : Word) : Fields :=
  { op := w.extractLsb' 25 7, d := w.extractLsb' 18 7, a := w.extractLsb' 11 7, b := w.extractLsb' 4 7,
    f := w.extractLsb' 0 4 }

/-- Join the fields of a word. -/
def joinWord (x : Fields) : Word := x.op ++ x.d ++ x.a ++ x.b ++ x.f

/-- imm11 of the I form. -/
def Fields.imm (w : Fields) : BitVec 11 := w.b ++ w.f
/-- d bits 3..0: a predicate or layout register (R79). -/
def Fields.lo4 (w : Fields) : BitVec 4 := w.d.extractLsb' 0 4
/-- d bits 6..4: a condition (R84), or reserved. -/
def Fields.hi3 (w : Fields) : BitVec 3 := w.d.extractLsb' 4 3
/-- d, a and b are all zero. -/
def Fields.dab0 (w : Fields) : Bool := w.d == 0 && w.a == 0 && w.b == 0

/-- A code that must be assigned. -/
def code {α : Type} (o : Option α) (k : α → Except Reject Instr) : Except Reject Instr :=
  match o with
  | some v => k v
  | none => .error .code

/-- Reserved fields that must be zero. -/
def res (ok : Bool) (r : Except Reject Instr) : Except Reject Instr := if ok then r else .error .reserved

/-- The integer and cross-lane majors (R92). -/
def parseInteger (x : Pfx) (w : Fields) : Except Reject Instr :=
  match w.op.toNat with
  | 0x1 => code (IType.ofCode w.f.toNat) (fun t => .ok (.add x w.d w.a w.b t))
  | 0x2 => code (IType.ofCode w.f.toNat) (fun t => .ok (.sub x w.d w.a w.b t))
  | 0x3 => code (IType.ofCode w.f.toNat) (fun t => .ok (.mul x w.d w.a w.b t))
  | 0x4 => code (IType.ofCode w.f.toNat) (fun t => .ok (.mulh x w.d w.a w.b t))
  | 0x5 => code (IType.ofCode w.f.toNat) (fun t => .ok (.mad x w.d w.a w.b t))
  | 0x6 => code (IType.ofCode w.f.toNat) (fun t => .ok (.min x w.d w.a w.b t))
  | 0x7 => code (IType.ofCode w.f.toNat) (fun t => .ok (.max x w.d w.a w.b t))
  | 0x8 => code (IType.ofCode w.f.toNat) (fun t => .ok (.shl x w.d w.a w.b t))
  | 0x9 => code (IType.ofCode w.f.toNat) (fun t => .ok (.shr x w.d w.a w.b t))
  | 0xa => code (IType.ofCode w.f.toNat) (fun t => .ok (.sar x w.d w.a w.b t))
  | 0xb => res (w.f.extractLsb' 2 1 == 0) (let g := w.f.getLsbD 3; match (w.f.extractLsb' 0 2).toNat with
    | 0 => .ok (.and x w.d w.a w.b g) | 1 => .ok (.or x w.d w.a w.b g) | 2 => .ok (.xor x w.d w.a w.b g)
    | _ => .ok (.andn x w.d w.a w.b g))
  | 0xc => res (w.b == 0) (let g := w.f.getLsbD 0; match (w.f.extractLsb' 1 3).toNat with
    | 0 => .ok (.abs x w.d w.a g) | 1 => .ok (.neg x w.d w.a g) | 2 => .ok (.clz x w.d w.a g)
    | 3 => .ok (.popc x w.d w.a g) | 4 => .ok (.brev x w.d w.a g) | 5 => .ok (.mov x w.d w.a g) | _ => .error .code)
  | 0xd => match w.f.toNat with
    | 0 => .ok (.bfx x w.d w.a w.b true) | 1 => .ok (.bfx x w.d w.a w.b false) | 2 => .ok (.bfi x w.d w.a w.b)
    | 3 => .ok (.prmt x w.d w.a w.b) | _ => .error .code
  | 0xe => .ok (.sel x w.d w.a w.b w.f)
  | 0xf => code (ICond.ofCode w.hi3.toNat) (fun c => code (IType.ofCode w.f.toNat) (fun t => .ok (.cmp x c w.lo4 w.a w.b t)))
  | 0x10 => .ok (.addi x w.d w.a w.imm)
  | 0x11 => .ok (.muli x w.d w.a w.imm)
  | 0x12 => .ok (.shli x w.d w.a w.imm)
  | 0x13 => .ok (.shri x w.d w.a w.imm)
  | 0x14 => .ok (.sari x w.d w.a w.imm)
  | 0x15 => .ok (.andi x w.d w.a w.imm)
  | 0x16 => .ok (.ori x w.d w.a w.imm)
  | 0x17 => .ok (.xori x w.d w.a w.imm)
  | 0x18 => .ok (.andni x w.d w.a w.imm)
  | 0x19 => code (ICond.ofCode w.hi3.toNat) (fun c => .ok (.cmpiI32 x c w.lo4 w.a w.imm))
  | 0x1a => code (ICond.ofCode w.hi3.toNat) (fun c => .ok (.cmpiN32 x c w.lo4 w.a w.imm))
  | 0x1b => res (w.a == 0) (.ok (.movi x w.d w.imm))
  | 0x1c => .ok (.lui x w.d (w.a ++ w.b ++ w.f))
  | 0x1d => .ok (.lea x w.d w.a w.imm)
  | 0x1e => code (ShflMode.ofCode (w.imm.extractLsb' 9 2).toNat) (fun m =>
    if w.imm.getLsbD 8 then res (!w.imm.getLsbD 7) (.ok (.shflReg x w.d w.a m (w.imm.extractLsb' 0 7)))
    else res (w.imm.extractLsb' 6 2 == 0) (.ok (.shfl x w.d w.a m (w.imm.extractLsb' 0 6))))
  | 0x1f => res (w.a.extractLsb' 4 3 == 0 && w.imm.extractLsb' 5 3 == 0 && w.f == 0)
    (let s := w.a.extractLsb' 0 4; let n := w.imm.getLsbD 4
     match (w.imm.extractLsb' 8 3).toNat with
     | 0 => .ok (.ballot x w.d s n)
     | 1 => res (w.hi3 == 0) (.ok (.voteAny x w.lo4 s n))
     | 2 => res (w.hi3 == 0) (.ok (.voteAll x w.lo4 s n))
     | 3 => res (w.hi3 == 0) (.ok (.voteUni x w.lo4 s n))
     | _ => .error .code)
  | _ => .error .major

/-- The floating-point and conversion majors (R93). -/
def parseFloat (x : Pfx) (w : Fields) : Except Reject Instr :=
  match w.op.toNat with
  | 0x20 => code (FType.ofCode w.f.toNat) (fun t => .ok (.fadd x w.d w.a w.b t))
  | 0x21 => code (FType.ofCode w.f.toNat) (fun t => .ok (.fsub x w.d w.a w.b t))
  | 0x22 => code (FType.ofCode w.f.toNat) (fun t => .ok (.fmul x w.d w.a w.b t))
  | 0x23 => code (FType.ofCode w.f.toNat) (fun t => .ok (.ffma x w.d w.a w.b t))
  | 0x24 => code (FType.ofCode w.f.toNat) (fun t => .ok (.fmin x w.d w.a w.b t))
  | 0x25 => code (FType.ofCode w.f.toNat) (fun t => .ok (.fmax x w.d w.a w.b t))
  | 0x26 => code (FType.ofCode w.f.toNat) (fun t => .ok (.fdiv x w.d w.a w.b t))
  | 0x27 => code (FType.ofCode w.f.toNat) (fun t => .ok (.fdot2 x w.d w.a w.b t))
  | 0x28 => code (FCond.ofCode w.hi3.toNat) (fun c => code (FType.ofCode w.f.toNat) (fun t => .ok (.fcmp x c w.lo4 w.a w.b t)))
  | 0x29 => code (FType.ofCode w.f.toNat) (fun t => match w.b.toNat with
    | 0 => .ok (.fneg x w.d w.a t) | 1 => .ok (.fabs x w.d w.a t) | 2 => .ok (.fsqrt x w.d w.a t)
    | 3 => .ok (.frcp x w.d w.a t) | 4 => .ok (.frsq x w.d w.a t) | 5 => .ok (.fclass x w.d w.a t) | _ => .error .code)
  | 0x2a => code (FType.ofCode w.f.toNat) (fun t => .ok (.fscale x w.d w.a w.b t))
  | 0x30 => code (CFmt.ofCode w.f.toNat) (fun c => code (CFmt.ofCode (w.b.extractLsb' 0 4).toNat) (fun s =>
    code (CvtMode.ofCode (w.b.extractLsb' 4 3).toNat) (fun m => .ok (.cvt x w.d w.a m s c))))
  | 0x31 => code (CFmt.ofCode w.f.toNat) (fun c => .ok (.cvtSr x w.d w.a w.b c))
  | 0x32 => code (PFmt.ofCode w.f.toNat) (fun c => code (CvtMode.ofCode (w.b.extractLsb' 4 3).toNat) (fun m =>
    res (w.b.extractLsb' 0 4 == 0) (.ok (.cvtPack x w.d w.a m c))))
  | 0x33 => code (PFmt.ofCode w.f.toNat) (fun c => .ok (.cvtPackSr x w.d w.a w.b c))
  | 0x34 => code (PFmt.ofCode w.f.toNat) (fun c => res (w.b == 0) (.ok (.cvtUnpack x w.d w.a c)))
  | 0x35 => if w.f == 8 then match w.b.toNat with
    | 0 => .ok (.fexp2 x w.d w.a) | 1 => .ok (.flog2 x w.d w.a) | 2 => .ok (.fsin x w.d w.a)
    | 3 => .ok (.fcos x w.d w.a) | 4 => .ok (.ftanh x w.d w.a) | _ => .error .code
    else .error .code
  | _ => .error .major

/-- The control majors (R94). -/
def parseControl (x : Pfx) (w : Fields) : Except Reject Instr :=
  match w.op.toNat with
  | 0x38 => .ok (.bra x (w.d.getLsbD 6) (w.d.extractLsb' 2 4) (w.d.extractLsb' 0 2 ++ w.a ++ w.b ++ w.f))
  | 0x39 => .ok (.call x (w.d.getLsbD 6) (w.d.extractLsb' 2 4) (w.d.extractLsb' 0 2 ++ w.a ++ w.b ++ w.f))
  | 0x3a => match w.f.toNat with
    | 0 => res (w.d == 0 && w.b == 0) (.ok (.brx x w.a))
    | 1 => res (w.d == 0 && w.a == 0 && w.b == 0) (.ok (.ret x)) | _ => .error .code
  | 0x3b => match w.f.toNat with
    | 0 => res w.dab0 (.ok (.nop x)) | 1 => res w.dab0 (.ok (.exit x)) | 2 => res w.dab0 (.ok (.yield x))
    | 3 => res (w.d == 0 && w.b == 0) (.ok (.sleep x w.a)) | 4 => res w.dab0 (.ok (.bkpt x))
    | 5 => res w.dab0 (.ok (.trap x)) | 6 => res w.dab0 (.ok (.tret x)) | 7 => .ok (.rpf x w.d w.a w.b) | _ => .error .code
  | 0x3c => res (w.d == 0 && w.f == 0) (.ok (.wbase x w.a w.b))
  | 0x3d => if w.f == 0 then res (w.d == 0) (.ok (.spawn x w.a w.b)) else .error .code
  | 0x3e => match w.f.toNat with
    | 0 => res (w.hi3 == 0 && w.a.extractLsb' 5 2 == 0 && w.b.extractLsb' 5 2 == 0) (.ok (.pand x w.lo4 (w.a.getLsbD 4) (w.a.extractLsb' 0 4) (w.b.getLsbD 4) (w.b.extractLsb' 0 4)))
    | 1 => res (w.hi3 == 0 && w.a.extractLsb' 5 2 == 0 && w.b.extractLsb' 5 2 == 0) (.ok (.por x w.lo4 (w.a.getLsbD 4) (w.a.extractLsb' 0 4) (w.b.getLsbD 4) (w.b.extractLsb' 0 4)))
    | 2 => res (w.hi3 == 0 && w.a.extractLsb' 5 2 == 0 && w.b.extractLsb' 5 2 == 0) (.ok (.pxor x w.lo4 (w.a.getLsbD 4) (w.a.extractLsb' 0 4) (w.b.getLsbD 4) (w.b.extractLsb' 0 4)))
    | 3 => res (w.hi3 == 0 && w.a.extractLsb' 5 2 == 0 && w.b == 0) (.ok (.pnot x w.lo4 (w.a.getLsbD 4) (w.a.extractLsb' 0 4)))
    | 4 => res (w.hi3 == 0 && w.b == 0) (.ok (.pset x w.lo4 w.a)) | _ => .error .code
  | _ => .error .major

/-- The memory and layout majors (R95). -/
def parseMemory (x : Pfx) (w : Fields) : Except Reject Instr :=
  match w.op.toNat with
  | 0x40 => code (MemKind.ofCode (w.imm.extractLsb' 7 4).toNat) (fun k => .ok (.ld x w.d w.a k (w.imm.extractLsb' 0 7)))
  | 0x41 => code (MemKind.ofCode (w.imm.extractLsb' 7 4).toNat) (fun k => .ok (.st x w.d w.a k (w.imm.extractLsb' 0 7)))
  | 0x42 => code (MemKind.ofCode (w.imm.extractLsb' 7 4).toNat) (fun k => .ok (.ldFe x w.d w.a k (w.imm.extractLsb' 0 7)))
  | 0x43 => code (MemKind.ofCode (w.imm.extractLsb' 7 4).toNat) (fun k => .ok (.stFill x w.d w.a k (w.imm.extractLsb' 0 7)))
  | 0x44 => if w.f == 0 then res (w.d == 0) (.ok (.feClr x w.a w.b)) else .error .code
  | 0x45 => code (AtomFn.ofCode w.f.toNat) (fun f => .ok (.atom32 x w.d w.a w.b f))
  | 0x46 => code (AtomFn.ofCode w.f.toNat) (fun f => .ok (.atom64 x w.d w.a w.b f))
  | 0x47 => code (AtomFn.ofCode w.f.toNat) (fun f => res (w.d == 0) (.ok (.red32 x w.a w.b f)))
  | 0x48 => code (AtomFn.ofCode w.f.toNat) (fun f => res (w.d == 0) (.ok (.red64 x w.a w.b f)))
  | 0x49 => res (w.d == 0 && w.a == 0) (code (Scope.ofCode (w.imm.extractLsb' 6 3).toNat) (fun s =>
    let m := w.imm.extractLsb' 0 6
    match (w.imm.extractLsb' 9 2).toNat with
    | 0 => .ok (.fenceFull x s m) | 1 => .ok (.fenceAcq x s m) | 2 => .ok (.fenceRel x s m) | _ => .error .code))
  | 0x4a => res (w.d == 0 && w.imm.extractLsb' 5 3 == 0) (let n := w.imm.extractLsb' 0 5
    match (w.imm.extractLsb' 8 3).toNat with
    | 0 => .ok (.barArrive x w.a n) | 1 => .ok (.barWait x w.a n) | 2 => .ok (.barSync x w.a n)
    | 3 => .ok (.barExpect x w.a n) | _ => .error .code)
  | 0x4b => match w.f.toNat with
    | 0 => res w.dab0 (.ok (.sstep x)) | 1 => res w.dab0 (.ok (.rclose x)) | _ => .error .code
  | 0x4c => res (w.d == 0 && w.imm.extractLsb' 0 8 == 0) (match (w.imm.extractLsb' 8 3).toNat with
    | 0 => .ok (.prefL1 x w.a) | 1 => .ok (.prefCc x w.a) | 2 => .ok (.prefMs x w.a) | 3 => .ok (.cctlWb x w.a)
    | 4 => .ok (.cctlInv x w.a) | 5 => .ok (.cctlRoinv x w.a) | _ => .error .code)
  | 0x50 => res (w.hi3 == 0) (.ok (.lld x w.lo4 w.a w.imm))
  | 0x51 => res (w.hi3 == 0) (.ok (.lst x w.lo4 w.a w.imm))
  | 0x52 => match w.f.toNat with
    | 0 => res (w.hi3 == 0 && w.a.extractLsb' 4 3 == 0 && w.b.extractLsb' 4 3 == 0) (.ok (.lchain x w.lo4 (w.a.extractLsb' 0 4) (w.b.extractLsb' 0 4)))
    | 1 => res (w.hi3 == 0 && w.a.extractLsb' 4 3 == 0) (.ok (.lpart x w.lo4 (w.a.extractLsb' 0 4) w.b))
    | 2 => res (w.hi3 == 0 && w.a.extractLsb' 4 3 == 0 && !w.b.getLsbD 6) (.ok (.ltrans x w.lo4 (w.a.extractLsb' 0 4) (w.b.extractLsb' 3 3) (w.b.extractLsb' 0 3)))
    | 3 => res (w.hi3 == 0 && w.a.extractLsb' 4 3 == 0 && w.b.extractLsb' 3 4 == 0) (.ok (.lflat x w.lo4 (w.a.extractLsb' 0 4) (w.b.extractLsb' 0 3)))
    | 4 => res (w.hi3 == 0 && w.a.extractLsb' 4 3 == 0) (.ok (.lswz x w.lo4 (w.a.extractLsb' 0 4) w.b)) | _ => .error .code
  | 0x53 => code (Engine.ofCode w.f.toNat) (fun e => res (w.hi3 == 0 && w.a.extractLsb' 4 3 == 0 && w.b == 0) (.ok (.lchk x w.lo4 (w.a.extractLsb' 0 4) e)))
  | 0x54 => if w.f == 0 then res (w.b.extractLsb' 4 3 == 0) (.ok (.ltile x w.d w.a (w.b.extractLsb' 0 4))) else .error .code
  | 0x55 => if w.f == 0 then res (w.b.extractLsb' 4 3 == 0) (.ok (.stile x w.d w.a (w.b.extractLsb' 0 4))) else .error .code
  | _ => .error .major

/-- The matrix majors (R97). -/
def parseMatrix (x : Pfx) (w : Fields) : Except Reject Instr :=
  match w.op.toNat with
  | 0x58 => code (MFmt.ofCode w.f.toNat) (fun f => res (w.d.extractLsb' 1 6 == 0 && w.b.extractLsb' 4 3 == 0)
    (.ok (.mldb x (w.d.extractLsb' 0 1) w.a (w.b.extractLsb' 0 4) f)))
  | 0x59 => code (MFmt.ofCode w.f.toNat) (fun f => res (w.d.extractLsb' 5 2 == 0) (.ok (.mma x (w.d.extractLsb' 0 5) w.a w.b f)))
  | 0x5a => code (MFmt.ofCode w.f.toNat) (fun f => res (w.d.extractLsb' 5 2 == 0) (.ok (.mmaC x (w.d.extractLsb' 0 5) w.a w.b f)))
  | 0x5b => code (ScaleKind.ofCode w.f.toNat) (fun k => res (w.d.extractLsb' 5 2 == 0) (.ok (.msca x (w.d.extractLsb' 0 5) w.a w.b k)))
  | 0x5c => if w.f == 0 then res (w.d.extractLsb' 5 2 == 0 && w.a.extractLsb' 5 2 == 0 && w.b == 0)
    (.ok (.mzero x (w.d.extractLsb' 0 5) (w.a.extractLsb' 0 5))) else .error .code
  | 0x5d => code (MElem.ofCode (w.f.extractLsb' 0 3).toNat) (fun e => res (w.b == 0)
    (if w.f.getLsbD 3 then .ok (.mwrite x w.d w.a e) else .ok (.mread x w.d w.a e)))
  | 0x5e => match w.f.toNat with
    | 0 => res (w.a.extractLsb' 5 2 == 0 && w.b == 0) (.ok (.mver x w.d (w.a.extractLsb' 0 5)))
    | 1 => res (w.a.extractLsb' 5 2 == 0 && w.d == 0) (.ok (.mwait x (w.a.extractLsb' 0 5) w.b))
    | 2 => res (w.a.extractLsb' 5 2 == 0 && w.b == 0) (.ok (.mstat x w.d (w.a.extractLsb' 0 5))) | _ => .error .code
  | _ => .error .major

/-- The copy, queue, task, world and system majors (R99). -/
def parseSystem (x : Pfx) (w : Fields) : Except Reject Instr :=
  match w.op.toNat with
  | 0x60 => match w.f.toNat with
    | 0 => .ok (.cpyLoad x w.d w.a w.b) | 1 => .ok (.cpyStore x w.d w.a w.b) | _ => .error .code
  | 0x61 => if w.f == 0 then .ok (.cpym x w.d w.a w.b) else .error .code
  | 0x62 => match w.f.toNat with
    | 0 => res (w.d == 0) (.ok (.cwait x w.a w.b)) | 1 => res (w.b == 0) (.ok (.cstat x w.d w.a)) | _ => .error .code
  | 0x63 => match w.f.toNat with
    | 0 => res (w.a.extractLsb' 3 4 == 0 && w.b == 0) (.ok (.qpop x w.d (w.a.extractLsb' 0 3)))
    | 1 => res (w.a.extractLsb' 3 4 == 0 && w.b.extractLsb' 4 3 == 0) (.ok (.qpopTry x w.d (w.a.extractLsb' 0 3) (w.b.extractLsb' 0 4))) | _ => .error .code
  | 0x64 => match w.f.toNat with
    | 0 => res (w.d == 0) (.ok (.qpush x w.a w.b)) | 1 => res (w.hi3 == 0) (.ok (.qpushTry x w.lo4 w.a w.b)) | _ => .error .code
  | 0x65 => if w.f == 0 then res (w.a.extractLsb' 3 4 == 0 && w.b == 0) (.ok (.qstat x w.d (w.a.extractLsb' 0 3))) else .error .code
  | 0x66 => match w.f.toNat with
    | 0 => res (w.d == 0) (.ok (.strm x w.a w.b)) | 1 => res w.dab0 (.ok (.strmStop x))
    | 2 => res w.dab0 (.ok (.strmWait x)) | _ => .error .code
  | 0x68 => if w.f == 0 then .ok (.tspawn x w.d w.a w.b) else .error .code
  | 0x69 => match w.f.toNat with
    | 0 => res w.dab0 (.ok (.texit x)) | 1 => res w.dab0 (.ok (.calmwait x))
    | 2 => res (w.a == 0 && w.b == 0) (.ok (.role x w.d)) | 3 => res w.dab0 (.ok (.rolewait x)) | _ => .error .code
  | 0x6a => match w.f.toNat with
    | 0 => res (w.d == 0) (.ok (.append x w.a w.b))
    | 1 => res (w.b.extractLsb' 4 3 == 0) (.ok (.drain x w.d w.a (w.b.extractLsb' 0 4))) | _ => .error .code
  | 0x6c => if w.f == 0 then res (w.a.extractLsb' 4 3 == 0 && w.b == 0) (.ok (.wfork x w.d (w.a.extractLsb' 0 4))) else .error .code
  | 0x6d => match w.f.toNat with
    | 0 => res (w.d == 0 && w.b == 0) (.ok (.wyield x w.a)) | 1 => res w.dab0 (.ok (.wabort x)) | _ => .error .code
  | 0x6e => match w.f.toNat with
    | 0 => res (w.d == 0 && w.b == 0) (.ok (.wchoose x w.a)) | 1 => res w.dab0 (.ok (.wchooseNone x)) | _ => .error .code
  | 0x6f => match w.f.toNat with
    | 0 => res (w.b == 0) (.ok (.wstatScore x w.d w.a)) | 1 => res (w.b == 0) (.ok (.wstatStatus x w.d w.a)) | _ => .error .code
  | 0x70 => res (w.a == 0 && w.imm.extractLsb' 9 2 == 0) (.ok (.srd x w.d (w.imm.getLsbD 8) (w.imm.extractLsb' 0 8)))
  | 0x71 => res (w.d == 0 && w.imm.extractLsb' 9 2 == 0) (.ok (.swr x w.a (w.imm.getLsbD 8) (w.imm.extractLsb' 0 8)))
  | 0x72 => match w.f.toNat with
    | 0 => res (w.d == 0 && w.b == 0) (.ok (.tlbinvPage x w.a)) | 1 => res (w.d == 0 && w.b == 0) (.ok (.tlbinvCtx x w.a))
    | 2 => res w.dab0 (.ok (.tlbinvAll x)) | _ => .error .code
  | 0x73 => if w.f == 0 then res (w.d == 0 && w.b == 0) (.ok (.ctxq x w.a)) else .error .code
  | 0x74 => if w.f == 0 then res (w.a == 0 && w.b == 0) (.ok (.mcheck x w.d)) else .error .code
  | _ => .error .major

/-- The instruction word, by the range its major opcode lies in. -/
def parse (x : Pfx) (w : Fields) : Except Reject Instr :=
  if w.op.toNat < 0x20 then parseInteger x w
  else if w.op.toNat < 0x38 then parseFloat x w
  else if w.op.toNat < 0x40 then parseControl x w
  else if w.op.toNat < 0x58 then parseMemory x w
  else if w.op.toNat < 0x60 then parseMatrix x w
  else parseSystem x w

/-- The fields of a MOD word: KIND and the 21 bits of the kind (R86). -/
def modKind (w : Word) : BitVec 4 := w.extractLsb' 21 4

/-- GUARD's fields (R86), none where a reserved bit is set. -/
def guardOf (w : Word) : Option Guard :=
  if w.extractLsb' 0 16 == 0 then some { neg := w.getLsbD 20, pred := w.extractLsb' 16 4 } else none

/-- DUAL's fields (R86), none where a reserved bit is set or MODE is unassigned. -/
def dualOf (w : Word) : Option Dual :=
  if w.extractLsb' 0 9 == 0 then
    (DualMode.ofCode (w.extractLsb' 18 3).toNat).map
      (fun m => { mode := m, k := w.extractLsb' 16 2, treg := w.extractLsb' 9 7 })
  else none

/-- SAFE's LIVE (R86), none where a reserved bit is set. -/
def safeOf (w : Word) : Option (BitVec 7) :=
  if w.extractLsb' 0 14 == 0 then some (w.extractLsb' 14 7) else none

/-- Read the words that stand before an instruction, then the instruction word: at most one of each kind, in the order
EXT, GUARD, DUAL, SAFE (R90). first is the kind of the first of them. -/
def scan (x : Pfx) (first : Option (BitVec 4)) : List Word → Except Reject (Pfx × Fields × List Word)
  | [] => .error (match first with | none => .noWord | some k => .alone k)
  | w :: ws =>
    if w.extractLsb' 25 7 == 0x7e then
      if first.isSome then .error (.order 0)
      else scan { x with ext := some (w.extractLsb' 0 25) } (some 0) ws
    else if w.extractLsb' 25 7 == 0x7f then
      match (modKind w).toNat with
      | 1 =>
        match guardOf w with
        | none => .error (.field 1)
        | some g =>
          if x.guard.isSome || x.dual.isSome || x.safe.isSome then .error (.order 1)
          else scan { x with guard := some g } (some (first.getD 1)) ws
      | 2 =>
        match dualOf w with
        | none => .error (.field 2)
        | some u =>
          if x.dual.isSome || x.safe.isSome then .error (.order 2)
          else scan { x with dual := some u } (some (first.getD 2)) ws
      | 3 =>
        match safeOf w with
        | none => .error (.field 3)
        | some n =>
          if x.safe.isSome then .error (.order 3)
          else scan { x with safe := some n } (some (first.getD 3)) ws
      | _ => .error (.modKind (modKind w))
    else .ok (x, splitWord w, ws)

/-- The checks of R101 that need the whole unit. -/
def checked (i : Instr) : Except Reject Instr :=
  match illFormed i with
  | none => .ok i
  | some r => .error r

/-- Decode one unit from the words at an address; what follows the unit is returned. -/
def decodeWords (ws : List Word) : Except Reject (Instr × List Word) :=
  match scan Pfx.empty none ws with
  | .error r => .error r
  | .ok (x, w, rest) =>
    match parse x w with
    | .error r => .error r
    | .ok i =>
      match checked i with
      | .error r => .error r
      | .ok j => .ok (j, rest)

/-- Little-endian words of a byte string; a trailing part of a word is dropped (R9, R77). -/
def wordsOf : List Byte → List Word
  | b0 :: b1 :: b2 :: b3 :: bs => (b3 ++ b2 ++ b1 ++ b0) :: wordsOf bs
  | _ => []

/-- Words a unit takes. -/
def Instr.words (i : Instr) : Nat := (i.pfx?.map Pfx.words).getD 0

/-- Decode one unit from bytes; what follows the unit is returned. -/
def decode (bs : List Byte) : Except Reject (Instr × List Byte) :=
  match decodeWords (wordsOf bs) with
  | .error r => .error r
  | .ok (i, _) => .ok (i, bs.drop (4 * i.words))

/-! ## The encoder -/

/-- A code of n bits. -/
def tc (n c : Nat) : BitVec n := BitVec.ofNat n c
/-- A one-bit field. -/
def flag (b : Bool) : BitVec 1 := BitVec.ofBool b
/-- The I form: imm11 takes the places of b and f (R78). -/
def immForm (op d a : BitVec 7) (i : BitVec 11) : Fields := ⟨op, d, a, i.extractLsb' 4 7, i.extractLsb' 0 4⟩
/-- The B form: sense, predicate and offset take every place below the major (R78). -/
def branchForm (op : BitVec 7) (r : BitVec 25) : Fields :=
  ⟨op, r.extractLsb' 18 7, r.extractLsb' 11 7, r.extractLsb' 4 7, r.extractLsb' 0 4⟩

/-- The fields of an instruction's word (R92 to R99), none for an event. -/
def Instr.fields? : Instr → Option Fields
  | .add _ d a b t => some (.mk 0x1 (d) (a) (b) (tc 4 t.code))
  | .sub _ d a b t => some (.mk 0x2 (d) (a) (b) (tc 4 t.code))
  | .mul _ d a b t => some (.mk 0x3 (d) (a) (b) (tc 4 t.code))
  | .mulh _ d a b t => some (.mk 0x4 (d) (a) (b) (tc 4 t.code))
  | .mad _ d a b t => some (.mk 0x5 (d) (a) (b) (tc 4 t.code))
  | .min _ d a b t => some (.mk 0x6 (d) (a) (b) (tc 4 t.code))
  | .max _ d a b t => some (.mk 0x7 (d) (a) (b) (tc 4 t.code))
  | .shl _ d a b t => some (.mk 0x8 (d) (a) (b) (tc 4 t.code))
  | .shr _ d a b t => some (.mk 0x9 (d) (a) (b) (tc 4 t.code))
  | .sar _ d a b t => some (.mk 0xa (d) (a) (b) (tc 4 t.code))
  | .and _ d a b w => some (.mk 0xb (d) (a) (b) (flag w ++ 0#3))
  | .or _ d a b w => some (.mk 0xb (d) (a) (b) (flag w ++ 1#3))
  | .xor _ d a b w => some (.mk 0xb (d) (a) (b) (flag w ++ 2#3))
  | .andn _ d a b w => some (.mk 0xb (d) (a) (b) (flag w ++ 3#3))
  | .abs _ d a w => some (.mk 0xc (d) (a) (0) (0#3 ++ flag w))
  | .neg _ d a w => some (.mk 0xc (d) (a) (0) (1#3 ++ flag w))
  | .clz _ d a w => some (.mk 0xc (d) (a) (0) (2#3 ++ flag w))
  | .popc _ d a w => some (.mk 0xc (d) (a) (0) (3#3 ++ flag w))
  | .brev _ d a w => some (.mk 0xc (d) (a) (0) (4#3 ++ flag w))
  | .mov _ d a w => some (.mk 0xc (d) (a) (0) (5#3 ++ flag w))
  | .bfx _ d a b s => some (.mk 0xd (d) (a) (b) (0#3 ++ flag (!s)))
  | .bfi _ d a b => some (.mk 0xd (d) (a) (b) (2))
  | .prmt _ d a b => some (.mk 0xd (d) (a) (b) (3))
  | .sel _ d a b p => some (.mk 0xe (d) (a) (b) (p))
  | .cmp _ c p a b t => some (.mk 0xf (tc 3 c.code ++ p) (a) (b) (tc 4 t.code))
  | .addi _ d a i => some (immForm 0x10 (d) (a) (i))
  | .muli _ d a i => some (immForm 0x11 (d) (a) (i))
  | .shli _ d a i => some (immForm 0x12 (d) (a) (i))
  | .shri _ d a i => some (immForm 0x13 (d) (a) (i))
  | .sari _ d a i => some (immForm 0x14 (d) (a) (i))
  | .andi _ d a i => some (immForm 0x15 (d) (a) (i))
  | .ori _ d a i => some (immForm 0x16 (d) (a) (i))
  | .xori _ d a i => some (immForm 0x17 (d) (a) (i))
  | .andni _ d a i => some (immForm 0x18 (d) (a) (i))
  | .cmpiI32 _ c p a i => some (immForm 0x19 (tc 3 c.code ++ p) (a) (i))
  | .cmpiN32 _ c p a i => some (immForm 0x1a (tc 3 c.code ++ p) (a) (i))
  | .movi _ d i => some (immForm 0x1b (d) (0) (i))
  | .lui _ d i => some (.mk 0x1c (d) (i.extractLsb' 11 7) (i.extractLsb' 4 7) (i.extractLsb' 0 4))
  | .lea _ d a i => some (immForm 0x1d (d) (a) (i))
  | .shfl _ d a m n => some (immForm 0x1e (d) (a) (tc 2 m.code ++ 0#3 ++ n))
  | .shflReg _ d a m r => some (immForm 0x1e (d) (a) (tc 2 m.code ++ 2#2 ++ r))
  | .ballot _ d s n => some (.mk 0x1f (d) (0#3 ++ s) (0#6 ++ flag n) (0))
  | .voteAny _ p s n => some (.mk 0x1f (0#3 ++ p) (0#3 ++ s) (1#3 ++ 0#3 ++ flag n) (0))
  | .voteAll _ p s n => some (.mk 0x1f (0#3 ++ p) (0#3 ++ s) (2#3 ++ 0#3 ++ flag n) (0))
  | .voteUni _ p s n => some (.mk 0x1f (0#3 ++ p) (0#3 ++ s) (3#3 ++ 0#3 ++ flag n) (0))
  | .fadd _ d a b t => some (.mk 0x20 (d) (a) (b) (tc 4 t.code))
  | .fsub _ d a b t => some (.mk 0x21 (d) (a) (b) (tc 4 t.code))
  | .fmul _ d a b t => some (.mk 0x22 (d) (a) (b) (tc 4 t.code))
  | .ffma _ d a b t => some (.mk 0x23 (d) (a) (b) (tc 4 t.code))
  | .fmin _ d a b t => some (.mk 0x24 (d) (a) (b) (tc 4 t.code))
  | .fmax _ d a b t => some (.mk 0x25 (d) (a) (b) (tc 4 t.code))
  | .fdiv _ d a b t => some (.mk 0x26 (d) (a) (b) (tc 4 t.code))
  | .fdot2 _ d a b t => some (.mk 0x27 (d) (a) (b) (tc 4 t.code))
  | .fcmp _ c p a b t => some (.mk 0x28 (tc 3 c.code ++ p) (a) (b) (tc 4 t.code))
  | .fneg _ d a t => some (.mk 0x29 (d) (a) (0) (tc 4 t.code))
  | .fabs _ d a t => some (.mk 0x29 (d) (a) (1) (tc 4 t.code))
  | .fsqrt _ d a t => some (.mk 0x29 (d) (a) (2) (tc 4 t.code))
  | .frcp _ d a t => some (.mk 0x29 (d) (a) (3) (tc 4 t.code))
  | .frsq _ d a t => some (.mk 0x29 (d) (a) (4) (tc 4 t.code))
  | .fclass _ d a t => some (.mk 0x29 (d) (a) (5) (tc 4 t.code))
  | .fscale _ d a b t => some (.mk 0x2a (d) (a) (b) (tc 4 t.code))
  | .cvt _ d a m s c => some (.mk 0x30 (d) (a) (tc 3 m.code ++ tc 4 s.code) (tc 4 c.code))
  | .cvtSr _ d a b c => some (.mk 0x31 (d) (a) (b) (tc 4 c.code))
  | .cvtPack _ d a m c => some (.mk 0x32 (d) (a) (tc 3 m.code ++ 0#4) (tc 4 c.code))
  | .cvtPackSr _ d a b c => some (.mk 0x33 (d) (a) (b) (tc 4 c.code))
  | .cvtUnpack _ d a c => some (.mk 0x34 (d) (a) (0) (tc 4 c.code))
  | .fexp2 _ d a => some (.mk 0x35 (d) (a) (0) (8))
  | .flog2 _ d a => some (.mk 0x35 (d) (a) (1) (8))
  | .fsin _ d a => some (.mk 0x35 (d) (a) (2) (8))
  | .fcos _ d a => some (.mk 0x35 (d) (a) (3) (8))
  | .ftanh _ d a => some (.mk 0x35 (d) (a) (4) (8))
  | .bra _ n p i => some (branchForm 0x38 (flag n ++ p ++ i))
  | .call _ n p i => some (branchForm 0x39 (flag n ++ p ++ i))
  | .brx _ a => some (.mk 0x3a (0) (a) (0) (0))
  | .ret _ => some (.mk 0x3a (0) (0) (0) (1))
  | .nop _ => some (.mk 0x3b (0) (0) (0) (0))
  | .exit _ => some (.mk 0x3b (0) (0) (0) (1))
  | .yield _ => some (.mk 0x3b (0) (0) (0) (2))
  | .sleep _ a => some (.mk 0x3b (0) (a) (0) (3))
  | .bkpt _ => some (.mk 0x3b (0) (0) (0) (4))
  | .trap _ => some (.mk 0x3b (0) (0) (0) (5))
  | .tret _ => some (.mk 0x3b (0) (0) (0) (6))
  | .rpf _ d a b => some (.mk 0x3b (d) (a) (b) (7))
  | .wbase _ a i => some (.mk 0x3c (0) (a) (i) (0))
  | .spawn _ a b => some (.mk 0x3d (0) (a) (b) (0))
  | .pand _ d n a m b => some (.mk 0x3e (0#3 ++ d) (0#2 ++ flag n ++ a) (0#2 ++ flag m ++ b) (0))
  | .por _ d n a m b => some (.mk 0x3e (0#3 ++ d) (0#2 ++ flag n ++ a) (0#2 ++ flag m ++ b) (1))
  | .pxor _ d n a m b => some (.mk 0x3e (0#3 ++ d) (0#2 ++ flag n ++ a) (0#2 ++ flag m ++ b) (2))
  | .pnot _ d n a => some (.mk 0x3e (0#3 ++ d) (0#2 ++ flag n ++ a) (0) (3))
  | .pset _ d a => some (.mk 0x3e (0#3 ++ d) (a) (0) (4))
  | .ld _ d a k i => some (immForm 0x40 (d) (a) (tc 4 k.code ++ i))
  | .st _ d a k i => some (immForm 0x41 (d) (a) (tc 4 k.code ++ i))
  | .ldFe _ d a k i => some (immForm 0x42 (d) (a) (tc 4 k.code ++ i))
  | .stFill _ d a k i => some (immForm 0x43 (d) (a) (tc 4 k.code ++ i))
  | .feClr _ a b => some (.mk 0x44 (0) (a) (b) (0))
  | .atom32 _ d a b f => some (.mk 0x45 (d) (a) (b) (tc 4 f.code))
  | .atom64 _ d a b f => some (.mk 0x46 (d) (a) (b) (tc 4 f.code))
  | .red32 _ a b f => some (.mk 0x47 (0) (a) (b) (tc 4 f.code))
  | .red64 _ a b f => some (.mk 0x48 (0) (a) (b) (tc 4 f.code))
  | .fenceFull _ s m => some (immForm 0x49 (0) (0) (0#2 ++ tc 3 s.code ++ m))
  | .fenceAcq _ s m => some (immForm 0x49 (0) (0) (1#2 ++ tc 3 s.code ++ m))
  | .fenceRel _ s m => some (immForm 0x49 (0) (0) (2#2 ++ tc 3 s.code ++ m))
  | .barArrive _ a n => some (immForm 0x4a (0) (a) (0#3 ++ 0#3 ++ n))
  | .barWait _ a n => some (immForm 0x4a (0) (a) (1#3 ++ 0#3 ++ n))
  | .barSync _ a n => some (immForm 0x4a (0) (a) (2#3 ++ 0#3 ++ n))
  | .barExpect _ a n => some (immForm 0x4a (0) (a) (3#3 ++ 0#3 ++ n))
  | .sstep _ => some (.mk 0x4b (0) (0) (0) (0))
  | .rclose _ => some (.mk 0x4b (0) (0) (0) (1))
  | .prefL1 _ a => some (immForm 0x4c (0) (a) (0#3 ++ 0#8))
  | .prefCc _ a => some (immForm 0x4c (0) (a) (1#3 ++ 0#8))
  | .prefMs _ a => some (immForm 0x4c (0) (a) (2#3 ++ 0#8))
  | .cctlWb _ a => some (immForm 0x4c (0) (a) (3#3 ++ 0#8))
  | .cctlInv _ a => some (immForm 0x4c (0) (a) (4#3 ++ 0#8))
  | .cctlRoinv _ a => some (immForm 0x4c (0) (a) (5#3 ++ 0#8))
  | .lld _ l a i => some (immForm 0x50 (0#3 ++ l) (a) (i))
  | .lst _ l a i => some (immForm 0x51 (0#3 ++ l) (a) (i))
  | .lchain _ d a b => some (.mk 0x52 (0#3 ++ d) (0#3 ++ a) (0#3 ++ b) (0))
  | .lpart _ d a b => some (.mk 0x52 (0#3 ++ d) (0#3 ++ a) (b) (1))
  | .ltrans _ d a j i => some (.mk 0x52 (0#3 ++ d) (0#3 ++ a) (0#1 ++ j ++ i) (2))
  | .lflat _ d a m => some (.mk 0x52 (0#3 ++ d) (0#3 ++ a) (0#4 ++ m) (3))
  | .lswz _ d a b => some (.mk 0x52 (0#3 ++ d) (0#3 ++ a) (b) (4))
  | .lchk _ p l e => some (.mk 0x53 (0#3 ++ p) (0#3 ++ l) (0) (tc 4 e.code))
  | .ltile _ d a l => some (.mk 0x54 (d) (a) (0#3 ++ l) (0))
  | .stile _ d a l => some (.mk 0x55 (d) (a) (0#3 ++ l) (0))
  | .mldb _ s a l f => some (.mk 0x58 (0#6 ++ s) (a) (0#3 ++ l) (tc 4 f.code))
  | .mma _ t a b f => some (.mk 0x59 (0#2 ++ t) (a) (b) (tc 4 f.code))
  | .mmaC _ t a b f => some (.mk 0x5a (0#2 ++ t) (a) (b) (tc 4 f.code))
  | .msca _ t a b k => some (.mk 0x5b (0#2 ++ t) (a) (b) (tc 4 k.code))
  | .mzero _ t n => some (.mk 0x5c (0#2 ++ t) (0#2 ++ n) (0) (0))
  | .mread _ d a e => some (.mk 0x5d (d) (a) (0) (0#1 ++ tc 3 e.code))
  | .mwrite _ d a e => some (.mk 0x5d (d) (a) (0) (1#1 ++ tc 3 e.code))
  | .mver _ d t => some (.mk 0x5e (d) (0#2 ++ t) (0) (0))
  | .mwait _ t b => some (.mk 0x5e (0) (0#2 ++ t) (b) (1))
  | .mstat _ d t => some (.mk 0x5e (d) (0#2 ++ t) (0) (2))
  | .cpyLoad _ d a b => some (.mk 0x60 (d) (a) (b) (0))
  | .cpyStore _ d a b => some (.mk 0x60 (d) (a) (b) (1))
  | .cpym _ d a b => some (.mk 0x61 (d) (a) (b) (0))
  | .cwait _ a b => some (.mk 0x62 (0) (a) (b) (0))
  | .cstat _ d a => some (.mk 0x62 (d) (a) (0) (1))
  | .qpop _ d q => some (.mk 0x63 (d) (0#4 ++ q) (0) (0))
  | .qpopTry _ d q p => some (.mk 0x63 (d) (0#4 ++ q) (0#3 ++ p) (1))
  | .qpush _ a b => some (.mk 0x64 (0) (a) (b) (0))
  | .qpushTry _ p a b => some (.mk 0x64 (0#3 ++ p) (a) (b) (1))
  | .qstat _ d q => some (.mk 0x65 (d) (0#4 ++ q) (0) (0))
  | .strm _ a b => some (.mk 0x66 (0) (a) (b) (0))
  | .strmStop _ => some (.mk 0x66 (0) (0) (0) (1))
  | .strmWait _ => some (.mk 0x66 (0) (0) (0) (2))
  | .tspawn _ d a b => some (.mk 0x68 (d) (a) (b) (0))
  | .texit _ => some (.mk 0x69 (0) (0) (0) (0))
  | .calmwait _ => some (.mk 0x69 (0) (0) (0) (1))
  | .role _ d => some (.mk 0x69 (d) (0) (0) (2))
  | .rolewait _ => some (.mk 0x69 (0) (0) (0) (3))
  | .append _ a b => some (.mk 0x6a (0) (a) (b) (0))
  | .drain _ d a p => some (.mk 0x6a (d) (a) (0#3 ++ p) (1))
  | .wfork _ d n => some (.mk 0x6c (d) (0#3 ++ n) (0) (0))
  | .wyield _ a => some (.mk 0x6d (0) (a) (0) (0))
  | .wabort _ => some (.mk 0x6d (0) (0) (0) (1))
  | .wchoose _ a => some (.mk 0x6e (0) (a) (0) (0))
  | .wchooseNone _ => some (.mk 0x6e (0) (0) (0) (1))
  | .wstatScore _ d a => some (.mk 0x6f (d) (a) (0) (0))
  | .wstatStatus _ d a => some (.mk 0x6f (d) (a) (0) (1))
  | .srd _ d w n => some (immForm 0x70 (d) (0) (0#2 ++ flag w ++ n))
  | .swr _ a w n => some (immForm 0x71 (0) (a) (0#2 ++ flag w ++ n))
  | .tlbinvPage _ a => some (.mk 0x72 (0) (a) (0) (0))
  | .tlbinvCtx _ a => some (.mk 0x72 (0) (a) (0) (1))
  | .tlbinvAll _ => some (.mk 0x72 (0) (0) (0) (2))
  | .ctxq _ a => some (.mk 0x73 (0) (a) (0) (0))
  | .mcheck _ d => some (.mk 0x74 (d) (0) (0) (0))
  | .powerOn _ _ => none
  | .deviceReset => none
  | .compactorMerge _ _ => none
  | .spillRefill _ _ _ _ _ => none
  | .fetchAddressFault => none
  | .deferredTrapDelivery _ => none
  | .debugResume _ _ => none
  | .groupAged _ _ _ => none
  | .yieldTimeout _ _ _ => none
  | .sleepExpiry _ _ _ => none
  | .spawnBinTimeout _ _ _ => none
  | .spawnedGangStart _ _ => none
  | .crewEnd _ => none
  | .fenceComplete _ _ => none
  | .leaseBreak _ => none
  | .viewRetag _ => none
  | .tlbShootdown _ => none
  | .closeRequest _ => none
  | .phaseClose => none
  | .closeCompletion => none
  | .sliceLoad => none
  | .sliceWrite => none
  | .sliceMissFill => none
  | .loadReply => none
  | .writeAck => none
  | .patrolScrub _ _ => none
  | .orderedAddContribution _ _ _ _ _ _ _ _ => none
  | .roundClose _ _ => none
  | .superstepComplete _ => none
  | .treeAgreementMessage _ _ _ => none
  | .mldbComplete _ => none
  | .mmaComplete _ _ _ => none
  | .mmaCStepStart _ => none
  | .mscaComplete _ _ => none
  | .mzeroComplete _ => none
  | .mreadComplete _ _ => none
  | .mwriteComplete _ => none
  | .mstatComplete _ => none
  | .copyStart _ => none
  | .copyLineLand _ _ => none
  | .copyEnd _ _ => none
  | .queuePacketArrival => none
  | .streamIterationPoint _ => none
  | .taskRecordArrival => none
  | .taskGangStart _ => none
  | .calmSweep _ => none
  | .roleDwellExpiry _ => none
  | .forkStart _ => none
  | .worldEnd _ => none
  | .parentResume _ => none
  | .worldCommit _ => none
  | .viewBackgroundMerge _ => none
  | .pageWalk _ _ _ => none
  | .pageResume _ _ => none
  | .preemptionRequest _ => none
  | .crewSave _ => none
  | .crewResume _ => none
  | .preemptionOverdue _ => none
  | .launchQueuePost _ _ => none
  | .launchRecordTake _ => none
  | .dependencyCheck _ => none
  | .launchPlacement _ => none
  | .priorityPreemption _ => none
  | .launchEnd _ => none
  | .launchCancel _ => none
  | .doldrumsReport _ _ => none
  | .packetInject _ _ => none
  | .agePromotion _ _ => none
  | .packetEject _ _ => none
  | .sumpDiversion _ _ => none
  | .spanFrameReceive _ _ _ _ => none
  | .spanPortDown _ => none
  | .hostReadCompletion _ _ _ _ => none
  | .hostReadTimeout _ _ _ => none
  | .feataccWrite _ _ => none
  | .registerWindowWrite _ _ => none
  | .attestationQuote _ => none
  | .measurementLogExtend _ => none
  | .firmwareImageWrite _ => none
  | .managementWindowWrite _ => none
  | .managementSettingApply => none
  | .clockLower => none
  | .clockRaise => none
  | .thermalStop _ => none
  | .illegalInstruction _ => none
  | .powerOff => none
  | .preemptionCancel _ => none

/-- The MOD and EXT words of a unit, in the order of R90. -/
def Pfx.encode (x : Pfx) : List Word :=
  (match x.ext with | none => [] | some e => [(0x7e#7 ++ e : BitVec 32)]) ++
  (match x.guard with | none => [] | some g => [(0x7f#7 ++ 1#4 ++ flag g.neg ++ g.pred ++ 0#16 : BitVec 32)]) ++
  (match x.dual with
    | none => [] | some u => [(0x7f#7 ++ 2#4 ++ tc 3 u.mode.code ++ u.k ++ u.treg ++ 0#9 : BitVec 32)]) ++
  (match x.safe with | none => [] | some n => [(0x7f#7 ++ 3#4 ++ n ++ 0#14 : BitVec 32)])

/-- The words of a unit; an event has none. -/
def encode (i : Instr) : List Word :=
  match i.pfx?, i.fields? with
  | some x, some w => x.encode ++ [joinWord w]
  | _, _ => []

/-- Bytes of words, little-endian (R9). -/
def bytesOf : List Word → List Byte
  | [] => []
  | w :: ws =>
    w.extractLsb' 0 8 :: w.extractLsb' 8 8 :: w.extractLsb' 16 8 :: w.extractLsb' 24 8 :: bytesOf ws

/-- Bytes k .. of a number, n of them, the least significant first. -/
def bytesLE : Nat → Nat → List Byte
  | 0, _ => []
  | n + 1, w => BitVec.ofNat 8 w :: bytesLE n (w / 256)

/-- The longest unit: four words before an instruction word (R90). -/
def longestUnit : Nat := 20

/-- The instruction the decoder reads from an instruction whose bits are w, bit 0 the least significant bit of the first
word; every bit at or above nbits is zero. -/
def decodeTableWord (nbits w : Nat) : Option Instr :=
  match decode (bytesLE longestUnit (w % 2 ^ nbits)) with
  | .ok (i, _) => some i
  | .error _ => none

end Sys2Proof
end

