-- ==== Sys2Proof/Machine/Traffic.lean ====
section
/-! DEFINITION. The packets that a step's accesses and messages send (R383), as the states before and after it show them: they
take their time on the fabric, and change nothing else (R388; log 25). -/

namespace Sys2Proof.Machine

/-- A packet and the core that sends it. -/
abbrev Sent := Nat × FabPacket

/-- A request of a core to the home slice of a line. -/
def toSlice (m : Message) (core line view : Nat) (data : List Byte) : Sent :=
  (core, m.packet (coreStop core) (sliceStop (homeSlice (line * 128))) (core % 8) (line * 128) view data)

/-- A request of a core to another cluster's core. -/
def toCore (m : Message) (core dest : Nat) : List Sent :=
  if core / 8 = dest / 8 then [] else [(core, m.packet (coreStop core) (coreStop dest) (core % 8) 0 0 [])]

/-- Lines fetched into an L1: each a load or a renewal (R307). -/
def loadsSent (s t : State) (core : Nat) : List Sent :=
  (((t.coreAt core).l1.takeWhile (fun e => !(s.coreAt core).l1.contains e)).map (fun e => toSlice .load core e.line e.view []))

/-- Lines written at their slices by a core's unit, each with its flit. -/
def writesSent (s t : State) (core : Nat) : List Sent :=
  (t.lines.filter (fun e => decide ((s.lines.get {} e.1).wts < e.2.wts))).map (fun e =>
    toSlice .write core (e.1 / 64) (e.1 % 64) (t.bytesAt (e.1 % 64) (e.1 / 64 * 128) 128))

/-- Writes on path 0x4 to the cores of other clusters, in sequence (R383). -/
def peersSent (s t : State) (core slot : Nat) : List (Nat × Sent) :=
  match s.gangAt core slot, t.gangAt core slot with
  | some g, some h =>
    (h.sent.filter (fun e => decide (e.1 ≥ 128) && decide (g.sent.get 0 e.1 < e.2))).flatMap (fun e =>
      (List.range (e.2 - g.sent.get 0 e.1)).flatMap (fun _ => (toCore .peer core (e.1 - 128)).map (fun p => (e.1 - 128, p))))
  | _, _ => []

/-- Host-mapped accesses of a unit (R395). -/
def hostSent (s t : State) (core slot : Nat) : List Sent :=
  let reads := match s.gangAt core slot, t.gangAt core slot with
    | some g, some h => (h.hostReads.drop g.hostReads.length).flatMap HostRead.parts
    | _, _ => []
  let packet : Sent := (core, Message.host.packet (coreStop core) (portStop 0) (core % 8) 0 0 [])
  reads.map (fun _ => packet) ++ if t.host = s.host then [] else [packet]

/-- Requests that have joined the slices' queues: line requests, and the writes of copies. -/
def requestsSent (s t : State) : List Sent :=
  (t.slices.requests.filter (fun r => !s.slices.requests.contains r && !s.slices.missing.contains r)).map (fun r =>
    match r with
    | .load core _ line view _ => toSlice .load core line view []
    | .write core _ view _ bytes =>
      let line := lineOf ((bytes.headD (0, 0)).1)
      toSlice .engineWrite core line view (t.bytesAt view (line * 128) 128))

/-- The lines of device memory that hold some of these addresses. -/
def linesAt (s : State) (w : Agent) (as : List Addr) : List Nat :=
  (as.filterMap (fun a => match enginePlace s w a with | .here (.mem pa _) => some (lineOf pa) | _ => none)).eraseDups

/-- Lines that the engines of a core have read: of copies, of an mldb and of an msca. -/
def engineSent (s t : State) (core : Nat) : List Sent :=
  match s.crewAt core, t.crewAt core, s.agentAt core with
  | some c, some d, some w =>
    let copies := d.copies.flatMap (fun o =>
      let old := match c.copies.find? (fun p => p.num == o.num) with | some p => p.got | none => []
      linesAt s w ((o.got.filter (fun e => (old.find e.1).isNone)).map (fun e => BitVec.ofNat 64 e.1)))
    let matrix := match c.matq with
      | m :: _ =>
        if d.matq.head?.map (·.num) = some m.num then []
        else
          match m.op with
          | .loadB _ base img f => linesAt s w (tileAddrs (Lay.of img) f base)
          | .scale _ _ base k _ _ => linesAt s w ((List.range (scaleBytes k)).map (fun j => base + BitVec.ofNat 64 j))
          | _ => []
      | [] => []
    (copies ++ matrix).map (fun n => toSlice .engineRead core n 0 [])
  | _, _, _ => []

/-- Closes, from the gang's core to their destinations, and completions back (R312). -/
def closesSent (s t : State) : List Sent :=
  let stop (dest : Nat) : Nat := if dest < 128 then sliceStop dest else coreStop (dest - 128)
  (t.slices.closing.filter (fun e => !s.slices.closing.contains e)).filterMap (fun e =>
    (t.findGang e.gang).map (fun p => (p.1, Message.close.packet (coreStop p.1) (stop e.dest) (p.1 % 8) 0 0 [])))

/-- What slices and scratchpad ports send to cores: lease breaks, retags and completions, each with the stop it leaves. -/
def slicesSend (s t : State) : List (Nat × FabPacket) :=
  let stop (dest : Nat) : Nat := if dest < 128 then sliceStop dest else coreStop (dest - 128)
  let send (m : Message) (src core line : Nat) : Nat × FabPacket := (src, m.packet src (coreStop core) (core % 8) (line * 128) 0 [])
  let home (line : Nat) : Nat := sliceStop (homeSlice (line * 128))
  t.cores.flatMap (fun k => (k.2.ctl.drop (s.coreAt k.1).ctl.length).filterMap (fun m =>
    match m with
    | .leaseBreak line _ => some (send .leaseBreak (home line) k.1 line)
    | .viewRetag line _ => some (send .viewRetag (home line) k.1 line)
    | _ => none)) ++
  (t.slices.completions.filter (fun e => !s.slices.completions.contains e)).filterMap (fun e =>
    (t.findGang e.gang).map (fun p => send .completion (stop e.dest) p.1 0))

/-- Pushes and sends on their way: to the cluster of their queue's core, or by a port to another package (R393). -/
def packetsSent (s t : State) : List Sent :=
  (t.packets.filter (fun p => !s.packets.contains p)).flatMap (fun p =>
    let go (h : Addr) (core slot : Nat) : List Sent :=
      if handleSpan h = t.span.rank.toNat then toCore .send core (handleCore h)
      else
        match t.portFrom (handleSpan h) (t.portStart none slot) with
        | some port =>
          [(core, { Message.send.packet (coreStop core) (portStop (port / 4)) (core % 8) 0 0 [] with port := some port })]
        | none => []
    match p with
    | .entry h _ core slot _ _ => go h core slot
    | .task h _ core slot _ _ => go h core slot
    | .succ _ _ _ _ => [])

/-- Shootdowns, from the core that asks for them to the others (R177). -/
def shootdownsSent (s t : State) (core : Nat) : List Sent :=
  t.cores.flatMap (fun k =>
    ((k.2.ctl.drop (s.coreAt k.1).ctl.length).filter (fun m => match m with | .shootdown _ _ => true | _ => false)).flatMap
      (fun _ => toCore .shootdown core k.1))

/-- The number of a gang's next write on path 0x4 to a core goes on (R383). -/
def State.numberPeers (s : State) (core slot : Nat) (dests : List Nat) : State :=
  if dests.isEmpty then s
  else s.modGang core slot (fun g =>
    { g with peerSeq := dests.foldl (fun m d => m.put d (m.get 0 d + 1)) g.peerSeq })

/-- The packets of a step that has led from s to t; by is the core and slot of the gang that has issued in it. -/
def traffic (s : State) (by_ : Option (Nat × Nat)) (t : State) : State :=
  let events := requestsSent s t ++ t.crews.keys.flatMap (engineSent s t) ++ closesSent s t ++ packetsSent s t
  let unit := match by_ with
    | some (core, slot) =>
      t.cores.keys.flatMap (loadsSent s t) ++ writesSent s t core ++ hostSent s t core slot ++ shootdownsSent s t core
    | none => []
  let peers := match by_ with | some (core, slot) => peersSent s t core slot | none => []
  let u := (unit ++ peers.map Prod.snd ++ events).foldl (fun u e => u.sendFrom e.1 e.2) t
  let u := match by_ with | some (core, slot) => u.numberPeers core slot (peers.map Prod.fst) | none => u
  (slicesSend s t).foldl (fun u e => { u with fabric := u.fabric.send u.clock.toNat e.1 e.2 }) u

end Sys2Proof.Machine
end

