-- ==== Sys2Proof/Machine/Issue.lean ====
section
/-! DEFINITION. Issue: which groups are ready (R46, R143, R165, R362), the group a gang issues, and the fetch of its
unit (R77, R85, R101, R149). -/

namespace Sys2Proof.Machine

/-! ## Waits that are over (R165) -/

/-- Whether a hold still keeps its group from issuing, a yield apart. A hold that an event ends keeps it until then. A NaN trap
that comes to be pending while a group waits at an mwait or mma is met when the wait ends (R239, log 149). -/
def waitsNow (s : State) (core slot : Nat) (c : Crew) (g : Gang) (h : Hold) : Bool :=
  match h with
  | .sleep _ | .arrival _ _ | .calm _ | .answer _ _ | .debugHalt | .lateTrap => true
  | .yielded _ _ => false
  | .phase n p => (c.barrier n).ph == p
  | .lines offs => offs.any (fun o => !c.full.getLsbD (o / 128))
  | .counter a t =>
    match s.agentAt core with
    | some w => !counterReady s w (match g.task with | some k => k.view | none => c.view) a t
    | none => true
  | .popEmpty q => (c.queueAt q).entries.isEmpty
  | .pushFull h | .taskFull h => s.queueFull h
  | .queueBusy h => s.pushInFlight core slot h
  | .shootdown => s.shootdowns
  | .listFull ns =>
    match s.launchOf c.launch with
    | some l => ns.any (listFull l)
    | none => true
  | .streamBusy | .streamRuns => c.stream.isSome
  | .version ts e =>
    let ts := ts.filter (· < 24)
    ts.any (fun t => c.vrOf t != e) && ts.all (fun t => decide ((e - c.vrOf t).toNat ≤ 2 ^ 15))
  | .completed t e => !versionDone c t e
  | .matrixFull _ => decide (c.matq.length ≥ Config.matrixEntries)
  | .copyFull => decide (c.copies.length ≥ Config.copyEntries)
  | .bins k => (c.squad (squadOf slot)).noBin k
  | .page _ ps => !ps.isEmpty
  | .peer k => s.savedHere c.launch k && !(match s.crewAt k with | some d => d.launch == c.launch | none => false)
  | .sideLog n => decide ((s.coreAt core).sideLog.length + n > Config.sideLogEntries)
  | .fence => g.fence.isSome
  | .pendingDest keys _ => keys.any g.destWait.contains
  | .hostRoom => s.hostFull core
  | .phaseBusy => phaseBusy s g
  | .safePoint => c.preempt.isSome

/-- A lane that a yield still waits for: it is live and not held in a wait (R161). -/
def yieldAwaits (s : State) (core slot : Nat) (c : Crew) (g : Gang) (l : Nat) : Bool :=
  (g.fibre l).live && (match (g.fibre l).hold with | some h => !(h.isWait && waitsNow s core slot c g h) | none => true)

/-- Whether a hold still keeps its group from issuing. -/
def stillWaits (s : State) (core slot : Nat) (c : Crew) (g : Gang) (h : Hold) : Bool :=
  match h with
  | .yielded y _ => (lanesOf y).any (yieldAwaits s core slot c g)
  | h => waitsNow s core slot c g h

/-- Holds that keep a group from issuing whoever joins it: it has issued, and waits for time, for other groups or for an
answer. A group held in a unit it is to issue again, or at an arrival, issues that unit with those that join it (R142,
R143). -/
def Hold.bars : Hold → Bool
  | .sleep _ | .yielded _ _ | .answer _ _ | .debugHalt | .lateTrap => true
  | _ => false

/-- A lane that may issue at all: live, its gang not stopped or halted, no other group's handler holding it (R143, R168,
R170, R172). -/
def laneFree (g : Gang) (l : Nat) : Bool :=
  (g.fibre l).live && !g.stopped && (match g.handler with | none => true | some m => m.getLsbD l) &&
    !(g.fibres.any (fun o => o.hold == some .debugHalt))

/-- A lane held in a SAFE-marked unit while a pre-emption request is pending is stopped at its safe point (R163, R165). -/
def atStop (c : Crew) (f : Fibre) : Bool :=
  c.preempt.isSome && f.safe.isSome && (match f.hold with | some h => h.atSafePoint | none => false)

/-- The lane's own wait is over. -/
def laneReady (s : State) (core slot : Nat) (c : Crew) (g : Gang) (l : Nat) : Bool :=
  !atStop c (g.fibre l) && (match (g.fibre l).hold with | none => true | some h => !stillWaits s core slot c g h)

/-- The lane keeps its whole group from issuing. -/
def laneBars (s : State) (core slot : Nat) (c : Crew) (g : Gang) (l : Nat) : Bool :=
  match (g.fibre l).hold with | none => false | some h => h.bars && stillWaits s core slot c g h

/-! ## The group that issues (R142, R143, R362) -/

/-- The group of a lane: the live lanes at its PC and window base (R142). -/
def groupAt (g : Gang) (l : Nat) : BitVec 64 :=
  maskWhere (fun i => laneFree g i && (g.fibre i).pc == (g.fibre l).pc && (g.fibre i).wbase == (g.fibre l).wbase)

/-- The lanes of ready groups: some lane's wait is over, and no lane keeps the group from issuing (R143, log 101). -/
def readyLanes (s : State) (core slot : Nat) (c : Crew) (g : Gang) : BitVec 64 :=
  let up := maskWhere (fun l => laneFree g l && laneReady s core slot c g l)
  if up = 0 then 0
  else
    let bars := (List.range 64).filter (fun l => laneFree g l && laneBars s core slot c g l)
    let meets (l i : Nat) : Bool := (g.fibre i).pc == (g.fibre l).pc && (g.fibre i).wbase == (g.fibre l).wbase
    let ok := (lanesOf up).filter (fun l => !(bars.any (meets l)))
    maskWhere (fun i => laneFree g i && ok.any (meets i))

/-- Whether lane a's group issues before lane b's: aged groups first, of these the one ready longest, then the lower
PC, then the lower window base. -/
def issuesBefore (a b : Fibre) : Bool :=
  if a.aged != b.aged then a.aged
  else
    let key (f : Fibre) : List Nat := (if f.aged then [f.readyFrom.getD f.since] else []) ++ [f.pc.toNat, f.wbase]
    keyLt (key a) (key b)

/-- A lane of the group that issues. -/
def leadLane (g : Gang) (ready : BitVec 64) : Option Nat :=
  (lanesOf ready).foldl (fun (b : Option Nat) l =>
    match b with
    | none => some l
    | some o => if issuesBefore (g.fibre l) (g.fibre o) then some l else b) none

/-- A gang that may issue stands in a running crew of a running launch whose world goes on. -/
def mayIssue (s : State) (c : Crew) : Bool :=
  c.ending.isNone && (match s.launchOf c.launch with | some l => l.st == .running | none => false)

/-- The group that a gang issues now. -/
def pickGroup (s : State) (core slot : Nat) : Option Issue :=
  match s.crewAt core with
  | none => none
  | some c =>
    match c.gangs.find slot with
    | none => none
    | some g =>
      if !mayIssue s c then none
      else
        let ready := readyLanes s core slot c g
        (leadLane g ready).map (fun l =>
          { core := core, slot := slot, mask := groupAt g l, pc := (g.fibre l).pc, ready := ready })

/-- The slot that a squad issues: the first with a ready group after the one that issued last (R362). -/
def pickSlot (s : State) (core squad : Nat) (c : Crew) : Option Nat :=
  let last := (c.squad squad).lastSlot
  ((List.range 16).map (fun i => 4 * ((last + 1 + i) % 16) + squad)).find? (fun n => (pickGroup s core n).isSome)

/-! ## Readiness over cycles (R161, R362, R363) -/

/-- The lanes that share a lane's PC, window base and hold. -/
def Gang.sameHold (g : Gang) (l : Nat) : BitVec 64 :=
  let o := g.fibre l
  maskWhere (fun i => (g.fibre i).live && (g.fibre i).pc == o.pc && (g.fibre i).wbase == o.wbase && (g.fibre i).hold == o.hold)

/-- Holds that start no episode and pause every count (R363). -/
def Hold.pausing : Hold → Bool
  | .sleep _ | .page _ _ | .debugHalt => true
  | _ => false

/-- A live group of the gang sleeps, is held on an absent page, or is halted. -/
def Gang.pauses (g : Gang) : Bool := g.fibres.any (fun f => f.live && (match f.hold with | some h => h.pausing | none => false))

/-- A group that has been ready for a cycles without issuing is aged; a = 0 turns ageing off (R362). -/
def Fibre.ages (f : Fibre) (a now : Nat) : Bool :=
  a != 0 && (match f.readyFrom with | some t => decide (t + a ≤ now) | none => false)

/-- What a lane's readiness over cycles that end at now leaves in its fibre: since when it has been ready without issuing, and
whether it is aged by then (R362); and for a yielded one when another group was last ready. -/
def Fibre.passed (f : Fibre) (a clock now : Nat) (ready others : Bool) : Fibre :=
  let f := { f with readyFrom := if ready then some (f.readyFrom.getD clock) else none }
  let f := { f with aged := f.aged || f.ages a now }
  match f.hold with
  | some (.yielded y _) => if others then { f with hold := some (.yielded y now) } else f
  | _ => f

/-- A gang of a running crew over n cycles. -/
def passGang (s : State) (core n slot : Nat) (c : Crew) (g : Gang) : Gang :=
  let clock := s.clock.toNat
  let ready := readyLanes s core slot c g
  let g := { g with fibres := g.fibres.mapIdx (fun l (f : Fibre) =>
    f.passed s.mgmt.ageing clock (clock + n) (ready.getLsbD l)
      (match f.hold with | some (.yielded _ _) => ready &&& ~~~(g.sameHold l) != 0 | _ => false)) }
  if g.pauses then g.shifted n else g

/-! ## Fetch (R77, R101, R149) -/

/-- What the fetch of a unit comes to. -/
inductive Fetched where
  | unit (i : Instr)
  | illegal (detail : BitVec 8)
  | fault
  | absent (page : Addr) (migrating : Bool)
  | broken (va : Addr)
deriving DecidableEq, Repr

/-- The first address that no fetch reaches (R149). -/
def codeEnd : Nat := 2 ^ 48

/-- What the fetch of one word comes to. -/
inductive WordRead where
  | word (w : Word)
  | fault
  | absent (page : Addr) (migrating : Bool)
  | broken
deriving DecidableEq, Repr

/-- The word of a launch's code at an address that now lies at a physical address (R77): as memory and its page tables stood
when the launch started, and as the page stood when it was first resumed where it was absent then. A page mapped since holds
what its memory held at the start (log 12). -/
def codeWord (s : State) (l : Launch) (v pa : Nat) : Word :=
  let word (m : Mem) (pa : Nat) : Word := BitVec.ofNat 32 (memNat m pa 4)
  if inWindow l.heap v then word l.code (windowPa l.heap v)
  else
    match walk { s with mem := l.code } l.rcd.ctx v .fetch (l.rcd.flags.getLsbD 0) with
    | .found e => word l.code (e.pa v)
    | _ =>
      match l.late.find? (fun p => v / 2 ^ p.shift == p.page.toNat / 2 ^ p.shift) with
      | some p => word p.code (p.frame + v % 2 ^ p.shift)
      | none => word l.code pa

/-- A page with a side-logged store holds a fetch as it does any access (R310). -/
def fetchWord (s : State) (w : Agent) (l : Launch) (a : Addr) : WordRead :=
  if a.toNat ≥ codeEnd then .fault
  else
    match translate s w.core w.ctx w.priv .fetch a with
    | .pa pa =>
      match s.loggedPage w.ctx a with
      | some e => .absent e.page true
      | none => .word (codeWord s l a.toNat pa)
    | .unmapped => .fault
    | .absent page _ m => .absent page m
    | .broken => .broken

/-- Whether the words read so far want another. -/
def wantsMore (ws : List Word) : Bool :=
  match decodeWords ws with | .error (.alone _) => true | _ => false

/-- What the words read come to. -/
def decoded (ws : List Word) : Fetched :=
  match decodeWords ws with
  | .ok (i, _) => .unit i
  | .error r => .illegal r.detail

/-- Fetch words from an address while the unit wants more; a word that faults ends it. -/
def fetchFrom (s : State) (w : Agent) (l : Launch) : Nat → Addr → List Word → Fetched
  | 0, _, ws => decoded ws
  | n + 1, a, ws =>
    match fetchWord s w l a with
    | .word v =>
      let ws := ws ++ [v]
      if wantsMore ws then fetchFrom s w l n (a + 4) ws else decoded ws
    | .fault => if ws.isEmpty then .fault else decoded ws
    | .absent page m => .absent page m
    | .broken => .broken a

/-- The unit at an address: at most four words before the instruction word (R90). -/
def fetch (s : State) (w : Agent) (l : Launch) (pc : Addr) : Fetched := fetchFrom s w l 5 pc []

/-- What the fetch of a group's unit comes to, for the core's agent. -/
def fetchFor (s : State) (i : Issue) : Option (Agent × Fetched) :=
  match s.agentAt i.core, (s.crewAt i.core).bind (fun c => s.launchOf c.launch) with
  | some w, some l => some (w, fetch s w l i.pc)
  | _, _ => none

end Sys2Proof.Machine
end

