-- ==== Sys2Proof/Machine/Upkeep.lean ====
section
/-! DEFINITION. Events beside the units: traps at fetch and at delivery (R77, R101, R149, R166), the timers of sleep,
yield and ageing (R161, R162, R362), debug resume (R405), the register file's compactor and refills (R23, R25, R27), the
patrol scrub (R316, R317) and the doldrums detector (R363). -/

namespace Sys2Proof.Machine

/-! ## Traps at fetch and at delivery -/

/-- A precise trap of the issuing group, before any unit of it is known. -/
def trapGroup (t : Trap) (s : State) : State :=
  match unitCtx Pfx.empty s with
  | none => s
  | some c => raiseTrap c { t with lane := (lanesOf c.mask).headD 0 } 0 s

/-- A code fetch that does not translate, or that reaches 2^48 (R77, R149). -/
def execFetchAddressFault (s : State) : Host.Outcome State Fault Refusal :=
  match s.issue with
  | none => .next s
  | some i =>
    let a : Addr := if i.pc.toNat ≥ codeEnd then BitVec.ofNat 64 codeEnd else i.pc
    .next (trapGroup { cause := 5, addr := a } { s with issue := some { i with pc := a } })

/-- A word or prefix sequence that is no instruction (R101). -/
def execIllegalInstruction (detail : BitVec 8) (s : State) : Host.Outcome State Fault Refusal :=
  .next (trapGroup { cause := 1, detail := detail } s)

/-- The unit that a gang issues next, where a word of it is an instruction. -/
def nextUnit (s : State) (core slot : Nat) : Option (Issue × Instr) :=
  match pickGroup s core slot with
  | none => none
  | some i => match fetchFor s i with | some (_, .unit u) => some (i, u) | _ => none

/-- The deferred trap that a gang's next unit is to deliver as a safe point: the lowest cause of those pending. A
pre-emption that is pending is taken first (R166, R171). What another unit waits on or reads is delivered at its issue,
by the checks that every unit shares. -/
def dueAtSafePoint (s : State) (core slot : Nat) : Option (UnitCtx × Pend) :=
  match nextUnit s core slot with
  | none => none
  | some (i, u) =>
    match u.pfx? with
    | none => none
    | some x =>
      match unitCtx x { s with issue := some i } with
      | none => none
      | some c =>
        if x.safe.isNone || c.crew.preempt.isSome || c.gang.fence.isSome then none
        else (dueTrap c {}).map (fun p => (c, p))

/-- A pending deferred trap of the gang that issued last is delivered before its next unit (R166). -/
def execDeferredTrapDelivery (cause : BitVec 8) (s : State) : Host.Outcome State Fault Refusal :=
  match s.issue with
  | none => .next s
  | some i =>
    match dueAtSafePoint s i.core i.slot with
    | none => .next s
    | some (c, p) => if p.cause = cause then .next (deliverPend c p s) else .next s

/-! ## Timers -/

/-- Free the group of a lane. -/
def freeGroup (core slot lane : Nat) (s : State) : State :=
  s.modGang core slot (fun g => g.modLanes (g.sameHold lane) (fun _ f =>
    { f with hold := none, safe := none, since := s.clock.toNat, readyFrom := none }))

/-- The count of a sleep has elapsed (R162). -/
def execSleepExpiry (core slot lane : Nat) (s : State) : Host.Outcome State Fault Refusal :=
  match (s.gangAt core slot).bind (fun g => (g.fibre lane).hold) with
  | some (.sleep till) => .next (if till ≤ s.clock.toNat then freeGroup core slot lane s else s)
  | _ => .next s

/-- Cycles without another ready group that end a yield. -/
def yieldCycles : Nat := 64

/-- For 64 cycles no other group of the gang has been ready (R161). -/
def execYieldTimeout (core slot lane : Nat) (s : State) : Host.Outcome State Fault Refusal :=
  match s.crewAt core with
  | none => .next s
  | some c =>
    match c.gangs.find slot with
    | none => .next s
    | some g =>
      match (g.fibre lane).hold with
      | some (.yielded _ idle) =>
        .next (if readyLanes s core slot c g &&& ~~~(g.sameHold lane) = 0 ∧ idle + yieldCycles ≤ s.clock.toNat then
          freeGroup core slot lane s else s)
      | _ => .next s

/-- A group that has been ready for A cycles without issuing becomes aged; A = 0 turns ageing off (R362). -/
def execGroupAged (core slot : Nat) (pc : Addr) (s : State) : Host.Outcome State Fault Refusal :=
  match s.crewAt core with
  | none => .next s
  | some c =>
    match c.gangs.find slot with
    | none => .next s
    | some g =>
      let ready := readyLanes s core slot c g
      let m := maskWhere (fun l => ready.getLsbD l && (g.fibre l).pc == pc && (g.fibre l).ages s.mgmt.ageing s.clock.toNat)
      .next (s.modGang core slot (fun g => g.modLanes m (fun _ f => { f with aged := true })))

/-- A halted gang is resumed: its bkpt issues again as a nop (R405). -/
def execDebugResume (core slot : Nat) (s : State) : Host.Outcome State Fault Refusal :=
  .next (s.modGang core slot (fun g => { g with fibres := g.fibres.map (fun f =>
    if f.hold = some .debugHalt then { f with hold := none, safe := none, arrived := true } else f) }))

/-! ## The register file -/

/-- The compactor merges adjacent free blocks of a squad (R23). -/
def execCompactorMerge (core squad : Nat) (s : State) : Host.Outcome State Fault Refusal :=
  .next (s.modCrew core (fun c => c.modSquad squad (fun q => { q with free := mergeFree q.free })))

/-- Where a register of a gang is kept, as the class of an error in it (R27, R179): the operand buffer, else the main file or
a spilled segment; none where it has never been written. -/
def Gang.keptIn (g : Gang) (key : Nat) : Option (BitVec 4) :=
  if g.buffer.any (fun e => e.key == key) then some 2 else if (g.stored.find key).isSome then some 1 else none

/-- A spilled register is fetched back (R25). An uncorrectable error arises in a lane of a register, wherever it is kept: the
unit of its gang that next reads it, or merges into it, finds it (R22, R27, R179). -/
def execSpillRefill (core slot reg plane : Nat) (bad : Option Nat) (s : State) : Host.Outcome State Fault Refusal :=
  match s.crewAt core with
  | none => .next s
  | some c =>
    match c.gangs.find slot with
    | none => .next s
    | some g =>
      let key := plane * 1024 + reg
      match bad, g.stored.find key, g.keptIn key with
      | some lane, _, some cls =>
        .next (s.setGang core slot { g with bad := g.bad ++ [{ key := key, lane := lane % 64, cls := cls }] })
      | none, some { at_ := none, .. }, some _ => .next (s.modCrew core (bufferUse s.clock.toNat slot key false))
      | _, _, _ => .next s

/-! ## Soft errors and the patrol scrub (R316 to R318) -/

/-- Count a corrected error of a slice (R316, R405). -/
def State.noteSlice (s : State) (slice : Nat) : State :=
  { s with slices := { s.slices with
      corrected := s.slices.corrected.put slice (min (s.slices.corrected.get 0 slice + 1) (2 ^ 64 - 1)) } }

/-- An uncorrectable error of a view's copy of a line poisons it; the controller records its address (R317). -/
def State.poisonLine (s : State) (line view : Nat) : State :=
  ({ s with poison := s.poison ++ [line * 64 + view], mgmt := { s.mgmt with poisonLog := s.mgmt.poisonLog ++ [line] } } : State).report
    { type := 6, addr := BitVec.ofNat 64 (line * 128) }

/-- Bytes of device memory from lo to hi take in lines of a slice: a granule of 2 MiB lies in one domain, and any 2 KiB of it
in every slice there (R298). -/
def spansSlice (slice lo hi : Nat) : Bool :=
  (List.range ((hi + 0x1fffff) / 0x200000 - lo / 0x200000)).any (fun i =>
    homeSlice ((lo / 0x200000 + i) * 0x200000) / 16 == slice / 16)

/-- The pages that one hash table of a context maps and that are there, by their first physical address. -/
def tableFrames (s : State) (base log : Nat) : List Nat :=
  if log = 0 then []
  else
    (List.range (3 * 2 ^ log)).filterMap (fun k =>
      let e := BitVec.ofNat 64 (memNat s.mem (base + 16 * k) 8)
      let f := BitVec.ofNat 64 (memNat s.mem (base + 16 * k + 8) 8)
      if e.getLsbD 63 && e.getLsbD 62 then some ((f.extractLsb' 12 28).toNat * 4096) else none)

/-- Lines of a slice lie in a context's heap window or in its pages (log 108). -/
def ctxInSlice (s : State) (slice ctx : Nat) : Bool :=
  let k := s.ctxAt ctx
  (k.base.getLsbD 0 && spansSlice slice (windowPa k (heapByte k.base)) (windowPa k (heapByte k.base) + (heapByte k.lim - heapByte k.base))) ||
    (List.range 4).any (fun i =>
      let d := sizeDesc s ctx i
      (tableFrames s d.newb d.nlog ++ if d.st = 1 then tableFrames s d.oldb d.olog else []).any (fun pa =>
        spansSlice slice pa (pa + 2 ^ pageShift i)))

/-- An uncorrectable error of a slice's tags or timestamps is fatal to every context that holds lines there, and reported. -/
def State.sliceFatal (s : State) (slice : Nat) : State :=
  ({ s with launches := s.launches.map (fun (l : Launch) =>
      if l.st = LaunchSt.ending || !ctxInSlice s slice l.rcd.ctx then l
      else { l with st := LaunchSt.ending, outcome := 6, cause := 0x10 }) } : State).report
    { type := 8, place := slice }

/-- A core's L1 holds a copy of a line in a view. -/
def Core.holds (k : Core) (line view : Nat) : Bool := k.l1.any (fun e => e.line == line && e.view == view)

/-- A word of a core's scratchpad or barrier window goes bad (R316). -/
def Crew.spoil (offset : Nat) (c : Crew) : Crew :=
  if offset % 4 = 0 && (decide (offset + 4 ≤ c.size) || (decide (0x80000 ≤ offset) && decide (offset < 0x80200))) &&
      !c.padBad.contains offset then { c with padBad := c.padBad ++ [offset] } else c

/-- The scrub visits a line of device memory, or a storage is found in error (R316): a correctable error is corrected and
counted in its slice or core (a dirty line in an L1 is the copy that its crew's view sees), and a clean line, whose parity is all it has, is fetched again; an uncorrectable one poisons its
line or word, which is recorded. What an uncorrectable error of a register, an accumulator or a macro does, the events of
those say (R27, R239, R240). -/
def execPatrolScrub (place : Storage) (uncorrectable : Bool) (s : State) : Host.Outcome State Fault Refusal :=
  match place with
  | .hbm line =>
    if line * 128 ≥ memSize then .next s
    else if !uncorrectable then .next (s.noteSlice (homeSlice (line * 128)))
    else if s.poison.contains (line * 64) || !s.reportRoom then .next s
    else .next (s.poisonLine line 0)
  | .padWord core offset => .next (if uncorrectable then s.modCrew core (Crew.spoil offset) else s.noteCorrected core)
  | .readOnly core line view =>
    if ((s.coreAt core).roLine view line).isNone then .next s
    else .next ((s.refillRo core (s.ownerAt core line) view line).noteCorrected core)
  | .l1Clean core line view =>
    if !(s.coreAt core).holds line view then .next s
    else
      .next ((s.modCore core (fun k => { k with l1 := k.l1.filter (fun e => e.line != line || e.view != view) })).noteCorrected
        core)
  | .l1Dirty core line =>
    let view := (s.crewAt core).elim 0 (·.view)
    if !(s.coreAt core).holds line view then .next s
    else if !uncorrectable then .next (s.noteCorrected core)
    else if s.linePoisoned view line || !s.reportRoom then .next s
    else .next ((s.poisonLine line (s.copyView view line)).machineCheck core 5)
  | .sliceClean slice => .next (s.noteSlice slice)
  | .sliceTag slice =>
    if !uncorrectable then .next (s.noteSlice slice)
    else if !s.reportRoom then .next s
    else .next (s.sliceFatal slice)
  | .operands core => .next (if uncorrectable then s else s.noteCorrected core)

/-! ## The doldrums detector (R363) -/

/-- Waits that count for reason 1. -/
def Hold.becalmed : Hold → Bool
  | .phase _ _ | .lines _ | .counter _ _ | .popEmpty _ | .pushFull _ | .calm _ | .version _ _ | .completed _ _ => true
  | .answer _ push => push
  | _ => false

/-- Arrivals that count for reason 2. -/
def Hold.gathering : Hold → Bool
  | .arrival (.fork _ _) _ | .arrival (.worldYield _) _ | .arrival (.choose _) _ => true
  | _ => false

/-- Every live lane has been held in such a wait for d cycles. -/
def Gang.allHeld (g : Gang) (p : Hold → Bool) (d now : Nat) : Bool :=
  g.fibres.any (·.live) && g.fibres.all (fun f =>
    !f.live || ((match f.hold with | some h => p h | none => false) && decide (f.since + d ≤ now)))

/-- A lane of a live group that has not issued for d cycles while another group of its gang has. -/
def Gang.leftBehind (g : Gang) (d now : Nat) : Option Nat :=
  (List.range 64).find? (fun l =>
    let f := g.fibre l
    f.live && !f.reported && decide (f.issued + d ≤ now) && decide (f.issued < g.lastIssue) &&
      !(match f.hold with | some h => h.pausing | none => false))

/-- What the detector finds in a gang: a reason and a lane of the first group it reports. -/
def becalmed (d now : Nat) (g : Gang) : Option (BitVec 8 × Nat) :=
  if d = 0 then none
  else
    match g.leftBehind d now with
    | some l => some (0, l)
    | none =>
      let first := ((List.range 64).find? (fun l => (g.fibre l).live)).getD 0
      if g.reported then none
      else if g.allHeld Hold.becalmed d now then some (1, first)
      else if g.allHeld Hold.gathering d now then some (2, first)
      else none

/-- The PC of each live group of a gang. -/
def Gang.livePcs (g : Gang) : List Addr :=
  ((((List.range 64).filter (fun l => (g.fibre l).live)).map (fun l => ((g.fibre l).pc, (g.fibre l).wbase))).eraseDups).map
    Prod.fst

/-- A report for an episode that has not been reported. -/
def execDoldrumsReport (core slot : Nat) (s : State) : Host.Outcome State Fault Refusal :=
  match s.crewAt core with
  | none => .next s
  | some c =>
    match c.gangs.find slot with
    | none => .next s
    | some g =>
      match becalmed s.mgmt.doldrums s.clock.toNat g with
      | none => .next s
      | some (code, lane) =>
        let l : Option Launch := s.launchOf c.launch
        let s := s.modGang core slot (fun g =>
          if code = 0 then g.modLanes (g.sameHold lane) (fun _ f => { f with reported := true }) else { g with reported := true })
        let note : DoldrumsNote :=
          { launch := c.launch, core := core, squad := squadOf slot, slot := gangRank slot, code := code, pcs := g.livePcs }
        .next (({ s with device := { s.device with doldrums := s.device.doldrums ++ [note] } } : State).report
          { type := 2, code := code, ctx := (l.map (·.rcd.ctx)).getD 0, launch := c.launch, ltag := (l.map (·.rcd.ltag)).getD 0
            place := core, pc := (g.fibre lane).pc })

end Sys2Proof.Machine
end

