-- ==== Sys2Proof/Machine/Dispatch.lean ====
section
/-! DEFINITION. Which meaning each constructor of Instr has. -/

namespace Sys2Proof.Machine

def exec (i : Instr) (s : State) : Host.Outcome State Fault Refusal :=
  match i with
  | .add x d a b t => Sys2Proof.Machine.execAdd x d a b t s
  | .sub x d a b t => Sys2Proof.Machine.execSub x d a b t s
  | .mul x d a b t => Sys2Proof.Machine.execMul x d a b t s
  | .mulh x d a b t => Sys2Proof.Machine.execMulh x d a b t s
  | .mad x d a b t => Sys2Proof.Machine.execMad x d a b t s
  | .min x d a b t => Sys2Proof.Machine.execMin x d a b t s
  | .max x d a b t => Sys2Proof.Machine.execMax x d a b t s
  | .shl x d a b t => Sys2Proof.Machine.execShl x d a b t s
  | .shr x d a b t => Sys2Proof.Machine.execShr x d a b t s
  | .sar x d a b t => Sys2Proof.Machine.execSar x d a b t s
  | .and x d a b w => Sys2Proof.Machine.execAnd x d a b w s
  | .or x d a b w => Sys2Proof.Machine.execOr x d a b w s
  | .xor x d a b w => Sys2Proof.Machine.execXor x d a b w s
  | .andn x d a b w => Sys2Proof.Machine.execAndn x d a b w s
  | .abs x d a w => Sys2Proof.Machine.execAbs x d a w s
  | .neg x d a w => Sys2Proof.Machine.execNeg x d a w s
  | .clz x d a w => Sys2Proof.Machine.execClz x d a w s
  | .popc x d a w => Sys2Proof.Machine.execPopc x d a w s
  | .brev x d a w => Sys2Proof.Machine.execBrev x d a w s
  | .mov x d a w => Sys2Proof.Machine.execMov x d a w s
  | .bfx x d a b sg => Sys2Proof.Machine.execBfx x d a b sg s
  | .bfi x d a b => Sys2Proof.Machine.execBfi x d a b s
  | .prmt x d a b => Sys2Proof.Machine.execPrmt x d a b s
  | .sel x d a b p => Sys2Proof.Machine.execSel x d a b p s
  | .cmp x c p a b t => Sys2Proof.Machine.execCmp x c p a b t s
  | .addi x d a imm => Sys2Proof.Machine.execAddi x d a imm s
  | .muli x d a imm => Sys2Proof.Machine.execMuli x d a imm s
  | .shli x d a imm => Sys2Proof.Machine.execShli x d a imm s
  | .shri x d a imm => Sys2Proof.Machine.execShri x d a imm s
  | .sari x d a imm => Sys2Proof.Machine.execSari x d a imm s
  | .andi x d a imm => Sys2Proof.Machine.execAndi x d a imm s
  | .ori x d a imm => Sys2Proof.Machine.execOri x d a imm s
  | .xori x d a imm => Sys2Proof.Machine.execXori x d a imm s
  | .andni x d a imm => Sys2Proof.Machine.execAndni x d a imm s
  | .cmpiI32 x c p a imm => Sys2Proof.Machine.execCmpiI32 x c p a imm s
  | .cmpiN32 x c p a imm => Sys2Proof.Machine.execCmpiN32 x c p a imm s
  | .movi x d imm => Sys2Proof.Machine.execMovi x d imm s
  | .lui x d imm => Sys2Proof.Machine.execLui x d imm s
  | .lea x d a imm => Sys2Proof.Machine.execLea x d a imm s
  | .shfl x d a m n => Sys2Proof.Machine.execShfl x d a m n s
  | .shflReg x d a m r => Sys2Proof.Machine.execShflReg x d a m r s
  | .ballot x d sg n => Sys2Proof.Machine.execBallot x d sg n s
  | .voteAny x p sg n => Sys2Proof.Machine.execVoteAny x p sg n s
  | .voteAll x p sg n => Sys2Proof.Machine.execVoteAll x p sg n s
  | .voteUni x p sg n => Sys2Proof.Machine.execVoteUni x p sg n s
  | .fadd x d a b t => Sys2Proof.Machine.execFadd x d a b t s
  | .fsub x d a b t => Sys2Proof.Machine.execFsub x d a b t s
  | .fmul x d a b t => Sys2Proof.Machine.execFmul x d a b t s
  | .ffma x d a b t => Sys2Proof.Machine.execFfma x d a b t s
  | .fmin x d a b t => Sys2Proof.Machine.execFmin x d a b t s
  | .fmax x d a b t => Sys2Proof.Machine.execFmax x d a b t s
  | .fdiv x d a b t => Sys2Proof.Machine.execFdiv x d a b t s
  | .fdot2 x d a b t => Sys2Proof.Machine.execFdot2 x d a b t s
  | .fcmp x c p a b t => Sys2Proof.Machine.execFcmp x c p a b t s
  | .fneg x d a t => Sys2Proof.Machine.execFneg x d a t s
  | .fabs x d a t => Sys2Proof.Machine.execFabs x d a t s
  | .fsqrt x d a t => Sys2Proof.Machine.execFsqrt x d a t s
  | .frcp x d a t => Sys2Proof.Machine.execFrcp x d a t s
  | .frsq x d a t => Sys2Proof.Machine.execFrsq x d a t s
  | .fclass x d a t => Sys2Proof.Machine.execFclass x d a t s
  | .fscale x d a b t => Sys2Proof.Machine.execFscale x d a b t s
  | .cvt x d a m sg c => Sys2Proof.Machine.execCvt x d a m sg c s
  | .cvtSr x d a b c => Sys2Proof.Machine.execCvtSr x d a b c s
  | .cvtPack x d a m c => Sys2Proof.Machine.execCvtPack x d a m c s
  | .cvtPackSr x d a b c => Sys2Proof.Machine.execCvtPackSr x d a b c s
  | .cvtUnpack x d a c => Sys2Proof.Machine.execCvtUnpack x d a c s
  | .fexp2 x d a => Sys2Proof.Machine.execFexp2 x d a s
  | .flog2 x d a => Sys2Proof.Machine.execFlog2 x d a s
  | .fsin x d a => Sys2Proof.Machine.execFsin x d a s
  | .fcos x d a => Sys2Proof.Machine.execFcos x d a s
  | .ftanh x d a => Sys2Proof.Machine.execFtanh x d a s
  | .bra x n p imm => Sys2Proof.Machine.execBra x n p imm s
  | .call x n p imm => Sys2Proof.Machine.execCall x n p imm s
  | .brx x a => Sys2Proof.Machine.execBrx x a s
  | .ret x => Sys2Proof.Machine.execRet x s
  | .nop x => Sys2Proof.Machine.execNop x s
  | .exit x => Sys2Proof.Machine.execExit x s
  | .yield x => Sys2Proof.Machine.execYield x s
  | .sleep x a => Sys2Proof.Machine.execSleep x a s
  | .bkpt x => Sys2Proof.Machine.execBkpt x s
  | .trap x => Sys2Proof.Machine.execTrap x s
  | .tret x => Sys2Proof.Machine.execTret x s
  | .rpf x d a b => Sys2Proof.Machine.execRpf x d a b s
  | .wbase x a imm => Sys2Proof.Machine.execWbase x a imm s
  | .spawn x a b => Sys2Proof.Machine.execSpawn x a b s
  | .pand x d n a m b => Sys2Proof.Machine.execPand x d n a m b s
  | .por x d n a m b => Sys2Proof.Machine.execPor x d n a m b s
  | .pxor x d n a m b => Sys2Proof.Machine.execPxor x d n a m b s
  | .pnot x d n a => Sys2Proof.Machine.execPnot x d n a s
  | .pset x d a => Sys2Proof.Machine.execPset x d a s
  | .ld x d a k imm => Sys2Proof.Machine.execLd x d a k imm s
  | .st x d a k imm => Sys2Proof.Machine.execSt x d a k imm s
  | .ldFe x d a k imm => Sys2Proof.Machine.execLdFe x d a k imm s
  | .stFill x d a k imm => Sys2Proof.Machine.execStFill x d a k imm s
  | .feClr x a b => Sys2Proof.Machine.execFeClr x a b s
  | .atom32 x d a b f => Sys2Proof.Machine.execAtom32 x d a b f s
  | .atom64 x d a b f => Sys2Proof.Machine.execAtom64 x d a b f s
  | .red32 x a b f => Sys2Proof.Machine.execRed32 x a b f s
  | .red64 x a b f => Sys2Proof.Machine.execRed64 x a b f s
  | .fenceFull x sg m => Sys2Proof.Machine.execFenceFull x sg m s
  | .fenceAcq x sg m => Sys2Proof.Machine.execFenceAcq x sg m s
  | .fenceRel x sg m => Sys2Proof.Machine.execFenceRel x sg m s
  | .barArrive x a n => Sys2Proof.Machine.execBarArrive x a n s
  | .barWait x a n => Sys2Proof.Machine.execBarWait x a n s
  | .barSync x a n => Sys2Proof.Machine.execBarSync x a n s
  | .barExpect x a n => Sys2Proof.Machine.execBarExpect x a n s
  | .sstep x => Sys2Proof.Machine.execSstep x s
  | .rclose x => Sys2Proof.Machine.execRclose x s
  | .prefL1 x a => Sys2Proof.Machine.execPrefL1 x a s
  | .prefCc x a => Sys2Proof.Machine.execPrefCc x a s
  | .prefMs x a => Sys2Proof.Machine.execPrefMs x a s
  | .cctlWb x a => Sys2Proof.Machine.execCctlWb x a s
  | .cctlInv x a => Sys2Proof.Machine.execCctlInv x a s
  | .cctlRoinv x a => Sys2Proof.Machine.execCctlRoinv x a s
  | .lld x l a imm => Sys2Proof.Machine.execLld x l a imm s
  | .lst x l a imm => Sys2Proof.Machine.execLst x l a imm s
  | .lchain x d a b => Sys2Proof.Machine.execLchain x d a b s
  | .lpart x d a b => Sys2Proof.Machine.execLpart x d a b s
  | .ltrans x d a j imm => Sys2Proof.Machine.execLtrans x d a j imm s
  | .lflat x d a m => Sys2Proof.Machine.execLflat x d a m s
  | .lswz x d a b => Sys2Proof.Machine.execLswz x d a b s
  | .lchk x p l e => Sys2Proof.Machine.execLchk x p l e s
  | .ltile x d a l => Sys2Proof.Machine.execLtile x d a l s
  | .stile x d a l => Sys2Proof.Machine.execStile x d a l s
  | .mldb x sg a l f => Sys2Proof.Machine.execMldb x sg a l f s
  | .mma x t a b f => Sys2Proof.Machine.execMma x t a b f s
  | .mmaC x t a b f => Sys2Proof.Machine.execMmaC x t a b f s
  | .msca x t a b k => Sys2Proof.Machine.execMsca x t a b k s
  | .mzero x t n => Sys2Proof.Machine.execMzero x t n s
  | .mread x d a e => Sys2Proof.Machine.execMread x d a e s
  | .mwrite x d a e => Sys2Proof.Machine.execMwrite x d a e s
  | .mver x d t => Sys2Proof.Machine.execMver x d t s
  | .mwait x t b => Sys2Proof.Machine.execMwait x t b s
  | .mstat x d t => Sys2Proof.Machine.execMstat x d t s
  | .cpyLoad x d a b => Sys2Proof.Machine.execCpyLoad x d a b s
  | .cpyStore x d a b => Sys2Proof.Machine.execCpyStore x d a b s
  | .cpym x d a b => Sys2Proof.Machine.execCpym x d a b s
  | .cwait x a b => Sys2Proof.Machine.execCwait x a b s
  | .cstat x d a => Sys2Proof.Machine.execCstat x d a s
  | .qpop x d q => Sys2Proof.Machine.execQpop x d q s
  | .qpopTry x d q p => Sys2Proof.Machine.execQpopTry x d q p s
  | .qpush x a b => Sys2Proof.Machine.execQpush x a b s
  | .qpushTry x p a b => Sys2Proof.Machine.execQpushTry x p a b s
  | .qstat x d q => Sys2Proof.Machine.execQstat x d q s
  | .strm x a b => Sys2Proof.Machine.execStrm x a b s
  | .strmStop x => Sys2Proof.Machine.execStrmStop x s
  | .strmWait x => Sys2Proof.Machine.execStrmWait x s
  | .tspawn x d a b => Sys2Proof.Machine.execTspawn x d a b s
  | .texit x => Sys2Proof.Machine.execTexit x s
  | .calmwait x => Sys2Proof.Machine.execCalmwait x s
  | .role x d => Sys2Proof.Machine.execRole x d s
  | .rolewait x => Sys2Proof.Machine.execRolewait x s
  | .append x a b => Sys2Proof.Machine.execAppend x a b s
  | .drain x d a p => Sys2Proof.Machine.execDrain x d a p s
  | .wfork x d n => Sys2Proof.Machine.execWfork x d n s
  | .wyield x a => Sys2Proof.Machine.execWyield x a s
  | .wabort x => Sys2Proof.Machine.execWabort x s
  | .wchoose x a => Sys2Proof.Machine.execWchoose x a s
  | .wchooseNone x => Sys2Proof.Machine.execWchooseNone x s
  | .wstatScore x d a => Sys2Proof.Machine.execWstatScore x d a s
  | .wstatStatus x d a => Sys2Proof.Machine.execWstatStatus x d a s
  | .srd x d w n => Sys2Proof.Machine.execSrd x d w n s
  | .swr x a w n => Sys2Proof.Machine.execSwr x a w n s
  | .tlbinvPage x a => Sys2Proof.Machine.execTlbinvPage x a s
  | .tlbinvCtx x a => Sys2Proof.Machine.execTlbinvCtx x a s
  | .tlbinvAll x => Sys2Proof.Machine.execTlbinvAll x s
  | .ctxq x a => Sys2Proof.Machine.execCtxq x a s
  | .mcheck x d => Sys2Proof.Machine.execMcheck x d s
  | .powerOn readable trained => Sys2Proof.Machine.execPowerOn readable trained s
  | .compactorMerge core squad => Sys2Proof.Machine.execCompactorMerge core squad s
  | .spillRefill core slot reg plane bad => Sys2Proof.Machine.execSpillRefill core slot reg plane bad s
  | .deferredTrapDelivery cause => Sys2Proof.Machine.execDeferredTrapDelivery cause s
  | .debugResume core slot => Sys2Proof.Machine.execDebugResume core slot s
  | .groupAged core slot pc => Sys2Proof.Machine.execGroupAged core slot pc s
  | .yieldTimeout core slot lane => Sys2Proof.Machine.execYieldTimeout core slot lane s
  | .sleepExpiry core slot lane => Sys2Proof.Machine.execSleepExpiry core slot lane s
  | .spawnBinTimeout core squad key => Sys2Proof.Machine.execSpawnBinTimeout core squad key s
  | .spawnedGangStart core squad => Sys2Proof.Machine.execSpawnedGangStart core squad s
  | .crewEnd core => Sys2Proof.Machine.execCrewEnd core s
  | .fenceComplete core slot => Sys2Proof.Machine.execFenceComplete core slot s
  | .leaseBreak core => Sys2Proof.Machine.execLeaseBreak core s
  | .viewRetag core => Sys2Proof.Machine.execViewRetag core s
  | .tlbShootdown core => Sys2Proof.Machine.execTlbShootdown core s
  | .closeRequest core => Sys2Proof.Machine.execCloseRequest core s
  | .patrolScrub place uncorrectable => Sys2Proof.Machine.execPatrolScrub place uncorrectable s
  | .orderedAddContribution launch view pa wide value key core squad => Sys2Proof.Machine.execOrderedAddContribution launch view pa wide value key core squad s
  | .roundClose launch view => Sys2Proof.Machine.execRoundClose launch view s
  | .superstepComplete launch => Sys2Proof.Machine.execSuperstepComplete launch s
  | .treeAgreementMessage launch child value => Sys2Proof.Machine.execTreeAgreementMessage launch child value s
  | .mldbComplete core => Sys2Proof.Machine.execMldbComplete core s
  | .mmaComplete core parity bad => Sys2Proof.Machine.execMmaComplete core parity bad s
  | .mmaCStepStart cluster => Sys2Proof.Machine.execMmaCStepStart cluster s
  | .mscaComplete core bad => Sys2Proof.Machine.execMscaComplete core bad s
  | .mzeroComplete core => Sys2Proof.Machine.execMzeroComplete core s
  | .mreadComplete core bad => Sys2Proof.Machine.execMreadComplete core bad s
  | .mwriteComplete core => Sys2Proof.Machine.execMwriteComplete core s
  | .mstatComplete core => Sys2Proof.Machine.execMstatComplete core s
  | .copyStart core => Sys2Proof.Machine.execCopyStart core s
  | .copyLineLand core k => Sys2Proof.Machine.execCopyLineLand core k s
  | .copyEnd core k => Sys2Proof.Machine.execCopyEnd core k s
  | .streamIterationPoint core => Sys2Proof.Machine.execStreamIterationPoint core s
  | .taskGangStart core => Sys2Proof.Machine.execTaskGangStart core s
  | .calmSweep launch => Sys2Proof.Machine.execCalmSweep launch s
  | .roleDwellExpiry core => Sys2Proof.Machine.execRoleDwellExpiry core s
  | .forkStart core => Sys2Proof.Machine.execForkStart core s
  | .worldEnd core => Sys2Proof.Machine.execWorldEnd core s
  | .parentResume parked => Sys2Proof.Machine.execParentResume parked s
  | .worldCommit core => Sys2Proof.Machine.execWorldCommit core s
  | .viewBackgroundMerge tag => Sys2Proof.Machine.execViewBackgroundMerge tag s
  | .pageWalk core va kind => Sys2Proof.Machine.execPageWalk core va kind s
  | .pageResume ctx va => Sys2Proof.Machine.execPageResume ctx va s
  | .preemptionRequest core => Sys2Proof.Machine.execPreemptionRequest core s
  | .crewSave core => Sys2Proof.Machine.execCrewSave core s
  | .crewResume parked => Sys2Proof.Machine.execCrewResume parked s
  | .preemptionOverdue core => Sys2Proof.Machine.execPreemptionOverdue core s
  | .launchQueuePost queue tail => Sys2Proof.Machine.execLaunchQueuePost queue tail s
  | .launchRecordTake queue => Sys2Proof.Machine.execLaunchRecordTake queue s
  | .dependencyCheck queue => Sys2Proof.Machine.execDependencyCheck queue s
  | .launchPlacement queue => Sys2Proof.Machine.execLaunchPlacement queue s
  | .priorityPreemption queue => Sys2Proof.Machine.execPriorityPreemption queue s
  | .launchEnd launch => Sys2Proof.Machine.execLaunchEnd launch s
  | .launchCancel launch => Sys2Proof.Machine.execLaunchCancel launch s
  | .doldrumsReport core slot => Sys2Proof.Machine.execDoldrumsReport core slot s
  | .packetInject stop loop => Sys2Proof.Machine.execPacketInject stop loop s
  | .agePromotion stop loop => Sys2Proof.Machine.execAgePromotion stop loop s
  | .packetEject stop loop => Sys2Proof.Machine.execPacketEject stop loop s
  | .sumpDiversion stop loop => Sys2Proof.Machine.execSumpDiversion stop loop s
  | .spanFrameReceive port seq crcOk header => Sys2Proof.Machine.execSpanFrameReceive port seq crcOk header s
  | .spanPortDown port => Sys2Proof.Machine.execSpanPortDown port s
  | .hostReadCompletion core slot tag error => Sys2Proof.Machine.execHostReadCompletion core slot tag error s
  | .hostReadTimeout core slot tag => Sys2Proof.Machine.execHostReadTimeout core slot tag s
  | .feataccWrite word value => Sys2Proof.Machine.execFeataccWrite word value s
  | .registerWindowWrite offset value => Sys2Proof.Machine.execRegisterWindowWrite offset value s
  | .attestationQuote nonce => Sys2Proof.Machine.execAttestationQuote nonce s
  | .measurementLogExtend block => Sys2Proof.Machine.execMeasurementLogExtend block s
  | .firmwareImageWrite image => Sys2Proof.Machine.execFirmwareImageWrite image s
  | .managementWindowWrite setting => Sys2Proof.Machine.execManagementWindowWrite setting s
  | .thermalStop die => Sys2Proof.Machine.execThermalStop die s
  | .illegalInstruction detail => Sys2Proof.Machine.execIllegalInstruction detail s
  | .preemptionCancel core => Sys2Proof.Machine.execPreemptionCancel core s
  | .deviceReset => Sys2Proof.Machine.execDeviceReset s
  | .fetchAddressFault => Sys2Proof.Machine.execFetchAddressFault s
  | .phaseClose => Sys2Proof.Machine.execPhaseClose s
  | .closeCompletion => Sys2Proof.Machine.execCloseCompletion s
  | .sliceLoad => Sys2Proof.Machine.execSliceLoad s
  | .sliceWrite => Sys2Proof.Machine.execSliceWrite s
  | .sliceMissFill => Sys2Proof.Machine.execSliceMissFill s
  | .loadReply => Sys2Proof.Machine.execLoadReply s
  | .writeAck => Sys2Proof.Machine.execWriteAck s
  | .queuePacketArrival => Sys2Proof.Machine.execQueuePacketArrival s
  | .taskRecordArrival => Sys2Proof.Machine.execTaskRecordArrival s
  | .managementSettingApply => Sys2Proof.Machine.execManagementSettingApply s
  | .clockLower => Sys2Proof.Machine.execClockLower s
  | .clockRaise => Sys2Proof.Machine.execClockRaise s
  | .powerOff => Sys2Proof.Machine.execPowerOff s

end Sys2Proof.Machine
end

