-- ==== Sys2Proof/Machine/Run.lean ====
section
/-! DEFINITION. One step of the machine: issue a unit, perform an event, or let cycles pass; and the choice between them
where the agenda leaves it open (log 5). -/

namespace Sys2Proof.Machine

/-! ## Cycles -/

/-- n cycles pass: the readiness of the groups and the role machines of the running crews go with them (R161, R362 to R364),
and the sensors (R405). -/
def passCycles (n : Nat) (s : State) : State :=
  let t := { s with crews := s.crews.map (fun e =>
    (e.1, { e.2 with gangs := e.2.gangs.map (fun g => (g.1, passGang s e.1 n g.1 e.2 g.2)) })) }
  let now := s.clock + BitVec.ofNat 64 n
  { s.crews.keys.foldl (fun t core => roleTick core n t) t with
    clock := now, mgmt := s.mgmt.sample now.toNat, fabric := s.fabric.age s.clock.toNat n }

/-- The cycles up to n from now in which settings written take effect (R405). -/
def settingCycles (s : State) (n : Nat) : List Nat :=
  ((s.mgmt.writes.map Prod.fst).filter (fun t => decide (t ≤ s.clock.toNat + n))).eraseDups

/-- Up to n cycles pass in which the fabric does its work, one by one, for as long as it holds packets (R384 to R392). -/
def fabricCycles : Nat → State → State
  | 0, s => s
  | n + 1, s => if s.fabricIdle then s else fabricCycles n (passCycles 1 (fabricCycle s))

/-- n cycles pass in one go, but for those in which the fabric works. -/
def workCycles (n : Nat) (s : State) : State :=
  let t := fabricCycles n s
  passCycles (s.clock.toNat + n - t.clock.toNat) t

/-- n cycles pass, and each setting written takes effect in its cycle (R405). -/
def tick (n : Nat) (s : State) : State :=
  let till := s.clock.toNat + n
  let s := (settingCycles s n).foldl (fun s t => (workCycles (t - s.clock.toNat) s).applySettings) s
  workCycles (till - s.clock.toNat) s

/-- Apply f to the next state of an outcome. -/
def onNext (f : State → State) : Host.Outcome State Fault Refusal → Host.Outcome State Fault Refusal
  | .next s => .next (f s)
  | .fault e => .fault e
  | .refused e => .refused e

/-! ## Issuing a unit -/

/-- The group whose unit is tried. -/
def setIssue (i : Issue) (s : State) : State := { s with issue := some i }

/-- The tried unit has only been held: its group stands where it stood, with nothing more of the unit performed. -/
def onlyHeld (i : Issue) (s t : State) : Bool :=
  match s.gangAt i.core i.slot, t.gangAt i.core i.slot with
  | some g, some h => (lanesOf i.mask).all (fun l =>
      (h.fibre l).pc == (g.fibre l).pc && (h.fibre l).arrived == (g.fibre l).arrived &&
        (match (h.fibre l).hold with | some w => !w.outlives | none => false))
  | _, _ => false

/-- A group that has issued has taken its squad's turn, in one cycle (R362), and its packets are on their way. One whose unit is
held was not ready: its squad issues another in the same cycle. -/
def passTurn (i : Issue) (s t : State) : State :=
  if onlyHeld i s t then t
  else
    let t := traffic s (some (i.core, i.slot)) t
    tick 1 (t.modCrew i.core (fun c => c.modSquad (squadOf i.slot) (fun q => { q with lastSlot := gangRank i.slot })))

/-- A fetch from an absent page holds the group (R333). -/
def holdFetch (i : Issue) (w : Agent) (page : Addr) (migrating : Bool) (s : State) : State :=
  (s.postFault w.ctx w.launch w.core .fetch page migrating).modGang i.core i.slot (fun g =>
    (g.dropYield i.mask).modLanes i.mask (fun _ f =>
      { f with hold := some (.page w.ctx [page]), since := s.clock.toNat, readyFrom := none }))

/-- A fetch that meets malformed tables stops its gang (R331). -/
def breakFetch (i : Issue) (w : Agent) (va : Addr) (s : State) : State :=
  (structureFault w.ctx va s).modGang i.core i.slot (fun g => { g with stopped := true })

/-- Issue what was fetched. -/
def runFetched (i : Issue) (w : Agent) (f : Fetched) (s : State) : Host.Outcome State Fault Refusal :=
  match f with
  | .unit u => exec u (s.fillTlb w.core w.ctx w.priv .fetch i.pc)
  | .illegal d => exec (.illegalInstruction d) s
  | .fault => exec .fetchAddressFault s
  | .absent page m => .next (holdFetch i w page m s)
  | .broken va => .next (breakFetch i w va s)

/-- It is a gang's turn in its squad (R362). -/
def itsTurn (s : State) (core slot : Nat) : Bool :=
  match s.crewAt core with | some c => pickSlot s core (squadOf slot) c == some slot | none => false

/-- A gang whose turn it is issues the unit of one of its ready groups. -/
def issueGang (core slot : Nat) (s : State) : Host.Outcome State Fault Refusal :=
  if !itsTurn s core slot then .next s
  else
    match pickGroup s core slot with
    | none => .next s
    | some i =>
      match fetchFor s i with
      | none => .next s
      | some (w, f) => onNext (passTurn i s) (runFetched i w f (setIssue i s))

/-- Carry out a mover. A unit is no event: it issues only from its code. -/
def runMover (m : Mover) (s : State) : Host.Outcome State Fault Refusal :=
  match m with
  | .issue core slot => issueGang core slot s
  | .event e => if e.pfx?.isSome then .next s else onNext (traffic s none) (exec e s)
  | .wait n => .next (tick n s)

/-! ## The choice where the agenda is empty (log 5) -/

/-- Events of one running crew that might be due. -/
def crewEvents (core : Nat) (c : Crew) : List Instr :=
  [.copyStart core, .streamIterationPoint core, .mldbComplete core, .mmaComplete core none false,
   .mmaCStepStart (core / 8), .mscaComplete core false, .mzeroComplete core, .mreadComplete core false, .mwriteComplete core,
   .mstatComplete core, .forkStart core, .worldEnd core, .worldCommit core, .crewSave core, .crewEnd core,
   .preemptionOverdue core, .roleDwellExpiry core, .taskGangStart core] ++
  (List.range c.copies.length).flatMap (fun k => [Instr.copyLineLand core k, .copyEnd core k]) ++
  (c.squads.mapIdx (fun q s => Instr.spawnedGangStart core q :: .compactorMerge core q ::
    s.bins.map (fun b => Instr.spawnBinTimeout core q b.key))).flatten ++
  c.gangs.flatMap (fun g => Instr.fenceComplete core g.1 :: .doldrumsReport core g.1 ::
    (g.2.hostReads.map (fun r => Instr.hostReadCompletion core g.1 r.tag false) ++
     ((List.range 64).filter (fun l => (g.2.fibre l).live)).flatMap (fun l =>
      match (g.2.fibre l).hold with
      | some (.sleep _) => [Instr.sleepExpiry core g.1 l]
      | some (.yielded _ _) => [Instr.yieldTimeout core g.1 l]
      | _ => if (g.2.fibre l).aged || (g.2.fibre l).readyFrom.isNone then [] else [Instr.groupAged core g.1 (g.2.fibre l).pc])))

/-- Events of one launch that might be due. -/
def launchEvents (s : State) (l : Launch) : List Instr :=
  [.launchEnd l.num, .superstepComplete l.num, .calmSweep l.num] ++
    (((s.crewsOf l.num).map (·.view)).eraseDups.map (fun v => Instr.roundClose l.num v))

/-- Events that might be due. -/
def events (s : State) : List Instr :=
  [.powerOn true true, .managementSettingApply, .phaseClose, .closeCompletion, .sliceLoad, .sliceWrite, .sliceMissFill,
   .loadReply, .writeAck, .queuePacketArrival, .taskRecordArrival] ++
  (match s.mgmt.hot with | some d => [Instr.thermalStop d] | none => []) ++
  ((s.cores.filter (fun k => !k.2.ctl.isEmpty)).flatMap (fun k =>
    [Instr.leaseBreak k.1, .viewRetag k.1, .tlbShootdown k.1, .closeRequest k.1] ++
      (match k.2.ctl with | .calmSweep n :: _ => [Instr.calmSweep n] | _ => []))) ++
  s.crews.flatMap (fun e => crewEvents e.1 e.2) ++
  s.parked.flatMap (fun p => [Instr.parentResume p.id, .crewResume p.id]) ++
  (List.range 16).flatMap (fun q =>
    [Instr.launchRecordTake q, .dependencyCheck q, .launchPlacement q, .priorityPreemption q]) ++
  s.launches.flatMap (launchEvents s) ++
  s.views.keys.map Instr.viewBackgroundMerge

/-- The event changes the machine. -/
def changes (s : State) (e : Instr) : Bool :=
  match exec e s with | .next t => decide (t ≠ s) | _ => true

/-- Turn a list by n places. -/
def rotate {α : Type} (n : Nat) (l : List α) : List α := l.drop (n % l.length) ++ l.take (n % l.length)

/-- An event that is due. -/
def dueEvent (s : State) : Option Instr := (rotate s.turn (events s)).find? (changes s)

/-- A gang whose squad issues it now. -/
def dueGang (s : State) : Option (Nat × Nat) :=
  (rotate s.turn (s.crews.flatMap (fun e => (List.range 4).map (fun q => (e.1, e.2, q))))).findSome? (fun t =>
    (pickSlot s t.1 t.2.2 t.2.1).map (fun n => (t.1, n)))

/-- What the machine does next: events, units and the passing of cycles in turn. -/
def policy (s : State) : Mover :=
  let gang := (dueGang s).map (fun g => Mover.issue g.1 g.2)
  let event := (dueEvent s).map Mover.event
  match s.turn % 3 with
  | 0 => event.getD (gang.getD (.wait 1))
  | 1 => gang.getD (event.getD (.wait 1))
  | _ => .wait 1

/-- The next mover, and the state without it. -/
def nextMover (s : State) : Mover × State :=
  match s.agenda with
  | m :: ms => (m, { s with agenda := ms })
  | [] => (policy s, { s with turn := s.turn + 1 })

end Sys2Proof.Machine
end

