-- ==== Sys2Proof/Machine/Step.lean ====
section
/-! DEFINITION. The step, and a state whose next step fetches a given instruction. -/

namespace Sys2Proof.Machine

/-- One step: the head of the agenda, or what the policy chooses. -/
def step (s : State) : Host.Outcome State Fault Refusal :=
  runMover (nextMover s).1 (nextMover s).2

/-! ## Placing an instruction where the next step fetches it -/

/-- The window that maps addresses of context 0 to the same physical addresses. -/
def placedWindow : Ctx := { base := 1, lim := 0x8000000000, off := 0 }

/-- A launch as a host would post it: context 0, one crew, one gang of 64 fibres, W = 512, the heap window's context,
every feature accepted, privileged. -/
def placedLaunch : Launch :=
  { num := 1, queue := 0, features := Config.offered, cores := [0], heap := placedWindow
    rcd := { handler := 0x1000, wreg := 32, crews := 1, gangs := 1, scratch := 524288, spanw := 1, flags := 0x0011 } }

/-- A crew of that launch in core 0. -/
def placedCrew : Crew :=
  { launch := 1, index := 0, squads := List.replicate 4 {}, size := 524288
    barriers := List.replicate 32 { expc := 64 }, queues := List.replicate 8 {}
    gangs := [(0, { fibres := List.replicate 64 { live := true } })] }

/-- Where the next fetch of gang 0 of core 0 reads, once a launch runs there. -/
def fetchPlace (s : State) : Nat :=
  match s.gangAt 0 0 with
  | some g => windowPa placedWindow (g.fibre 0).pc.toNat
  | none => 0

/-- A machine in which a launch runs on core 0: the part has booted, the window of context 0 is on, and a gang of 64
fibres stands at its first unit. A machine that has such a gang already keeps it. -/
def withLaunch (s : State) : State :=
  match s.gangAt 0 0 with
  | some _ => s
  | none =>
    { s with
      device := { s.device with powered := true, bootst := 1 }
      ctxs := s.ctxs.put 0 placedWindow
      launches := placedLaunch :: s.launches.filter (fun l => l.num != 1)
      nextLaunch := max s.nextLaunch 2
      crews := s.crews.put 0 placedCrew }

/-- The state with an instruction's bytes where the next step fetches, in memory and in the launch's code, and with that
gang's issue as the next thing to do. -/
def State.withFetchWord (s : State) (nbits w : Nat) : State :=
  let s := withLaunch s
  let a := fetchPlace s
  let bs := spread a (bytesLE longestUnit (w % 2 ^ nbits))
  { s with
    mem := s.mem.sets 0 bs
    launches := s.launches.map (fun l => { l with code := l.code.sets 0 bs })
    agenda := [.issue 0 0] }

end Sys2Proof.Machine
end

