-- ==== Sys2Proof/Safety.lean ====
section
/-! DEFINITION. The terms in which statements speak of a run: a state in which a unit meets nothing that keeps it from
acting, what a unit that has issued leaves, and the invariant of memory. -/

namespace Sys2Proof.Machine

/-! ## When a unit acts -/

/-- A group issues the unit with prefix words x, in the context c, and none of the checks and waits that units share
(R46, R102, R163, R166, R201) turns it away. n says what the instruction demands. -/
structure Clear (x : Pfx) (n : Need) (s : State) (c : UnitCtx) : Prop where
  /-- The issuing group, its gang, crew and launch. -/
  ctx : unitCtx x s = some c
  /-- No deferred trap is pending (R166). -/
  calm : c.gang.pending = []
  /-- No fence of the gang is incomplete (R201). -/
  open_ : c.gang.fence = none
  /-- No register waits for an older mread, mstat, host load or remote push (R46). -/
  landed : c.gang.destWait = []
  /-- No register of the gang holds an error that no unit has found yet (R27). -/
  sound : c.gang.bad = []
  /-- No pre-emption stops the group at a SAFE prefix (R163). -/
  stays : x.safe = none ∨ c.crew.preempt = none
  /-- The launch's accepted features hold the class's (R103). -/
  feature : ∀ b, n.feature = some b → c.launch.features.getLsbD b = true
  /-- A world instruction runs in a launch with worlds enabled (R273). -/
  worlds : n.worlds = true → c.launch.rcd.flags.getLsbD 4 = true
  /-- DUAL needs its feature (R103). -/
  dual : x.dual = none ∨ c.launch.features.getLsbD 1 = true
  /-- A privileged instruction runs in a privileged launch (R104). -/
  priv : n.priv = true → c.priv = true
  /-- Every register named lies in the allocation, in every acting fibre (R18). -/
  regs : ∀ l ∈ c.lanes, ∀ r ∈ n.regs ++ seedRegs c n, inAllocation c.w (c.gang.fibre l).wbase r = true
  /-- A shadow that DUAL names exists (R293). -/
  shadow : c.lanes ≠ [] → (c.dual = .seed ∨ c.dual = .get) → c.dualK < c.t
  /-- A SAFE prefix's live set fits the allocation (R164). -/
  fits : ∀ v, x.safe = some v → ∀ l ∈ c.lanes, (c.gang.fibre l).wbase + v.toNat ≤ c.w
  /-- A gang-collective unit has all 64 fibres acting (R220). -/
  whole : n.collective = true → c.acts = BitVec.allOnes 64

/-- The outcome is a next state, and it is as p says. -/
def Gives (o : Host.Outcome State Fault Refusal) (p : State → Prop) : Prop := ∃ t, o = .next t ∧ p t

/-! ## What a unit leaves -/

/-- How two states of one squad may differ where a unit has used registers: the main file's blocks, SPILLCT and nothing
else (R22 to R25, R45). -/
def Squad.sameButFile (q r : Squad) : Prop := r = { q with free := r.free, spillct := r.spillct }

/-- A gang of the squad after another gang of it has used registers: some of its stored registers may have been spilled to
make room (R25). A slot without a gang has none then. -/
def sameButSpill : Option Gang → Option Gang → Prop
  | some g, some h => h = { g with stored := h.stored }
  | none, none => True
  | _, _ => False

/-- A fibre of another group after a unit of its gang has issued: a yield no longer waits for the lanes that have
advanced (R161); all else is as it was. -/
def Fibre.sameButYield (f g : Fibre) : Prop := g = f ∨ ∃ y n z m, f.hold = some (.yielded y n) ∧
  g = { f with hold := some (.yielded z m) }

/-- What one gang keeps and what it gets when its unit has issued and set nothing but fibres and registers: the fibres
that issue become what fib says. -/
structure GangIssued (c : UnitCtx) (now : Nat) (fib : Nat → Fibre) (g h : Gang) : Prop where
  rest : h = { g with fibres := h.fibres, regs := h.regs, buffer := h.buffer, stored := h.stored, lastIssue := now,
                      reported := false }
  fibres : h.fibres.length = g.fibres.length
  issuing : ∀ l, c.mask.getLsbD l = true → h.fibre l = fib l
  others : ∀ l, c.mask.getLsbD l = false → (g.fibre l).sameButYield (h.fibre l)

/-- A unit that has acted on fibres, registers and flags alone takes s to t: the issuing fibres become what fib says,
regs relates the gang's registers before and after, and fl and tfl are ORed into %flags and %tflags of its squad (R37).
Memory, scratchpads, special registers, layouts, accumulators, every other gang and every other core are as they were, but
for the places of the registers that the other gangs of the squad have in its main file (R25). -/
structure Issued (c : UnitCtx) (s t : State) (fib : Nat → Fibre) (regs : Gang → Gang → Prop) (fl tfl : Word) : Prop where
  machine : t = { s with crews := t.crews }
  cores : ∀ k, k ≠ c.core → t.crews.find k = s.crews.find k
  crew : ∃ r, t.crewAt c.core = some r ∧ r = { c.crew with gangs := r.gangs, squads := r.squads } ∧
    (∀ k, squadOf k ≠ c.squad → r.gangs.find k = c.crew.gangs.find k) ∧
    (∀ k, k ≠ c.slot → sameButSpill (c.crew.gangs.find k) (r.gangs.find k)) ∧
    (∀ i, i ≠ c.squad → r.squad i = c.crew.squad i) ∧
    Squad.sameButFile { c.crew.squad c.squad with
      flags := (c.crew.squad c.squad).flags ||| fl, tflags := (c.crew.squad c.squad).tflags ||| tfl } (r.squad c.squad) ∧
    ∃ h, r.gangs.find c.slot = some h ∧ GangIssued c s.clock.toNat fib c.gang h ∧ regs c.gang h

/-- Registers after a unit that moves no window: w gives what it writes, by plane, lane and register number. A register
of the window reads the value written to it, or what it read before; and storage that no write names is as it was. -/
structure RegsWritten (c : UnitCtx) (w : Nat → Nat → Nat → Option Word) (g h : Gang) : Prop where
  read : ∀ p l r, l < 64 → inAllocation c.w (g.fibre l).wbase r = true → h.reg p l r = (w p l r).getD (g.reg p l r)
  kept : ∀ key, (∀ p l r v, w p l r = some v → regKey p (physIndex (g.fibre l).wbase r) l ≠ key) →
    h.regs.get 0 key = g.regs.get 0 key

/-- No register is written. -/
def RegsKept (g h : Gang) : Prop := h.regs = g.regs

/-- A fibre that its unit releases at an address: no wait, no SAFE prefix and no age is left of the unit. -/
def Fibre.goesOn (f : Fibre) (s : State) (next : Addr) : Fibre :=
  { f with pc := next, hold := none, safe := none, arrived := false, aged := false, reported := false,
           since := s.clock.toNat, issued := s.clock.toNat, readyFrom := none }

/-- An issuing fibre that goes on at the next unit. -/
def UnitCtx.on (c : UnitCtx) (s : State) (l : Nat) : Fibre := (c.gang.fibre l).goesOn s c.nextPc

/-- It goes on with predicate p set to v of its lane where it acts; p0 stays true (R15). -/
def UnitCtx.onWith (c : UnitCtx) (s : State) (p : PReg) (v : Nat → Bool) (l : Nat) : Fibre :=
  if c.acts.getLsbD l then { c.on s l with pred := setPred (c.gang.fibre l).pred p.toNat (v l) } else c.on s l

/-- The register or pair d of the lanes of a mask gets v, plane by plane: the primal and every shadow. A destination g0
discards it (R17, R20). -/
def UnitCtx.putsIn (c : UnitCtx) (m : BitVec 64) (wide : Bool) (d : Reg) (v : Nat → Nat → Addr) (p l r : Nat) :
    Option Word :=
  if m.getLsbD l = true ∧ p ≤ c.t ∧ d ≠ 0 then
    if r = d.toNat then some ((v p l).extractLsb' 0 32)
    else if wide = true ∧ r = d.toNat + 1 then some ((v p l).extractLsb' 32 32)
    else none
  else none

/-- A result without tangents: every shadow becomes 0 (R115). -/
def primalOnly (v : Nat → Addr) (p l : Nat) : Addr := if p = 0 then v l else 0

/-- A single register's value. -/
def wordOnly (v : Nat → Word) (p l : Nat) : Addr := if p = 0 then (v l).setWidth 64 else 0

/-- A unit that writes register or pair d of the acting fibres, and flags. -/
def PutsWith (c : UnitCtx) (s : State) (wide : Bool) (d : Reg) (v : Nat → Nat → Addr) (fl tfl : Word) (t : State) : Prop :=
  Issued c s t (c.on s) (RegsWritten c (c.putsIn c.acts wide d v)) fl tfl

/-- A unit that writes register or pair d of the acting fibres, and nothing else. -/
def Puts (c : UnitCtx) (s : State) (wide : Bool) (d : Reg) (v : Nat → Nat → Addr) (t : State) : Prop :=
  PutsWith c s wide d v 0 0 t

/-- A unit that writes predicate p of the acting fibres, and flags. -/
def SetsWith (c : UnitCtx) (s : State) (p : PReg) (v : Nat → Bool) (fl : Word) (t : State) : Prop :=
  Issued c s t (c.onWith s p v) RegsKept fl 0

/-- A unit that writes predicate p of the acting fibres, and nothing else. -/
def SetsPred (c : UnitCtx) (s : State) (p : PReg) (v : Nat → Bool) (t : State) : Prop := SetsWith c s p v 0 t

/-- A unit that moves the issuing fibres and does nothing else. -/
def Moves (c : UnitCtx) (s : State) (fib : Nat → Fibre) (t : State) : Prop := Issued c s t fib RegsKept 0 0

/-- A precise trap is taken by the issuing group (R167, R168): t is the state in which its handler starts. -/
def Traps (c : UnitCtx) (s : State) (r : Trap) (t : State) : Prop := t = takeTrap c.core c.slot c.mask c.pc r s

/-! ## Where accesses go -/

/-- Every access of a unit passes the checks of R181 and R182, and lands. -/
def AllLand (c : UnitCtx) (s : State) (cls : Cls) (wordKind : Bool) (align : Nat) (rs : List Req) : Prop :=
  ∀ r ∈ rs, pathOk c.crew.depth cls wordKind r.addr = true ∧ (pathOf r.addr = 6 → c.priv = true) ∧
    r.addr.toNat % align = 0 ∧
    ∃ l, place s c.agent cls.kind (cls == .load || cls == .lld) r.addr r.size = .here l

/-! ## The invariant of memory -/

/-- Device memory and host memory are in canonical form. -/
def MemoryOk (s : State) : Prop := Memory.wf s.mem = true ∧ Memory.wf s.host = true

end Sys2Proof.Machine
end

