-- ==== Sys2Proof/Certificates/Slice0/Obligations.lean ====
section
/-! DEFINITION. The statements for the provers. Throughout, Clear says that a group issues a unit and nothing that units
share turns it away; Gives says that exec answers a next state, and what that state is; Issued, and Puts, SetsPred and
Moves built on it, say what the unit writes and that everything else of the machine is as it was. -/

open Sys2Proof Sys2Proof.Machine

/-! ## Integer units (R112 to R126) -/

/-- R118: v := x + y, x − y, x × y, the smaller and the larger of x and y, written by write_int (R112): modulo 2^N, and
for N < 32 extended by the type's signedness; every shadow of the destination becomes 0 (R115). -/
def Rules.IntegerArithmetic : Prop :=
  ∀ (x : Pfx) (d a b : Reg) (t : IType) (s : State) (c : UnitCtx),
    Clear x { regs := regsOf t.wide a ++ regsOf t.wide b ++ regsOf t.wide d } s c →
    (let gives (i : Instr) (f : Int → Int → Int) : Prop :=
      Gives (exec i s) (Puts c s t.wide d (primalOnly fun l => intOut t (f (c.int l t a) (c.int l t b))))
    gives (.add x d a b t) (fun u v => u + v) ∧
    gives (.sub x d a b t) (fun u v => u - v) ∧
    gives (.mul x d a b t) (fun u v => u * v) ∧
    gives (.min x d a b t) min ∧
    gives (.max x d a b t) max)

/-- R118: the upper N bits of the exact double-width product, and multiply-add with the old destination. -/
def Rules.IntegerMultiplyHighAndAdd : Prop :=
  ∀ (x : Pfx) (d a b : Reg) (t : IType) (s : State) (c : UnitCtx),
    Clear x { regs := regsOf t.wide a ++ regsOf t.wide b ++ regsOf t.wide d } s c →
    Gives (exec (.mulh x d a b t) s) (Puts c s t.wide d (primalOnly fun l =>
      intOut t (Int.fdiv (c.int l t a * c.int l t b) (2 ^ t.bits)))) ∧
    Gives (exec (.mad x d a b t) s) (Puts c s t.wide d (primalOnly fun l =>
      intOut t (c.int l t a * c.int l t b + c.int l t d)))

/-- R112, R115, R118: the integer sums, products, minima and maxima. -/
def Obligations.IntegerArithmetic : Prop :=
  Rules.IntegerArithmetic ∧ Rules.IntegerMultiplyHighAndAdd

/-- R120: the shifts by the unsigned count in register b: x × 2^c modulo 2^N, and floor(x / 2^c) of the unsigned and of
the signed value, whatever the count. -/
def Rules.Shifts : Prop :=
  ∀ (x : Pfx) (d a b : Reg) (s : State) (c : UnitCtx) (t : IType),
    (t = .n32 ∨ t = .n64 ∨ t = .i32 ∨ t = .i64) →
    Clear x { regs := regsOf t.wide a ++ [b.toNat] ++ regsOf t.wide d } s c →
    (let count (l : Nat) : Nat := (c.word l b).toNat
    (t.signed = false →
      Gives (exec (.shl x d a b t) s) (Puts c s t.wide d (primalOnly fun l =>
        intOut t (c.int l t a * 2 ^ count l))) ∧
      Gives (exec (.shr x d a b t) s) (Puts c s t.wide d (primalOnly fun l =>
        intOut t (Int.fdiv (c.int l t a) (2 ^ count l))))) ∧
    (t.signed = true →
      Gives (exec (.sar x d a b t) s) (Puts c s t.wide d (primalOnly fun l =>
        intOut t (Int.fdiv (c.int l t a) (2 ^ count l))))))

/-- R121: and, or, xor and a and not b, bit by bit, of registers or of pairs. -/
def Rules.Logic : Prop :=
  ∀ (x : Pfx) (d a b : Reg) (w : Bool) (s : State) (c : UnitCtx),
    Clear x { regs := regsOf w a ++ regsOf w b ++ regsOf w d } s c →
    ∀ i f, (i, f) ∈ [(Instr.and x d a b w, fun u v : Bool => u && v), (.or x d a b w, fun u v => u || v),
        (.xor x d a b w, fun u v => u != v), (.andn x d a b w, fun u v => u && !v)] →
      ∃ v : Nat → Addr, (∀ l k, k < widthOf w → (v l).getLsbD k = f ((c.val l w a).getLsbD k) ((c.val l w b).getLsbD k)) ∧
        Gives (exec i s) (Puts c s w d (primalOnly v))

/-- R120, R121: the shifts and the logical functions. -/
def Obligations.ShiftsAndLogic : Prop :=
  Rules.Shifts ∧ Rules.Logic

/-- R119: the single-operand functions; the counts go to a single register, and mov moves the shadows too (R115). -/
def Rules.SingleOperand : Prop :=
  ∀ (x : Pfx) (d a : Reg) (w : Bool) (s : State) (c : UnitCtx),
    Clear x { regs := regsOf w a ++ regsOf w d } s c →
    (let v (l : Nat) : BitVec (widthOf w) := (c.val l w a).setWidth (widthOf w)
    (∀ i f, (i, f) ∈ [(Instr.abs x d a w, fun u : BitVec (widthOf w) => if u.msb then -u else u),
          (.neg x d a w, fun u => -u), (.brev x d a w, fun u => u.reverse)] →
        Gives (exec i s) (Puts c s w d (primalOnly fun l => (f (v l)).setWidth 64))) ∧
    Gives (exec (.clz x d a w) s) (Puts c s false d (primalOnly fun l => (v l).clz.setWidth 64)) ∧
    Gives (exec (.popc x d a w) s) (Puts c s false d (primalOnly fun l =>
      BitVec.ofNat 64 ((List.range (widthOf w)).countP (v l).getLsbD))) ∧
    Gives (exec (.mov x d a w) s) (Puts c s w d fun p l => c.gang.regN w p l a.toNat))

/-- R123, R124: the field of w = min(len, 32 − pos) bits at pos, sign- or zero-extended; a field inserted; the byte
permute of the pool b:a by the selector in the old destination. -/
def Obligations.BitFieldsAndBytes : Prop :=
  ∀ (x : Pfx) (d a b : Reg) (s : State) (c : UnitCtx), Clear x { regs := [a.toNat, b.toNat, d.toNat] } s c →
    (let pos (l : Nat) : Nat := (c.word l b).toNat % 32
    let w (l : Nat) : Nat := min (min ((c.word l b).toNat / 256 % 64) 32) (32 - pos l)
    (∀ sg : Bool, ∃ v : Nat → Word, Gives (exec (.bfx x d a b sg) s) (Puts c s false d (wordOnly v)) ∧
      ∀ l k, k < 32 → (v l).getLsbD k =
        if k < w l then (c.word l a).getLsbD (pos l + k)
        else sg && decide (0 < w l) && (c.word l a).getLsbD (pos l + w l - 1)) ∧
    (∃ v : Nat → Word, Gives (exec (.bfi x d a b) s) (Puts c s false d (wordOnly v)) ∧
      ∀ l k, k < 32 → (v l).getLsbD k =
        if pos l ≤ k ∧ k < pos l + w l then (c.word l a).getLsbD (k - pos l) else (c.word l d).getLsbD k) ∧
    (∃ v : Nat → Word, Gives (exec (.prmt x d a b) s) (Puts c s false d (wordOnly v)) ∧
      ∀ l j, j < 4 →
        (let sel : Nat := (c.word l d).toNat / 2 ^ (4 * j) % 16
        let byte : Byte := ((c.word l b ++ c.word l a : Addr) >>> (8 * (sel % 8))).setWidth 8
        ((v l) >>> (8 * j)).setWidth 8 = if sel < 8 then byte else if byte.msb then 0xff#8 else 0x00#8)))

/-- R125 sel, R115: per lane the register of a where the predicate is true, else of b, with its shadows. -/
def Rules.Select : Prop :=
  ∀ (x : Pfx) (d a b : Reg) (p : PReg) (s : State) (c : UnitCtx), Clear x { regs := [a.toNat, b.toNat, d.toNat] } s c →
    Gives (exec (.sel x d a b p) s) (Puts c s false d fun k l =>
      if c.gang.predOf l p.toNat then c.gang.regN false k l a.toNat else c.gang.regN false k l b.toNat)

/-- R119, R125: the single-operand functions and sel. -/
def Obligations.SingleOperandAndSelect : Prop :=
  Rules.SingleOperand ∧ Rules.Select

/-- R122: the I-form majors compute the 32-bit operation with the immediate of R80 or R85 in place of b. -/
def Rules.Immediates : Prop :=
  ∀ (x : Pfx) (d a : Reg) (i : BitVec 11) (s : State) (c : UnitCtx), Clear x { regs := [a.toNat, d.toNat] } s c →
    ∀ ins f, (ins, f) ∈ [(Instr.addi x d a i, fun u v : Word => u + v), (.muli x d a i, fun u v => u * v),
        (.shli x d a i, fun u v => BitVec.ofNat 32 (u.toNat * 2 ^ v.toNat)), (.shri x d a i, fun u v => u >>> v.toNat),
        (.sari x d a i, fun u v => BitVec.ofInt 32 (Int.fdiv u.toInt (2 ^ v.toNat))),
        (.andi x d a i, fun u v => u &&& v), (.ori x d a i, fun u v => u ||| v), (.xori x d a i, fun u v => u ^^^ v),
        (.andni x d a i, fun u v => u &&& ~~~v)] →
      Gives (exec ins s) (Puts c s false d (wordOnly fun l => f (c.word l a) (imm32 x i)))

/-- R125: movi, lui and lea; lea adds its sign-extended immediate to a pair modulo 2^64 and checks no address. -/
def Rules.MovesOfImmediates : Prop :=
  ∀ (x : Pfx) (d a : Reg) (i : BitVec 11) (j : BitVec 18) (s : State) (c : UnitCtx),
    (Clear x { regs := [d.toNat] } s c →
      Gives (exec (.movi x d i) s) (Puts c s false d (wordOnly fun _ => imm32 x i)) ∧
      Gives (exec (.lui x d j) s) (Puts c s false d (wordOnly fun _ => BitVec.ofNat 32 (j.toNat * 2 ^ 14)))) ∧
    (Clear x { regs := regsOf true a ++ regsOf true d } s c →
      Gives (exec (.lea x d a i) s) (Puts c s true d (primalOnly fun l =>
        c.pair l a + (match x.ext with | none => i.signExtend 64 | some e => (e ++ i).signExtend 64))))

/-- R122, R125: the forms with an immediate. -/
def Obligations.ImmediateForms : Prop :=
  Rules.Immediates ∧ Rules.MovesOfImmediates

/-! ## Predicates, comparisons and lanes (R84, R126 to R129, R150) -/

/-- R126: the condition of R84 on x and y goes to the predicate in each acting lane; a destination p0 has no effect. -/
def Rules.Comparisons : Prop :=
  ∀ (x : Pfx) (cd : ICond) (p : PReg) (a b : Reg) (t : IType) (i : BitVec 11) (s : State) (c : UnitCtx),
    (let holds (u v : Int) : Bool :=
      match cd with
      | .eq => decide (u = v) | .ne => decide (u ≠ v) | .lt => decide (u < v)
      | .le => decide (u ≤ v) | .gt => decide (v < u) | .ge => decide (v ≤ u)
    (Clear x { regs := regsOf t.wide a ++ regsOf t.wide b } s c →
      Gives (exec (.cmp x cd p a b t) s) (SetsPred c s p fun l => holds (c.int l t a) (c.int l t b))) ∧
    (Clear x { regs := [a.toNat] } s c →
      Gives (exec (.cmpiI32 x cd p a i) s) (SetsPred c s p fun l => holds (c.word l a).toInt (imm32 x i).toInt) ∧
      Gives (exec (.cmpiN32 x cd p a i) s) (SetsPred c s p fun l => holds (c.word l a).toNat (imm32 x i).toNat)))

/-- R150: the predicate instructions, each source negated where its bit says so. -/
def Rules.PredicateLogic : Prop :=
  ∀ (x : Pfx) (d p q : PReg) (n m : Bool) (a : Reg) (s : State) (c : UnitCtx),
    (let u (l : Nat) : Bool := if n then !c.gang.predOf l p.toNat else c.gang.predOf l p.toNat
    let v (l : Nat) : Bool := if m then !c.gang.predOf l q.toNat else c.gang.predOf l q.toNat
    (Clear x {} s c →
      Gives (exec (.pand x d n p m q) s) (SetsPred c s d fun l => u l && v l) ∧
      Gives (exec (.por x d n p m q) s) (SetsPred c s d fun l => u l || v l) ∧
      Gives (exec (.pxor x d n p m q) s) (SetsPred c s d fun l => xor (u l) (v l)) ∧
      Gives (exec (.pnot x d n p) s) (SetsPred c s d fun l => !u l)) ∧
    (Clear x { regs := [a.toNat] } s c →
      Gives (exec (.pset x d a) s) (SetsPred c s d fun l => decide (c.word l a ≠ 0))))

/-- R129: ballot and the votes over the acting lanes' sources, negated where n is set. -/
def Rules.BallotAndVotes : Prop :=
  ∀ (x : Pfx) (d : Reg) (p q : PReg) (n : Bool) (s : State) (c : UnitCtx),
    (let src (l : Nat) : Bool := if n then !c.gang.predOf l q.toNat else c.gang.predOf l q.toNat
    (Clear x { regs := regsOf true d } s c →
      ∃ m : Addr, (∀ l, m.getLsbD l = (c.acts.getLsbD l && src l)) ∧
        Gives (exec (.ballot x d q n) s) (Puts c s true d (primalOnly fun _ => m))) ∧
    (Clear x {} s c →
      Gives (exec (.voteAny x p q n) s) (SetsPred c s p fun _ => c.lanes.any src) ∧
      Gives (exec (.voteAll x p q n) s) (SetsPred c s p fun _ => c.lanes.all src) ∧
      Gives (exec (.voteUni x p q n) s) (SetsPred c s p fun _ =>
        c.lanes.all fun l => c.lanes.all fun k => src l == src k)))

/-- R126, R129, R150: every unit that writes or gathers predicates. -/
def Obligations.PredicatesAndVotes : Prop :=
  Rules.Comparisons ∧ Rules.PredicateLogic ∧ Rules.BallotAndVotes

/-- R127, R128: shfl reads register a, and its shadows, of the lane that the mode and n select, acting or not, through
that lane's own window; outside the allocation it reads 0. -/
def Obligations.Shuffles : Prop :=
  ∀ (x : Pfx) (d a r : Reg) (m : ShflMode) (i : BitVec 6) (s : State) (c : UnitCtx),
    (let source (l n : Nat) : Nat :=
      match m with
      | .idx => n % 64
      | .up => if (l : Int) - n < 0 then l else l - n
      | .down => if l + n > 63 then l else l + n
      | .xor => Nat.xor l (n % 64)
    let read (n : Nat → Nat) (p l : Nat) : Addr :=
      let k := source l (n l)
      if inAllocation c.w (c.gang.fibre k).wbase a.toNat then (c.gang.reg p k a.toNat).setWidth 64 else 0
    (Clear x { regs := [a.toNat, d.toNat] } s c →
      Gives (exec (.shfl x d a m i) s) (Puts c s false d (read fun _ => i.toNat))) ∧
    (Clear x { regs := [a.toNat, r.toNat, d.toNat] } s c →
      Gives (exec (.shflReg x d a m r) s) (Puts c s false d (read fun l => (c.word l r).toNat))))

/-! ## Floating point (R116, R117, R130 to R141, R293) -/

/-- R293: what a floating-point unit with DUAL's mode gives plane by plane, from its primal y and its tangent rule. -/
def dualValue (c : UnitCtx) (wide : Bool) (y : Nat → Addr) (tan : Nat → Nat → Addr) (p l : Nat) : Addr :=
  match c.dual, p with
  | .get, 0 => tan c.dualK l
  | _, 0 => y l
  | .implicit, k + 1 => tan k l
  | .seed, k + 1 => if k = c.dualK then c.gang.regN wide 0 l c.dualReg else tan k l
  | _, _ => 0

/-- R296: the flags of the tangents that DUAL's mode computes. -/
def dualTflags (c : UnitCtx) (tan : Nat → Nat → Word) (l : Nat) : Word :=
  match c.dual with
  | .implicit => (List.range c.t).foldl (fun f k => f ||| tan k l) 0
  | .seed => (List.range c.t).foldl (fun f k => f ||| (if k = c.dualK then 0 else tan k l)) 0
  | .get => tan c.dualK l
  | .zero | .none => 0

/-- The flags of all acting lanes together (R37). -/
def overLanes (c : UnitCtx) (f : Nat → Word) : Word := c.lanes.foldl (fun a l => a ||| f l) 0

/-- A floating-point unit with primal y and tangents tan, each with its flags, completes where no acting lane raises an
enabled flag (R67): it writes the destination as DUAL's mode says and ORs every flag (R37). -/
def FloatGives (c : UnitCtx) (s : State) (i : Instr) (wide : Bool) (d : Reg) (y : Nat → Addr × Word)
    (tan : Nat → Nat → Addr × Word) : Prop :=
  (∀ l ∈ c.lanes, (y l).2 &&& c.enables = 0) →
    Gives (exec i s) (PutsWith c s wide d (dualValue c wide (fun l => (y l).1) (fun k l => (tan k l).1))
      (overLanes c fun l => (y l).2) (overLanes c (dualTflags c fun k l => (tan k l).2)))

/-- R116, R117, R130 to R133: each element of fadd, fsub, fmul, ffma, fdiv, fmin, fmax, fneg, fabs, fsqrt, frcp, frsq and
fscale, with its tangents, by the rules Machine/Fp.lean gives each of them for one element. -/
def Obligations.FloatArithmetic : Prop :=
  ∀ (x : Pfx) (d a b : Reg) (t : FType) (s : State) (c : UnitCtx),
    Clear x { regs := regsOf t.wide a ++ regsOf t.wide b ++ regsOf t.wide d ++ [b.toNat], seed := if t.wide then 2 else 1 }
      s c →
    (let src (p l : Nat) (n : Reg) (e : Nat) : Nat := elt t (c.gang.regN t.wide p l n.toNat) e
    let y (f : FpOp) (b : Reg) (l : Nat) : Addr × Word :=
      packed t fun e => f.primal c.mode (eltFmt t) (src 0 l a e) (src 0 l b e) (src 0 l d e)
    let tan (f : FpOp) (b : Reg) (k l : Nat) : Addr × Word :=
      packed t fun e => f.tangent c.mode (eltFmt t) (src 0 l a e) (src 0 l b e) (elt t (y f b l).1 e)
        (src (k + 1) l a e) (src (k + 1) l b e) (src (k + 1) l d e)
    (∀ i f, (i, f) ∈ [(Instr.fadd x d a b t, fpAdd), (.fsub x d a b t, fpSub), (.fmul x d a b t, fpMul),
        (.ffma x d a b t, fpFma), (.fdiv x d a b t, fpDiv), (.fmin x d a b t, fpPick false),
        (.fmax x d a b t, fpPick true)] →
      FloatGives c s i t.wide d (y f b) (tan f b)) ∧
    (∀ i f, (i, f) ∈ [(Instr.fneg x d a t, fpNeg), (.fabs x d a t, fpAbs), (.fsqrt x d a t, fpSqrt),
        (.frcp x d a t, fpRcp), (.frsq x d a t, fpRsq)] →
      FloatGives c s i t.wide d (y f a) (tan f a)) ∧
    FloatGives c s (.fscale x d a b t) t.wide d (fun l => y (fpScale (c.word l b).toInt) a l)
      (fun k l => tan (fpScale (c.word l b).toInt) a k l))

/-- R134 to R136: fdot2 rounds the sum of two products and the old destination once to fp32; fclass writes the class
masks and no flag; fcmp writes the condition's value and raises IV as the condition says. -/
def Rules.FloatDotClassCompare : Prop :=
  ∀ (x : Pfx) (d a b : Reg) (t : FType) (p : PReg) (cd : FCond) (s : State) (c : UnitCtx),
    (let e (q l : Nat) (n : Reg) (k : Nat) : Ex := ex (eltFmt t) (elt t (c.gang.regN false q l n.toNat) k)
    let addend (q l : Nat) : Ex := ex .f32 (c.gang.reg q l d.toNat).toNat
    let image (r : Nat × Word) : Addr × Word := (BitVec.ofNat 64 r.1, r.2)
    (t = .f16x2 ∨ t = .bf16x2 → Clear x { regs := [a.toNat, b.toNat, d.toNat] } s c →
      FloatGives c s (.fdot2 x d a b t) false d
        (fun l => image (dotRound c.mode [Ex.mul (e 0 l a 0) (e 0 l b 0), Ex.mul (e 0 l a 1) (e 0 l b 1), addend 0 l]))
        (fun k l => image (dotRound c.mode [Ex.mul (e (k + 1) l a 0) (e 0 l b 0), Ex.mul (e 0 l a 0) (e (k + 1) l b 0),
          Ex.mul (e (k + 1) l a 1) (e 0 l b 1), Ex.mul (e 0 l a 1) (e (k + 1) l b 1), addend (k + 1) l]))) ∧
    (Clear x { regs := regsOf t.wide a ++ [d.toNat] } s c →
      Gives (exec (.fclass x d a t) s) (Puts c s false d (primalOnly fun l => BitVec.ofNat 64
        ((List.range (eltCount t)).foldl (fun m k =>
          m + classMask (eltFmt t) (elt t (c.val l t.wide a) k) * 2 ^ (16 * k)) 0)))) ∧
    (Clear x { regs := regsOf t.wide a ++ regsOf t.wide b } s c →
      (let r (l : Nat) : Bool × Word := fpCond cd (decodeFp (eltFmt t) (elt t (c.val l t.wide a) 0))
        (decodeFp (eltFmt t) (elt t (c.val l t.wide b) 0))
      (∀ l ∈ c.lanes, (r l).2 &&& c.enables = 0) →
        Gives (exec (.fcmp x cd p a b t) s) (SetsWith c s p (fun l => (r l).1) (overLanes c fun l => (r l).2)))))

/-- R137: the transcendentals, each rounded once, with their tangents. -/
def Rules.Transcendentals : Prop :=
  ∀ (x : Pfx) (d a : Reg) (s : State) (c : UnitCtx), Clear x { regs := [a.toNat, d.toNat] } s c →
    ∀ i f, (i, f) ∈ [(Instr.fexp2 x d a, Trans.exp2), (.flog2 x d a, .log2), (.fsin x d a, .sin), (.fcos x d a, .cos),
        (.ftanh x d a, .tanh)] →
      (let arg (p l : Nat) : Nat := (c.gang.reg p l a.toNat).toNat
      let image (r : Nat × Word) : Addr × Word := (BitVec.ofNat 64 r.1, r.2)
      FloatGives c s i false d (fun l => image (transPrimal f c.mode (decodeFp .f32 (arg 0 l))))
        (fun k l => image (transTangent f c.mode (decodeFp .f32 (arg 0 l)) (decodeFp .f32 (arg (k + 1) l)))))

/-- R134 to R137: fdot2, fclass, fcmp and the transcendentals. -/
def Obligations.DotClassCompareAndTranscendentals : Prop :=
  Rules.FloatDotClassCompare ∧ Rules.Transcendentals

/-- R138, R139: a conversion under its mode, and one with stochastic rounding under the draw of R66. -/
def Rules.Conversions : Prop :=
  ∀ (x : Pfx) (d a b : Reg) (m : CvtMode) (src dst : CFmt) (s : State) (c : UnitCtx),
    (let tan (mode : RMode) (draw : Nat → Nat) (from_ : CFmt) (k l : Nat) : Addr × Word :=
      if convertsTangents from_ dst then convert mode (draw l) from_ dst (c.gang.regN from_.wide (k + 1) l a.toNat)
      else (0, 0)
    (Clear x { regs := regsOf src.wide a ++ regsOf dst.wide d, seed := if dst.wide then 2 else 1 } s c →
      FloatGives c s (.cvt x d a m src dst) dst.wide d
        (fun l => convert (cvtMode c m) 0 src dst (c.val l src.wide a)) (tan (cvtMode c m) (fun _ => 0) src)) ∧
    (dst = .f16 ∨ dst = .bf16 ∨ dst = .fp19 → Clear x { regs := [a.toNat, b.toNat, d.toNat] } s c →
      FloatGives c s (.cvtSr x d a b dst) false d
        (fun l => convert .sr (cvtDraw c l b 0) .f32 dst (c.val l false a)) (tan .sr (fun l => cvtDraw c l b 0) .f32)))

/-- R140: a pack puts its elements side by side, element j converted on its own under one mode, with its own draw where
rounding is stochastic; shadow k is packed from the shadows k. A group at g0 reads as zero (R20). -/
def Rules.Packs : Prop :=
  ∀ (x : Pfx) (d a b : Reg) (m : CvtMode) (f : PFmt) (s : State) (c : UnitCtx),
    Clear x { regs := groupOf f.count a ++ [b.toNat] ++ [d.toNat] } s c →
    ∀ i mode draw, (i, mode, draw) ∈ [(Instr.cvtPack x d a m f, cvtMode c m, fun _ _ => 0),
        (.cvtPackSr x d a b f, RMode.sr, fun l j => cvtDraw c l b j)] →
      (let y (p l : Nat) : Word × Word := packWord f mode (draw l) fun j => if a = 0 then 0 else c.gang.reg p l (a.toNat + j)
      (∀ l ∈ c.lanes, (y 0 l).2 &&& c.enables = 0) →
        Gives (exec i s) (PutsWith c s false d (fun p l => ((y p l).1).setWidth 64) (overLanes c fun l => (y 0 l).2)
          (overLanes c fun l => (List.range c.t).foldl (fun g k => g ||| (y (k + 1) l).2) 0)))

/-- R141: an unpack writes element j of the register, and of each shadow, exactly to register d + j; a group at g0 is not written (R20). -/
def Rules.Unpack : Prop :=
  ∀ (x : Pfx) (d a : Reg) (f : PFmt) (s : State) (c : UnitCtx),
    Clear x { regs := [a.toNat] ++ groupOf f.count d } s c →
    (let y (p l j : Nat) : Nat × Word := unpackElt f (c.gang.reg p l a.toNat) j
    let flags (p l : Nat) : Word := (List.range f.count).foldl (fun g j => g ||| (y p l j).2) 0
    (∀ l ∈ c.lanes, flags 0 l &&& c.enables = 0) →
      Gives (exec (.cvtUnpack x d a f) s) fun t =>
        Issued c s t (c.on s) (RegsWritten c fun p l r =>
          if c.acts.getLsbD l = true ∧ p ≤ c.t ∧ d ≠ 0 ∧ d.toNat ≤ r ∧ r < d.toNat + f.count then
            some (BitVec.ofNat 32 (y p l (r - d.toNat)).1)
          else none)
          (overLanes c (flags 0)) (overLanes c fun l => (List.range c.t).foldl (fun g k => g ||| flags (k + 1) l) 0))

/-- R138 to R141: conversions, packs and unpacks. -/
def Obligations.ConversionsAndPacks : Prop :=
  Rules.Conversions ∧ Rules.Packs ∧ Rules.Unpack

/-- A unit whose lanes raise the flags fl traps where some acting lane raises an enabled one: cause 0x0C in the lowest
such lane, DETAIL every flag raised in any lane, all of them ORed into %flags, and nothing else of it written. -/
def FloatTraps (c : UnitCtx) (s : State) (i : Instr) (fl : Nat → Word) : Prop :=
  ∀ l ∈ c.lanes, fl l &&& c.enables ≠ 0 → (∀ k ∈ c.lanes, k < l → fl k &&& c.enables = 0) →
    Gives (exec i s) (Traps c (s.raiseFlags c.core c.squad (overLanes c fl) 0)
      { cause := 0x0c, detail := (overLanes c fl).setWidth 8, lane := l })

/-- R67, R114, R116: the arithmetic units of one and of two operands, and fscale, trap on the flags of their primals. -/
def Rules.ArithmeticTraps : Prop :=
  ∀ (x : Pfx) (d a b : Reg) (t : FType) (s : State) (c : UnitCtx),
    Clear x { regs := regsOf t.wide a ++ regsOf t.wide b ++ regsOf t.wide d ++ [b.toNat], seed := if t.wide then 2 else 1 }
      s c →
    (let fl (f : FpOp) (b : Reg) (l : Nat) : Word := (packed t fun e => f.primal c.mode (eltFmt t)
      (elt t (c.val l t.wide a) e) (elt t (c.val l t.wide b) e) (elt t (c.val l t.wide d) e)).2
    (∀ i f, (i, f) ∈ [(Instr.fadd x d a b t, fpAdd), (.fsub x d a b t, fpSub), (.fmul x d a b t, fpMul),
        (.ffma x d a b t, fpFma), (.fdiv x d a b t, fpDiv), (.fmin x d a b t, fpPick false),
        (.fmax x d a b t, fpPick true)] → FloatTraps c s i (fl f b)) ∧
    (∀ i f, (i, f) ∈ [(Instr.fneg x d a t, fpNeg), (.fabs x d a t, fpAbs), (.fsqrt x d a t, fpSqrt),
        (.frcp x d a t, fpRcp), (.frsq x d a t, fpRsq)] → FloatTraps c s i (fl f a)) ∧
    FloatTraps c s (.fscale x d a b t) fun l => fl (fpScale (c.word l b).toInt) a l)

/-- R67, R134, R136, R137: fdot2, fcmp and the transcendentals trap likewise. -/
def Rules.DotCompareTranscendentalTraps : Prop :=
  ∀ (x : Pfx) (d a b : Reg) (t : FType) (p : PReg) (cd : FCond) (s : State) (c : UnitCtx),
    (let e (l : Nat) (n : Reg) (k : Nat) : Ex := ex (eltFmt t) (elt t (c.gang.regN false 0 l n.toNat) k)
    (t = .f16x2 ∨ t = .bf16x2 → Clear x { regs := [a.toNat, b.toNat, d.toNat] } s c →
      FloatTraps c s (.fdot2 x d a b t) fun l => (dotRound c.mode [Ex.mul (e l a 0) (e l b 0), Ex.mul (e l a 1) (e l b 1),
        ex .f32 (c.gang.reg 0 l d.toNat).toNat]).2) ∧
    (Clear x { regs := regsOf t.wide a ++ regsOf t.wide b } s c →
      FloatTraps c s (.fcmp x cd p a b t) fun l => (fpCond cd (decodeFp (eltFmt t) (elt t (c.val l t.wide a) 0))
        (decodeFp (eltFmt t) (elt t (c.val l t.wide b) 0))).2) ∧
    (Clear x { regs := [a.toNat, d.toNat] } s c →
      ∀ i f, (i, f) ∈ [(Instr.fexp2 x d a, Trans.exp2), (.flog2 x d a, .log2), (.fsin x d a, .sin), (.fcos x d a, .cos),
          (.ftanh x d a, .tanh)] →
        FloatTraps c s i fun l => (transPrimal f c.mode (decodeFp .f32 (c.gang.reg 0 l a.toNat).toNat)).2))

/-- R67, R138 to R141: conversions, packs and unpacks trap likewise. -/
def Rules.ConversionTraps : Prop :=
  ∀ (x : Pfx) (d a b : Reg) (m : CvtMode) (src dst : CFmt) (f : PFmt) (s : State) (c : UnitCtx),
    (Clear x { regs := regsOf src.wide a ++ regsOf dst.wide d, seed := if dst.wide then 2 else 1 } s c →
      FloatTraps c s (.cvt x d a m src dst) fun l => (convert (cvtMode c m) 0 src dst (c.val l src.wide a)).2) ∧
    (dst = .f16 ∨ dst = .bf16 ∨ dst = .fp19 → Clear x { regs := [a.toNat, b.toNat, d.toNat] } s c →
      FloatTraps c s (.cvtSr x d a b dst) fun l => (convert .sr (cvtDraw c l b 0) .f32 dst (c.val l false a)).2) ∧
    (Clear x { regs := groupOf f.count a ++ [b.toNat] ++ [d.toNat] } s c →
      ∀ i mode draw, (i, mode, draw) ∈ [(Instr.cvtPack x d a m f, cvtMode c m, fun _ _ => 0),
          (.cvtPackSr x d a b f, RMode.sr, fun l j => cvtDraw c l b j)] →
        FloatTraps c s i fun l =>
          (packWord f mode (draw l) fun j => if a = 0 then 0 else c.gang.reg 0 l (a.toNat + j)).2) ∧
    (Clear x { regs := [a.toNat] ++ groupOf f.count d } s c →
      FloatTraps c s (.cvtUnpack x d a f) fun l =>
        (List.range f.count).foldl (fun g j => g ||| (unpackElt f (c.gang.reg 0 l a.toNat) j).2) 0)

/-- R67, R114, R116, R134 to R141: where some acting lane raises an enabled flag, every floating-point unit that raises
flags writes nothing and traps with cause 0x0C. -/
def Obligations.EnabledFloatTrap : Prop :=
  Rules.ArithmeticTraps ∧ Rules.DotCompareTranscendentalTraps ∧ Rules.ConversionTraps

/-! ## Completion of a unit (R12, R102, R161, R165, R201) -/

/-- A unit that has completed, whatever it performed in u: every issuing fibre that the unit left in no new wait goes on
at the next unit; yields of its gang no longer wait for it (R161); the operand buffer, the compressed store and SPILLCT
account for its registers (R22 to R25, R45), where room is made by spilling registers that the other gangs of the squad
have in its main file (R25); an error latent in a register that it wrote in every lane is gone (R22); nothing else of u
changes. -/
def Obligations.CompletedUnitReleasesItsGroup : Prop :=
  ∀ (c : UnitCtx) (n : Need) (u : State) (r : Crew) (g : Gang),
    u.crewAt c.core = some r → r.gangs.find c.slot = some g → g.fence = none →
    (let t := finish c n u
    t = { u with crews := t.crews } ∧ (∀ k, k ≠ c.core → t.crews.find k = u.crews.find k) ∧
    ∃ q h, t.crewAt c.core = some q ∧ q = { r with gangs := q.gangs, squads := q.squads } ∧
      (∀ k, squadOf k ≠ c.squad → q.gangs.find k = r.gangs.find k) ∧
      (∀ k, k ≠ c.slot → sameButSpill (r.gangs.find k) (q.gangs.find k)) ∧ (∀ i, i ≠ c.squad → q.squad i = r.squad i) ∧
      (r.squad c.squad).sameButFile (q.squad c.squad) ∧ q.gangs.find c.slot = some h ∧
      h = { g with fibres := h.fibres, buffer := h.buffer, stored := h.stored, lastIssue := u.clock.toNat, reported := false,
                   bad := g.bad.filter fun b => !(overwritten c n).contains b.key } ∧
      (∀ l, c.mask.getLsbD l = true → l < g.fibres.length → (g.fibre l).hold = (c.gang.fibre l).hold →
        (g.fibre l).kept = (c.gang.fibre l).kept → h.fibre l = (g.fibre l).goesOn u c.nextPc) ∧
      (∀ l, c.mask.getLsbD l = false → (g.fibre l).sameButYield (h.fibre l)))

/-! ## Control flow (R142 to R162) -/

/-- R145, R146: bra and call move the fibres whose predicate, negated where n is set, is true to the address of the
instruction word plus four times the immediate, and the others to the next unit; call gives the taking fibres the link
pair. Where some fibre takes it and the target lies outside 0 .. 2^48 − 1 the unit traps with cause 0x05 instead. -/
def Rules.BranchesAndCalls : Prop :=
  ∀ (x : Pfx) (n : Bool) (p : PReg) (i : BitVec 20) (s : State) (c : UnitCtx), Clear x {} s c →
    ∀ m : BitVec 64, (∀ l, m.getLsbD l = (c.acts.getLsbD l &&
        (if n then !c.gang.predOf l p.toNat else c.gang.predOf l p.toNat))) →
    (let word : Addr := c.pc + BitVec.ofNat 64 (4 * (x.words - 1))
    let target : Int := (word.toNat : Int) + 4 * i.toInt
    let fib (l : Nat) : Fibre :=
      (c.gang.fibre l).goesOn s (if m.getLsbD l then BitVec.ofInt 64 target else c.nextPc)
    (m = 0 ∨ (0 ≤ target ∧ target < 2 ^ 48) →
      Gives (exec (.bra x n p i) s) (Moves c s fib) ∧
      Gives (exec (.call x n p i) s) (fun t =>
        Issued c s t fib (RegsWritten c (c.putsIn m true 14 (primalOnly fun _ => word + 4))) 0 0)) ∧
    (∀ l, m.getLsbD l = true → (∀ k, k < l → m.getLsbD k = false) → ¬(0 ≤ target ∧ target < 2 ^ 48) →
      Gives (exec (.bra x n p i) s) (Traps c s { cause := 5, lane := l, addr := BitVec.ofInt 64 target }) ∧
      Gives (exec (.call x n p i) s) (Traps c s { cause := 5, lane := l, addr := BitVec.ofInt 64 target })))

/-- R147, R148: brx takes each acting fibre to the address in its pair, ret to its link pair; an address with bits 63..48
not zero traps with cause 0x05, and else one that is no multiple of 4 with cause 0x04, in the lowest fibre that has one. -/
def Rules.IndirectJumps : Prop :=
  ∀ (x : Pfx) (a : Reg) (s : State) (c : UnitCtx), Clear x { regs := regsOf true a } s c →
    ∀ i, i = .brx x a ∨ (a = 14 ∧ i = .ret x) →
      ((∀ l ∈ c.lanes, (c.pair l a).toNat < 2 ^ 48 ∧ (c.pair l a).toNat % 4 = 0) →
        Gives (exec i s) (Moves c s fun l =>
          (c.gang.fibre l).goesOn s (if c.acts.getLsbD l then c.pair l a else c.nextPc))) ∧
      (∀ l ∈ c.lanes, 2 ^ 48 ≤ (c.pair l a).toNat → (∀ k ∈ c.lanes, k < l → (c.pair k a).toNat < 2 ^ 48) →
        Gives (exec i s) (Traps c s { cause := 5, lane := l, addr := c.pair l a })) ∧
      ((∀ l ∈ c.lanes, (c.pair l a).toNat < 2 ^ 48) →
        ∀ l ∈ c.lanes, (c.pair l a).toNat % 4 ≠ 0 → (∀ k ∈ c.lanes, k < l → (c.pair k a).toNat % 4 = 0) →
        Gives (exec i s) (Traps c s { cause := 4, lane := l, addr := c.pair l a }))

/-- R145 to R148: the units that set the PC. -/
def Obligations.Jumps : Prop :=
  Rules.BranchesAndCalls ∧ Rules.IndirectJumps

/-- R160, R153, R162, R161: nop and rpf only go on; sleep holds its group for the lowest acting fibre's number of cycles,
which 0 makes a nop; yield holds its group until the other ready groups of the gang have advanced, or goes on: a group
that stands at the unit it goes to is not another group, since the fibres meet there (R143). -/
def Rules.NopsSleepAndYield : Prop :=
  ∀ (x : Pfx) (d a b : Reg) (s : State) (c : UnitCtx),
    (Clear x {} s c → Gives (exec (.nop x) s) (Moves c s (c.on s))) ∧
    (Clear x { regs := [d.toNat, a.toNat, b.toNat] } s c → Gives (exec (.rpf x d a b) s) (Moves c s (c.on s))) ∧
    (Clear x { regs := [a.toNat] } s c →
      (let n : Nat := (c.word c.low a).toNat
      (c.acts = 0 ∨ n = 0 → Gives (exec (.sleep x a) s) (Moves c s (c.on s))) ∧
      (c.acts ≠ 0 → n ≠ 0 → (∀ l, c.mask.getLsbD l = true → (c.gang.fibre l).hold = none) →
        Gives (exec (.sleep x a) s) (Moves c s fun l =>
          { c.on s l with hold := some (.sleep (s.clock.toNat + n)), safe := x.safe,
                          arrived := (c.gang.fibre l).arrived })))) ∧
    (Clear x {} s c → ∀ i, s.issue = some i → ∀ others : BitVec 64,
      (∀ l, others.getLsbD l = (i.ready.getLsbD l && !c.mask.getLsbD l &&
        !((c.gang.fibre l).pc == c.nextPc && (c.gang.fibre l).wbase == (c.gang.fibre c.low).wbase))) →
      (c.acts = 0 ∨ others = 0 → Gives (exec (.yield x) s) (Moves c s (c.on s))) ∧
      (c.acts ≠ 0 → others ≠ 0 → (∀ l, c.mask.getLsbD l = true → (c.gang.fibre l).hold = none) →
        Gives (exec (.yield x) s) (Moves c s fun l =>
          { c.on s l with hold := some (.yielded others s.clock.toNat), arrived := (c.gang.fibre l).arrived })))

/-- R151: wbase adds 16 times its immediate and register a to the window base of each acting fibre; a step that is no
multiple of 16, or a base outside 0 .. W − 16, traps with cause 0x01 and moves none. -/
def Rules.WindowMoves : Prop :=
  ∀ (x : Pfx) (a : Reg) (i : BitVec 7) (s : State) (c : UnitCtx), Clear x { regs := [a.toNat] } s c →
    (let base (l : Nat) : Int := (c.gang.fibre l).wbase + (16 * i.toInt + (c.word l a).toInt)
    let fits (l : Nat) : Prop := (16 * i.toInt + (c.word l a).toInt) % 16 = 0 ∧ 0 ≤ base l ∧ base l ≤ (c.w : Int) - 16
    ((∀ l ∈ c.lanes, fits l) →
      Gives (exec (.wbase x a i) s) (Moves c s fun l =>
        if c.acts.getLsbD l then { c.on s l with wbase := (base l).toNat } else c.on s l)) ∧
    (∀ l ∈ c.lanes, ¬fits l → (∀ k ∈ c.lanes, k < l → fits k) →
      Gives (exec (.wbase x a i) s) (Traps c s { cause := 1, lane := l })))

/-- R151, R153, R160 to R162: nop, rpf, sleep, yield and wbase. -/
def Obligations.WaitsAndWindows : Prop :=
  Rules.NopsSleepAndYield ∧ Rules.WindowMoves

/-- R154, R155, R165: spawn puts one new fibre for each acting fibre into its squad's bins, in lane order, and goes on;
where a fibre finds no bin the group is held for a bin of its entry, the fibres already placed marked. -/
def Rules.SpawnUnits : Prop :=
  ∀ (x : Pfx) (a b : Reg) (s : State) (c : UnitCtx), Clear x { regs := regsOf true a ++ [b.toNat] } s c →
    (∀ l ∈ c.lanes, (c.pair l a).toNat < 2 ^ 48 ∧ (c.pair l a).toNat % 4 = 0) →
    (let r := placeSpawns s.clock.toNat (spawnTimeout c.launch) (fun l => c.pair l a) (fun l => c.word l b)
      (c.lanes.filter fun l => !(spawnPlaced c).getLsbD l) (c.crew.squad c.squad) (spawnPlaced c)
    let u : State := s.modCrew c.core fun k => k.setSquad c.squad r.1
    (r.2 = none → exec (.spawn x a b) s = .next (finish c { regs := regsOf true a ++ [b.toNat], stall := true } u)) ∧
    (∀ m, r.2 = some m → exec (.spawn x a b) s = .next (holdUnit c (.bins (c.pair m.2 a))
      (u.modGang c.core c.slot fun g => g.modLanes m.1 fun _ f => { f with arrived := true }))))

/-- R154, R155: one new fibre finds the bin of its entry, or opens one where fewer than 16 are open; the 64th fibre of a
bin closes it into a gang; and no bin is given up otherwise. -/
def Rules.SpawnBins : Prop :=
  ∀ (now timeout : Nat) (q : Squad) (e : Addr) (w : Word),
    ((∀ b ∈ q.bins, b.key ≠ e) → q.bins.length < 16 →
      placeSpawn now timeout q e w = some { q with bins := q.bins ++ [{ key := e, args := [w], due := now + timeout }] }) ∧
    ((∀ b ∈ q.bins, b.key ≠ e) → q.bins.length ≥ 16 → placeSpawn now timeout q e w = none) ∧
    (∀ b l r, q.bins = l ++ b :: r → b.key = e → (∀ o ∈ l ++ r, o.key ≠ e) →
      (b.args.length < 63 →
        placeSpawn now timeout q e w = some { q with bins := l ++ { b with args := b.args ++ [w] } :: r }) ∧
      (b.args.length = 63 →
        placeSpawn now timeout q e w = some { q with
          bins := l ++ r, formed := q.formed ++ [{ entry := e, args := b.args ++ [w] }] }))

/-- R154, R155: spawn and its bins. -/
def Obligations.Spawns : Prop :=
  Rules.SpawnUnits ∧ Rules.SpawnBins

/-- R157, R169: exit of some fibres ends them and lets the others go on; exit of the last ends the gang. texit does the
same in a task gang, whose end signals its SUCC counter (R269), and traps with cause 0x01 elsewhere. -/
def Obligations.Exits : Prop :=
  ∀ (x : Pfx) (s : State) (c : UnitCtx), Clear x {} s c → c.acts ≠ 0 →
    (let n : Need := { stall := true }
    let some_ : State := settle c n (s.modGang c.core c.slot fun g =>
      (g.modLanes c.mask fun l f =>
        if c.acts.getLsbD l then { f with live := false } else { f with pc := c.nextPc }).leaveHandler c.acts)
    ((∃ l, (c.gang.fibre l).live = true ∧ l < 64 ∧ c.acts.getLsbD l = false) →
      exec (.exit x) s = .next some_ ∧ (c.gang.task.isSome = true → exec (.texit x) s = .next some_)) ∧
    ((∀ l, l < 64 → (c.gang.fibre l).live = true → c.acts.getLsbD l = true) →
      (c.gang.task = none → exec (.exit x) s = .next (settle c n (endGang c.core c.slot s))) ∧
      (∀ k, c.gang.task = some k → k.succ = 0 →
        exec (.exit x) s = .next (settle c n (endGang c.core c.slot s)) ∧
        exec (.texit x) s = .next (settle c n (endGang c.core c.slot s))) ∧
      (∀ k u, c.gang.task = some k → k.succ ≠ 0 → s.signal c.agent c.view k.succ 0 0 = .done u →
        exec (.exit x) s = .next (settle c n (endGang c.core c.slot u)) ∧
        exec (.texit x) s = .next (settle c n (endGang c.core c.slot u)))) ∧
    (c.gang.task = none → Gives (exec (.texit x) s) (Traps c s { cause := 1, lane := c.low })))

/-! ## Traps (R166 to R172) -/

/-- R43, R168: taking a trap outside a handler, where the launch has one, records the cause, DETAIL, lane and PC, and the
address for causes 0x04, 0x05, 0x07 and 0x10; the issuing group becomes the handler group and starts at the handler with
its window bases saved. Fibres of other groups, registers, memory and every other gang stay as they were. -/
def Rules.TrapRecords : Prop :=
  ∀ (core slot : Nat) (m : BitVec 64) (pc : Addr) (r : Trap) (s : State) (c : Crew) (g : Gang) (l : Launch),
    s.crewAt core = some c → c.gangs.find slot = some g → s.launchOf c.launch = some l →
    g.handler = none → l.rcd.handler ≠ 0 →
    (let t := takeTrap core slot m pc r s
    t = { s with crews := t.crews } ∧ (∀ k, k ≠ core → t.crews.find k = s.crews.find k) ∧
    ∃ d h, t.crewAt core = some d ∧ d = { c with gangs := d.gangs } ∧ (∀ k, k ≠ slot → d.gangs.find k = c.gangs.find k) ∧
      d.gangs.find slot = some h ∧
      h = { g with fibres := h.fibres, handler := some m, trapcause := h.trapcause, trappc := pc,
                   trapaddr := if r.cause = 4 ∨ r.cause = 5 ∨ r.cause = 7 ∨ r.cause = 0x10 then r.addr else 0 } ∧
      h.trapcause.extractLsb' 0 8 = r.cause ∧ h.trapcause.extractLsb' 16 8 = r.detail ∧
      (r.lane < 64 → (h.trapcause.extractLsb' 8 6).toNat = r.lane) ∧
      (∀ i, m.getLsbD i = false → h.fibre i = g.fibre i) ∧
      (∀ i, m.getLsbD i = true → i < g.fibres.length →
        (h.fibre i).pc = l.rcd.handler ∧ (h.fibre i).savedWbase = (g.fibre i).wbase ∧
        (h.fibre i).wbase = (g.fibre i).wbase ∧ (h.fibre i).pred = (g.fibre i).pred ∧ (h.fibre i).hold = none ∧
        (h.fibre i).live = (g.fibre i).live))

/-- R170, R284: a trap in a handler, or with no handler, stops the gang. In a crew of depth 0 the launch ends with
outcome 6, the cause, the PC and the core recorded; in a world only the world ends. -/
def Rules.DoubleTraps : Prop :=
  ∀ (core slot : Nat) (m : BitVec 64) (pc : Addr) (r : Trap) (s : State) (c : Crew) (g : Gang) (l : Launch),
    s.crewAt core = some c → c.gangs.find slot = some g → s.launchOf c.launch = some l →
    (g.handler ≠ none ∨ l.rcd.handler = 0) →
    (let t := takeTrap core slot m pc r s
    (∃ d h, t.crewAt core = some d ∧ d.gangs.find slot = some h ∧ h.stopped = true ∧ h.fibres = g.fibres ∧ h.regs = g.regs ∧
      (c.depth ≠ 0 → c.ending = none → d.ending = some (4, r.cause)) ∧ (c.depth = 0 → d.ending = c.ending)) ∧
    (c.depth = 0 → l.st ≠ .ending → ∃ k, t.launchOf c.launch = some k ∧
      k = { l with st := .ending, outcome := 6, cause := r.cause, fatalPc := pc, fatalCore := core }) ∧
    (c.depth ≠ 0 → t.launches = s.launches) ∧ t.mem = s.mem ∧ t.host = s.host ∧ t.cores = s.cores)

/-- R43, R168, R170, R284: taking a trap, in a gang that can handle it and in one that cannot. -/
def Obligations.TrapEntry : Prop :=
  Rules.TrapRecords ∧ Rules.DoubleTraps

/-- R172, R169: trap raises cause 0x0E; bkpt cause 0x0D where debug halt is not armed for the launch, and else halts its
group, which then goes on past it when resumed; tret outside a handler raises cause 0x01. A guard that selects no fibre
makes each a nop. -/
def Rules.TrapInstructions : Prop :=
  ∀ (x : Pfx) (s : State) (c : UnitCtx), Clear x {} s c →
    (c.acts ≠ 0 →
      Gives (exec (.trap x) s) (Traps c s { cause := 0x0e, lane := c.low }) ∧
      ((c.gang.fibre c.low).arrived = false →
        (s.mgmt.debugHalt = 0 ∨ s.mgmt.debugHalt ≠ c.launch.num →
          Gives (exec (.bkpt x) s) (Traps c s { cause := 0x0d, lane := c.low })) ∧
        (s.mgmt.debugHalt ≠ 0 → s.mgmt.debugHalt = c.launch.num → exec (.bkpt x) s = .next (holdUnit c .debugHalt s))) ∧
      ((c.gang.fibre c.low).arrived = true → Gives (exec (.bkpt x) s) (Moves c s (c.on s))) ∧
      (c.gang.handler = none → Gives (exec (.tret x) s) (Traps c s { cause := 1, lane := c.low }))) ∧
    (c.acts = 0 →
      ∀ i, i = .trap x ∨ i = .bkpt x ∨ i = .tret x → Gives (exec i s) (Moves c s (c.on s)))

/-- R169: tret in a handler takes each acting fibre to %trappc, whose bits 1..0 read 0 in the PC, with its saved window
base; a unit that it trapped at keeps what it had performed (R165, R206); the handler flag clears once no fibre of the
handler group is left in the handler. -/
def Rules.TrapReturn : Prop :=
  ∀ (x : Pfx) (s : State) (c : UnitCtx) (m : BitVec 64), Clear x {} s c → c.acts ≠ 0 → c.gang.handler = some m →
    ∃ t d h, exec (.tret x) s = .next t ∧ t = { s with crews := t.crews } ∧ t.crewAt c.core = some d ∧
      d.gangs.find c.slot = some h ∧ h.regs = c.gang.regs ∧
      (∀ l ∈ c.lanes, (h.fibre l).pc = c.gang.trappc &&& 0xfffffffffffffffc#64 ∧
        (h.fibre l).wbase = (c.gang.fibre l).savedWbase ∧ (h.fibre l).pred = (c.gang.fibre l).pred ∧
        ((c.gang.fibre l).kept = none → (h.fibre l).hold = none ∧ (h.fibre l).arrived = false) ∧
        (∀ k, (c.gang.fibre l).kept = some k →
          (k.pc = c.gang.trappc &&& 0xfffffffffffffffc#64 → (h.fibre l).arrived = k.arrived) ∧
          (k.pc ≠ c.gang.trappc &&& 0xfffffffffffffffc#64 → (h.fibre l).hold = none ∧ (h.fibre l).arrived = false))) ∧
      ((∀ l, l < 64 → m.getLsbD l = true → (c.gang.fibre l).live = true → c.acts.getLsbD l = true) → h.handler = none) ∧
      (∀ l, m.getLsbD l = true → (c.gang.fibre l).live = true → c.acts.getLsbD l = false →
        ∃ k, h.handler = some k ∧ k.getLsbD l = true)

/-- R169, R172: trap, bkpt and tret. -/
def Obligations.TrapUnits : Prop :=
  Rules.TrapInstructions ∧ Rules.TrapReturn

/-- R77, R101, R149: a unit that does not decode traps with cause 0x01 and the decoder's DETAIL; a fetch that reaches no
code traps with cause 0x05, %trappc and %trapaddr both the address, and 2^48 where the address would reach 2^48. LANE is
the lowest issuing fibre (R43). -/
def Rules.FetchTraps : Prop :=
  ∀ (s : State) (c : UnitCtx) (i : Issue), Clear {} {} s c → s.issue = some i →
    (∀ detail, Gives (exec (.illegalInstruction detail) s)
      (Traps c s { cause := 1, detail := detail, lane := (lanesOf c.mask).headD 0 })) ∧
    (let at_ : Addr := if c.pc.toNat < 2 ^ 48 then c.pc else 0x1000000000000
    exec .fetchAddressFault s = .next (takeTrap c.core c.slot c.mask at_
      { cause := 5, lane := (lanesOf c.mask).headD 0, addr := at_ } { s with issue := some { i with pc := at_ } }))

/-- R166: the deferred trap of a gang whose next unit is marked SAFE is delivered at that unit as a trap of its cause and
address, in the lowest acting fibre, and is no longer pending. -/
def Rules.DeferredTraps : Prop :=
  ∀ (s : State) (i j : Issue) (u : Instr) (x : Pfx) (c : UnitCtx) (p : Pend), s.issue = some i →
    nextUnit s i.core i.slot = some (j, u) → u.pfx? = some x → x.safe ≠ none →
    unitCtx x { s with issue := some j } = some c → c.crew.preempt = none → c.gang.handler = none → c.gang.fence = none →
    c.gang.destWait = [] → (∀ l, (c.gang.fibre l).hold = none) → c.acts ≠ 0 → c.gang.pending = [p] →
    exec (.deferredTrapDelivery p.cause) s = .next (takeTrap c.core c.slot c.mask c.pc
      { cause := p.cause, lane := c.low, addr := p.addr }
      (s.modGang c.core c.slot fun g => { g with pending := [] }))

/-- R77, R101, R149, R166: units that do not decode, fetches that fail, and deferred traps. -/
def Obligations.TrapEvents : Prop :=
  Rules.FetchTraps ∧ Rules.DeferredTraps

/-- R104: a privileged unit in a launch without the privilege traps with cause 0x0F in the lowest issuing fibre, before
any of its registers is looked at. -/
def Obligations.PrivilegeTraps : Prop :=
  ∀ (x : Pfx) (a : Reg) (d : Reg) (w : Bool) (n : BitVec 8) (s : State) (c : UnitCtx),
    Clear x {} s c → c.priv = false → 0x24 ≤ n.toNat → n.toNat ≤ 0x29 →
    ∀ i ∈ [Instr.tlbinvPage x a, .tlbinvCtx x a, .tlbinvAll x, .ctxq x a, .mcheck x d, .srd x d w n, .swr x a w n],
      Gives (exec i s) (Traps c s { cause := 0x0f, lane := (lanesOf c.mask).headD 0 })

/-! ## Special registers and the privileged units (R33 to R45, R174 to R179) -/

/-- R33, R174, R175: srd of a number that any launch may read gives the word of that register, as the lane sees it. -/
def Rules.SpecialWordReads : Prop :=
  ∀ (x : Pfx) (d : Reg) (s : State) (c : UnitCtx), Clear x { regs := [d.toNat] } s c →
    ∀ (n : BitVec 8) (v : Nat → Word),
      (let g : Gang := c.gang
      let q : Squad := c.crew.squad (c.slot % 4)
      let lo (a : Addr) (_ : Nat) : Word := a.setWidth 32
      let hi (a : Addr) (_ : Nat) : Word := (a >>> 32).setWidth 32
      let nat (k _ : Nat) : Word := BitVec.ofNat 32 k
      (n, v) ∈ [(0x00#8, lo g.ctl), (0x01#8, hi g.ctl), (0x02#8, fun _ => q.flags), (0x03#8, fun _ => q.tflags),
        (0x04#8, fun _ => g.bankdeg), (0x05#8, fun l => ((g.fibre l).pred ||| 1#16).setWidth 32),
        (0x08#8, fun l => BitVec.ofNat 32 l), (0x09#8, nat (c.slot / 4)), (0x0a#8, nat (c.slot % 4)),
        (0x0b#8, nat (c.core % 8)), (0x0c#8, nat (c.core / 8 % 8)), (0x0d#8, nat (c.core / 64)),
        (0x0e#8, fun _ => s.span.rank), (0x10#8, lo s.clock), (0x11#8, hi s.clock), (0x12#8, nat c.crew.world),
        (0x13#8, nat c.crew.depth), (0x14#8, nat c.launch.rcd.tang), (0x16#8, lo g.tanstride), (0x17#8, hi g.tanstride),
        (0x18#8, fun _ => g.lastnan.setWidth 32), (0x19#8, fun _ => (g.lastnan >>> 32).setWidth 32),
        (0x1a#8, fun _ => (g.lastnan >>> 64).setWidth 32), (0x1b#8, fun _ => (g.lastnan >>> 96).setWidth 32),
        (0x1c#8, fun _ => g.trapcause), (0x1e#8, lo g.trappc), (0x1f#8, hi g.trappc), (0x20#8, lo g.trapaddr),
        (0x21#8, hi g.trapaddr), (0x22#8, fun _ => q.spillct)]) →
      Gives (exec (.srd x d false n) s) (Puts c s false d (wordOnly v))

/-- R33, R104, R175, R320: in a privileged launch srd reads the heap registers of the launch's context, as words and as
pairs, and a 64-bit srd of any other pair gives both its words. -/
def Rules.PrivilegedAndPairReads : Prop :=
  ∀ (x : Pfx) (d : Reg) (s : State) (c : UnitCtx),
    (∀ k ∈ [(0x24#8, 0x25#8, (s.ctxAt c.launch.rcd.ctx).base), (0x26#8, 0x27#8, (s.ctxAt c.launch.rcd.ctx).lim),
        (0x28#8, 0x29#8, (s.ctxAt c.launch.rcd.ctx).off)],
      (Clear x { regs := regsOf true d, priv := true } s c →
        Gives (exec (.srd x d true k.1) s) (Puts c s true d (primalOnly fun _ => k.2.2))) ∧
      (Clear x { regs := [d.toNat], priv := true } s c →
        Gives (exec (.srd x d false k.1) s) (Puts c s false d (wordOnly fun _ => k.2.2.setWidth 32)) ∧
        Gives (exec (.srd x d false k.2.1) s) (Puts c s false d (wordOnly fun _ => (k.2.2 >>> 32).setWidth 32)))) ∧
    (∀ k ∈ [(0x00#8, c.gang.ctl), (0x10#8, s.clock), (0x16#8, c.gang.tanstride), (0x18#8, c.gang.lastnan.setWidth 64),
        (0x1a#8, (c.gang.lastnan >>> 64).setWidth 64), (0x1e#8, c.gang.trappc), (0x20#8, c.gang.trapaddr)],
      Clear x { regs := regsOf true d } s c →
        Gives (exec (.srd x d true k.1) s) (Puts c s true d (primalOnly fun _ => k.2)))

/-- R33, R104, R174, R175: srd. -/
def Obligations.SpecialReads : Prop :=
  Rules.SpecialWordReads ∧ Rules.PrivilegedAndPairReads

/-- R33, R34, R174, R175: swr of a gang register writes the lowest acting fibre's word to it, reserved bits as 0, and no
other register, gang or memory; swr of a squad's flags writes bits 6..0; a guard that selects no fibre writes nothing. -/
def Rules.SpecialWordWrites : Prop :=
  ∀ (x : Pfx) (a : Reg) (n : BitVec 8) (s : State) (c : UnitCtx), Clear x { regs := [a.toNat] } s c →
    (let need : Need := { regs := [a.toNat], stall := true }
    let w : Word := c.word c.low a
    let low32 (old : Addr) (v : Word) : Addr := (old >>> 32) <<< 32 ||| v.setWidth 64
    let high32 (old : Addr) (v : Word) : Addr := v.setWidth 64 <<< 32 ||| (old.setWidth 32).setWidth 64
    let nan (k : Nat) (m : Word) (g : Gang) : Gang :=
      { g with lastnan := (g.lastnan &&& ~~~(0xffffffff#128 <<< k)) ||| ((w &&& m).setWidth 128 <<< k) }
    let gang (f : Gang → Gang) : Prop := exec (.swr x a false n) s = .next (finish c need (s.modGang c.core c.slot f))
    let squad (f : Squad → Squad) : Prop :=
      exec (.swr x a false n) s = .next (finish c need (s.modCrew c.core fun k => k.modSquad c.squad f))
    (c.acts = 0 → 0x24 > n.toNat ∨ n.toNat > 0x29 → Gives (exec (.swr x a false n) s) (Moves c s (c.on s))) ∧
    (c.acts ≠ 0 →
      (n = 0x00 → gang fun g => { g with ctl := low32 g.ctl (w &&& 0x1fb#32) }) ∧
      (n = 0x01 → gang fun g => { g with ctl := high32 g.ctl w }) ∧
      (n = 0x02 → squad fun q => { q with flags := w &&& 0x7f#32 }) ∧
      (n = 0x03 → squad fun q => { q with tflags := w &&& 0x7f#32 }) ∧
      (n = 0x04 → gang fun g => { g with bankdeg := w &&& 0xffff#32 }) ∧
      (n = 0x05 → Gives (exec (.swr x a false n) s) (Moves c s fun l =>
        if c.acts.getLsbD l then { c.on s l with pred := (c.word l a).setWidth 16 ||| 1#16 } else c.on s l)) ∧
      (n = 0x16 → gang fun g => { g with tanstride := low32 g.tanstride (w &&& 0xfffffffc#32) }) ∧
      (n = 0x17 → gang fun g => { g with tanstride := high32 g.tanstride w }) ∧
      (n = 0x18 → gang (nan 0 0xffffffff)) ∧
      (n = 0x19 → gang (nan 32 0x0000ffff)) ∧
      (n = 0x1a → gang (nan 64 0x9f7f01ff)) ∧
      (n = 0x1b → gang (nan 96 0x0000ffff)) ∧
      (n = 0x1c → gang fun g => { g with trapcause := w &&& 0x00ff3fff#32 }) ∧
      (n = 0x1e → gang fun g => { g with trappc := low32 g.trappc w }) ∧
      (n = 0x1f → gang fun g => { g with trappc := high32 g.trappc w }) ∧
      (n = 0x20 → gang fun g => { g with trapaddr := low32 g.trapaddr w }) ∧
      (n = 0x21 → gang fun g => { g with trapaddr := high32 g.trapaddr w })))

/-- R33, R34, R174, R175: a 64-bit swr of a gang register's pair writes both its words, reserved bits as 0. -/
def Rules.SpecialPairWrites : Prop :=
  ∀ (x : Pfx) (a : Reg) (s : State) (c : UnitCtx), Clear x { regs := regsOf true a } s c → c.acts ≠ 0 →
    (let v : Addr := c.pair c.low a
    let nan (k : Nat) (m : Addr) (g : Gang) : Gang :=
      { g with lastnan := (g.lastnan &&& ~~~(0xffffffffffffffff#128 <<< k)) ||| ((v &&& m).setWidth 128 <<< k) }
    let gang (n : BitVec 8) (f : Gang → Gang) : Prop := exec (.swr x a true n) s =
      .next (finish c { regs := regsOf true a, stall := true } (s.modGang c.core c.slot f))
    gang 0x00 (fun g => { g with ctl := v &&& 0xffffffff000001fb#64 }) ∧
    gang 0x16 (fun g => { g with tanstride := v &&& 0xfffffffffffffffc#64 }) ∧
    gang 0x18 (nan 0 0x0000ffffffffffff) ∧
    gang 0x1a (nan 64 0x0000ffff9f7f01ff) ∧
    gang 0x1e (fun g => { g with trappc := v }) ∧
    gang 0x20 (fun g => { g with trapaddr := v }))

/-- R320, R321: a write of %heapbase, %heaplim or %heapoff keeps the register's fields alone; EN stands afterwards only
where the write was of %heapbase, asked for it, and the window it gives passes its checks. -/
def Rules.HeapWindowWrites : Prop :=
  ∀ (x : Pfx) (a : Reg) (s : State) (c : UnitCtx), Clear x { regs := regsOf true a, priv := true } s c → c.acts ≠ 0 →
    (let need : Need := { regs := regsOf true a, stall := true, priv := true }
    let v : Addr := c.pair c.low a
    let k : Ctx := s.ctxAt c.launch.rcd.ctx
    let off (b : Addr) : Addr := b &&& 0xfffffffffffffffe#64
    let leaves (n : BitVec 8) (j : Ctx) : Prop :=
      exec (.swr x a true n) s = .next (finish c need { s with ctxs := s.ctxs.put c.launch.rcd.ctx j })
    let asked : Ctx := { k with base := v &&& 0x00ffffffffe00001#64 }
    leaves 0x24 (if v.getLsbD 0 = true ∧ windowOk s.window asked = true then asked
      else { asked with base := off asked.base }) ∧
    leaves 0x26 { k with base := off k.base, lim := v &&& 0x00ffffffffe00000#64 } ∧
    leaves 0x28 { k with base := off k.base, off := v &&& 0xffffffffffe00000#64 })

/-- R33, R320, R321: a 32-bit swr of one half of a heap register keeps the other half, the register's fields alone, and
EN by the same rule. -/
def Rules.HeapWordWrites : Prop :=
  ∀ (x : Pfx) (a : Reg) (s : State) (c : UnitCtx), Clear x { regs := [a.toNat], priv := true } s c → c.acts ≠ 0 →
    (let need : Need := { regs := [a.toNat], stall := true, priv := true }
    let w : Word := c.word c.low a
    let k : Ctx := s.ctxAt c.launch.rcd.ctx
    let half (h : Bool) (v : Addr) : Addr := if h then w ++ v.setWidth 32 else (v >>> 32).setWidth 32 ++ w
    let off (b : Addr) : Addr := b &&& 0xfffffffffffffffe#64
    let leaves (n : BitVec 8) (j : Ctx) : Prop :=
      exec (.swr x a false n) s = .next (finish c need { s with ctxs := s.ctxs.put c.launch.rcd.ctx j })
    ∀ h : Bool,
      (let asked : Ctx := { k with base := half h k.base &&& 0x00ffffffffe00001#64 }
      leaves (if h then 0x25 else 0x24) (if asked.base.getLsbD 0 = true ∧ windowOk s.window asked = true then asked
        else { asked with base := off asked.base }) ∧
      leaves (if h then 0x27 else 0x26) { k with base := off k.base, lim := half h k.lim &&& 0x00ffffffffe00000#64 } ∧
      leaves (if h then 0x29 else 0x28) { k with base := off k.base, off := half h k.off &&& 0xffffffffffe00000#64 }))

/-- R33, R34, R174, R175, R320, R321: swr. -/
def Obligations.SpecialWrites : Prop :=
  Rules.SpecialWordWrites ∧ Rules.SpecialPairWrites ∧ Rules.HeapWindowWrites ∧ Rules.HeapWordWrites

/-- R177: with no shootdown left on its way, tlbinv completes: the named entries are gone from the issuing core's L1 TLB
and from every L2 TLB, and a core that still holds one is sent a shootdown, for which the unit waits. -/
def Rules.TlbInvalidations : Prop :=
  ∀ (x : Pfx) (a : Reg) (s : State) (c : UnitCtx) (r : List Nat) (ctx : Option Nat) (va : Option Addr) (i : Instr),
    c.acts ≠ 0 →
    ((i = .tlbinvPage x a ∧ r = regsOf true a ∧ ctx = some c.launch.rcd.ctx ∧ va = some (c.pair c.low a)) ∨
     (i = .tlbinvCtx x a ∧ r = [a.toNat] ∧ (c.word c.low a).toNat < 2 ^ 16 ∧ ctx = some (c.word c.low a).toNat ∧ va = none) ∨
     (i = .tlbinvAll x ∧ r = [] ∧ ctx = none ∧ va = none)) →
    Clear x { regs := r, priv := true } s c →
    (let need : Need := { regs := r, priv := true, stall := true }
    let d : State := dropReadOnly c.launch.rcd.ctx ctx va s
    let u : State := if (c.gang.fibre c.low).arrived then s else shootDown c.core ctx va d
    (u.shootdowns = false → exec i s = .next (finish c need u)) ∧
    (u.shootdowns = true → exec i s = .next (holdUnit c .shootdown
      (u.modGang c.core c.slot fun g => g.modLanes c.acts fun _ f => { f with arrived := true })))) ∧
    (∀ t : State, t = shootDown c.core ctx va s →
      (∀ e ∈ (t.coreAt c.core).tlb, shotDown ctx va e = false) ∧
      (∀ k ts, t.l2tlb.find k = some ts → ∀ e ∈ ts, shotDown ctx va e = false) ∧
      (∀ k core, s.cores.find k = some core → k ≠ c.core → core.tlb.any (shotDown ctx va) = true →
        ∃ core', t.cores.find k = some core' ∧ core'.ctl = core.ctl ++ [.shootdown ctx va]))

/-- R178, R338: ctxq sends a pre-emption request to every running crew of the launch that register a names. R179: mcheck
gives the core's status word and clears its V and CORR. -/
def Rules.ContextQueueAndMachineCheck : Prop :=
  ∀ (x : Pfx) (a d : Reg) (s : State) (c : UnitCtx), c.acts ≠ 0 →
    (Clear x { regs := [a.toNat], priv := true } s c →
      ∃ u, exec (.ctxq x a) s = .next (finish c { regs := [a.toNat], priv := true } u) ∧ u = { s with crews := u.crews } ∧
        ∀ k r, s.crews.find k = some r → u.crews.find k = some
          (if r.launch = (c.word c.low a).toNat then
            { r with preempt := some (r.preempt.getD { since := s.clock.toNat }) }
          else r)) ∧
    (Clear x { regs := [d.toNat], priv := true } s c →
      (let v : Word := (s.coreAt c.core).mcheck
      ∃ t, exec (.mcheck x d) s = .next t ∧ (t.coreAt c.core).mcheck = v &&& 0x7fff0000#32 ∧ t.mem = s.mem ∧
        (∀ k, k ≠ c.core → t.coreAt k = s.coreAt k) ∧
        ∃ r h, t.crewAt c.core = some r ∧ r.gangs.find c.slot = some h ∧
          RegsWritten c (c.putsIn c.acts false d (wordOnly fun _ => v)) c.gang h))

/-- R177 to R179, R338: tlbinv, ctxq and mcheck. -/
def Obligations.PrivilegedUnits : Prop :=
  Rules.TlbInvalidations ∧ Rules.ContextQueueAndMachineCheck

/-! ## Loads and stores (R180 to R190, R208) -/

/-- Registers that a load writes: in a plane and an acting lane, register d + j gets word j of what that location gave. -/
def putsGroup (c : UnitCtx) (d : Reg) (v : Nat → Nat → List Word) (p l r : Nat) : Option Word :=
  if c.acts.getLsbD l = true ∧ p ≤ c.t ∧ d ≠ 0 ∧ d.toNat ≤ r then (v p l)[r - d.toNat]? else none

/-- R100, R185, R293: the words of a load's destination, plane by plane: the image of the bytes of the plane's own
access, or, for a plane that the kind or DUAL gives none, TREG's words or zeros. -/
def loadedWords (c : UnitCtx) (x : Pfx) (a : Reg) (k : MemKind) (i : BitVec 7) (bytes : Req → List Byte) (p l : Nat) :
    List Word :=
  match (loadReqs c x a k i).find? fun r => r.plane == p && r.lane == l with
  | some r => loadImage k (bytes r)
  | none => otherShadow c k l p

/-- R181, R184, R185, R187: ld, and ld.fe where every line is full, on the own scratchpad give each acting lane the bytes
at its address, and change nothing else of the machine. -/
def Rules.ScratchpadLoads : Prop :=
  ∀ (x : Pfx) (d a : Reg) (k : MemKind) (i : BitVec 7) (s : State) (c : UnitCtx),
    Clear x { regs := regsOf true a ++ groupOf k.regs d, seed := k.regs } s c →
    (let off (r : Req) : Nat := r.addr.toNat % 2 ^ 20
    (∀ r ∈ loadReqs c x a k i, pathOf r.addr = 2 ∧ zeroBitsOk r.addr = true ∧ r.addr.toNat % k.size = 0 ∧
      off r + k.size ≤ c.crew.size ∧ s.poisoned c.core c.view (.pad c.core (off r)) k.size = false) →
    ∀ ins, ins = .ld x d a k i ∨
        (ins = .ldFe x d a k i ∧ ∀ r ∈ loadReqs c x a k i, c.crew.full.getLsbD (off r / 128) = true) →
      Gives (exec ins s) fun t => Issued c s t (c.on s) (RegsWritten c (putsGroup c d
        (loadedWords c x a k i fun r => (List.range k.size).map fun j => c.crew.scratch.get 0 (off r + j)))) 0 0)

/-- R187: ld.fe on a scratchpad holds its group, with nothing read or written, while some line it reads is empty. -/
def Rules.EmptyLinesHold : Prop :=
  ∀ (x : Pfx) (d a : Reg) (k : MemKind) (i : BitVec 7) (s : State) (c : UnitCtx),
    Clear x { regs := regsOf true a ++ groupOf k.regs d, seed := k.regs } s c →
    (∀ r ∈ loadReqs c x a k i, pathOf r.addr = 2 ∧ zeroBitsOk r.addr = true ∧ r.addr.toNat % k.size = 0 ∧
      r.addr.toNat % 2 ^ 20 + k.size ≤ c.crew.size) →
    (∃ r ∈ loadReqs c x a k i, c.crew.full.getLsbD (r.addr.toNat % 2 ^ 20 / 128) = false) →
    ∃ offs, exec (.ldFe x d a k i) s = .next (holdUnit c (.lines offs) s) ∧ ∀ o, o ∈ offs ↔
      o % 128 = 0 ∧ c.crew.full.getLsbD (o / 128) = false ∧
        ∃ r ∈ loadReqs c x a k i, r.addr.toNat % 2 ^ 20 / 128 * 128 = o

/-- R184, R307: ld on the generic path, where the L1 holds no leased copy of the lines, gives each acting lane the bytes
its view sees at the places its addresses translate to; memory, views and host memory stay as they were. -/
def Rules.GenericLoads : Prop :=
  ∀ (x : Pfx) (d a : Reg) (k : MemKind) (i : BitVec 7) (s : State) (c : UnitCtx) (pa : Req → Nat),
    Clear x { regs := regsOf true a ++ groupOf k.regs d, seed := k.regs } s c → MemoryOk s →
    (∀ r ∈ loadReqs c x a k i, pathOf r.addr = 0 ∧ zeroBitsOk r.addr = true ∧ r.addr.toNat % k.size = 0 ∧
      place s c.agent .load true r.addr r.size = .here (.mem (pa r) false) ∧ pa r % k.size = 0 ∧
      s.linePoisoned c.view (lineOf (pa r)) = false ∧
      ∀ e ∈ (s.coreAt (l1Owner (s.fusedAt c.launch c.core) c.core (lineOf (pa r)))).l1,
        e.line = lineOf (pa r) → e.view ≠ c.view) →
    ∃ t q h, exec (.ld x d a k i) s = .next t ∧ t.mem = s.mem ∧ t.views = s.views ∧ t.host = s.host ∧
      t.crewAt c.core = some q ∧ q.scratch = c.crew.scratch ∧ q.gangs.find c.slot = some h ∧
      RegsWritten c (putsGroup c d (loadedWords c x a k i fun r => s.bytesAt c.view (pa r) k.size)) c.gang h ∧
      ∀ l, c.mask.getLsbD l = true → h.fibre l = c.on s l

/-- R181 to R185, R187: ld and ld.fe. -/
def Obligations.Loads : Prop :=
  Rules.ScratchpadLoads ∧ Rules.EmptyLinesHold ∧ Rules.GenericLoads

/-- The bytes that a store writes, in the order in which they land: those of a later access over an earlier one's. -/
def storedBytes (c : UnitCtx) (x : Pfx) (d a : Reg) (k : MemKind) (i : BitVec 7) (at_ : Req → Nat) : List (Nat × Byte) :=
  (storeReqs c x a k i).flatMap fun r => (storeSource c k d r.lane r.plane).mapIdx fun j b => (at_ r + j, b)

/-- What an address reads as after some writes, from what it read before. -/
def afterWrites (ws : List (Nat × Byte)) (a : Nat) (old : Byte) : Byte :=
  ws.foldl (fun b w => if w.1 = a then w.2 else b) old

/-- R181, R184, R185, R188: st and st.fill on the own scratchpad write each acting lane's register bytes at its address,
and no other byte of it, of another scratchpad, of device memory or of host memory; st.fill also sets its lines full. -/
def Rules.ScratchpadStores : Prop :=
  ∀ (x : Pfx) (d a : Reg) (k : MemKind) (i : BitVec 7) (s : State) (c : UnitCtx),
    Clear x { regs := regsOf true a ++ groupOf k.regs d, seed := k.regs } s c →
    (let off (r : Req) : Nat := r.addr.toNat % 2 ^ 20
    (∀ r ∈ storeReqs c x a k i, pathOf r.addr = 2 ∧ zeroBitsOk r.addr = true ∧ r.addr.toNat % k.size = 0 ∧
      off r + k.size ≤ c.crew.size) →
    ∀ fill ins, (fill, ins) ∈ [(false, Instr.st x d a k i), (true, .stFill x d a k i)] →
      ∃ t q h, exec ins s = .next t ∧ t.mem = s.mem ∧ t.views = s.views ∧ t.host = s.host ∧
        (∀ n, n ≠ c.core → t.crewAt n = s.crewAt n) ∧ t.crewAt c.core = some q ∧
        (∀ o, q.scratch.get 0 o = afterWrites (storedBytes c x d a k i off) o (c.crew.scratch.get 0 o)) ∧
        (∀ n, n < 4096 → (q.full.getLsbD n = true ↔ c.crew.full.getLsbD n = true ∨
          (fill = true ∧ ∃ r ∈ storeReqs c x a k i, n = off r / 128))) ∧
        q.barriers = c.crew.barriers ∧ q.gangs.find c.slot = some h ∧ h.regs = c.gang.regs ∧
        ∀ l, c.mask.getLsbD l = true → h.fibre l = c.on s l)

/-- R184, R185, R307: st on the generic path in view 0 writes each acting lane's register bytes at the place its address
translates to, and no other byte of device memory, of a scratchpad or of host memory. -/
def Rules.GenericStores : Prop :=
  ∀ (x : Pfx) (d a : Reg) (k : MemKind) (i : BitVec 7) (s : State) (c : UnitCtx) (pa : Req → Nat),
    Clear x { regs := regsOf true a ++ groupOf k.regs d, seed := k.regs } s c → c.view = 0 →
    (∀ r ∈ storeReqs c x a k i, pathOf r.addr = 0 ∧ zeroBitsOk r.addr = true ∧ r.addr.toNat % k.size = 0 ∧
      place s c.agent .store false r.addr r.size = .here (.mem (pa r) false)) →
    ∃ t q h, exec (.st x d a k i) s = .next t ∧
      (∀ b, t.mem.get 0 b = afterWrites (storedBytes c x d a k i pa) b (s.mem.get 0 b)) ∧
      t.views = s.views ∧ t.host = s.host ∧ (∀ n, n ≠ c.core → t.crewAt n = s.crewAt n) ∧ t.crewAt c.core = some q ∧
      q.scratch = c.crew.scratch ∧ q.gangs.find c.slot = some h ∧ h.regs = c.gang.regs ∧
      ∀ l, c.mask.getLsbD l = true → h.fibre l = c.on s l

/-- R181 to R185, R188: st and st.fill. -/
def Obligations.Stores : Prop :=
  Rules.ScratchpadStores ∧ Rules.GenericStores

/-- The frame of st and st.fill in every form but a register of the device (path 0x6): whatever becomes of the unit, a
byte of device memory reads in every view as it did, unless an access of the unit lands on it. Where an access meets an
absent page its fault record goes to the pinned table region (R326, R333): the bytes of that region are left out then. -/
def Obligations.StoresLeaveOtherMemory : Prop :=
  ∀ (x : Pfx) (d a : Reg) (k : MemKind) (i : BitVec 7) (s t : State) (c : UnitCtx) (ins : Instr),
    unitCtx x s = some c → ins = .st x d a k i ∨ ins = .stFill x d a k i → exec ins s = .next t →
    (∀ r ∈ storeReqs c x a k i, pathOf r.addr ≠ 6) →
    ∀ view b, ((∃ r ∈ storeReqs c x a k i, ∃ page h m, place s c.agent .store false r.addr r.size = .absent page h m) →
        pinned s.window b 1 = false) →
      (∀ r ∈ storeReqs c x a k i, ∀ p ro, place s c.agent .store false r.addr r.size = .here (.mem p ro) →
        b < p ∨ p + k.size ≤ b) →
      t.byteAt view b = s.byteAt view b

/-- The access that a check of R182 reports: in the lowest lane that has a failing one, the first. -/
def Reported (rs : List Req) (fails : Req → Prop) (r : Req) : Prop :=
  ∃ before after, rs = before ++ r :: after ∧ fails r ∧ (∀ q ∈ rs, fails q → r.lane ≤ q.lane) ∧
    ∀ q ∈ before, fails q → q.lane ≠ r.lane

/-- R181, R182, R185: the checks of a load's or a store's accesses, each over every access before the next: a path that
does not accept it, must-be-zero bits, or a tangent on another path than its primal traps with cause 0x05; path 0x6
without privilege with cause 0x0F; an address that is no multiple of the access size with cause 0x04; and one that
translates nowhere with cause 0x05. -/
def Obligations.AccessTraps : Prop :=
  ∀ (x : Pfx) (d a : Reg) (k : MemKind) (i : BitVec 7) (s : State) (c : UnitCtx),
    Clear x { regs := regsOf true a ++ groupOf k.regs d, seed := k.regs } s c →
    ∀ ins cls rs, (ins, cls, rs) ∈ [(Instr.ld x d a k i, Cls.load, loadReqs c x a k i),
        (.ldFe x d a k i, .ldFe, loadReqs c x a k i), (.st x d a k i, .store, storeReqs c x a k i),
        (.stFill x d a k i, .stFill, storeReqs c x a k i)] →
      (let badPath (r : Req) : Prop := pathOk c.crew.depth cls (k == .b32 || k == .b64) r.addr = false ∨
        pathOf r.addr ≠ pathOf (accessBase c x a k i r.lane)
      let unprivileged (r : Req) : Prop := pathOf r.addr = 6 ∧ c.priv = false
      let misaligned (r : Req) : Prop := r.addr.toNat % k.size ≠ 0
      let aim (r : Req) : Place := place s c.agent cls.kind (cls == .load || cls == .lld) r.addr r.size
      ∀ r,
        (Reported rs badPath r → Gives (exec ins s) (Traps c s { cause := 5, lane := r.lane, addr := r.addr })) ∧
        ((∀ q ∈ rs, ¬badPath q) → Reported rs unprivileged r →
          Gives (exec ins s) (Traps c s { cause := 0x0f, lane := r.lane })) ∧
        ((∀ q ∈ rs, ¬badPath q ∧ ¬unprivileged q) → Reported rs misaligned r →
          Gives (exec ins s) (Traps c s { cause := 4, lane := r.lane, addr := r.addr })) ∧
        ((∀ q ∈ rs, ¬badPath q ∧ ¬unprivileged q ∧ ¬misaligned q ∧ aim q ≠ .broken) → Reported rs (fun q => aim q = .fault) r →
          Gives (exec ins s) (Traps c s { cause := 5, lane := r.lane, addr := r.addr })))

/-- R189: fe.clr sets empty the lines that each acting lane names on its scratchpad, and no other; no byte changes. -/
def Rules.LinesCleared : Prop :=
  ∀ (x : Pfx) (a b : Reg) (s : State) (c : UnitCtx), Clear x { regs := regsOf true a ++ [b.toNat] } s c →
    (let off (l : Nat) : Nat := (c.pair l a).toNat % 2 ^ 20
    let n (l : Nat) : Nat := (c.word l b).toNat
    (∀ l ∈ c.lanes, pathOf (c.pair l a) = 2 ∧ zeroBitsOk (c.pair l a) = true ∧ (c.pair l a).toNat % 128 = 0 ∧
      off l + 128 * n l ≤ c.crew.size) →
    ∃ t q h, exec (.feClr x a b) s = .next t ∧ t.mem = s.mem ∧ t.host = s.host ∧ t.crewAt c.core = some q ∧
      q.scratch = c.crew.scratch ∧
      (∀ j, j < 4096 → (q.full.getLsbD j = true ↔ c.crew.full.getLsbD j = true ∧
        ¬∃ l ∈ c.lanes, off l / 128 ≤ j ∧ j < off l / 128 + n l)) ∧
      q.gangs.find c.slot = some h ∧ h.regs = c.gang.regs ∧ ∀ l, c.mask.getLsbD l = true → h.fibre l = c.on s l)

/-- R208: the prefetches and cache operations complete whatever their addresses, and change no byte of memory and no
register. cctl.inv leaves the core no L1 copy, cctl.roinv no read-only copy, of a line they name; a prefetch to the
slice leaves every line it names there, where the line's slice has room for as many as it names (R297). -/
def Rules.PrefetchesAndCacheControl : Prop :=
  ∀ (x : Pfx) (a : Reg) (s : State) (c : UnitCtx), Clear x { regs := regsOf true a } s c →
    (∀ i ∈ [Instr.prefL1 x a, .prefCc x a, .prefMs x a, .cctlWb x a, .cctlInv x a, .cctlRoinv x a],
      ∃ t q h, exec i s = .next t ∧ t.mem = s.mem ∧ t.views = s.views ∧ t.host = s.host ∧ t.crewAt c.core = some q ∧
        q.scratch = c.crew.scratch ∧ q.gangs.find c.slot = some h ∧ h.regs = c.gang.regs ∧
        (∀ l, c.mask.getLsbD l = true → h.fibre l = c.on s l) ∧
        (i = .cctlWb x a → Moves c s (c.on s) t) ∧
        (i = .cctlInv x a → ∀ e ∈ (t.coreAt c.core).l1, e.line ∉ namedLines c s a) ∧
        (i = .cctlRoinv x a → ∀ e ∈ (t.coreAt c.core).ro, e.line ∉ namedLines c s a) ∧
        (i = .prefMs x a → ∀ n ∈ namedLines c s a,
          (s.slices.resident.countP fun k => homeSlice (k * 128) == homeSlice (n * 128)) + (namedLines c s a).length ≤
            Config.linesPerSlice → n ∈ t.slices.resident)) ∧
    (∀ l ∈ c.lanes, ∀ pa ro, pathOf (c.pair l a) = 0 ∨ pathOf (c.pair l a) = 1 → zeroBitsOk (c.pair l a) = true →
      placeGeneric s c.agent .load false (c.pair l a) = .here (.mem pa ro) → pa / 128 ∈ namedLines c s a)

/-- R189, R208: fe.clr, the prefetches and cache control. -/
def Obligations.LinesAndCaches : Prop :=
  Rules.LinesCleared ∧ Rules.PrefetchesAndCacheControl

/-! ## Atomics, fences and barriers (R191 to R207) -/

/-- R192, R193: what an atomic makes of the old value and its operand, on 32 and on 64 bits. -/
def Rules.AtomicFunctions : Prop :=
  (∀ o v : Word,
    (let gives (fn : AtomFn) (y : Word) : Prop := applyAtom fn false (o.setWidth 64) (v.setWidth 64) = (y.setWidth 64, 0)
    gives .add (o + v) ∧ gives .minS (if o.toInt ≤ v.toInt then o else v) ∧ gives .maxS (if v.toInt ≤ o.toInt then o else v) ∧
    gives .minU (if o.toNat ≤ v.toNat then o else v) ∧ gives .maxU (if v.toNat ≤ o.toNat then o else v) ∧
    gives .and (o &&& v) ∧ gives .or (o ||| v) ∧ gives .xor (o ^^^ v) ∧ gives .xchg v)) ∧
  (∀ o v : Addr,
    (let gives (fn : AtomFn) (y : Addr) : Prop := applyAtom fn true o v = (y, 0)
    gives .add (o + v) ∧ gives .minS (if o.toInt ≤ v.toInt then o else v) ∧ gives .maxS (if v.toInt ≤ o.toInt then o else v) ∧
    gives .minU (if o.toNat ≤ v.toNat then o else v) ∧ gives .maxU (if v.toNat ≤ o.toNat then o else v) ∧
    gives .and (o &&& v) ∧ gives .or (o ||| v) ∧ gives .xor (o ^^^ v) ∧ gives .xchg v))

/-- R191 to R193: an atomic or a reduction of one acting fibre on its own scratchpad, of any function but the ordered
add: the location gets the function of its old value and register b, and cas leaves it where the old value is not the
old destination; atom gives the destination the old value, its shadows becoming 0; no other byte of the scratchpad and no
memory changes. -/
def Rules.ScratchpadAtomics : Prop :=
  ∀ (x : Pfx) (d a b : Reg) (fn : AtomFn) (wide : Bool) (s : State) (c : UnitCtx) (l : Nat),
    Clear x { regs := regsOf true a ++ regsOf wide b ++ regsOf wide d } s c → c.lanes = [l] → fn ≠ .faddOrd →
    atomPlanes c fn = [0] →
    (let at_ : Addr := c.pair l a
    let off : Nat := at_.toNat % 2 ^ 20
    let n : Nat := if wide then 8 else 4
    let old : Addr := addrOf ((List.range n).map fun j => c.crew.scratch.get 0 (off + j))
    pathOf at_ = 2 → zeroBitsOk at_ = true → at_.toNat % n = 0 → off + n ≤ c.crew.size →
    s.poisoned c.core c.view (.pad c.core off) n = false →
    (let new : Addr × Word := applyAtom fn wide old (c.val l wide b)
    let outcome (writes : Bool) (i : Instr) (gives : Bool) : Prop :=
      ∃ t q h, exec i s = .next t ∧ t.mem = s.mem ∧ t.host = s.host ∧ t.crewAt c.core = some q ∧
        (∀ o, q.scratch.get 0 o = if writes = true ∧ off ≤ o ∧ o < off + n then
            BitVec.ofNat 8 (new.1.toNat / 256 ^ (o - off)) else c.crew.scratch.get 0 o) ∧
        (q.squad c.squad).flags = (c.crew.squad c.squad).flags ||| new.2 ∧
        q.gangs.find c.slot = some h ∧ (∀ k, c.mask.getLsbD k = true → h.fibre k = c.on s k) ∧
        RegsWritten c (fun p k r => if gives then c.putsIn c.acts wide d (primalOnly fun _ => old) p k r else none) c.gang h
    (fn ≠ .cas →
      outcome true (if wide then .red64 x a b fn else .red32 x a b fn) false ∧
      outcome true (if wide then .atom64 x d a b fn else .atom32 x d a b fn) true) ∧
    (fn = .cas →
      outcome (decide (old = c.val l wide d)) (if wide then .atom64 x d a b fn else .atom32 x d a b fn) true)))

/-- R191 to R193: the functions of atomics, and one atomic on a scratchpad. -/
def Obligations.Atomics : Prop :=
  Rules.AtomicFunctions ∧ Rules.ScratchpadAtomics

/-- R191, R194: atomics and reductions of every form and of any number of fibres complete where every access lands, the
path takes the class and the host link has room for a read (R395), and no byte changes, in any view, in any scratchpad or
in host memory, but those they access; an ordered add changes none. -/
def Obligations.AtomicsCompleteAndLeaveOtherMemory : Prop :=
  ∀ (x : Pfx) (d a b : Reg) (fn : AtomFn) (wide : Bool) (s : State) (c : UnitCtx),
    Clear x { regs := regsOf true a ++ regsOf wide b ++ regsOf wide d, feature := if fn = .faddOrd then some 5 else none } s c →
    c.view = 0 → c.crew.depth = 0 →
    ∀ cls i, (cls, i) ∈ [(Cls.atom, if wide then Instr.atom64 x d a b fn else .atom32 x d a b fn),
        (.red, if wide then .red64 x a b fn else .red32 x a b fn)] →
      (let kind : Cls := if fn = .faddOrd then .ordAdd else cls
      (∀ r ∈ atomReqs c a fn wide, pathOk 0 kind false r.addr = true ∧ pathOf r.addr = pathOf (c.pair r.lane a) ∧
        r.addr.toNat % atomSize wide = 0 ∧ ∃ loc, place s c.agent .store false r.addr r.size = .here loc) →
      (cls = .atom → (∃ l ∈ c.lanes, pathOf (c.pair l a) = 5) → s.hostFull c.core = false) →
      (let untouched (at_ : Loc → Nat → Prop) (m : Nat) : Prop := fn = .faddOrd ∨ ∀ r ∈ atomReqs c a fn wide, ∀ loc p,
        place s c.agent .store false r.addr r.size = .here loc → at_ loc p → m < p ∨ p + atomSize wide ≤ m
      ∃ t, exec i s = .next t ∧
        (∃ h, t.gangAt c.core c.slot = some h ∧ ∀ l, c.mask.getLsbD l = true → h.fibre l = c.on s l) ∧
        (∀ v m, untouched (fun loc p => ∃ ro, loc = .mem p ro) m → t.byteAt v m = s.byteAt v m) ∧
        (∀ n k k', s.crewAt n = some k → t.crewAt n = some k' → ∀ m, untouched (fun loc p => loc = .pad n p) m →
          k'.scratch.get 0 m = k.scratch.get 0 m) ∧
        ∀ m, untouched (fun loc p => ∃ off, loc = .host off ∧ p = s.window.hwbase.toNat + off) m →
          t.host.get 0 m = s.host.get 0 m))

/-- R198 to R201, R312: a fence of a gang none of whose next phase is still in use completes at once as a unit and leaves
an incomplete fence of its kind and paths; a release closes the gang's phase towards every destination it wrote to, and
the fence waits for as many of those closes as its paths name; an acquire of the read-only path empties that cache, and an acquiring kind brings the gang's timestamp up to the writes of
its scope's observers (R314). -/
def Rules.FenceIssue : Prop :=
  ∀ (x : Pfx) (sc : Scope) (m : BitVec 6) (s : State) (c : UnitCtx), Clear x {} s c → c.acts ≠ 0 →
    phaseBusy s c.gang = false →
    ∀ i kind, (i, kind) ∈ [(Instr.fenceFull x sc m, FenceKind.full), (.fenceAcq x sc m, .acq), (.fenceRel x sc m, .rel)] →
      ∃ t h f, exec i s = .next t ∧ t.mem = s.mem ∧ t.host = s.host ∧ t.gangAt c.core c.slot = some h ∧
        h.regs = c.gang.regs ∧ h.fence = some f ∧ f.kind = kind ∧ f.scope = sc ∧ f.paths = m ∧ f.upTo = s.engineOps ∧
        f.lines = [] ∧ f.writes = 0 ∧ f.back.regs = c.gang.regs ∧ f.back.ctl = c.gang.ctl ∧
        (kind = .acq → f.closes = 0 ∧ h.sent = c.gang.sent ∧ h.phase = c.gang.phase ∧ t.slices = s.slices) ∧
        (kind ≠ .acq → h.sent = [] ∧ h.phase = c.gang.phase + 1 ∧
          f.closes = (c.gang.sent.filter fun e => if e.1 < 128 then m.getLsbD 0 else m.getLsbD 3).length ∧
          t.slices.closing.length = s.slices.closing.length + c.gang.sent.length) ∧
        (kind ≠ .rel → h.pts = max c.gang.pts (s.scopeTime c.core c.squad sc)) ∧
        (kind ≠ .rel → m.getLsbD 1 = true → (t.coreAt c.core).ro = []) ∧
        ∀ l, c.mask.getLsbD l = true → h.fibre l = c.on s l

/-- R198, R391: a release or a full fence waits while its gang's next phase value has an entry that has not matched; a
guard that selects no fibre makes a fence a nop. -/
def Rules.FencesThatWait : Prop :=
  ∀ (x : Pfx) (sc : Scope) (m : BitVec 6) (s : State) (c : UnitCtx), Clear x {} s c →
    (c.acts ≠ 0 → phaseBusy s c.gang = true →
      exec (.fenceFull x sc m) s = .next (holdUnit c .phaseBusy s) ∧
      exec (.fenceRel x sc m) s = .next (holdUnit c .phaseBusy s)) ∧
    (c.acts = 0 → ∀ i ∈ [Instr.fenceFull x sc m, .fenceAcq x sc m, .fenceRel x sc m],
      Gives (exec i s) (Moves c s (c.on s)))

/-- R199, R201, R37: a fence whose conditions hold completes: its gang's fence is gone, its flags are in the squad, an
acquiring kind brings the gang's timestamp up to the writes of its scope's observers (R314), and one of the read-only path
empties that cache. -/
def Rules.FenceCompletion : Prop :=
  ∀ (core slot : Nat) (s : State) (c : Crew) (g : Gang) (f : FenceSt), s.crewAt core = some c →
    c.gangs.find slot = some g → g.fence = some f → g.late = none →
    (fenceReady c slot g f = false → exec (.fenceComplete core slot) s = .next s) ∧
    (fenceReady c slot g f = true →
      ∃ t d h, exec (.fenceComplete core slot) s = .next t ∧ t = { s with crews := t.crews, cores := t.cores } ∧
        (∀ k, k ≠ core → t.crewAt k = s.crewAt k ∧ t.coreAt k = s.coreAt k) ∧
        (f.kind = .rel ∨ f.paths.getLsbD 1 = false → t.cores = s.cores) ∧
        (f.kind ≠ .rel → f.paths.getLsbD 1 = true → t.coreAt core = { s.coreAt core with ro := [] }) ∧ t.crewAt core = some d ∧ d.gangs.find slot = some h ∧
        h = { g with fence := none, late := none, pts := if f.kind = .rel then g.pts else max g.pts (s.scopeTime core (slot % 4) f.scope) } ∧
        (d.squad (slot % 4)).flags = (c.squad (slot % 4)).flags ||| f.fl ∧
        (d.squad (slot % 4)).tflags = (c.squad (slot % 4)).tflags ||| f.tfl)

/-- R198 to R201, R312, R391: a fence issues, waits and completes. -/
def Obligations.Fences : Prop :=
  Rules.FenceIssue ∧ Rules.FencesThatWait ∧ Rules.FenceCompletion

/-- R203, R204: the barrier check and the arrival of bytes: the phase flips exactly when the arrivals reach EXPC and the
bytes EXPB, and then the arrivals restart at 0 and the bytes keep their excess. -/
def Rules.BarrierCheck : Prop :=
  ∀ (b : Barrier) (n : Nat),
    (b.expc ≤ b.arr → b.expb ≤ b.bytes →
      b.check = { b with arr := 0, bytes := b.bytes - b.expb, expb := 0, ph := !b.ph }) ∧
    (b.arr < b.expc ∨ b.bytes < b.expb → b.check = b) ∧
    (b.bytes + n < 2 ^ 32 → b.land n = { b with bytes := b.bytes + n }.check)

/-- R204 to R206: bar.arrive and bar.sync count their acting fibres at the barrier and record its phase in %wp; bar.expect
adds to EXPB; bar.wait, and bar.sync after its arrival, go on where the phase is no longer the one waited in, and hold
the group otherwise; a group that waits already waits for the phase it first found. A count outside 1 .. 4096 traps with
cause 0x01. The barrier object has no uncorrectable error (R316). -/
def Rules.BarrierUnits : Prop :=
  ∀ (x : Pfx) (a : Reg) (n : BitVec 5) (s : State) (c : UnitCtx), Clear x { regs := [a.toNat] } s c → c.acts ≠ 0 →
    n.toNat < c.crew.barriers.length → s.poisoned c.core 0 (.bar c.core (0x80000 + 16 * n.toNat)) 16 = false →
    (let need : Need := { regs := [a.toNat], stall := true }
    let b : Barrier := c.crew.barrier n.toNat
    let w : Word := c.word c.low a
    let count : Nat := if a = 0 then b.expc else w.toNat
    let arrived (k : Nat) : Barrier := { b with expc := count, arr := b.arr + k }.check
    let k : Nat := c.lanes.length
    let waitsFor (p : Bool) : Prop := ∀ l, c.mask.getLsbD l = true →
      (c.gang.fibre l).hold = none ∨ (c.gang.fibre l).hold = some (.phase n.toNat p)
    let fresh : Prop := (∀ l ∈ c.lanes, (c.gang.fibre l).arrived = false) ∧ waitsFor b.ph
    let wp : Word := if b.ph then c.gang.wp ||| (1#32 <<< n.toNat) else c.gang.wp &&& ~~~(1#32 <<< n.toNat)
    (a ≠ 0 → w.toNat < 1 ∨ 4096 < w.toNat →
      Gives (exec (.barArrive x a n) s) (Traps c s { cause := 1, lane := c.low }) ∧
      (fresh → Gives (exec (.barSync x a n) s) (Traps c s { cause := 1, lane := c.low }))) ∧
    (a = 0 ∨ (1 ≤ w.toNat ∧ w.toNat ≤ 4096) → phaseBusy s c.gang = false →
      (∃ t q h, exec (.barArrive x a n) s = .next t ∧ t.mem = s.mem ∧ t.crewAt c.core = some q ∧
        (∀ j, q.barrier j = if j = n.toNat then arrived k else c.crew.barrier j) ∧ q.scratch = c.crew.scratch ∧
        q.gangs.find c.slot = some h ∧ h.wp = wp ∧ h.regs = c.gang.regs ∧
        ∀ l, c.mask.getLsbD l = true → h.fibre l = c.on s l) ∧
      (fresh → ∃ t q h, exec (.barSync x a n) s = .next t ∧ t.mem = s.mem ∧ t.crewAt c.core = some q ∧
        (∀ j, q.barrier j = if j = n.toNat then arrived k else c.crew.barrier j) ∧ q.scratch = c.crew.scratch ∧
        q.gangs.find c.slot = some h ∧ h.wp = wp ∧ h.regs = c.gang.regs ∧
        ((arrived k).ph ≠ b.ph → ∀ l, c.mask.getLsbD l = true → h.fibre l = c.on s l) ∧
        ((arrived k).ph = b.ph → ∀ l, c.mask.getLsbD l = true →
          (h.fibre l).hold = some (.phase n.toNat b.ph) ∧ (h.fibre l).pc = (c.gang.fibre l).pc))) ∧
    (let p : Bool := if a = 0 then c.gang.wp.getLsbD n.toNat else w.getLsbD 0
    waitsFor p →
      (b.ph ≠ p → exec (.barWait x a n) s = .next (finish c need (s.acquire c.core c.slot))) ∧
      (b.ph = p → exec (.barWait x a n) s = .next (holdUnit c (.phase n.toNat p) s))) ∧
    (a ≠ 0 → exec (.barExpect x a n) s = .next (finish c need (s.modCrew c.core fun r =>
      r.setBarrier n.toNat { r.barrier n.toNat with
        expb := ((r.barrier n.toNat).expb + w.toNat) % 2 ^ 32 }.check))))

/-- R203 to R206: the barrier check and the units on barriers. -/
def Obligations.Barriers : Prop :=
  Rules.BarrierCheck ∧ Rules.BarrierUnits

/-- R165, R196, R207: rclose makes its acting fibres arrive and wait; sstep closes the phase and does the same in a
launch with supersteps, outside worlds, and traps with cause 0x01 elsewhere. The other fibres of the group go on. -/
def Obligations.CollectiveArrivals : Prop :=
  ∀ (x : Pfx) (s : State) (c : UnitCtx),
    (let waits (i : Instr) (v : Arrival) : Prop :=
      ∃ t h, exec i s = .next t ∧ t.mem = s.mem ∧ t.gangAt c.core c.slot = some h ∧ h.regs = c.gang.regs ∧
        (∀ l ∈ c.lanes, (c.gang.fibre l).hold = none → (h.fibre l).hold = some (.arrival v c.nextPc) ∧
          (h.fibre l).pc = (c.gang.fibre l).pc ∧ (h.fibre l).live = true) ∧
        (∀ l, c.mask.getLsbD l = true → c.acts.getLsbD l = false → (c.gang.fibre l).hold = none → h.fibre l = c.on s l)
    (Clear x { feature := some 5 } s c → waits (.rclose x) .roundClose) ∧
    (Clear x { feature := some 2 } s c → c.acts ≠ 0 →
      (c.launch.rcd.flags.getLsbD 3 = true → c.crew.depth = 0 → phaseBusy s c.gang = false →
        waits (.sstep x) .superstep) ∧
      (c.launch.rcd.flags.getLsbD 3 = false ∨ c.crew.depth ≠ 0 →
        Gives (exec (.sstep x) s) (Traps c s { cause := 1, lane := c.low }))))

/-! ## Layouts and tiles (R209 to R218) -/

/-- R10, R210: lld and lst on the own scratchpad: lld gives the layout register the 64 bytes at its address, bits 7..6 of
CIRC as 0; lst writes the image's first 48 bytes and 16 bytes of 0 there, and no other byte. -/
def Rules.LayoutMoves : Prop :=
  ∀ (x : Pfx) (n : LReg) (a : Reg) (i : BitVec 11) (s : State) (c : UnitCtx),
    Clear x { regs := regsOf true a } s c → c.acts ≠ 0 →
    (let at_ : Addr := c.pair c.low a + BitVec.ofInt 64 (i.toInt * 64)
    let off : Nat := at_.toNat % 2 ^ 20
    pathOf at_ = 2 → zeroBitsOk at_ = true → at_.toNat % 64 = 0 → off + 64 ≤ c.crew.size →
    (s.poisoned c.core c.view (.pad c.core off) 64 = false →
      ∃ t q h, exec (.lld x n a i) s = .next t ∧ t.mem = s.mem ∧ t.host = s.host ∧ t.crewAt c.core = some q ∧
        q.scratch = c.crew.scratch ∧ q.gangs.find c.slot = some h ∧ h.regs = c.gang.regs ∧
        (∀ j, j < 64 → layByte (h.layout n.toNat) j =
          if j = 39 then c.crew.scratch.get 0 (off + 39) &&& 0x3f#8 else c.crew.scratch.get 0 (off + j)) ∧
        (∀ k, k ≠ n.toNat → h.layout k = c.gang.layout k) ∧ ∀ l, c.mask.getLsbD l = true → h.fibre l = c.on s l) ∧
    (∃ t q h, exec (.lst x n a i) s = .next t ∧ t.mem = s.mem ∧ t.host = s.host ∧ t.crewAt c.core = some q ∧
      (∀ o, q.scratch.get 0 o = if off ≤ o ∧ o < off + 48 then layByte (c.gang.layout n.toNat) (o - off)
        else if off ≤ o ∧ o < off + 64 then 0 else c.crew.scratch.get 0 o) ∧
      q.gangs.find c.slot = some h ∧ h.regs = c.gang.regs ∧ h.layouts = c.gang.layouts ∧
      ∀ l, c.mask.getLsbD l = true → h.fibre l = c.on s l))

/-- R209, R212, R213: lchain, lpart, ltrans, lflat and lswz give a layout register the image that their function makes of
another's, and leave the others and every general register as they were. -/
def Rules.LayoutForms : Prop :=
  ∀ (x : Pfx) (d a b : LReg) (r : Reg) (i j : BitVec 3) (s : State) (c : UnitCtx), c.acts ≠ 0 →
    (let image : BitVec 512 := c.gang.layout a.toNat
    ∀ (ins : Instr) (regs : List Nat) (f : Lay → Lay),
      (ins, regs, f) ∈ [(Instr.lchain x d a b, ([] : List Nat), fun l => l.chain (Lay.of (c.gang.layout b.toNat))),
        (.lpart x d a r, [r.toNat], fun l => l.part (c.word c.low r)), (.ltrans x d a j i, [], fun l => l.trans i.toNat j.toNat),
        (.lflat x d a i, [], fun l => l.flat i.toNat), (.lswz x d a r, regsOf true r, fun l => l.swz (c.pair c.low r))] →
      Clear x { regs := regs } s c →
      ∃ t h, exec ins s = .next t ∧ t.mem = s.mem ∧ t.host = s.host ∧ t.gangAt c.core c.slot = some h ∧
        h.regs = c.gang.regs ∧ h.layout d.toNat = (f (Lay.of image)).image image ∧
        (∀ k, k ≠ d.toNat → h.layout k = c.gang.layout k) ∧ ∀ l, c.mask.getLsbD l = true → h.fibre l = c.on s l)

/-- R212: lpart splits one mode in two, ltrans exchanges two, and lflat joins two whose steps fit; what cannot be formed
has NMODE 0. -/
def Rules.LayoutAlgebra : Prop :=
  ∀ (l : Lay) (m n i : Nat), l.ext.length = 6 → l.step.length = 6 → l.nmode ≤ 6 →
    (let w : Word := BitVec.ofNat 32 (n * 256 + m)
    let e (r : Lay) (k : Nat) : Nat := r.ext.getD k 0
    let st (r : Lay) (k : Nat) : Int := r.step.getD k 0
    (m < 6 → n < 256 →
      (2 ≤ n ∧ e l m % n = 0 ∧ m < l.nmode ∧ l.nmode < 6 ∧ l.circ.getLsbD m = false ∧ l.die ≠ m ∧ l.fits = true ∧
          -(2 ^ 31 : Int) ≤ st l m * (e l m / n : Nat) ∧ st l m * (e l m / n : Nat) < 2 ^ 31 →
        (l.part w).nmode = l.nmode + 1 ∧ e (l.part w) m = e l m / n ∧ e (l.part w) (m + 1) = n ∧
        st (l.part w) m = st l m ∧ st (l.part w) (m + 1) = st l m * (e l m / n : Nat) ∧
        (∀ k, k < m → e (l.part w) k = e l k ∧ st (l.part w) k = st l k) ∧
        (∀ k, m < k → k < 5 → e (l.part w) (k + 1) = e l k ∧ st (l.part w) (k + 1) = st l k)) ∧
      (n < 2 ∨ e l m % n ≠ 0 ∨ l.nmode ≤ m ∨ l.nmode = 6 ∨ l.circ.getLsbD m = true ∨ l.die = m → (l.part w).nmode = 0)) ∧
    (m < l.nmode → i < l.nmode →
      (l.trans m i).nmode = l.nmode ∧
      ∀ k, k < 6 → (let from_ : Nat := if k = m then i else if k = i then m else k
        e (l.trans m i) k = e l from_ ∧ st (l.trans m i) k = st l from_)) ∧
    (l.nmode ≤ m ∨ l.nmode ≤ i → (l.trans m i).nmode = 0) ∧
    (m + 1 < l.nmode → st l (m + 1) = st l m * (e l m : Nat) → e l m * e l (m + 1) ≤ 65535 →
      l.circ.getLsbD m = false → l.circ.getLsbD (m + 1) = false → l.die ≠ m → l.die ≠ m + 1 →
      (l.flat m).nmode = l.nmode - 1 ∧ e (l.flat m) m = e l m * e l (m + 1) ∧ st (l.flat m) m = st l m ∧
      (∀ k, k < m → e (l.flat m) k = e l k ∧ st (l.flat m) k = st l k) ∧
      (∀ k, m + 1 < k → k < 6 → e (l.flat m) (k - 1) = e l k ∧ st (l.flat m) (k - 1) = st l k)) ∧
    (l.nmode ≤ m + 1 ∨ st l (m + 1) ≠ st l m * (e l m : Nat) ∨ 65535 < e l m * e l (m + 1) → (l.flat m).nmode = 0))

/-- R216, R38: what %bankdeg reads as once a degree has been noted. -/
def degreeNoted (old : Word) (deg : Nat) : Word := BitVec.ofNat 32 (deg + 256 * max (old.toNat / 256 % 256) deg)

/-- R214, R215, R217: lchk sets its predicate true in the acting fibres exactly where the engine accepts the layout for a
base on the scratchpad path, and then notes the bank-conflict degree. -/
def Rules.LayoutChecks : Prop :=
  ∀ (x : Pfx) (p : PReg) (n : LReg) (e : Engine) (s : State) (c : UnitCtx), Clear x {} s c → c.acts ≠ 0 →
    (let lay : Lay := Lay.of (c.gang.layout n.toNat)
    let ok : Bool := lay.accepted e 2
    ∃ t h, exec (.lchk x p n e) s = .next t ∧ t.mem = s.mem ∧ t.host = s.host ∧ t.gangAt c.core c.slot = some h ∧
      h.regs = c.gang.regs ∧ h.layouts = c.gang.layouts ∧
      h.bankdeg = (if ok then degreeNoted c.gang.bankdeg (lay.degree 0x2000000000000000#64) else c.gang.bankdeg) ∧
      ∀ l, c.mask.getLsbD l = true → h.fibre l = c.onWith s p (fun _ => ok) l)

/-- Every piece of a tile lies in the own scratchpad. -/
def TileInPad (c : UnitCtx) (ps : List Lay.Piece) : Prop :=
  ∀ p ∈ ps, pathOf p.addr = 2 ∧ zeroBitsOk p.addr = true ∧ p.addr.toNat % 2 ^ 20 + p.size ≤ c.crew.size

/-- R218: byte i of the stream that the registers of the group from d hold. -/
def heldByte (c : UnitCtx) (d : Reg) (i : Nat) : Byte :=
  BitVec.ofNat 8 ((c.gang.reg 0 (i % 256 / 4) (d.toNat + i / 256)).toNat / 256 ^ (i % 4))

/-- R211, R218: byte i of the stream of a tile in the own scratchpad: for 4-bit data two elements, the first one low. -/
def tileByte (c : UnitCtx) (lay : Lay) (base : Addr) (i : Nat) : Byte :=
  let at_ (k : Nat) : Addr × Bool := lay.addrAt base (lay.offset k)
  let byte (v : Addr) : Byte := c.crew.scratch.get 0 (v.toNat % 2 ^ 20)
  let half (k : Nat) : BitVec 4 := if (at_ k).2 then (byte (at_ k).1).extractLsb' 4 4 else (byte (at_ k).1).extractLsb' 0 4
  if lay.ew = 2 then half (2 * i + 1) ++ half (2 * i)
  else byte ((at_ (i / lay.esize)).1 + BitVec.ofNat 64 (i % lay.esize))

/-- R218: ltile of an accepted layout on the own scratchpad gives word j of the stream to lane j mod 64 of register
d + j / 64, of the acting lanes, their shadows becoming 0, and notes the degree; a layout that the lanes do not accept
traps with cause 0x03. -/
def Rules.TileLoads : Prop :=
  ∀ (x : Pfx) (d a : Reg) (n : LReg) (s : State) (c : UnitCtx),
    Clear x { regs := regsOf true a ++ [d.toNat] } s c → c.acts ≠ 0 →
    (let lay : Lay := Lay.of (c.gang.layout n.toNat)
    let base : Addr := c.pair c.low a
    let k : Nat := lay.tileBits / 2048
    let group : Prop := d.toNat + k ≤ 128 ∧ ∀ l ∈ c.lanes, ∀ j, j < k → inAllocation c.w (c.gang.fibre l).wbase (d.toNat + j) = true
    (lay.accepted .lane (pathOf base) = false →
      ∀ i ∈ [Instr.ltile x d a n, .stile x d a n], Gives (exec i s) (Traps c s { cause := 3, lane := c.low })) ∧
    (lay.accepted .lane 2 = true → pathOf base = 2 → base.toNat % lay.align = 0 → (lay.ew = 2 → lay.endsOdd = false) →
      group → TileInPad c (lay.tile base) →
      (∀ p ∈ lay.tile base, s.poisoned c.core c.view (.pad c.core (p.addr.toNat % 2 ^ 20)) p.size = false) →
      ∃ t q h, exec (.ltile x d a n) s = .next t ∧ t.mem = s.mem ∧ t.host = s.host ∧ t.crewAt c.core = some q ∧
        q.scratch = c.crew.scratch ∧ q.gangs.find c.slot = some h ∧
        RegsWritten c (fun p l r =>
          if c.acts.getLsbD l = true ∧ p ≤ c.t ∧ r ≠ 0 ∧ d.toNat ≤ r ∧ r < d.toNat + k then
            (let first : Nat := 256 * (r - d.toNat) + 4 * l
            let b (j : Nat) : Byte := tileByte c lay base (first + j)
            some (if p = 0 then b 3 ++ b 2 ++ b 1 ++ b 0 else 0))
          else none) c.gang h ∧
        h.bankdeg = degreeNoted c.gang.bankdeg (lay.degree base) ∧ ∀ l, c.mask.getLsbD l = true → h.fibre l = c.on s l))

/-- What a byte reads as after writes of single halves, from what it read before. -/
def afterNibbles (ws : List (Nat × Bool × BitVec 4)) (a : Nat) (old : Byte) : Byte :=
  ws.foldl (fun b w => if w.1 = a then putNibble b w.2.1 w.2.2 else b) old

/-- R218: stile of an accepted layout on the own scratchpad stores each piece of the stream whose lane acts, in stream
order, at its place, and changes no other byte, no other scratchpad and no memory; it notes the degree. -/
def Rules.TileStores : Prop :=
  ∀ (x : Pfx) (d a : Reg) (n : LReg) (s : State) (c : UnitCtx),
    Clear x { regs := regsOf true a ++ [d.toNat] } s c → c.acts ≠ 0 →
    (let lay : Lay := Lay.of (c.gang.layout n.toNat)
    let base : Addr := c.pair c.low a
    let k : Nat := lay.tileBits / 2048
    let off (p : Lay.Piece) : Nat := p.addr.toNat % 2 ^ 20
    let mine : List Lay.Piece := (lay.tile base).filter fun p => c.acts.getLsbD (p.at_ % 256 / 4)
    lay.accepted .lane 2 = true → pathOf base = 2 → base.toNat % lay.align = 0 → (lay.ew = 2 → lay.endsOdd = false) →
    d.toNat + k ≤ 128 →
    (∀ l ∈ c.lanes, ∀ j, j < k → inAllocation c.w (c.gang.fibre l).wbase (d.toNat + j) = true) →
    TileInPad c (lay.tile base) →
    ∃ t q h, exec (.stile x d a n) s = .next t ∧ t.mem = s.mem ∧ t.views = s.views ∧ t.host = s.host ∧
      (∀ j, j ≠ c.core → t.crewAt j = s.crewAt j) ∧ t.crewAt c.core = some q ∧
      (∀ o, q.scratch.get 0 o =
        if lay.ew = 2 then
          afterNibbles (mine.map fun p => (off p, p.high,
            if p.nib = some true then (heldByte c d p.at_).extractLsb' 4 4 else (heldByte c d p.at_).extractLsb' 0 4))
            o (c.crew.scratch.get 0 o)
        else
          afterWrites (mine.flatMap fun p => (List.range p.size).map fun j => (off p + j, heldByte c d (p.at_ + j)))
            o (c.crew.scratch.get 0 o)) ∧
      q.gangs.find c.slot = some h ∧ h.regs = c.gang.regs ∧
      h.bankdeg = degreeNoted c.gang.bankdeg (lay.degree base) ∧ ∀ l, c.mask.getLsbD l = true → h.fibre l = c.on s l)

/-- R10, R38, R209 to R218: the units on layout registers and on tiles. -/
def Obligations.Layouts : Prop :=
  Rules.LayoutMoves ∧ Rules.LayoutForms ∧ Rules.LayoutAlgebra ∧ Rules.LayoutChecks

/-- R211, R215, R218: ltile and stile. -/
def Obligations.Tiles : Prop := Rules.TileLoads ∧ Rules.TileStores

/-! ## The matrix engine (R219 to R240) -/

/-- R219, R223: the command op has entered the queue of the crew, VR of the tiles it writes has gone up by one, and the
registers it will write are waited for. -/
def Queued (c : UnitCtx) (s : State) (op : MatOp) (tiles waits : List Nat) (t : State) : Prop :=
  t.mem = s.mem ∧ t.host = s.host ∧ t.engineOps = s.engineOps + 1 ∧
  ∃ q h, t.crewAt c.core = some q ∧
    q.matq = c.crew.matq ++ [{ op := op, num := s.engineOps, slot := c.slot, pc := c.pc, view := c.view }] ∧
    (∀ j, q.vrOf j = c.crew.vrOf j + if j ∈ tiles then 1 else 0) ∧ q.vc = c.crew.vc ∧ q.tiles = c.crew.tiles ∧
    q.sat = c.crew.sat ∧ q.scratch = c.crew.scratch ∧ q.gangs.find c.slot = some h ∧ h.regs = c.gang.regs ∧
    h.destWait = waits ∧ ∀ l, c.mask.getLsbD l = true → h.fibre l = c.on s l

/-- R219, R226, R228: mldb of an accepted B tile enters the queue and sets the slot's issue-side format and validity; a
rejected layout traps with cause 0x03; a full queue holds the group. -/
def Rules.LoadBIssue : Prop :=
  ∀ (x : Pfx) (sl : BitVec 1) (a : Reg) (n : LReg) (f : MFmt) (s : State) (c : UnitCtx),
    Clear x { regs := regsOf true a, collective := true } s c → waited c = false →
    (let image : BitVec 512 := c.gang.layout n.toNat
    let lay : Lay := Lay.of image
    let base : Addr := c.pair 0 a
    let shape : Bool := shapeOk lay f .bload (pathOf base) (384 / f.cells)
    (shape = false → Gives (exec (.mldb x sl a n f) s) (Traps c s { cause := 3, lane := 0 })) ∧
    (shape = true → tileCheck c s lay f (fun p => decide (p ≤ 2)) [base] = .ok →
      (c.crew.matq.length < 32 →
        Gives (exec (.mldb x sl a n f) s) fun t => Queued c s (.loadB sl.toNat base image f) [] [] t ∧
          ∃ q, t.crewAt c.core = some q ∧
            q.slotB sl.toNat = { c.crew.slotB sl.toNat with issueValid := true, issueFmt := f, parityLost := false }) ∧
      (32 ≤ c.crew.matq.length → exec (.mldb x sl a n f) s = .next (holdUnit c (.matrixFull []) s))))

/-- R230 to R233: mma, and mma.c where every core of the cluster holds a crew of the launch, enter the queue once every
check passes and every tile they write has reached the expected version; a tile that has not reached it holds the group,
and one that is past it traps with cause 0x12. -/
def Rules.MultiplyIssue : Prop :=
  ∀ (x : Pfx) (d : TileNo) (a b : Reg) (f : MFmt) (s : State) (c : UnitCtx),
    Clear x { regs := regsOf true a ++ [b.toNat], collective := true } s c → (c.gang.fibre 0).hold = none →
    (let m : MmaCtl := mmaCtl x
    let image : BitVec 512 := c.gang.layout m.lay
    let lay : Lay := Lay.of image
    let base : Addr := c.pair 0 a
    let planes : List Addr :=
      base :: (if readsTangents c then (List.range c.t).map fun k => tangentAddr c base (k + 1) else [])
    let e : BitVec 16 := (c.word 0 b).setWidth 16
    shapeOk lay f .afeed (pathOf base) m.k = true → tileCheck c s lay f (fun p => p == 2) planes = .ok →
    ∀ i coop, (i, coop) ∈ [(Instr.mma x d a b f, false), (.mmaC x d a b f, true)] →
    (coop = true → coopLegal c s = true) →
    ∀ n, slotCheck c m d.toNat f = .inl n →
      (let tiles : List Nat := writtenTiles c d.toNat n
      ((∃ t ∈ tiles, t < 24 ∧ 2 ^ 15 < (e - c.crew.vrOf t).toNat) →
        Gives (exec i s) (Traps c s { cause := 0x12, lane := c.low })) ∧
      ((∀ t ∈ tiles, t < 24 → (e - c.crew.vrOf t).toNat ≤ 2 ^ 15) → (∃ t ∈ tiles, t < 24 ∧ c.crew.vrOf t ≠ e) →
        exec i s = .next (holdUnit c (.version tiles e) s)) ∧
      ((∀ t ∈ tiles, t < 24 → c.crew.vrOf t = e) → tangentCheck c m d.toNat n = none → c.crew.matq.length < 32 →
        Gives (exec i s) (Queued c s (.multiply coop d.toNat n base image m.slot f m.k m.fe
          { dual := c.dual, k := c.dualK, withB := (c.crew.slotB (1 - m.slot)).issueValid } c.t c.gang.tanstride
          (c.gang.ctl.getLsbD 8)) tiles []))))

/-- R220, R235 to R238: the other units of the matrix engine: msca and mzero enter the queue and reserve no version,
mwrite reserves one of each tile it names, mread and mstat make their destinations wait; mver reads VR and VC at once,
and mwait goes on once the completed version has reached E. -/
def Rules.OtherMatrixUnits : Prop :=
  ∀ (x : Pfx) (tile n : TileNo) (d a b : Reg) (k : ScaleKind) (e : MElem) (s : State) (c : UnitCtx),
    (let v : Word := c.word 0 b
    let base : Addr := c.pair 0 a
    let room : Prop := c.crew.matq.length < 32
    let sel : List (Nat × Word) := c.lanes.map fun l => (l, c.word l a)
    let vals : List (Nat × Addr) := c.lanes.map fun l => (l, c.val l (MElem.wide e) d)
    let keys (w : Nat) : List (Nat × List Nat) := c.lanes.map fun l => (l, destKeys c l d w)
    let two : Nat := if MElem.wide e then 2 else 1
    let bytes : List Req := (List.range (scaleBytes k)).map fun j =>
      { lane := 0, idx := j, addr := base + BitVec.ofNat 64 j, size := 1 }
    (Clear x { regs := regsOf true a ++ [b.toNat], collective := true } s c → mscaDest v ≤ 23 → room →
      engineCheck s c.agent (fun p => decide (p ≤ 2)) (fun _ => true) (fun _ => base.toNat % 16 == 0) bytes = .ok →
      c.crew.vrOf tile.toNat = v.setWidth 16 →
      Gives (exec (.msca x tile a b k) s)
        (Queued c s (.scale tile.toNat (mscaDest v) base k (v.getLsbD 21) (c.gang.ctl.getLsbD 8)) [] [])) ∧
    (Clear x { collective := true } s c →
      (room → Gives (exec (.mzero x tile n) s) (Queued c s (.zero tile.toNat n.toNat) [] [])) ∧
      (¬room → exec (.mzero x tile n) s = .next (holdUnit c (.matrixFull []) s))) ∧
    (Clear x { regs := a.toNat :: regsOf (MElem.wide e) d } s c → c.acts ≠ 0 → (∀ l ∈ c.lanes, selTile (c.word l a) ≤ 23) → room →
      Gives (exec (.mread x d a e) s) (Queued c s (.read e c.mode sel (keys two)) [] ((keys two).flatMap fun q => q.2)) ∧
      (let tiles : List Nat := (sel.map fun q => selTile q.2).eraseDups
      Gives (exec (.mwrite x d a e) s) (Queued c s (.write e sel vals tiles) tiles []))) ∧
    (Clear x { regs := [d.toNat] } s c →
      Gives (exec (.mver x d tile) s) (Puts c s false d (wordOnly fun _ =>
        c.crew.vrOf tile.toNat ++ c.crew.vcOf tile.toNat)) ∧
      (c.acts ≠ 0 → room →
        Gives (exec (.mstat x d tile) s) (Queued c s (.stat tile.toNat (keys 1)) [] ((keys 1).flatMap fun q => q.2)))) ∧
    (Clear x { regs := [b.toNat] } s c → c.acts ≠ 0 →
      (let want : BitVec 16 := (c.word c.low b).setWidth 16
      ((c.crew.vcOf tile.toNat - want).toNat < 2 ^ 15 →
        exec (.mwait x tile b) s = .next (finish c { regs := [b.toNat], stall := true } (s.acquire c.core c.slot))) ∧
      (2 ^ 15 ≤ (c.crew.vcOf tile.toNat - want).toNat →
        exec (.mwait x tile b) s = .next (holdUnit c (.completed tile.toNat want) s)))))

/-- R219 to R240: the matrix units as they issue. -/
def Obligations.MatrixIssue : Prop := Rules.LoadBIssue ∧ Rules.MultiplyIssue ∧ Rules.OtherMatrixUnits

/-- The command m stands at the head of a core's matrix queue, and is held on no page that has not been resumed. -/
structure HeadCmd (core : Nat) (s : State) (c : Crew) (m : MatCmd) (w : Agent) : Prop where
  crew : s.crewAt core = some c
  head : c.matq.head? = some m
  agent : s.agentAt core = some w
  here : c.isAway m.num = false

/-- R219, R223: the head command has completed: it has left the queue, and VC of the tiles it names has gone up by one.
Scratchpads, memory and the reserved versions are as they were. -/
def Popped (core : Nat) (s : State) (c : Crew) (tiles : List Nat) (t : State) (q : Crew) : Prop :=
  t.mem = s.mem ∧ t.host = s.host ∧ t.crewAt core = some q ∧ q.matq = c.matq.drop 1 ∧ q.vr = c.vr ∧
  (∀ j, q.vcOf j = c.vcOf j + if j ∈ tiles then 1 else 0) ∧ q.scratch = c.scratch ∧ q.full = c.full

/-- R227, R373: mldb completes: the slot holds the elements of its tile, every other cell 0, is valid in the format and has
no row in error. -/
def Rules.LoadBCompletes : Prop :=
  ∀ (core slot : Nat) (base : Addr) (image : BitVec 512) (f : MFmt) (s : State) (c : Crew) (m : MatCmd) (w : Agent),
    HeadCmd core s c m w → m.op = .loadB slot base image f → slot < 2 →
    (let lay : Lay := Lay.of image
    f.block * lay.extOf 0 ≤ 384 → engineRead s w m.view (tileAddrs lay f base) = .ok →
    ∃ t q, exec (.mldbComplete core) s = .next t ∧ Popped core s c [] t q ∧ q.tiles = c.tiles ∧
      (q.slotB slot).valid = true ∧ (q.slotB slot).fmt = f ∧ (q.slotB slot).badRows = [] ∧
      ∀ n k, n < 384 → (q.slotB slot).cells.get 0 (k * 384 + n) =
        if n < f.block * lay.extOf 0 ∧ k < lay.extOf 1 then
          elemCode (engineByte s w m.view) lay f base (offset2 lay (n / f.block) k) (n % f.block)
        else 0)

/-- R42, R73, R74, R231, R239: a pass adds to each element of its span, in rows 0 .. M − 1, the products of its row of A and its
column of B, exactly and rounded as the formats say, and changes no other element. Of a primal pass it keeps the place of the
first NaN it delivers: the lowest row, and in it the lowest column across the span. -/
def Rules.MatrixPass : Prop :=
  ∀ (a : ATile) (p d nt : Nat) (b : BSlot) (tangent : Bool) (o : MatOut), a.rows ≤ 128 →
    (let av (i k : Nat) : Val := if k < a.cols then a.fmt.decode ((a.planes.getD p []).getD (i * a.cols + k) 0) else .zero false
    let bv (k n : Nat) : Val := b.fmt.decode (b.cells.get 0 (k * 384 + n))
    let r : MatOut := runPass a p b d nt tangent o
    (∀ i n, i < a.rows → n < 16 * nt →
      r.tiles.get 0 (tileKey (d + n / 16) i (n % 16)) =
        (accumulate (a.fmt.narrow && b.fmt.narrow) (wholeFmt a.fmt && wholeFmt b.fmt) (o.tiles.get 0 (tileKey (d + n / 16) i (n % 16)))
          ((List.range a.kdim).map (av i)) ((List.range a.kdim).map fun k => bv k n)).1) ∧
    (∀ tile i n, i < 128 → n < 16 → tile < d ∨ d + nt ≤ tile ∨ a.rows ≤ i →
      r.tiles.get 0 (tileKey tile i n) = o.tiles.get 0 (tileKey tile i n)) ∧
    (tangent = true → r.nan = o.nan) ∧ (o.nan ≠ none → r.nan = o.nan) ∧
    (tangent = false → o.nan = none →
      (let isNan (i n : Nat) : Prop := (aeVal (r.tiles.get 0 (tileKey (d + n / 16) i (n % 16)))).isNaN = true
      (∀ i n, r.nan = some (i, n) → i < a.rows ∧ n < 16 * nt ∧ isNan i n ∧
        ∀ j k, k < 16 * nt → j < i ∨ j = i ∧ k < n → ¬isNan j k) ∧
      (r.nan = none → ∀ i n, i < a.rows → n < 16 * nt → ¬isNan i n))))

/-- R222, R223, R231, R240: a multiply whose A tile can be read and whose slots are valid completes with its passes'
tiles and saturation counters, and ORs its flags into its squad; a B-macro row that goes into parity error beyond the K
rows it reads stays latent in the slot; one that it reads, latent or new, writes no tile, makes the slot invalid, for the
issue side too unless an mldb into it is queued (R228), and leaves a trap of cause 0x11 pending in its gang (R373). -/
def Rules.MultiplyCompletes : Prop :=
  ∀ (core d nt slot kdim t : Nat) (base stride : Addr) (image : BitVec 512) (f : MFmt) (fe record : Bool) (p : Passes)
      (s : State) (c : Crew) (m : MatCmd) (w : Agent),
    HeadCmd core s c m w → m.op = .multiply false d nt base image slot f kdim fe p t stride record → m.lead = none →
    m.fed = [] → m.fedBad = none →
    slot < 2 → d + nt * (1 + t) ≤ 24 →
    (let lay : Lay := Lay.of image
    let as : List Addr := aAddrs lay f base stride (planesOf p t)
    let a : ATile := readATile (engineByte s w m.view) lay f kdim fe base stride (planesOf p t) none
    let tiles : List Nat := multiplyTiles d nt t p
    fe = false ∨ linesFull c as = true → engineRead s w m.view as = .ok →
    (let both : Prop := (passList p t).any (fun q => q.2.1) = true
    let lost (i : Nat) : Prop := ∃ r ∈ (c.slotB i).badRows, r < kdim
    (c.slotB slot).valid = true → (both → (c.slotB (1 - slot)).valid = true) →
    (¬lost slot → (both → ¬lost (1 - slot)) → ∀ parity late, (parity = none ∧ late = []) ∨
        (∃ row, kdim ≤ row ∧ row < 128 ∧ parity = some (slot * 128 + row) ∧ late = [row]) →
      (let o : MatOut := runPasses c a slot d nt t p
      ∃ u q, exec (.mmaComplete core parity false) s = .next u ∧ Popped core s c tiles u q ∧ q.tiles = o.tiles ∧
        q.sat = o.sat ∧ (q.slotB slot).badRows = (c.slotB slot).badRows ++ late ∧
        (q.squad (m.slot % 4)).flags = (c.squad (m.slot % 4)).flags ||| o.fl ∧
        (q.squad (m.slot % 4)).tflags = (c.squad (m.slot % 4)).tflags ||| o.tfl)) ∧
    (∀ parity, (∃ row, row < kdim ∧ row < 128 ∧ parity = some (slot * 128 + row)) ∨ (parity = none ∧ lost slot) →
      ∃ u q, exec (.mmaComplete core parity false) s = .next u ∧
        Popped core s c tiles u q ∧ q.tiles = c.tiles ∧ q.sat = c.sat ∧ (q.slotB slot).valid = false ∧
        ((∀ x ∈ c.matq.drop 1, ∀ b i g, x.op ≠ .loadB slot b i g) →
          (q.slotB slot).issueValid = false ∧ (q.slotB slot).parityLost = true) ∧
        ∀ g, s.gangAt core m.slot = some g → g.born ≤ m.num → ∃ h, u.gangAt core m.slot = some h ∧
          h.pending = g.pending ++ [{ cause := 0x11, addr := 0, at_ := .tiles tiles }])))

/-- R42, R239: where the gang's NT was 1 when a multiply issued and its primal pass delivers a NaN, the completing command writes
%lastnan with the first NaN's tile, row and column, the version that the tile takes and the command's PC, and leaves cause
0x0b pending for its span, but only while V is 0; otherwise %lastnan stays. -/
def Rules.NansRecorded : Prop :=
  ∀ (core d nt slot kdim t : Nat) (base stride : Addr) (image : BitVec 512) (f : MFmt) (fe record : Bool) (p : Passes)
      (s : State) (c : Crew) (m : MatCmd) (w : Agent) (g : Gang),
    HeadCmd core s c m w → m.op = .multiply false d nt base image slot f kdim fe p t stride record → m.lead = none →
    m.fed = [] → m.fedBad = none → slot < 2 → d + nt * (1 + t) ≤ 24 → m.pc.toNat < 2 ^ 48 →
    s.gangAt core m.slot = some g → g.born ≤ m.num →
    (let lay : Lay := Lay.of image
    let as : List Addr := aAddrs lay f base stride (planesOf p t)
    let a : ATile := readATile (engineByte s w m.view) lay f kdim fe base stride (planesOf p t) none
    fe = false ∨ linesFull c as = true → engineRead s w m.view as = .ok → a.rows ≤ 128 →
    (∀ i, i < 2 → (c.slotB i).valid = true ∧ (c.slotB i).badRows = []) →
    ∃ u q h, exec (.mmaComplete core none false) s = .next u ∧ u.crewAt core = some q ∧ u.gangAt core m.slot = some h ∧
      (record = false ∨ g.lastnan.getLsbD 95 = true ∨ (runPasses c a slot d nt t p).nan = none →
        h.lastnan = g.lastnan ∧ h.pending = g.pending) ∧
      (∀ row col, record = true → g.lastnan.getLsbD 95 = false → (runPasses c a slot d nt t p).nan = some (row, col) →
        h.pending = g.pending ++ [{ cause := 0x0b, addr := 0, at_ := .tiles (multiplyTiles d nt t p) }] ∧
        h.lastnan.extractLsb' 112 16 = 0 ∧ h.lastnan.extractLsb' 96 16 = q.vcOf (d + col / 16) ∧
        h.lastnan.getLsbD 95 = true ∧ (h.lastnan.extractLsb' 88 7).toNat = d + col / 16 ∧
        (h.lastnan.extractLsb' 80 8).toNat = row ∧ (h.lastnan.extractLsb' 64 16).toNat = col ∧
        h.lastnan.extractLsb' 0 64 = m.pc))

/-- R232: a cooperative command that has the leader's A tile completes with it, or, where its own format, K or FE differs
from the leader's, with the canonical NaN in the rows of its span. -/
def Rules.CooperativeCompletes : Prop :=
  ∀ (core d nt slot kdim t : Nat) (base stride : Addr) (image : BitVec 512) (f : MFmt) (fe record : Bool) (p : Passes)
      (a : ATile) (s : State) (c : Crew) (m : MatCmd) (w : Agent),
    HeadCmd core s c m w → m.op = .multiply true d nt base image slot f kdim fe p t stride record → m.lead = some a →
    a.bad = none → slot < 2 → (c.slotB slot).valid = true → (∀ r ∈ (c.slotB slot).badRows, a.kdim ≤ r) →
    ((passList p t).any (fun q => q.2.1) = true →
      (c.slotB (1 - slot)).valid = true ∧ ∀ r ∈ (c.slotB (1 - slot)).badRows, a.kdim ≤ r) →
    (let tiles : List Nat := multiplyTiles d nt t p
    let o : MatOut := if a.fmt = f ∧ a.kdim = kdim ∧ a.waitFull = fe then runPasses c a slot d nt t p
      else runMismatch c a.rows d tiles nt
    ∃ u q, exec (.mmaComplete core none false) s = .next u ∧ Popped core s c tiles u q ∧ q.tiles = o.tiles ∧
      q.sat = o.sat ∧ (q.squad (m.slot % 4)).flags = (c.squad (m.slot % 4)).flags ||| o.fl)

/-- R232: once the mma.c of all eight cores of a cluster stand at their heads, and the leader's A can be read, with as many
tangent planes as any of the eight needs (log 58), every one of them gets the leader's A tile. -/
def Rules.CooperativeStep : Prop :=
  ∀ (cluster d nt slot kdim t : Nat) (base stride : Addr) (image : BitVec 512) (f : MFmt) (fe record : Bool) (p : Passes)
      (s : State) (c : Crew) (m : MatCmd) (w : Agent),
    HeadCmd (cluster * 8) s c m w → m.op = .multiply true d nt base image slot f kdim fe p t stride record →
    (∀ i, i < 8 → ∃ k, coopHead s (cluster * 8 + i) = some k) → m.fed = [] → m.fedBad = none →
    (let lay : Lay := Lay.of image
    let n : Nat := coopPlanes s ((List.range 8).map fun i => cluster * 8 + i)
    let as : List Addr := aAddrs lay f base stride n
    fe = false ∨ linesFull c as = true → engineRead s w m.view as = .ok →
    ∃ u, exec (.mmaCStepStart cluster) s = .next u ∧ u.mem = s.mem ∧ ∀ i, i < 8 → ∀ k b rest,
      s.crewAt (cluster * 8 + i) = some k → k.matq = b :: rest →
      ∃ q, u.crewAt (cluster * 8 + i) = some q ∧ q = { k with matq :=
        { b with lead := some (readATile (engineByte s w m.view) lay f kdim fe base stride n none) } :: rest })

/-- R235 to R238: the other commands complete: msca writes the scaled tile element by element, mzero clears its tiles and
their counters, mread and mstat write their destinations, which are no longer waited for, and mwrite converts each value
into its element, a later lane over an earlier one. -/
def Rules.OtherCommandsComplete : Prop :=
  ∀ (core : Nat) (s : State) (c : Crew) (m : MatCmd) (w : Agent), HeadCmd core s c m w →
    (∀ src dst base k acc record, m.op = .scale src dst base k acc record →
      (let as : List Addr := (List.range (scaleBytes k)).map fun j => base + BitVec.ofNat 64 j
      let old (t i n : Nat) : BitVec 48 := c.tiles.get 0 (tileKey t i n)
      let scaled (i n : Nat) : Val := (mulV (aeVal (old src i n)) (scaleFactor k (as.map (engineByte s w m.view)) i n)).v
      engineRead s w m.view as = .ok →
      ∃ t q, exec (.mscaComplete core false) s = .next t ∧ Popped core s c [] t q ∧
        (∀ i n, i < 128 → n < 16 → q.tiles.get 0 (tileKey dst i n) =
          (roundAe (if acc then (addV .rne (aeVal (old dst i n)) (scaled i n)).v else scaled i n)).1) ∧
        ∀ j, j / 2048 ≠ dst → q.tiles.get 0 j = c.tiles.get 0 j)) ∧
    (∀ d n, m.op = .zero d n →
      ∃ t q, exec (.mzeroComplete core) s = .next t ∧ Popped core s c [] t q ∧
        (∀ k v, (k, v) ∈ q.tiles ↔ (k, v) ∈ c.tiles ∧ ¬(d ≤ k / 2048 ∧ k / 2048 < d + n)) ∧
        ∀ k, q.sat.get 0 k = if d ≤ k ∧ k < d + n then 0 else c.sat.get 0 k) ∧
    (∀ e mode sel dests g, m.op = .read e mode sel dests → s.issuer core m.slot m.num = some g →
      (sel.map Prod.fst).Nodup → dests.map Prod.fst = sel.map Prod.fst → (dests.flatMap Prod.snd).Nodup →
      (let elem (v : Word) : Addr := (readElem e mode (c.tiles.get 0 (selKey v))).1
      let word (v : Word) (j : Nat) : Word := if j = 0 then (elem v).extractLsb' 0 32
        else if j = 1 ∧ MElem.wide e = true then (elem v).extractLsb' 32 32 else 0
      ∃ t q h, exec (.mreadComplete core false) s = .next t ∧ Popped core s c [] t q ∧ q.tiles = c.tiles ∧
        t.gangAt core m.slot = some h ∧
        (∀ (i l : Nat) (v : Word) (ks : List Nat) (j k : Nat), sel[i]? = some (l, v) → dests[i]? = some (l, ks) → ks[j]? = some k →
          (g.fibre l).live = true → h.regs.get 0 k = word v j) ∧
        (∀ k, k ∉ dests.flatMap Prod.snd → h.regs.get 0 k = g.regs.get 0 k) ∧
        ∀ k, k ∈ h.destWait ↔ k ∈ g.destWait ∧ k ∉ dests.flatMap Prod.snd)) ∧
    (∀ e sel vals tiles, m.op = .write e sel vals tiles → tiles.Nodup →
      ∃ t q, exec (.mwriteComplete core) s = .next t ∧ Popped core s c tiles t q ∧ q.sat = c.sat ∧
        ∀ k, q.tiles.get 0 k = (List.zip sel vals).foldl
          (fun v p => if selKey p.1.2 = k then writeElem e p.2.2 else v) (c.tiles.get 0 k)) ∧
    (∀ tile dests g, m.op = .stat tile dests → s.issuer core m.slot m.num = some g → (dests.flatMap Prod.snd).Nodup →
      ∃ t q h, exec (.mstatComplete core) s = .next t ∧ Popped core s c [] t q ∧ q.sat = c.sat ∧
        t.gangAt core m.slot = some h ∧
        (∀ (l : Nat) (ks : List Nat) (j k : Nat), (l, ks) ∈ dests → ks[j]? = some k → (g.fibre l).live = true →
          h.regs.get 0 k = if j = 0 then c.sat.get 0 tile else 0) ∧
        ∀ k, k ∉ dests.flatMap Prod.snd → h.regs.get 0 k = g.regs.get 0 k)

/-- R73, R74, R219 to R240: the matrix commands as they complete. -/
def Obligations.MatrixCompletion : Prop :=
  Rules.LoadBCompletes ∧ Rules.MatrixPass ∧ Rules.MultiplyCompletes ∧ Rules.NansRecorded ∧ Rules.CooperativeCompletes ∧
    Rules.CooperativeStep ∧ Rules.OtherCommandsComplete

/-! ## Copies and completion counters (R242 to R256, R369) -/

/-- R248, R256: cpy and cpym read their shape record and enter the copy queue with the operands of the lowest acting
fibre; a full queue holds the group; a cpym with no receiver only signals its counter, and one in a world traps. -/
def Rules.CopyIssue : Prop :=
  ∀ (x : Pfx) (d a b : Reg) (s : State) (c : UnitCtx), c.acts ≠ 0 →
    (let block (n : Nat) : List Nat := (List.range n).map (d.toNat + ·)
    let blk (i : Nat) : Word := c.gang.reg 0 c.low (d.toNat + i)
    let queued (i : Instr) (o : CopyOp) : Prop :=
      ∃ t q h, exec i s = .next t ∧ t.mem = s.mem ∧ t.host = s.host ∧ t.engineOps = s.engineOps + 1 ∧
        t.crewAt c.core = some q ∧ q.copies = c.crew.copies ++ [o] ∧ q.scratch = c.crew.scratch ∧
        q.gangs.find c.slot = some h ∧ h.regs = c.gang.regs ∧ ∀ l, c.mask.getLsbD l = true → h.fibre l = c.on s l
    let op (image : Option (List Byte)) (fail : Option (BitVec 16 × Addr)) : CopyOp :=
      { num := s.engineOps, slot := c.slot, store := false, multicast := none, shape := c.pair c.low a, image := image,
        fail := fail, origin := (List.range 5).map fun i => (blk i).toInt, offset := (blk 5).toNat,
        counter := c.pair c.low b, xf := x.x.extractLsb' 0 6, seed := c.seed, view := c.view }
    (Clear x { regs := block 6 ++ regsOf true a ++ regsOf true b } s c →
      (∀ image fail, c.crew.copies.length < 16 → readShape s c.agent c.view (c.pair c.low a) = .got image fail →
        queued (.cpyLoad x d a b) (op image fail) ∧ queued (.cpyStore x d a b) { op image fail with store := true }) ∧
      (16 ≤ c.crew.copies.length → ∀ i ∈ [Instr.cpyLoad x d a b, .cpyStore x d a b],
        exec i s = .next (holdUnit c .copyFull s))) ∧
    (Clear x { regs := block 8 ++ regsOf true a ++ regsOf true b } s c →
      (let need : Need := { regs := block 8 ++ regsOf true a ++ regsOf true b, stall := true }
      (c.crew.depth ≠ 0 → Gives (exec (.cpym x d a b) s) (Traps c s { cause := 1, lane := c.low })) ∧
      (c.crew.depth = 0 →
        (c.pair c.low b = 0 → ∀ u, s.signal c.agent c.view (blk 7 ++ blk 6) 0 0 = .done u →
          exec (.cpym x d a b) s = .next (finish c need u)) ∧
        (c.pair c.low b ≠ 0 → c.crew.copies.length < 16 →
          ∀ image fail, readShape s c.agent c.view (c.pair c.low a) = .got image fail →
            queued (.cpym x d a b) { op image fail with
              multicast := some (c.pair c.low b, (x.x.extractLsb' 6 5).toNat), counter := blk 7 ++ blk 6 })))))

/-- R248, R253, R369: the oldest waiting copy, while fewer than four are in flight, starts: where its checks pass its
read side is to be read, in the host window then in force (R398), and where there is nothing to read its chain runs at
once; where one fails it has nothing to write, and a trap of its status is pending. -/
def Rules.CopyStarts : Prop :=
  ∀ (core : Nat) (s : State) (c : Crew) (w : Agent) (o : CopyOp) (l : Loc) (image : List Byte),
    s.crewAt core = some c → s.agentAt core = some w → nextCopy c = some o → o.image = some image →
    counterPlace s w .engineWrite o.counter = .at_ l → copiesHeld s w c c.copies.length = false →
    (let j : CopyJob := o.job image
    let begun : CopyOp := { o with running := true, hwbase := s.window.hwbase, hwsize := s.window.hwsize, toRead := j.reads,
                                   writes := (planCopy s w o j (fun _ => 0)).writes }
    (checkCopy s w c.depth o j = .ok → j.reads ≠ [] →
      exec (.copyStart core) s = .next (s.modCopy core o.num fun _ => begun)) ∧
    (checkCopy s w c.depth o j = .ok → j.reads = [] →
      exec (.copyStart core) s = .next (finishReads core w begun j (s.modCopy core o.num fun _ => begun))) ∧
    (∀ st a, checkCopy s w c.depth o j = .fail st a →
      exec (.copyStart core) s = .next ((s.modCopy core o.num fun o =>
        { o with running := true, planned := true, toRead := [], writes := [], status := st }).pendIssuer
        core o.slot o.num { cause := statusCause st, addr := if st = 3 then 0 else a, at_ := .counter o.counter })))

/-- R251, R255: a copy in flight reads on, the elements that begin in one line at a time, each byte once; with the last
of them read, once no page that it is to write is absent, its writes, flags and saturations are those of the chain on the
bytes it read; its host accesses are those of the host window of its start (R398). -/
def Rules.CopyReads : Prop :=
  ∀ (core k : Nat) (s : State) (c : Crew) (w : Agent) (o : CopyOp) (image : List Byte),
    s.crewAt core = some c → s.agentAt core = some w → c.copies[k]? = some o → o.image = some image →
    o.running = true → o.planned = false → copiesHeld s w c (k + 1) = false →
    (let lineOf (as : List Addr) : Nat := (as.headD 0).toNat / 128
    let now : List (List Addr) := o.toRead.takeWhile fun as => lineOf as == lineOf (o.toRead.headD [])
    let j : CopyJob := o.job image
    let host (u : State) : State := { u with window := { u.window with hwbase := o.hwbase, hwsize := o.hwsize } }
    engineRead (host s) w o.view now.flatten = .ok →
    ∃ g : Map Byte,
      (∀ a : Addr, g.find a.toNat = if (o.got.find a.toNat).isNone ∧ a ∈ now.flatten then
        some (engineByte (host s) w o.view a) else o.got.find a.toNat) ∧
      (let read : CopyOp := { o with toRead := o.toRead.drop now.length, got := g }
      let u : State := s.modCopy core o.num fun _ => read
      let plan : CopyPlan := planCopy (host u) w read j fun a => g.get 0 a.toNat
      (read.toRead ≠ [] → exec (.copyLineLand core k) s = .next u) ∧
      (read.toRead = [] → (∀ pages, checkCopy (host u) w c.depth read j ≠ .wait pages) →
        (∀ va, checkCopy (host u) w c.depth read j ≠ .broken va) →
        exec (.copyLineLand core k) s = .next (u.modCopy core o.num fun p =>
          { p with planned := true, writes := plan.writes, flags := plan.fl, sat := plan.sat }))))

/-- R190, R255, R369: a line of a copy whose read side is read lands, unless an older copy has still to write it, or the
copies up to it hold, as they do on a line whose receiver is saved (R341): bytes in a scratchpad, whose line becomes full
where the copy fills it, and in a multicast count at the receiver's barrier; bytes of device memory go to their slice;
bytes of the host window of the copy's start are written. -/
def Rules.CopyLinesLand : Prop :=
  ∀ (core k : Nat) (s : State) (c : Crew) (g : Agent) (o : CopyOp) (w : CopyWrite) (ws : List CopyWrite),
    s.crewAt core = some c → s.agentAt core = some g → c.copies[k]? = some o → o.writes = w :: ws → o.running = true →
    o.planned = true →
    (let blocked : Prop := (∃ p ∈ c.copies.take k, ∃ v ∈ p.writes, v.line = w.line) ∨ copiesHeld s g c (k + 1) = true
    (w.holds s g.launch = true → blocked) ∧
    (blocked → exec (.copyLineLand core k) s = .next s) ∧
    (¬blocked →
      (∀ dest line bytes fill bar r, w = .pad dest line bytes fill bar → s.crewAt dest = some r → r.launch = g.launch →
        line < 4096 →
        ∃ t q, exec (.copyLineLand core k) s = .next t ∧ t.mem = s.mem ∧ t.host = s.host ∧ t.crewAt dest = some q ∧
          (∀ a, q.scratch.get 0 a = afterWrites bytes a (r.scratch.get 0 a)) ∧
          (∀ n, n < 4096 → (q.full.getLsbD n = true ↔ r.full.getLsbD n = true ∨ n = line ∧ fill = true)) ∧
          (∀ n, n < r.barriers.length →
            q.barrier n = if bar = some n then (r.barrier n).land bytes.length else r.barrier n)) ∧
      (∀ line bytes, w = .mem line bytes → o.view = 0 →
        ∃ t q, exec (.copyLineLand core k) s = .next t ∧ t.mem = s.mem ∧ t.host = s.host ∧
          t.slices = { s.slices with requests := s.slices.requests ++ [.write core o.num 0 0 bytes] } ∧
          t.crewAt core = some q ∧ q.copies = c.copies.map fun p =>
            if p.num = o.num then { p with writes := ws, acks := p.acks + 1 } else p) ∧
      (∀ line bytes, w = .host line bytes →
        ∃ t, exec (.copyLineLand core k) s = .next t ∧ t.mem = s.mem ∧
          ∀ a, t.host.get 0 a =
            afterWrites (bytes.map fun e => (o.hwbase.toNat + e.1, e.2)) a (s.host.get 0 a))))

/-- R243, R251: a copy whose writes are all performed ends: it leaves the queue, raises its flags in its squad and
signals its counter with its status and saturations. -/
def Rules.CopyEnds : Prop :=
  ∀ (core k : Nat) (s u : State) (c : Crew) (w : Agent) (o : CopyOp),
    s.crewAt core = some c → s.agentAt core = some w → c.copies[k]? = some o →
    ((o.planned = false ∨ o.writes ≠ [] ∨ o.acks ≠ 0 ∨ copiesHeld s w c (k + 1) = true) →
      exec (.copyEnd core k) s = .next s) ∧
    (o.planned = true → o.writes = [] → o.acks = 0 → copiesHeld s w c (k + 1) = false →
      s.signal w o.view o.counter o.status o.sat = .done u →
      ∀ r, u.crewAt core = some r →
        ∃ t q, exec (.copyEnd core k) s = .next t ∧ t.mem = u.mem ∧ t.crewAt core = some q ∧ q.scratch = r.scratch ∧
          q.copies = r.copies.filter (fun p => p.num ≠ o.num) ∧
          (q.squad (o.slot % 4)).flags = (r.squad (o.slot % 4)).flags ||| o.flags)

/-- The n bytes at an offset of a scratchpad, as a number. -/
def padNat (c : Crew) (off n : Nat) : Nat := natOfBytes ((List.range n).map fun j => c.scratch.get 0 (off + j))

/-- R242, R243: a signal counts the counter record down by one modulo 2^32, keeps the first status that is not 0, and
adds the saturations up to 65535; where the count is not 0 afterwards, or there is no successor, it does nothing else. -/
def Rules.CounterSignals : Prop :=
  ∀ (s : State) (c : Crew) (w : Agent) (view : Nat) (a : Addr) (status : BitVec 16) (sat : Nat),
    s.crewAt w.core = some c → c.launch = w.launch → pathOf a = 2 → a.toNat % 16 = 0 → zeroBitsOk a = true →
    s.isAwaiting w.ctx a = false → s.poisoned w.core view (.pad w.core (a.toNat % 2 ^ 20)) 16 = false →
    (let off : Nat := a.toNat % 2 ^ 20
    let count : Nat := (padNat c off 4 + 2 ^ 32 - 1) % 2 ^ 32
    off + 16 ≤ c.size → count ≠ 0 ∨ padNat c (off + 8) 8 = 0 →
    ∃ t q, s.signal w view a status sat = .done t ∧ t.mem = s.mem ∧ t.host = s.host ∧ t.crewAt w.core = some q ∧
      padNat q off 4 = count ∧
      padNat q (off + 4) 2 = (if padNat c (off + 4) 2 = 0 then status.toNat else padNat c (off + 4) 2) ∧
      padNat q (off + 6) 2 = min (padNat c (off + 6) 2 + sat) 65535 ∧
      (∀ o, o < off ∨ off + 8 ≤ o → q.scratch.get 0 o = c.scratch.get 0 o) ∧ q.gangs = c.gangs ∧ q.copies = c.copies)

/-- R245, R246: cwait goes on, as an acquire, once the count less its target is 0 or below as a signed value, and holds
its group before; cstat gives the status and saturations of the counter. -/
def Rules.CounterUnits : Prop :=
  ∀ (x : Pfx) (d a b : Reg) (s : State) (c : UnitCtx) (l : Loc), c.acts ≠ 0 →
    (let at_ : Addr := c.pair c.low a
    let u : State := match l with | .mem _ _ => s.fillTlb c.core c.launch.rcd.ctx c.priv .load at_ | _ => s
    counterPlace s c.agent .load at_ = .at_ l → u.poisoned c.core c.view l 16 = false →
    (Clear x { regs := regsOf true a ++ [b.toNat] } s c →
      (let left : Int := (BitVec.ofNat 32 (natOfBytes (u.peeks c.view l 4)) - c.word c.low b).toInt
      (left ≤ 0 → exec (.cwait x a b) s =
        .next (finish c { regs := regsOf true a ++ [b.toNat], stall := true } (u.acquire c.core c.slot))) ∧
      (0 < left → exec (.cwait x a b) s = .next (holdUnit c (.counter at_ (c.word c.low b)) u)))) ∧
    (Clear x { regs := regsOf true a ++ [d.toNat] } s c →
      ∃ t h, exec (.cstat x d a) s = .next t ∧ t.mem = s.mem ∧ t.host = s.host ∧ t.gangAt c.core c.slot = some h ∧
        RegsWritten c (c.putsIn c.acts false d (wordOnly fun _ =>
          BitVec.ofNat 32 (natOfBytes ((u.peeks c.view l 8).drop 4)))) c.gang h ∧
        ∀ k, c.mask.getLsbD k = true → h.fibre k = c.on s k))

/-- R242 to R256, R369: copies and their counters. -/
def Obligations.Copies : Prop :=
  Rules.CopyIssue ∧ Rules.CopyStarts ∧ Rules.CopyReads ∧ Rules.CopyLinesLand ∧ Rules.CopyEnds ∧ Rules.CounterSignals ∧ Rules.CounterUnits

/-! ## Queues and streams (R257 to R266) -/

/-- R259, R261: qpop and qpop.try give word i of the oldest entry to lane i of the acting lanes, as an acquire; on an
empty queue qpop holds its group and qpop.try clears its predicate; qstat gives the number of entries. -/
def Rules.QueuePops : Prop :=
  ∀ (x : Pfx) (d : Reg) (n : QReg) (p : PReg) (s : State) (c : UnitCtx), Clear x { regs := [d.toNat] } s c →
    (∀ e es, c.acts ≠ 0 → (c.crew.queueAt n.toNat).entries = e :: es →
      ∀ i fib, (i, fib) ∈ [(Instr.qpop x d n, c.on s), (.qpopTry x d n p, c.onWith s p fun _ => true)] →
        ∃ t q h, exec i s = .next t ∧ t.mem = s.mem ∧ t.crewAt c.core = some q ∧
          (q.queueAt n.toNat).entries = es ∧ (∀ j, j ≠ n.toNat → q.queueAt j = c.crew.queueAt j) ∧
          q.scratch = c.crew.scratch ∧ q.gangs.find c.slot = some h ∧ h.pts = max c.gang.pts s.ltime ∧
          RegsWritten c (c.putsIn c.acts false d (wordOnly fun l => e.getD l 0)) c.gang h ∧
          ∀ l, c.mask.getLsbD l = true → h.fibre l = fib l) ∧
    (c.acts ≠ 0 → (c.crew.queueAt n.toNat).entries = [] →
      exec (.qpop x d n) s = .next (holdUnit c (.popEmpty n.toNat) s) ∧
      Gives (exec (.qpopTry x d n p) s) (SetsPred c s p fun _ => false)) ∧
    Gives (exec (.qstat x d n) s) (Puts c s false d (wordOnly fun _ =>
      BitVec.ofNat 32 (c.crew.queueAt n.toNat).entries.length))

/-- R258, R260, R262: qpush and qpush.try put register a of all 64 lanes, one that lies outside its allocation as 0, at
the end of the queue that the handle names on the own core, in the running crew or in one bound to the core; a full queue
holds qpush and clears the predicate of qpush.try; a generation that no crew of the core has sends the entry to the dead
letters and leaves a trap of cause 0x08 pending; a push to another core goes on its way, the whole group waits for the
answer, and units that name the predicate of a try wait too (R46); behind one to the same queue that is still in flight
the group is held; a bad handle traps with cause 0x08. -/
def Rules.QueuePushes : Prop :=
  ∀ (x : Pfx) (p : PReg) (a b : Reg) (s : State) (c : UnitCtx), Clear x { regs := a.toNat :: regsOf true b } s c →
    c.acts ≠ 0 →
    (let hd : Addr := c.pair c.low b
    let idx : Nat := handleIndex hd
    let old : Queue := c.crew.queueAt idx
    let words : List Word := (List.range 64).map fun l =>
      if inAllocation c.w (c.gang.fibre l).wbase a.toNat then c.gang.reg 0 l a.toNat else 0
    let taken (t : State) (q : Crew) (fib : Nat → Fibre) : Prop := ∃ h, t.mem = s.mem ∧ t.crewAt c.core = some q ∧
      q.gangs.find c.slot = some h ∧ h.regs = c.gang.regs ∧ ∀ l, c.mask.getLsbD l = true → h.fibre l = fib l
    (handleOk 1 hd = false → ∀ i ∈ [Instr.qpush x a b, .qpushTry x p a b],
      Gives (exec i s) (Traps c s { cause := 8, lane := c.low })) ∧
    (handleOk 1 hd = true → s.isLocal c.core hd = true →
      (old.gen = handleGen hd → old.entries.length < 16 + old.back → idx < c.crew.queues.length →
        ∀ i fib, (i, fib) ∈ [(Instr.qpush x a b, c.on s), (.qpushTry x p a b, c.onWith s p fun _ => true)] →
          ∃ t q, exec i s = .next t ∧ taken t q fib ∧ q.queueAt idx = { old with entries := old.entries ++ [words] } ∧
            ∀ j, j ≠ idx → q.queueAt j = c.crew.queueAt j) ∧
      (∀ id k, s.findQueue hd = some (.parked id, k) → (k.queueAt idx).entries.length < 16 + (k.queueAt idx).back →
        ∀ i fib, (i, fib) ∈ [(Instr.qpush x a b, c.on s), (.qpushTry x p a b, c.onWith s p fun _ => true)] →
          ∃ t q, exec i s = .next t ∧ taken t q fib ∧ q.queues = c.crew.queues ∧
            t.parked = s.parked.map fun b => if b.id = id then
              { b with crew := b.crew.setQueue idx ((b.crew.queueAt idx).push words) } else b) ∧
      (s.queueFull hd = true →
        exec (.qpush x a b) s = .next (holdUnit c (.pushFull hd) s) ∧
        Gives (exec (.qpushTry x p a b) s) (SetsPred c s p fun _ => false)) ∧
      (s.findQueue hd = none →
        ∀ i fib, (i, fib) ∈ [(Instr.qpush x a b, c.on s), (.qpushTry x p a b, c.onWith s p fun _ => false)] →
          ∃ t q h, exec i s = .next t ∧ t.crewAt c.core = some q ∧ q.queues = c.crew.queues ∧
            t.device.dead = s.device.dead ++ [(c.core, entryBytes words)] ∧
            t.mgmt.deadLetters = min (s.mgmt.deadLetters + 1) (2 ^ 64 - 1) ∧ q.gangs.find c.slot = some h ∧
            h.pending = [{ cause := 8, addr := 0, at_ := .queueOps }] ∧
            ∀ l, c.mask.getLsbD l = true → h.fibre l = fib l)) ∧
    (handleOk 1 hd = true → s.isLocal c.core hd = false → c.crew.depth = 0 →
      ∀ i tr, (i, tr) ∈ [(Instr.qpush x a b, none), (.qpushTry x p a b, some (p, c.acts))] →
        (s.pushInFlight c.core c.slot hd = true → exec i s = .next (holdUnit c (.queueBusy hd) s)) ∧
        (s.pushInFlight c.core c.slot hd = false →
          ∃ t h, exec i s = .next t ∧ t.mem = s.mem ∧ t.packets = s.packets ++ [.entry hd words c.core c.slot c.mask tr] ∧
            t.gangAt c.core c.slot = some h ∧ h.regs = c.gang.regs ∧ h.destWait = tryKeys tr ∧
            ∀ l, c.mask.getLsbD l = true → (c.gang.fibre l).hold = none →
              (h.fibre l).hold = some (.answer c.nextPc true) ∧ (h.fibre l).pc = (c.gang.fibre l).pc)))

/-- The fibres of a group that waited for an answer go on at their next unit, those of an acting mask with predicate p set
where the push was a try; the other fibres of the gang are as they were. -/
def Answered (group : BitVec 64) (p : Option (PReg × BitVec 64)) (v : Bool) (g h : Gang) : Prop :=
  ∀ (l : Nat) (f : Fibre), g.fibres[l]? = some f →
    (group.getLsbD l = false → h.fibre l = f) ∧
    ∀ next e, group.getLsbD l = true → f.hold = some (.answer next e) →
      (h.fibre l).pc = next ∧ (h.fibre l).hold = none ∧ (h.fibre l).live = f.live ∧
      (h.fibre l).pred = (match p with
        | some q => if q.2.getLsbD l = true then setPred f.pred q.1.toNat v else f.pred
        | none => f.pred)

/-- R260, R262: the only queue packet in flight arrives: a queue with room takes it at its end, a full one refuses a
qpush.try, and one whose generation has changed sends it to the dead letters; the group that sent it goes on each time. -/
def Rules.QueuePackets : Prop :=
  ∀ (hd : Addr) (ws : List Word) (core slot : Nat) (group : BitVec 64) (tr : Option (PReg × BitVec 64)) (s : State)
      (g : Gang),
    s.packets = [.entry hd ws core slot group tr] → s.gangAt core slot = some g → g.awaits group = true →
    (let gone (v : Bool) (t : State) : Prop := t.packets = [] ∧ ∃ h, t.gangAt core slot = some h ∧ Answered group tr v g h
    (∀ dest r, arrives s hd tr.isSome = .taken (.running dest) → s.crewAt dest = some r →
      handleIndex hd < r.queues.length →
      ∃ t q, exec .queuePacketArrival s = .next t ∧ gone true t ∧ t.crewAt dest = some q ∧
        (q.queueAt (handleIndex hd)).entries = (r.queueAt (handleIndex hd)).entries ++ [ws]) ∧
    (arrives s hd tr.isSome = .refused → ∃ t, exec .queuePacketArrival s = .next t ∧ gone false t) ∧
    (arrives s hd tr.isSome = .mismatch →
      ∃ t h, exec .queuePacketArrival s = .next t ∧ gone false t ∧ t.gangAt core slot = some h ∧
        t.device.dead = s.device.dead ++ [(handleCore hd, entryBytes ws)] ∧
        h.pending = g.pending ++ [{ cause := 8, addr := 0, at_ := .queueOps }]))

/-- R263, R264, R266: strm reads its program and starts it in the idle slot with eight vectors of zeros; a busy slot
holds the group and a program outside R263 and R264 traps with cause 0x01; strm.stop marks the program, and strm.wait
holds its group until the slot is idle. -/
def Rules.StreamUnits : Prop :=
  ∀ (x : Pfx) (a b : Reg) (s : State) (c : UnitCtx), c.acts ≠ 0 →
    (Clear x { regs := regsOf true a ++ regsOf true b, feature := some 4 } s c →
      (let at_ : Addr := c.pair c.low a
      (c.crew.stream.isSome = true → exec (.strm x a b) s = .next (holdUnit c .streamBusy s)) ∧
      (c.crew.stream = none → ∀ head, readProgram s c at_ 16 = .got head →
        (headerOk head = false → Gives (exec (.strm x a b) s) (Traps c s { cause := 1, lane := c.low })) ∧
        (headerOk head = true → ∀ bs, readProgram s c at_ (16 + 32 * recNat head 2 1 + 8 * recNat head 1 1) = .got bs →
          (programOk bs = false → Gives (exec (.strm x a b) s) (Traps c s { cause := 1, lane := c.low })) ∧
          (programOk bs = true →
            ∃ t q h, exec (.strm x a b) s = .next t ∧ t.mem = s.mem ∧ t.crewAt c.core = some q ∧
              q.stream = some (streamOf bs (c.pair c.low b) s.engineOps c.slot c.view) ∧
              q.gangs.find c.slot = some h ∧ h.regs = c.gang.regs ∧ ∀ l, c.mask.getLsbD l = true → h.fibre l = c.on s l))))) ∧
    (Clear x { feature := some 4 } s c →
      (∃ t q h, exec (.strmStop x) s = .next t ∧ t.mem = s.mem ∧ t.crewAt c.core = some q ∧
        q.stream = c.crew.stream.map (fun t => { t with stop := true }) ∧ q.gangs.find c.slot = some h ∧
        h.regs = c.gang.regs ∧ ∀ l, c.mask.getLsbD l = true → h.fibre l = c.on s l) ∧
      (c.crew.stream = none → Gives (exec (.strmWait x) s) (Moves c s (c.on s))) ∧
      (c.crew.stream.isSome = true → exec (.strmWait x) s = .next (holdUnit c .streamRuns s)))

/-- R264, R265, R374: the stream slot performs loads of its point and of up to eight later ones (how many is a free value,
log 140) and then the micro-operations of its point in order, and goes to the next point, loop 0 fastest, or ends after the
last one or when it was stopped; a load performed ahead gives its vector then; the register operations combine their two
vectors word by word, and PUSH puts a vector at the end of a queue of the core that has room. -/
def Rules.StreamPoints : Prop :=
  ∀ (core : Nat) (s : State) (c : Crew) (w : Agent) (t : Stream), s.crewAt core = some c → s.agentAt core = some w →
    (c.stream = some t → c.ending = none → c.preempt = none ∨ t.next ≠ 0 → c.isAway t.num = false →
      ∃ n, n ≤ 8 ∧
        (let u : State := runPoint core c w (t.ops.drop t.next) { t with ahead := runAhead core c w s (n + 1) t } s
        (u = s → exec (.streamIterationPoint core) s = .next s) ∧
        (u ≠ s → exec (.streamIterationPoint core) s = .next { u with drawn := u.drawn + 1 }))) ∧
    (∃ q, (runPoint core c w [] t s).crewAt core = some q ∧ q.queues = c.queues ∧
      (t.stop = true ∨ nextPoint t.at_ t.lext = none → q.stream = none) ∧
      ∀ at_, t.stop = false → nextPoint t.at_ t.lext = some at_ →
        q.stream = some { t with at_ := at_, next := 0, ahead := t.ahead.filter fun e => e.1 ≠ t.at_ }) ∧
    (∀ o os ws, StreamOp.opc o = 0x01 ∨ StreamOp.opc o = 0x02 → t.loaded = some ws → ws.length = 64 →
      ∃ u : Stream, runPoint core c w (o :: os) t s = runPoint core c w os u s ∧ u.next = t.next + 1 ∧ u.at_ = t.at_ ∧
        ∀ v l, l < 64 → u.word v l = if v = StreamOp.vd o then ws.getD l 0 else t.word v l) ∧
    (∀ o os, ∀ n f, (n, f) ∈ [(0x03, fun u v : Word => u + v), (0x04, fun u v => u - v), (0x05, fun u v => u * v),
        (0x06, fun u v => u &&& v), (0x07, fun u v => u ||| v), (0x08, fun u v => u ^^^ v),
        (0x09, fun u _ => u + StreamOp.imm o)] → StreamOp.opc o = n →
      ∃ u : Stream, runPoint core c w (o :: os) t s = runPoint core c w os u s ∧ u.next = t.next + 1 ∧ u.at_ = t.at_ ∧
        ∀ v l, l < 64 → u.word v l =
          if v = StreamOp.vd o then f (t.word (StreamOp.va o) l) (t.word (StreamOp.vb o) l) else t.word v l) ∧
    (∀ o os, StreamOp.opc o = 0x20 → (StreamOp.imm o).toNat < c.queues.length → c.queues.length ≤ 8 →
      (let n : Nat := (StreamOp.imm o).toNat
      (c.queueAt n).entries.length < 16 + (c.queueAt n).back →
      ∃ u q, runPoint core c w (o :: os) t s = runPoint core c w os { t with next := t.next + 1 } u ∧
        u.crewAt core = some q ∧
        (q.queueAt n).entries = (c.queueAt n).entries ++ [(List.range 64).map fun l => t.word (StreamOp.va o) l] ∧
        ∀ j, j ≠ n → q.queueAt j = c.queueAt j))

/-- R257 to R266: queues and the stream slot. -/
def Obligations.QueuesAndStreams : Prop :=
  Rules.QueuePops ∧ Rules.QueuePushes ∧ Rules.QueuePackets ∧ Rules.StreamUnits ∧ Rules.StreamPoints

/-! ## Tasks, lists, calm and roles (R267 to R272, R359 to R364) -/

/-- R268: tspawn to the own core's queue puts the record with its view tag at the queue's end and gives 0; a full queue
holds the group; a record outside R267's ranges is sent nowhere, gives 2 and leaves a trap of cause 0x03 pending (R244);
one that a world sends out of its cluster waits in the effect queue and gives 1; one for another core goes on its way, the
whole group waits for the answer, and units that name the destination wait too (R46). -/
def Rules.TaskSends : Prop :=
  ∀ (x : Pfx) (d a b : Reg) (s : State) (c : UnitCtx) (l : Loc),
    Clear x { regs := regsOf true a ++ regsOf true b ++ [d.toNat] } s c → c.acts ≠ 0 →
    (let hd : Addr := c.pair c.low b
    let r : List Byte := s.peeks c.view l 64
    let gives (v : Word) (t : State) : Prop := ∃ h, t.gangAt c.core c.slot = some h ∧
      RegsWritten c (c.putsIn c.acts false d (wordOnly fun _ => v)) c.gang h ∧
      ∀ k, c.mask.getLsbD k = true → h.fibre k = c.on s k
    (handleOk 2 hd = false → Gives (exec (.tspawn x d a b) s) (Traps c s { cause := 8, lane := c.low })) ∧
    (handleOk 2 hd = true → recordPlace s c.agent .load 64 (c.pair c.low a) = .at_ l → s.poisoned c.core c.view l 64 = false →
      (recordOk r = false → recSucc r = 0 → ∃ t h, exec (.tspawn x d a b) s = .next t ∧ gives 2 t ∧ t.mem = s.mem ∧
        t.gangAt c.core c.slot = some h ∧ h.pending = [{ cause := 3, addr := 0, at_ := .counter 0 }]) ∧
      (recordOk r = true → c.crew.depth = 0 ∨ s.inCluster c.core hd = true → s.isLocal c.core hd = true →
        c.crew.tasks.gen = handleGen hd →
        (c.crew.tasks.recs.length < c.crew.tasks.cap →
          ∃ t q, exec (.tspawn x d a b) s = .next t ∧ gives 0 t ∧ t.crewAt c.core = some q ∧
            q.tasks.recs = c.crew.tasks.recs ++
              [{ bytes := tagRecord r c.view, addr := s.taskBase + BitVec.ofNat 64 (s.taskCopy - Config.pinnedCopies) }] ∧
            q.scratch = c.crew.scratch ∧ ∀ m, m < s.taskCopy ∨ s.taskCopy + 64 ≤ m → t.mem.get 0 m = s.mem.get 0 m) ∧
        (c.crew.tasks.cap ≤ c.crew.tasks.recs.length →
          exec (.tspawn x d a b) s = .next (holdUnit c (.taskFull hd) s))) ∧
      (recordOk r = true → c.crew.depth ≠ 0 → s.inCluster c.core hd = false → c.crew.effects.length < 64 →
        ∃ t q, exec (.tspawn x d a b) s = .next t ∧ gives 1 t ∧ t.mem = s.mem ∧ t.crewAt c.core = some q ∧
          q.effects = c.crew.effects ++ [.send hd (tagRecord r c.view)]) ∧
      (recordOk r = true → c.crew.depth = 0 ∨ s.inCluster c.core hd = true → s.isLocal c.core hd = false →
        (s.pushInFlight c.core c.slot hd = true → exec (.tspawn x d a b) s = .next (holdUnit c (.queueBusy hd) s)) ∧
        (s.pushInFlight c.core c.slot hd = false →
          (let keys : List Nat := c.lanes.flatMap fun l => destKeys c l d 1
          ∃ t h, exec (.tspawn x d a b) s = .next t ∧ t.mem = s.mem ∧
            t.packets = s.packets ++ [.task hd (tagRecord r c.view) c.core c.slot c.mask keys] ∧
            t.gangAt c.core c.slot = some h ∧ h.regs = c.gang.regs ∧ h.destWait = keys ∧
            ∀ k, c.mask.getLsbD k = true → (c.gang.fibre k).hold = none →
              (h.fibre k).hold = some (.answer c.nextPc false) ∧ (h.fibre k).pc = (c.gang.fibre k).pc)))))

/-- R262, R268: the only task record in flight arrives at its queue, or, where no crew of the core has the queue's
generation, goes to the dead letters, and the group that sent it goes on with status 0; a record for a full queue goes back
to the group, which waits at its tspawn. -/
def Rules.TaskArrivals : Prop :=
  ∀ (hd : Addr) (r : List Byte) (core slot : Nat) (group : BitVec 64) (keys : List Nat) (s : State) (g : Gang),
    s.packets = [.task hd r core slot group keys] → s.gangAt core slot = some g → g.awaits group = true →
    handleSpan hd = s.span.rank.toNat → handleKind hd = 2 →
    (let answered (h : Gang) : Prop := Answered group none true g h ∧
      ∀ k, h.regs.get 0 k = if k ∈ keys then 0 else g.regs.get 0 k
    (∀ dest k, s.findQueue hd = some (.running dest, k) → s.crewAt dest = some k → k.tasks.recs.length < k.tasks.cap →
      ∃ t q h, exec .taskRecordArrival s = .next t ∧ t.packets = [] ∧ t.crewAt dest = some q ∧
        q.tasks.recs = k.tasks.recs ++
          [{ bytes := r, addr := s.taskBase + BitVec.ofNat 64 (s.taskCopy - Config.pinnedCopies) }] ∧
        t.gangAt core slot = some h ∧ answered h) ∧
    (∀ dest k, s.findQueue hd = some (dest, k) → k.tasks.cap ≤ k.tasks.recs.length →
      ∃ t h, exec .taskRecordArrival s = .next t ∧ t.packets = [] ∧ t.gangAt core slot = some h ∧ h.regs = g.regs ∧
        ∀ (l : Nat) (f : Fibre), g.fibres[l]? = some f → group.getLsbD l = true → f.waitsAnswer = true →
          (h.fibre l).hold = some (.taskFull hd) ∧ (h.fibre l).pc = f.pc) ∧
    (s.findQueue hd = none → recSucc r = 0 → (∀ e ∈ s.waiting, e.addr ≠ 0) →
      ∃ t h, exec .taskRecordArrival s = .next t ∧ t.packets = [] ∧
        t.device.dead = s.device.dead ++ [(handleCore hd, r)] ∧ t.gangAt core slot = some h ∧ answered h))

/-- R19, R267, R359: the record of the lowest PRIO starts as a task gang in the squad and slot that take it: its first
FIBRES lanes live, at ENTRY, with ARG in g2:g3 and the record's copy in g4:g5. -/
def Rules.TaskGangs : Prop :=
  ∀ (core squad slot view : Nat) (s : State) (c : Crew) (r : TaskRec) (l : Launch),
    s.crewAt core = some c → nextTask c.tasks = some r → s.launchOf c.launch = some l → c.mayStart l = true →
    taskView 8 s (recNat r.bytes 40 2) = some view → taskSquad c l.rcd = some squad → c.freeSlot squad = some slot →
    ∃ t q h, exec (.taskGangStart core) s = .next t ∧ t.mem = s.mem ∧ t.crewAt core = some q ∧
      q.tasks.recs = c.tasks.recs.erase r ∧ q.gangs.find slot = some h ∧
      (∀ k, k ≠ slot → q.gangs.find k = c.gangs.find k) ∧
      h.task = some { record := r.addr, succ := recSucc r.bytes, view := view } ∧
      (∀ i, i < 64 → (h.fibre i).live = decide (i < recNat r.bytes 28 2) ∧ (h.fibre i).pc = recEntry r.bytes ∧
        (h.fibre i).wbase = 0 ∧ (h.fibre i).pred = 1 ∧
        h.reg64 0 i 2 = BitVec.ofNat 64 (recNat r.bytes 8 8) ∧ h.reg64 0 i 4 = r.addr) ∧
      h.ctl = l.rcd.ctl &&& 0xffffffff000001fb#64 ∧ h.pending = [] ∧ h.layouts = []

/-- R270: append adds the acting lanes' items to their lists in lane order while no list that it names is full, and holds its
group where one is; a run that begins while there is room enters whole (log 128);
drain takes the oldest items lane by lane; a list number above 255 traps, and so do both in a world. -/
def Rules.Lists : Prop :=
  (∀ (x : Pfx) (d a b : Reg) (p : PReg) (s : State) (c : UnitCtx), c.acts ≠ 0 →
    (let items (n : Nat) : List Word := (c.lanes.filter fun l => (c.word l b).toNat = n).map fun l => c.word l a
    let list (n : Nat) : List Word := c.launch.lists.get [] n
    (Clear x { regs := [a.toNat, b.toNat] } s c →
      (c.crew.depth ≠ 0 → Gives (exec (.append x a b) s) (Traps c s { cause := 1, lane := c.low })) ∧
      (∀ l ∈ c.lanes, c.crew.depth = 0 → 255 < (c.word l b).toNat → (∀ k ∈ c.lanes, k < l → (c.word k b).toNat ≤ 255) →
        Gives (exec (.append x a b) s) (Traps c s { cause := 1, lane := l })) ∧
      (c.crew.depth = 0 → (∀ l ∈ c.lanes, (c.word l b).toNat ≤ 255) →
        (∀ n, items n ≠ [] → (list n).length < listCap c.launch) →
        ∃ t k h, exec (.append x a b) s = .next t ∧ t.mem = s.mem ∧ t.launchOf c.launch.num = some k ∧
          (∀ n, k.lists.get [] n = list n ++ items n) ∧ t.gangAt c.core c.slot = some h ∧ h.regs = c.gang.regs ∧
          ∀ l, c.mask.getLsbD l = true → h.fibre l = c.on s l) ∧
      (c.crew.depth = 0 → (∀ l ∈ c.lanes, (c.word l b).toNat ≤ 255) → ∀ n, items n ≠ [] →
        listCap c.launch ≤ (list n).length → ∃ ns, n ∈ ns ∧ exec (.append x a b) s = .next (holdUnit c (.listFull ns) s))) ∧
    (Clear x { regs := [a.toNat, d.toNat] } s c →
      (c.crew.depth ≠ 0 → Gives (exec (.drain x d a p) s) (Traps c s { cause := 1, lane := c.low })) ∧
      (∀ l ∈ c.lanes, c.crew.depth = 0 → 255 < (c.word l a).toNat → (∀ k ∈ c.lanes, k < l → (c.word k a).toNat ≤ 255) →
        Gives (exec (.drain x d a p) s) (Traps c s { cause := 1, lane := l }))) ∧
    (Clear x { regs := [a.toNat, d.toNat] } s c → c.crew.depth = 0 → (∀ l ∈ c.lanes, (c.word l a).toNat ≤ 255) →
      (let r := drainLanes (fun l => (c.word l a).toNat) c.lanes c.launch.lists
      ∃ t k h, exec (.drain x d a p) s = .next t ∧ t.mem = s.mem ∧ t.launchOf c.launch.num = some k ∧ k.lists = r.2 ∧
        t.gangAt c.core c.slot = some h ∧
        RegsWritten c (fun q l n => match (r.1.find? fun e => e.1 == l).bind Prod.snd with
          | some v => c.putsIn c.acts false d (wordOnly fun _ => v) q l n
          | none => none) c.gang h ∧
        ∀ l, c.mask.getLsbD l = true →
          h.fibre l = c.onWith s p (fun l => ((r.1.find? fun e => e.1 == l).bind Prod.snd).isSome) l)))) ∧
  (∀ (of : Nat → Nat) (lanes : List Nat) (m : Map (List Word)) (n : Nat),
    (let r := drainLanes of lanes m
    let k : Nat := (lanes.filter fun l => of l = n).length
    (r.1.filter fun e => of e.1 = n).map Prod.snd =
      ((m.get [] n).take k).map some ++ List.replicate (k - (m.get [] n).length) none ∧
    r.2.get [] n = (m.get [] n).drop k))

/-- R271, R361, R389: calmwait makes its group wait, or traps in a world. A sweep of a calm launch asks every core that runs
a crew of it, and is over once each has answered; the first keeps its counts, the next begins 256 cycles later, and where
that one finds the same counts it releases every fibre held in calmwait. A launch that is not calm begins again. -/
def Rules.Calm : Prop :=
  (∀ (x : Pfx) (s : State) (c : UnitCtx), Clear x {} s c → c.acts ≠ 0 →
    (c.crew.depth ≠ 0 → Gives (exec (.calmwait x) s) (Traps c s { cause := 1, lane := c.low })) ∧
    (c.crew.depth = 0 →
      ∃ t h, exec (.calmwait x) s = .next t ∧ t.mem = s.mem ∧ t.gangAt c.core c.slot = some h ∧ h.regs = c.gang.regs ∧
        ∀ l, c.mask.getLsbD l = true → (c.gang.fibre l).hold = none →
          (h.fibre l).hold = some (.calm c.nextPc) ∧ (h.fibre l).pc = (c.gang.fibre l).pc)) ∧
  (∀ (n : Nat) (s : State) (l : Launch), s.launchOf n = some l →
    (s.answering n ≠ [] → ∃ t k, exec (.calmSweep n) s = .next t ∧ t.crews = s.crews ∧ t.launchOf n = some k ∧
      k = { l with polled := l.polled.map fun p => p.filter fun core => !(s.answering n).contains core }) ∧
    (s.answering n = [] →
      (s.calm l = false → ∃ t k, exec (.calmSweep n) s = .next t ∧ t.crews = s.crews ∧ t.launchOf n = some k ∧
        k = { l with sweep := none, polled := none }) ∧
      (s.calm l = true → l.polled = none → (∀ first sent acc, l.sweep = some (first, sent, acc) → first + 256 ≤ s.clock.toNat) →
        ∃ t k cores, exec (.calmSweep n) s = .next t ∧ t.crews = s.crews ∧ t.launchOf n = some k ∧
          k = { l with polled := some cores } ∧ (∀ core, core ∈ cores ↔ ∃ c, (core, c) ∈ s.crews ∧ c.launch = n) ∧
          (cores.Nodup → ∀ core ∈ cores, (t.coreAt core).ctl = (s.coreAt core).ctl ++ [.calmSweep n])) ∧
      (∀ first sent acc, s.calm l = true → l.polled = none → l.sweep = some (first, sent, acc) → s.clock.toNat < first + 256 →
        exec (.calmSweep n) s = .next s) ∧
      (∀ core cores, s.calm l = true → l.polled = some (core :: cores) → exec (.calmSweep n) s = .next s) ∧
      (s.calm l = true → l.polled = some [] → l.sweep = none → ∃ t k, exec (.calmSweep n) s = .next t ∧ t.crews = s.crews ∧
        t.launchOf n = some k ∧ k = { l with polled := none, sweep := some (s.clock.toNat, l.sent, l.accepted) }) ∧
      (∀ first, s.calm l = true → l.polled = some [] → l.sweep = some (first, l.sent, l.accepted) →
        1 < l.rcd.spanw ∨ l.sent = l.accepted → s.agreed l .calm = true →
        ∃ t, exec (.calmSweep n) s = .next t ∧ t.mem = s.mem ∧
          ∀ (core slot lane : Nat) (c : Crew) (g : Gang) (f : Fibre) (next : Addr),
          s.crewAt core = some c → c.launch = n → c.gangs.find slot = some g → g.fibres[lane]? = some f →
          f.hold = some (.calm next) → ∃ h, t.gangAt core slot = some h ∧ (h.fibre lane).pc = next ∧
            (h.fibre lane).hold = none ∧ (h.fibre lane).live = f.live)))

/-- R272, R364: role gives the gang's role; rolewait of the whole live gang takes a marked gang into its new role, at that
role's entry with its windows and predicates as at a gang's start, and does nothing where no switch is marked; a part of
the gang traps with cause 0x02, and a launch without a role table with cause 0x01. -/
def Rules.Roles : Prop :=
  ∀ (x : Pfx) (d : Reg) (s : State) (c : UnitCtx),
    (Clear x { regs := [d.toNat] } s c →
      Gives (exec (.role x d) s) (Puts c s false d (wordOnly fun _ => c.gang.role.setWidth 32))) ∧
    (Clear x {} s c → c.acts ≠ 0 →
      (c.mask ≠ c.gang.liveMask → Gives (exec (.rolewait x) s) (Traps c s { cause := 2, lane := c.low })) ∧
      (c.mask = c.gang.liveMask →
        (c.launch.rcd.flags.getLsbD 5 = false → Gives (exec (.rolewait x) s) (Traps c s { cause := 1, lane := c.low })) ∧
        (c.launch.rcd.flags.getLsbD 5 = true →
          (c.gang.roleMark = none → Gives (exec (.rolewait x) s) (Moves c s (c.on s))) ∧
          ∀ r, c.gang.roleMark = some r →
            ∃ t h, exec (.rolewait x) s = .next t ∧ t.mem = s.mem ∧ t.gangAt c.core c.slot = some h ∧
              h.regs = c.gang.regs ∧ h.role = r ∧ h.roleMark = none ∧
              ∀ l, c.mask.getLsbD l = true → (h.fibre l).pc = c.launch.rcd.rent.getD (r.toNat - 1) 0 ∧
                (h.fibre l).wbase = 0 ∧ (h.fibre l).pred = 1)))

/-- R364: when the occupancy has stayed below LOW, or above HIGH, for the dwell time, the gang of the highest index in
the role that gives is marked for the other role, where that role keeps a gang; else the machine goes back to its start. -/
def Rules.RoleSwitches : Prop :=
  ∀ (core : Nat) (s : State) (c : Crew) (l : Launch), s.crewAt core = some c → s.launchOf c.launch = some l →
    l.rcd.flags.getLsbD 5 = true → 64 * l.rcd.dwell = c.role.timer + 1 →
    (let o : Nat := (c.queueAt l.rcd.rq).entries.length
    ∀ from_ into, (from_, into) = (2#2, 1#2) ∧ c.role.st = .lowWait ∧ o < l.rcd.low ∨
        (from_, into) = (1#2, 2#2) ∧ c.role.st = .highWait ∧ l.rcd.low ≤ o ∧ l.rcd.high < o →
      ((roleGangs c from_).length < 2 →
        ∃ t q, exec (.roleDwellExpiry core) s = .next t ∧ t.crewAt core = some q ∧ q = { c with role := {} }) ∧
      (2 ≤ (roleGangs c from_).length → ∀ i slot g, (i, slot) ∈ roleGangs c from_ →
        (∀ e ∈ roleGangs c from_, e ≠ (i, slot) → e.1 < i) → c.gangs.find slot = some g →
        ∃ t q h, exec (.roleDwellExpiry core) s = .next t ∧ t.mem = s.mem ∧ t.crewAt core = some q ∧ q.role.st = .marked ∧
          q.gangs.find slot = some h ∧ h = { g with roleMark := some into } ∧
          ∀ k, k ≠ slot → q.gangs.find k = c.gangs.find k))

/-- R267 to R272, R359 to R364: tasks, lists, calm and roles. -/
def Obligations.TasksAndRoles : Prop :=
  Rules.TaskSends ∧ Rules.TaskArrivals ∧ Rules.TaskGangs ∧ Rules.Lists ∧ Rules.Calm ∧ Rules.Roles ∧ Rules.RoleSwitches

/-! ## Worlds (R273 to R291, R365) -/

/-- R276, R285, R286, R289: wfork, wyield and wchoose of a whole live gang make its fibres arrive and wait; part of a
gang, the acting fibres none or not all of it, traps with cause 0x02; wyield and wabort outside a world, and wchoose without a finished fork, trap with cause 0x01;
wabort gives the world its end with status 0x02. -/
def Rules.WorldUnits : Prop :=
  ∀ (x : Pfx) (d a : Reg) (n : BitVec 4) (s : State) (c : UnitCtx),
    (let need (r : List Nat) : Need := { regs := r, feature := some 0, worlds := true }
    let chooses : Bool := match c.crew.fork with | some f => f.ended && !f.complete | none => false
    let arrives (i : Instr) (v : Arrival) : Prop :=
      ∃ t h, exec i s = .next t ∧ t.mem = s.mem ∧ t.views = s.views ∧ t.gangAt c.core c.slot = some h ∧
        h.regs = c.gang.regs ∧ ∀ l ∈ c.lanes, (c.gang.fibre l).hold = none →
          (h.fibre l).hold = some (.arrival v c.nextPc) ∧ (h.fibre l).pc = (c.gang.fibre l).pc ∧ (h.fibre l).live = true
    ∀ i r v legal, (i, r, v, legal) ∈ [
        (Instr.wfork x d n, [d.toNat], Arrival.fork d n.toNat, true),
        (.wyield x a, [a.toNat], .worldYield (c.word 0 a), decide (c.crew.depth ≠ 0)),
        (.wchoose x a, [a.toNat], .choose (some (c.word 0 a)), chooses), (.wchooseNone x, [], .choose none, chooses)] →
      Clear x (need r) s c →
      (c.acts = c.gang.liveMask → legal = true → arrives i v) ∧
      (c.acts ≠ c.gang.liveMask → Gives (exec i s) (Traps c s { cause := 2, lane := c.low })) ∧
      (c.acts = c.gang.liveMask → legal = false → Gives (exec i s) (Traps c s { cause := 1, lane := c.low }))) ∧
    (Clear x { feature := some 0, worlds := true } s c → c.acts ≠ 0 →
      (c.crew.depth = 0 → Gives (exec (.wabort x) s) (Traps c s { cause := 1, lane := c.low })) ∧
      (c.crew.depth ≠ 0 → ∃ t q, exec (.wabort x) s = .next t ∧ t.mem = s.mem ∧ t.views = s.views ∧
        t.crewAt c.core = some q ∧ q.ending = some (c.crew.ending.getD (2, 0)) ∧ q.scratch = c.crew.scratch))

/-- R288: wstat gives the score or the status word of an ended world of the latest fork, 0 for a world that there is
not, and for an index of 8 or more no score and the fork's summary. -/
def Rules.WorldStatus : Prop :=
  ∀ (x : Pfx) (d a : Reg) (s : State) (c : UnitCtx),
    Clear x { regs := [a.toNat, d.toNat], feature := some 0, worlds := true } s c →
    (let i : Nat := (c.word c.low a).toNat
    let out : Option WorldOut := c.crew.fork.bind fun f => f.outs.find i
    let flags (o : WorldOut) : Nat := (o.sqFlags.foldl (fun f q => f ||| q.1) (0 : Word)).toNat % 128
    ∀ ins v, (ins, v) ∈ [
        (Instr.wstatScore x d a, if i < 8 then ((out.filter fun o => o.status == 1).map (·.score)).getD 0 else 0),
        (.wstatStatus x d a, if i < 8 then (out.map fun o => BitVec.ofNat 32 (flags o * 2 ^ 24 + o.neff * 2 ^ 16 +
            (if o.status = 4 then o.cause.toNat else 0) * 2 ^ 8 + o.status.toNat)).getD 0 else summaryWord c.crew.fork)] →
      Gives (exec ins s) (Puts c s false d (wordOnly fun _ => v)))

/-- The fibres of a gang that waited in wfork go on with a status in their destination. -/
def ForkAnswered (v : Word) (g h : Gang) : Prop :=
  ∀ (l : Nat) (f : Fibre) (d : Reg) (n : Nat) (next : Addr), l < 64 → g.fibres[l]? = some f →
    f.hold = some (.arrival (.fork d n) next) →
    (h.fibre l).pc = next ∧ (h.fibre l).hold = none ∧ (d ≠ 0 → h.reg 0 l d.toNat = v)

/-- R276 to R280: once every fibre of a crew has arrived in wfork, a fork that cannot start is refused with its status;
one that can suspends the parent and starts a crew for each world, with the parent's scratchpad and tiles, a view of its
own below the parent's, and its number in %world; a pre-emption request that has come goes to every world (R344). -/
def Rules.ForkStarts : Prop :=
  ∀ (core : Nat) (s : State) (c : Crew) (l : Launch), s.crewAt core = some c → s.launchOf c.launch = some l →
    (c.forkCounts = none → exec (.forkStart core) s = .next s) ∧
    (∀ counts status tags cores, c.forkCounts = some counts → c.ending = none → c.drained = true →
      forkStatus s core c counts = (status, tags, cores) →
      (status ≠ 0 → ∃ t q, exec (.forkStart core) s = .next t ∧ t.mem = s.mem ∧ t.views = s.views ∧ t.parked = s.parked ∧
        t.crewAt core = some q ∧ q.scratch = c.scratch ∧ ∀ slot g, c.gangs.find slot = some g →
          ∃ h, q.gangs.find slot = some h ∧ ForkAnswered (BitVec.ofNat 32 status) g h) ∧
      (status = 0 → ∃ t p, exec (.forkStart core) s = .next t ∧ t.mem = s.mem ∧ t.parked = s.parked ++ [p] ∧
        p.core = core ∧ p.why = .suspended ∧ p.crew.fork = some { n := tags.length } ∧ p.crew.scratch = c.scratch ∧
        ∀ (w k tag : Nat), cores[w]? = some k → tags[w]? = some tag →
          ∃ q v, t.crewAt k = some q ∧ q.world = w ∧ q.depth = c.depth + 1 ∧ q.view = tag ∧ q.parent = some p.id ∧
            q.scratch = c.scratch ∧ q.tiles = c.tiles ∧ q.vc = c.vc ∧ q.effects = [] ∧ q.fork = none ∧
            q.preempt.isSome = c.preempt.isSome ∧ t.views.find tag = some v ∧ v.parent = c.view ∧ v.bytes = [] ∧
            ∀ slot g, c.gangs.find slot = some g → ∃ h, q.gangs.find slot = some h ∧ ForkAnswered 0 g h))

/-- R280, R285, R287: a world that has a verdict ends: its slot is free, and its suspended parent holds its outcome, which
is that of an exhausted view where its round's ordered adds found no space (R283); the parent resumes with status 1 once every world has ended, in the slot kept for it or, from the resume list, in its turn. -/
def Rules.WorldsEnd : Prop :=
  (∀ (core pid : Nat) (s : State) (c : Crew) (f : Fork) (p : Parked), s.crewAt core = some c → c.parent = some pid →
    c.depth ≠ 0 → p ∈ s.parked → p.id = pid → p.crew.fork = some f →
    (worldVerdict c = none → exec (.worldEnd core) s = .next s) ∧
    (∀ st cause score, worldVerdict c = some (st, cause, score) → s.loggedAdds c.launch c.view = false → s.poison = [] →
      (let u : State := if st = 1 ∨ st = 3 then s.closeRound c.launch c.view else s
      let fin : BitVec 8 × BitVec 8 × Word := match (u.crewAt core).bind (·.ending) with
        | some e => (e.1, e.2, 0)
        | none => (st, cause, score)
      ∃ t r k o, exec (.worldEnd core) s = .next t ∧ (s.liveView c.view ≠ 0 → t.mem = s.mem) ∧ t.crewAt core = none ∧
        (∀ j, j ≠ core → ∀ q, s.crewAt j = some q → ∃ q', t.crewAt j = some q' ∧ q'.gangs = q.gangs ∧ q'.scratch = q.scratch) ∧
        r ∈ t.parked ∧ r.id = pid ∧ r.crew.gangs = p.crew.gangs ∧ r.crew.fork = some k ∧ k.outs.find c.world = some o ∧
        o.status = fin.1 ∧ o.cause = fin.2.1 ∧ o.score = fin.2.2 ∧ o.view = c.view ∧ o.neff = c.effects.length ∧
        (∀ j, j ≠ c.world → k.outs.find j = f.outs.find j) ∧ r.ready = decide (f.n ≤ k.outs.length)))) ∧
  (∀ (s : State) (p : Parked) (l : Launch) (core : Nat), s.parkedAt p.id = some p →
    s.launchOf p.crew.launch = some l → l.st = .running → p.bound = true ∨ serveNext s = some (.parent p.id) →
    parentCore s p = some core →
    ∃ t q, exec (.parentResume p.id) s = .next t ∧ t.mem = s.mem ∧ t.views = s.views ∧
      t.parked = s.parked.filter (fun q => q.id ≠ p.id) ∧ t.crewAt core = some q ∧ q.scratch = p.crew.scratch ∧
      q.fork = p.crew.fork ∧ ∀ slot g, p.crew.gangs.find slot = some g →
        ∃ h, q.gangs.find slot = some h ∧ ForkAnswered 1 g h)

/-- R289, R290, R315: once every fibre of a crew has arrived in wchoose, a choice of no world discards every view of the
fork; a choice of world w by a parent in view 0 writes that world's bytes into memory, ORs its flags into the parent's
squads and discards the other views. Either way the fork is complete and the fibres go on. -/
def Rules.WorldCommits : Prop :=
  ∀ (core : Nat) (s : State) (c : Crew) (f : Fork) (cs : List (Option Word)), s.crewAt core = some c → c.fork = some f →
    c.choices = some cs → f.ended = true → f.complete = false → c.ending = none → f.chosen = none →
    (let goesOn (t : State) (k : Fork) : Prop := ∃ q, t.crewAt core = some q ∧ q.fork = some k ∧ q.scratch = c.scratch ∧
      ∀ (slot lane : Nat) (g : Gang) (b : Fibre) (v : Option Word) (next : Addr), c.gangs.find slot = some g →
        g.fibres[lane]? = some b → b.hold = some (.arrival (.choose v) next) →
        ∃ h, q.gangs.find slot = some h ∧ (h.fibre lane).pc = next ∧ (h.fibre lane).hold = none
    (∀ reason, chosenWorld f cs = .inr reason →
      ∃ t, exec (.worldCommit core) s = .next t ∧ t.mem = s.mem ∧
        goesOn t { f with reason := reason, complete := true, effects := [] } ∧
        ∀ o ∈ f.outs.vals, ∀ v, s.views.find o.view = some v → ∃ u, t.views.find o.view = some u ∧ u.state = 2) ∧
    (∀ w o v, chosenWorld f cs = .inl w → c.view = 0 → f.effects.get [] w = [] → f.outs.find w = some o →
      s.views.find o.view = some v →
      ∃ t q, exec (.worldCommit core) s = .next t ∧ (∀ b, t.mem.get 0 b = afterWrites v.bytes b (s.mem.get 0 b)) ∧
        goesOn t { f with chosen := some w, complete := true, effects := [] } ∧ t.crewAt core = some q ∧
        ∀ i, i < c.squads.length → (q.squad i).flags = (c.squad i).flags ||| (o.sqFlags.getD i (0, 0)).1 ∧
          (q.squad i).tflags = (c.squad i).tflags ||| (o.sqFlags.getD i (0, 0)).2))

/-- R275, R301, R359: a view that is committed or discarded, has no view below it and is named by no task, and, if committed,
by no side-log entry, leaves its tag free; no byte changes, since what was written in a committed view is its parent's (R315),
and no line leaves a read-only cache. A live view, and one that is still named or has views below it, stays. -/
def Rules.ViewMerges : Prop :=
  ∀ (tag : Nat) (s : State) (v : View), s.views.find tag = some v →
    (let stays : Prop := v.state = 0 ∨ (∃ e ∈ s.views, e.2.parent = tag) ∨ s.namesTag tag = true ∨
      (v.state = 1 ∧ s.logsView tag = true)
    (stays → exec (.viewBackgroundMerge tag) s = .next s) ∧
    (¬stays → ∃ t, exec (.viewBackgroundMerge tag) s = .next t ∧ t.crews = s.crews ∧ t.views.find tag = none ∧
      t.mem = s.mem ∧ (∀ core, (t.coreAt core).ro.length = (s.coreAt core).ro.length) ∧
      ∀ k, k ≠ tag → t.views.find k = s.views.find k))

/-- R273 to R291: worlds. -/
def Obligations.Worlds : Prop :=
  Rules.WorldUnits ∧ Rules.WorldStatus ∧ Rules.ForkStarts ∧ Rules.WorldsEnd ∧ Rules.WorldCommits ∧ Rules.ViewMerges

/-! ## Timers, gang starts, the register file and reports (R23, R25, R155 to R162, R353, R362, R363, R401, R405) -/

/-- The fibres of one gang become what new says; nothing else of the machine changes. -/
def FibresBecome (core slot : Nat) (s : State) (new : Nat → Fibre → Fibre) (t : State) : Prop :=
  t = { s with crews := t.crews } ∧ (∀ k, k ≠ core → t.crewAt k = s.crewAt k) ∧
  ∃ c g q h, s.crewAt core = some c ∧ c.gangs.find slot = some g ∧ t.crewAt core = some q ∧
    q = { c with gangs := q.gangs } ∧ (∀ k, k ≠ slot → q.gangs.find k = c.gangs.find k) ∧
    q.gangs.find slot = some h ∧ h = { g with fibres := h.fibres } ∧
    h.fibres.length = g.fibres.length ∧ ∀ (i : Nat) (f : Fibre), g.fibres[i]? = some f → h.fibres[i]? = some (new i f)

/-- R161, R162, R362, R405: the end of a sleep, or of 64 cycles in which no other group of the gang was ready, frees the
waiting group; a group ready for A cycles without issuing becomes aged; a halted gang goes on past its bkpt. -/
def Rules.Timers : Prop :=
  ∀ (core slot lane : Nat) (s : State) (c : Crew) (g : Gang), s.crewAt core = some c → c.gangs.find slot = some g →
    (let at_ : Fibre := g.fibre lane
    let inGroup (f : Fibre) : Prop := f.live = true ∧ f.pc = at_.pc ∧ f.wbase = at_.wbase ∧ f.hold = at_.hold
    let freed (i : Nat) (f : Fibre) : Fibre :=
      if i < 64 ∧ f.live = true ∧ f.pc = at_.pc ∧ f.wbase = at_.wbase ∧ f.hold = at_.hold
      then { f with hold := none, safe := none, since := s.clock.toNat, readyFrom := none } else f
    (∀ till, at_.hold = some (.sleep till) →
      (till ≤ s.clock.toNat → Gives (exec (.sleepExpiry core slot lane) s) (FibresBecome core slot s freed)) ∧
      (s.clock.toNat < till → exec (.sleepExpiry core slot lane) s = .next s)) ∧
    (∀ m idle, at_.hold = some (.yielded m idle) →
      ((∀ i, i < 64 → (readyLanes s core slot c g).getLsbD i = true → inGroup (g.fibre i)) → idle + 64 ≤ s.clock.toNat →
        Gives (exec (.yieldTimeout core slot lane) s) (FibresBecome core slot s freed)) ∧
      (s.clock.toNat < idle + 64 → exec (.yieldTimeout core slot lane) s = .next s)) ∧
    (∀ pc, (s.mgmt.ageing = 0 → exec (.groupAged core slot pc) s = .next s) ∧
      (s.mgmt.ageing ≠ 0 → Gives (exec (.groupAged core slot pc) s) (FibresBecome core slot s fun i f =>
        if i < 64 ∧ (readyLanes s core slot c g).getLsbD i = true ∧ f.pc = pc ∧
            ∃ n, f.readyFrom = some n ∧ n + s.mgmt.ageing ≤ s.clock.toNat
        then { f with aged := true } else f))) ∧
    Gives (exec (.debugResume core slot) s) (FibresBecome core slot s fun _ f =>
      if f.hold = some .debugHalt then { f with hold := none, safe := none, arrived := true } else f))

/-- R155, R156, R353: at its timeout a bin's fibres form a gang; the oldest formed gang of a squad starts in the lowest
free slot once the squad has room for it, one fibre for each spawn with its argument in g1 and the launch's argument in
g2:g3, the remaining lanes not live. -/
def Rules.FormedGangs : Prop :=
  ∀ (core squad : Nat) (s : State) (c : Crew), s.crewAt core = some c → squad < 4 →
    (∀ key b, (c.squad squad).bins.find? (fun o => o.key == key) = some b →
      (s.clock.toNat < b.due → exec (.spawnBinTimeout core squad key) s = .next s) ∧
      (b.due ≤ s.clock.toNat → ∃ t q, exec (.spawnBinTimeout core squad key) s = .next t ∧
        t = { s with crews := t.crews } ∧ t.crewAt core = some q ∧ q = { c with squads := q.squads } ∧
        q.squad squad = { c.squad squad with
          bins := (c.squad squad).bins.filter (fun o => o.key ≠ key)
          formed := (c.squad squad).formed ++ [{ entry := key, args := b.args }] } ∧
        ∀ i, i ≠ squad → q.squad i = c.squad i)) ∧
    (∀ f fs l slot, (c.squad squad).formed = f :: fs → s.launchOf c.launch = some l → c.freeSlot squad = some slot →
      (c.canHold l.rcd squad = false ∨ c.mayStart l = false → exec (.spawnedGangStart core squad) s = .next s) ∧
      (c.canHold l.rcd squad = true → c.mayStart l = true →
        ∃ t q h, exec (.spawnedGangStart core squad) s = .next t ∧
          t = { s with crews := t.crews, gangsMade := s.gangsMade + 1 } ∧
          t.crewAt core = some q ∧ q.gangs.find slot = some h ∧ (∀ k, k ≠ slot → q.gangs.find k = c.gangs.find k) ∧
          q.squad squad = { c.squad squad with
            formed := fs, reserved := (c.squad squad).reserved + reserveOf l.rcd } ∧
          (∀ i, i ≠ squad → q.squad i = c.squad i) ∧ h.task = none ∧ h.pending = [] ∧ h.layouts = [] ∧
          h.ctl = l.rcd.ctl &&& 0xffffffff000001fb#64 ∧
          ∀ i, i < 64 → (h.fibre i).live = decide (i < f.args.length) ∧ (h.fibre i).pc = f.entry ∧
            (h.fibre i).wbase = 0 ∧ (h.fibre i).pred = 1 ∧ h.reg 0 i 1 = f.args.getD i 0 ∧
            h.reg64 0 i 2 = l.rcd.arg))

/-- R159, R343: a crew of depth 0 whose gangs, bins, tasks and engine work are all done leaves its core, whose queue
generations go up by one; its scratchpad, full bits and barriers stand there still (R417, R425); memory and every other crew
stay. A crew with work left stays. -/
def Rules.CrewsEnd : Prop :=
  ∀ (core : Nat) (s : State) (c : Crew), s.crewAt core = some c →
    (c.depth ≠ 0 ∨ c.finished = false ∨ s.succOf core c.launch = true → exec (.crewEnd core) s = .next s) ∧
    (c.depth = 0 → c.finished = true → s.succOf core c.launch = false →
      ∃ t, exec (.crewEnd core) s = .next t ∧ t.mem = s.mem ∧ t.crewAt core = none ∧
        (∀ k, k ≠ core → t.crewAt k = s.crewAt k) ∧ t.parked = s.parked ∧
        (∃ v, (t.coreAt core).left = some v ∧ v.launch = c.launch ∧ v.scratch = c.scratch ∧ v.full = c.full ∧
          v.barriers = c.barriers ∧ v.flags = c.squads.map fun q => (q.flags, q.tflags)) ∧
        ∀ i, i < 9 → (t.coreAt core).gen i = (s.coreAt core).gen i + 1)

/-- R23: the compactor leaves the same segments free, in no two adjacent blocks that make a block of 2 or of 4, or a run of
blocks of 4. -/
def Rules.Compactor : Prop :=
  ∀ (core squad : Nat) (s : State) (c : Crew), s.crewAt core = some c → squad < 4 →
    (let free (q : Squad) (n : Nat) : Prop := ∃ b ∈ q.free, b.1 ≤ n ∧ n < b.1 + b.2
    ∃ t q, exec (.compactorMerge core squad) s = .next t ∧ t = { s with crews := t.crews } ∧ t.crewAt core = some q ∧
      q = { c with squads := q.squads } ∧ (∀ i, i ≠ squad → q.squad i = c.squad i) ∧
      q.squad squad = { c.squad squad with free := (q.squad squad).free } ∧
      (∀ n, free (q.squad squad) n ↔ free (c.squad squad) n) ∧
      ∀ (i : Nat) (a b : Nat × Nat), (q.squad squad).free[i]? = some a → (q.squad squad).free[i + 1]? = some b →
        a.1 ≤ b.1 ∧ (a.1 + a.2 = b.1 → ¬(a.2 = b.2 ∧ a.2 < 4 ∧ a.1 % (2 * a.2) = 0) ∧ ¬(a.2 % 4 = 0 ∧ b.2 % 4 = 0)))

/-- R25, R27: a spilled register that is fetched enters the operand buffer as a changed one; an uncorrectable error of a
register, wherever it is kept, is latent in its gang, of CLASS 2 in the operand buffer and 1 elsewhere. -/
def Rules.RegisterFile : Prop :=
  ∀ (core slot reg plane : Nat) (s : State) (c : Crew) (g : Gang), s.crewAt core = some c → c.gangs.find slot = some g →
    (let key : Nat := plane * 1024 + reg
    let buffered : Prop := ∃ e ∈ g.buffer, e.key = key
    (∀ v, ¬buffered → g.stored.find key = some v → v.at_ = none →
      ∃ t h es, exec (.spillRefill core slot reg plane none) s = .next t ∧
        t = { s with crews := t.crews } ∧ t.gangAt core slot = some h ∧ h.regs = g.regs ∧ h.fibres = g.fibres ∧
        h.buffer = { key := key, dirty := true } :: es ∧ es.Sublist g.buffer) ∧
    (∀ lane cls, buffered ∧ cls = 2 ∨ ¬buffered ∧ (g.stored.find key).isSome = true ∧ cls = 1 → lane < 64 →
      ∃ t q, exec (.spillRefill core slot reg plane (some lane)) s = .next t ∧ t = { s with crews := t.crews } ∧
        (∀ k, k ≠ core → t.crewAt k = s.crewAt k) ∧ t.crewAt core = some q ∧ q = { c with gangs := q.gangs } ∧
        (∀ k, k ≠ slot → q.gangs.find k = c.gangs.find k) ∧
        q.gangs.find slot = some { g with bad := g.bad ++ [{ key := key, lane := lane, cls := cls }] }))

/-- R22, R27, R44, R167, R179: a unit that reads a register with a latent error, in whatever lane, traps with cause 0x10, its
address the lane and the register's number in that lane's window (log 132), and records the error's CLASS; the error is found
once, and what the word then holds is a free value. -/
def Rules.LatentErrors : Prop :=
  ∀ (x : Pfx) (d a : Reg) (i : BitVec 11) (s : State) (c : UnitCtx) (lane : Nat) (cls : BitVec 4),
    Clear x { regs := [a.toNat, d.toNat] } s c → c.acts ≠ 0 → a ≠ 0 → lane < 64 →
    (let key : Nat := physIndex (c.gang.fibre c.low).wbase a.toNat
    let number : Nat := if key < 16 then key else (key + 1024 - (c.gang.fibre lane).wbase) % 128
    let u : State := s.modGang c.core c.slot fun g => { g with bad := [{ key := key, lane := lane, cls := cls }] }
    let noted : State := u.machineCheck c.core cls
    ∃ w : Word, exec (.addi x d a i) u = .next (takeTrap c.core c.slot c.mask c.pc
      { cause := 0x10, lane := c.low, addr := BitVec.ofNat 64 (lane * 256 + number) }
      ({ noted with drawn := noted.drawn + 1 }.modGang c.core c.slot fun g =>
        { g.putRegs [(key * 64 + lane, w)] with bad := [] })))

/-- The report r is posted: written as an entry of 32 bytes at REPTAIL's place in a ring that has room and behind which
none is held, else held by the control plane. -/
def Posts (r : Report) (s t : State) : Prop :=
  (s.device.reports = [] → s.ringFull = false →
    t.host = s.host.sets 0 (spread (s.window.repbase.toNat + 32 * (s.window.reptail.toNat % s.window.repsize.toNat))
      (reportBytes r)) ∧
    t.window = { s.window with reptail := s.window.reptail + 1 } ∧
    t.device = { s.device with msix := t.device.msix } ∧
    t.device.msix = s.device.msix + (if s.window.reptail = s.window.rephead then 1 else 0)) ∧
  (s.ringFull = true ∨ s.device.reports ≠ [] → s.device.reports.length < 4096 →
    t.host = s.host ∧ t.window = s.window ∧ t.device = { s.device with reports := s.device.reports ++ [r] })

/-- R363, R401: a gang that the detector finds becalmed has a report posted, with the first group's PC, and beside it the
launch, core, squad, slot and the PC of each live group (log 131); the episode is marked so that it has only one. -/
def Rules.DoldrumsReports : Prop :=
  ∀ (core slot lane : Nat) (s : State) (c : Crew) (g : Gang) (l : Launch) (code : BitVec 8), s.crewAt core = some c →
    c.gangs.find slot = some g → s.launchOf c.launch = some l →
    (becalmed s.mgmt.doldrums s.clock.toNat g = none → exec (.doldrumsReport core slot) s = .next s) ∧
    (becalmed s.mgmt.doldrums s.clock.toNat g = some (code, lane) →
      (let note : DoldrumsNote :=
        { launch := c.launch, core := core, squad := slot % 4, slot := slot / 4, code := code, pcs := g.livePcs }
      ∃ t h, exec (.doldrumsReport core slot) s = .next t ∧ t.mem = s.mem ∧
        t.device.doldrums = s.device.doldrums ++ [note] ∧
        Posts { type := 2, code := code, ctx := l.rcd.ctx, launch := c.launch, ltag := l.rcd.ltag, place := core,
                pc := (g.fibre lane).pc } { s with device := { s.device with doldrums := s.device.doldrums ++ [note] } } t ∧
        t.gangAt core slot = some h ∧ h.regs = g.regs ∧ (code ≠ 0 → h.reported = true ∧ h.fibres = g.fibres) ∧
        (code = 0 → lane < 64 → (g.fibre lane).live = true → (h.fibre lane).reported = true)))

/-- The machine has counted one corrected error of a core, in CORR, which stops at 65 535, and in its counter. -/
def Corrected (core : Nat) (s t : State) : Prop :=
  t = { s with cores := t.cores } ∧ (∀ k, k ≠ core → t.coreAt k = s.coreAt k) ∧
  (t.coreAt core).mcheck.toNat / 2 ^ 16 = (s.coreAt core).mcheck.toNat / 2 ^ 16 ∧
  (t.coreAt core).mcheck.toNat % 2 ^ 16 = min ((s.coreAt core).mcheck.toNat % 2 ^ 16 + 1) 65535

/-- R179, R316 to R318, R401: a correctable error is counted in its slice or core; an uncorrectable one of a line of device
memory poisons, records and reports the line, where it is not poisoned yet, and one of a dirty line of an L1 the copy that its
crew's view sees; one of a scratchpad word spoils it; a clean line
of a read-only cache or of an L1 is fetched again, or dropped to be fetched at its next use. -/
def Rules.PatrolScrubs : Prop :=
  (∀ (line : Nat) (s : State), line * 128 < memSize →
    (∃ t, exec (.patrolScrub (.hbm line) false) s = .next t ∧ t = { s with slices := t.slices } ∧
      t.slices = { s.slices with corrected := t.slices.corrected } ∧
      ∀ n, t.slices.corrected.get 0 n = if n = homeSlice (line * 128)
        then min (s.slices.corrected.get 0 n + 1) (2 ^ 64 - 1) else s.slices.corrected.get 0 n) ∧
    (line * 64 ∈ s.poison → exec (.patrolScrub (.hbm line) true) s = .next s) ∧
    (line * 64 ∉ s.poison → s.reportRoom = true → ∃ t, exec (.patrolScrub (.hbm line) true) s = .next t ∧ t.mem = s.mem ∧
      t.crews = s.crews ∧ t.poison = s.poison ++ [line * 64] ∧ t.mgmt.poisonLog = s.mgmt.poisonLog ++ [line] ∧
      Posts { type := 6, addr := BitVec.ofNat 64 (line * 128) } s t)) ∧
  (∀ (core offset : Nat) (s : State) (c : Crew),
    (∀ p, p = Storage.padWord core offset ∨ p = .operands core →
      Gives (exec (.patrolScrub p false) s) (Corrected core s)) ∧
    (s.crewAt core = some c → offset % 4 = 0 → offset + 4 ≤ c.size → offset ∉ c.padBad →
      ∃ t q, exec (.patrolScrub (.padWord core offset) true) s = .next t ∧ t = { s with crews := t.crews } ∧
        t.crewAt core = some q ∧ q = { c with padBad := c.padBad ++ [offset] })) ∧
  (∀ (core line view : Nat) (u : Bool) (s : State),
    ((s.coreAt core).roLine view line = none → exec (.patrolScrub (.readOnly core line view) u) s = .next s) ∧
    (((s.coreAt core).roLine view line).isSome = true →
      ∃ t e, exec (.patrolScrub (.readOnly core line view) u) s = .next t ∧ t.mem = s.mem ∧ t.crews = s.crews ∧
        (t.coreAt core).roLine view line = some e ∧ e.line = line ∧ e.view = view) ∧
    (((s.coreAt core).holds line view = true) →
      ∃ t, exec (.patrolScrub (.l1Clean core line view) u) s = .next t ∧ t = { s with cores := t.cores } ∧
        ∀ e, e ∈ (t.coreAt core).l1 ↔ e ∈ (s.coreAt core).l1 ∧ ¬(e.line = line ∧ e.view = view))) ∧
  (∀ (core line : Nat) (s : State) (c : Crew), s.crewAt core = some c → (s.coreAt core).holds line c.view = true →
    s.linePoisoned c.view line = false → s.reportRoom = true →
    ∃ t, exec (.patrolScrub (.l1Dirty core line) true) s = .next t ∧ t.mem = s.mem ∧ t.crews = s.crews ∧
      t.poison = s.poison ++ [line * 64 + s.copyView c.view line] ∧ t.cores = (s.machineCheck core 5).cores)

/-- The timers, the gangs that bins form, the ends of crews, the register file, the scrub and the doldrums reports. -/
def Obligations.TimersAndUpkeep : Prop :=
  Rules.Timers ∧ Rules.FormedGangs ∧ Rules.CrewsEnd ∧ Rules.Compactor ∧ Rules.RegisterFile ∧ Rules.LatentErrors ∧
    Rules.DoldrumsReports ∧ Rules.PatrolScrubs

/-! ## Control packets, slices and phase closes (R177, R202, R307 to R312, R315, R389 to R391) -/

/-- R177, R202, R308, R309, R315, R389, R391: a core acts on the packet at the head of its interface, on one in a cycle. A lease break and a view
retag drop its copies of the line in the view and below it, and roll back each gang that read the line past its fence; a
shootdown drops the matching translations and the read-only lines in their pages, or, where it names no address, all of
them on a core of the context; a close request closes the phase of the gang it names, and of no gang that has taken its
slot since. -/
def Rules.ControlPackets : Prop :=
  (∀ (core : Nat) (s : State), (s.coreAt core).ctlAt = some s.clock.toNat →
    ∀ i ∈ [Instr.leaseBreak core, .viewRetag core, .tlbShootdown core, .closeRequest core], exec i s = .next s) ∧
  ∀ (core : Nat) (s : State) (m : CtlMsg) (ms : List CtlMsg), (s.coreAt core).ctl = m :: ms →
    (s.coreAt core).ctlAt ≠ some s.clock.toNat →
    (let k : Core := s.coreAt core
    let popped (t : State) : Prop := t.mem = s.mem ∧ (t.coreAt core).ctl = ms ∧
      (t.coreAt core).ctlAt = some s.clock.toNat ∧ ∀ j, j ≠ core → t.cores.find j = s.cores.find j
    (∀ i line view, (i, m) ∈ [(Instr.leaseBreak core, CtlMsg.leaseBreak line view), (.viewRetag core, .viewRetag line view)] →
      ∃ t, exec i s = .next t ∧ popped t ∧ (t.coreAt core).tlb = k.tlb ∧ (t.coreAt core).ro = k.ro ∧
        (∀ e, e ∈ (t.coreAt core).l1 ↔ e ∈ k.l1 ∧ ¬(e.line = line ∧ view ∈ s.chain e.view)) ∧
        (∀ j, j ≠ core → t.crewAt j = s.crewAt j) ∧
        ∀ slot g, s.gangAt core slot = some g → ∃ h, t.gangAt core slot = some h ∧
          (g.fence = none → h = g) ∧
          (∀ f, g.fence = some f → line ∉ f.lines → h = g) ∧
          (∀ f, g.fence = some f → line ∈ f.lines →
            h.regs = f.back.regs ∧ h.layouts = f.back.layouts ∧ h.ctl = f.back.ctl ∧ h.bankdeg = f.back.bankdeg ∧
            h.tanstride = f.back.tanstride ∧ h.late = none ∧
            h.fibres = f.back.fibres.map (fun b => { b with since := s.clock.toNat }) ∧
            h.handler = f.back.handler ∧ h.pending = f.pends.foldl List.erase g.pending ∧
            h.fence = some { f with lines := [], writes := 0, rollbacks := f.rollbacks + 1, fl := 0, tfl := 0, pends := [] })) ∧
    (∀ ctx va, m = .shootdown ctx va →
      (let hit (e : TlbEntry) : Prop := ∀ c, ctx = some c →
        (va = none → e.ctx = c) ∧ ∀ a, va = some a → e.covers c (a.toNat % 2 ^ 56) = true
      ∃ t, exec (.tlbShootdown core) s = .next t ∧ popped t ∧ t.crews = s.crews ∧ (t.coreAt core).l1 = k.l1 ∧
        (∀ e, e ∈ (t.coreAt core).tlb ↔ e ∈ k.tlb ∧ ¬hit e) ∧
        ∀ e, e ∈ (t.coreAt core).ro ↔ e ∈ k.ro ∧ ctx ≠ none ∧
          (∀ c, ctx = some c → va = none → coreOfCtx s c core = false) ∧
          (va ≠ none → ∀ p ∈ k.tlb, hit p → e.line * 128 / 2 ^ p.shift ≠ p.frame / 2 ^ p.shift))) ∧
    (∀ slot gang g, m = .closeRequest slot gang → s.gangAt core slot = some g → g.id ≠ gang →
      ∃ t, exec (.closeRequest core) s = .next t ∧ popped t ∧ t.crews = s.crews ∧ t.slices = s.slices) ∧
    (∀ slot g, m = .closeRequest slot g.id → s.gangAt core slot = some g →
      ∃ t h, exec (.closeRequest core) s = .next t ∧ popped t ∧ t.gangAt core slot = some h ∧
        h = { g with phase := g.phase + 1, sent := [] } ∧
        t.slices = { s.slices with closing := s.slices.closing ++ g.sent.map (fun e =>
          { dest := e.1, gang := g.id, phase := g.phase, close := some e.2, fence := false }) }))

/-- R307, R390: a slice takes the load, or the write, at the head of its requests. A load of a line that is there extends
its lease and answers with its bytes; one of a line that is not takes one of the slice's 64 miss entries, or stays where it is
while none is free; a request to a line that an entry waits for queues behind it. A fill brings the line, and the requests
behind its entry come first again, in order. A write is performed, at a time past the line's lease and not before what has
been performed so far (log 139), and acknowledged. A line that comes back enters the L1 that holds it for the core, unless it
has been written since, and an acknowledgement counts for its copy. -/
def Rules.SliceRequests : Prop :=
  (∀ (core slot line view pts : Nat) (rs : List SliceReq) (s : State),
    s.slices.requests = .load core slot line view pts :: rs → Memory.wf s.mem = true →
    ((∃ r ∈ s.slices.missing, r.line = line) → exec .sliceLoad s = .next { s with slices := { s.slices with
      requests := rs, missing := s.slices.missing ++ [.load core slot line view pts] } }) ∧
    (line ∈ s.slices.resident → (∀ r ∈ s.slices.missing, r.line ≠ line) → ∃ t w r data, exec .sliceLoad s = .next t ∧ t.mem = s.mem ∧ t.crews = s.crews ∧
      t.slices = { s.slices with requests := rs, replies := s.slices.replies ++ [.line core slot line view w r data] } ∧
      (∀ i, i < 128 → data.get 0 (line * 128 + i) = s.byteAt view (line * 128 + i)) ∧
      (view = 0 → w = (s.timeOf 0 line).wts ∧ r = max (s.timeOf 0 line).rts (pts + Config.lease) ∧
        t.timeOf 0 line = { wts := w, rts := r })) ∧
    (line ∉ s.slices.resident → s.slices.missing.length < 64 → exec .sliceLoad s = .next { s with slices :=
      { s.slices with requests := rs, missing := s.slices.missing ++ [.load core slot line view pts] } }) ∧
    (line ∉ s.slices.resident → (∀ r ∈ s.slices.missing, r.line ≠ line) → rs = [] →
      64 ≤ ((s.slices.missing.filter fun r => r.slice = homeSlice (line * 128)).map SliceReq.line).eraseDups.length →
      exec .sliceLoad s = .next s)) ∧
  (∀ (core copy pts : Nat) (bytes : List (Nat × Byte)) (rs : List SliceReq) (s : State),
    s.slices.requests = .write core copy 0 pts bytes :: rs →
    (∀ r ∈ s.slices.missing, r.line ≠ lineOf ((bytes.headD (0, 0)).1)) →
    ∃ t w, exec .sliceWrite s = .next t ∧ (∀ a, t.mem.get 0 a = afterWrites bytes a (s.mem.get 0 a)) ∧
      t.crews = s.crews ∧ t.views = s.views ∧
      t.slices = { s.slices with requests := rs, replies := s.slices.replies ++ [.ack core copy w] } ∧
      pts ≤ w ∧ s.ltime ≤ w ∧ ∀ e ∈ bytes, (s.timeOf 0 (lineOf e.1)).rts < w) ∧
  (∀ (r : SliceReq) (rs : List SliceReq) (s : State), s.slices.missing = r :: rs →
    ∃ t, exec .sliceMissFill s = .next t ∧ t = { s with slices := t.slices } ∧
      t.slices.missing = rs.filter (fun o => o.line ≠ r.line) ∧
      t.slices.requests = r :: rs.filter (fun o => o.line = r.line) ++ s.slices.requests ∧
      t.slices.replies = s.slices.replies ∧ r.line ∈ t.slices.resident) ∧
  (∀ (core slot line view w r : Nat) (data : Mem) (rs : List SliceReply) (s : State),
    s.slices.replies = .line core slot line view w r data :: rs →
    (let u : State := { s with slices := { s.slices with replies := rs } }
    (w < (s.timeOf view line).wts → exec .loadReply s = .next u) ∧
    ((s.timeOf view line).wts ≤ w → ∃ t es, exec .loadReply s = .next t ∧ t = { u with cores := t.cores } ∧
      (t.coreAt (s.ownerAt core line)).l1 = { line := line, view := view, wts := w, rts := r, data := data } :: es ∧
      (∀ e ∈ es, e ∈ (s.coreAt (s.ownerAt core line)).l1 ∧ ¬(e.line = line ∧ e.view = view)) ∧
      ∀ j, j ≠ s.ownerAt core line → t.cores.find j = s.cores.find j))) ∧
  (∀ (core copy w : Nat) (rs : List SliceReply) (s : State) (c : Crew), s.slices.replies = .ack core copy w :: rs →
    s.crewAt core = some c →
    ∃ t q, exec .writeAck s = .next t ∧ t = { s with slices := { s.slices with replies := rs }, crews := t.crews } ∧
      t.crewAt core = some q ∧ q = { c with copies := c.copies.map fun o =>
        if o.num = copy then { o with acks := o.acks - 1, pts := max o.pts w } else o })

/-- R311, R312, R391: a close that reaches its destination completes when the writes counted there for its gang and phase
are as many as it says, and else waits with its number until the last of them arrives; a completion that a fence waits for
counts for that fence. A table has 2048 entries at a slice and 256 at a scratchpad port: a close, or a write, that needs one
of a full table waits until an entry is free. From 1536 entries of a slice on, the owners of its 64 oldest are asked to close
(192 of a port: log 144). -/
def Rules.PhaseCloses : Prop :=
  (∀ (e : CloseEntry) (es : List CloseEntry) (s : State), s.slices.closing = e :: es →
    (∀ t ∈ s.slices.closes, t.close ≠ some t.count) → s.slices.stalled = [] →
    (let same (t : CloseEntry) : Prop := t.dest = e.dest ∧ t.gang = e.gang ∧ t.phase = e.phase
    let q : Slices := { s.slices with closing := es }
    let becomes (r : Slices) : Prop := ∃ t, exec .phaseClose s = .next t ∧ t = { s with cores := t.cores, slices := r }
    ((∀ t ∈ s.slices.closes, ¬same t) → e.close ≠ some e.count →
      (s.slices.closes.filter fun t => t.dest = e.dest).length < (if e.dest < 128 then 2048 else 256) → becomes { q with closes := q.closes ++ [e] }) ∧
    (∀ (a b : List CloseEntry) (t : CloseEntry), s.slices.closes = a ++ t :: b → (∀ u ∈ a, ¬same u) → (∀ u ∈ b, ¬same u) →
      same t →
      (let u : CloseEntry := { t with close := e.close, fence := e.fence }
      (e.close = some t.count → becomes { q with closes := a ++ b, completions := q.completions ++ [u] }) ∧
      (e.close ≠ some t.count → becomes { q with closes := a ++ u :: b }))))) ∧
  (∀ (e : CloseEntry) (s : State), s.slices.closing = [e] → (∀ t ∈ s.slices.closes, e.same t = false) →
    (s.slices.closes.filter fun t => t.dest = e.dest).length = (if e.dest < 128 then 2048 else 256) →
    exec .phaseClose s = .next s) ∧
  (∀ (s : State) (dest : Nat),
    (let here : List CloseEntry := s.slices.closes.filter fun t => t.dest = dest
    let limit : Nat := if dest < 128 then 1536 else 192
    (here.length < limit → s.askCloses dest = s) ∧
    (limit ≤ here.length → s.askCloses dest = { s with cores := (s.askCloses dest).cores } ∧
      ∀ core, ((s.askCloses dest).coreAt core).ctl = (s.coreAt core).ctl ++ (here.take 64).filterMap fun e =>
        match s.findGang e.gang with
        | some p => if p.1 = core then some (.closeRequest p.2 e.gang) else none
        | none => none))) ∧
  (∀ (q : Slices) (e : CloseEntry), q.stalled = [] → (∀ t ∈ q.closes, e.same t = false ∧ t.close ≠ some t.count) →
    e.close = none →
    (let there : Nat := (q.closes.filter fun t => t.dest = e.dest).length
    let size : Nat := if e.dest < 128 then 2048 else 256
    (there < size → q.arrive e = { q with closes := q.closes ++ [{ e with count := 1 }] }) ∧
    (size ≤ there → q.arrive e = { q with stalled := [e] }))) ∧
  (∀ (q : Slices) (e t : CloseEntry) (a b : List CloseEntry), q.closes = a ++ t :: b → e.same t = true → q.stalled = [] →
    (∀ u ∈ a ++ b, e.same u = false ∧ u.close ≠ some u.count) →
    (let u : CloseEntry := { t with count := t.count + 1 }
    (t.close = some (t.count + 1) → q.arrive e = { q with closes := a ++ b, completions := q.completions ++ [u] }) ∧
    (t.close ≠ some (t.count + 1) → q.arrive e = { q with closes := a ++ u :: b }))) ∧
  (∀ (e : CloseEntry) (es : List CloseEntry) (s : State), s.slices.completions = e :: es →
    (let u : State := { s with slices := { s.slices with completions := es } }
    (e.fence = false → exec .closeCompletion s = .next u) ∧
    (∀ core slot g f, e.fence = true → s.findGang e.gang = some (core, slot) → s.gangAt core slot = some g →
      g.fence = some f →
      ∃ t h, exec .closeCompletion s = .next t ∧ t = { u with crews := t.crews } ∧ t.gangAt core slot = some h ∧
        h = { g with fence := some { f with closes := f.closes - 1 } })))

/-- R177, R202, R307 to R312, R315, R389 to R391: what cores and slices do with the messages that reach them. -/
def Obligations.CoreAndSliceMessages : Prop :=
  Rules.ControlPackets ∧ Rules.SliceRequests ∧ Rules.PhaseCloses

/-! ## Reduction rounds, supersteps and agreements (R194 to R196, R207, R394) -/

/-- Bytes of memory after one ordered add: the sum, rounded once, in place of the location's value. -/
def afterAdd (m : Nat → Byte) (c : Contribution) : Nat → Byte :=
  let n : Nat := atomSize c.wide
  let old : Addr := addrOf ((List.range n).map fun i => m (c.pa + i))
  let new : List Byte := bytesOfNat n (applyAtom .faddOrd c.wide old c.value).1.toNat
  fun a => if c.pa ≤ a ∧ a < c.pa + n then new.getD (a - c.pa) 0 else m a

/-- Every fibre that waited at an arrival of this kind goes on at its next unit; registers stay. -/
def ArrivalsReleased (v : Arrival) (g h : Gang) : Prop :=
  h.regs = g.regs ∧ ∀ (l : Nat) (f : Fibre) (next : Addr), g.fibres[l]? = some f → f.hold = some (.arrival v next) →
    (h.fibre l).pc = next ∧ (h.fibre l).hold = none ∧ (h.fibre l).live = f.live ∧ (h.fibre l).pred = f.pred

/-- The round of a launch in view 0 has closed: its contributions, but for those to poisoned lines (R317, log 138), have been
added in the order of their keys, and the others are still held. -/
def RoundClosed (launch : Nat) (s t : State) : Prop :=
  (∃ order : List Contribution,
    order.Perm (s.ordered.filter fun c => c.launch = launch ∧ c.view = 0 ∧ s.linePoisoned 0 (lineOf c.pa) = false) ∧
    order.Pairwise (fun a b => keyLt b.key a.key = false) ∧
    ∀ a, t.mem.get 0 a = order.foldl afterAdd (fun b => s.mem.get 0 b) a) ∧
  t.ordered = s.ordered.filter fun c => ¬(c.launch = launch ∧ c.view = 0)

/-- R195: a contribution is held for its round; where the slices and the overflow area have no room the launch ends with
outcome 0x08. An address outside device memory is the model's one fault. -/
def Rules.OrderedContributions : Prop :=
  ∀ (launch view pa : Nat) (wide : Bool) (value : Addr) (key : List Nat) (core squad : Nat) (s : State) (l : Launch),
    s.launchOf launch = some l →
    (let i : Instr := .orderedAddContribution launch view pa wide value key core squad
    let new : Contribution :=
      { launch := launch, view := view, pa := pa, wide := wide, value := value, key := key, core := core, squad := squad
        tangent := decide (key.getD 6 0 ≠ 0) }
    let held : List Contribution := s.ordered ++ [new]
    (memSize ≤ pa → exec i s = .fault (.outsideMemory pa)) ∧
    (pa < memSize → (∀ n, n < 128 → (held.filter fun c => homeSlice c.pa = n).length ≤ 4096) →
      exec i s = .next { s with ordered := held }) ∧
    (pa < memSize → s.window.ordsize.toNat < overflowCount held * Config.orderedBytes →
      exec i s = .next { s with launches := s.launches.map fun m =>
        if m.num = launch ∧ m.st ≠ .ending then { m with st := .ending, outcome := 8 } else m }))

/-- R394: a package's state of an agreement takes its own value and those of the other ranks, and what it sends: with its own
value and every child's it has the combination of them all, its own first (their sum: log 46), which goes to its parent; the
outcome, which is that of rank 0, goes to its children. -/
def TreeStep (l : Launch) (kind : Agreement) (own : Option Nat) (values : Map Nat) (s t : State) : Prop :=
  let r : Nat := s.span.rank.toNat
  let old : Tree := s.tree l.num kind
  let k : Tree := t.tree l.num kind
  let kids : List Nat := [2 * r + 1, 2 * r + 2].filter fun j => j < l.rcd.spanw
  let outcome (e : Tree) : Option Nat := if r = 0 then e.forwarded else e.values.find ((r - 1) / 2)
  t = { s with span := { s.span with trees := t.span.trees, out := t.span.out } } ∧ k.own = own ∧ k.values = values ∧
  (own = none ∨ old.forwarded ≠ none ∨ (∃ j ∈ kids, values.find j = none) → k.forwarded = old.forwarded) ∧
  (∀ v, own = some v → old.forwarded = none →
    (kids = [] → k.forwarded = some v) ∧
    (∀ i a, kids = [i] → values.find i = some a → k.forwarded = some ((v + a) % 2 ^ 64)) ∧
    (∀ i j a b, kids = [i, j] → values.find i = some a → values.find j = some b →
      k.forwarded = some (((v + a) % 2 ^ 64 + b) % 2 ^ 64))) ∧
  (∃ sent, t.span.out = s.span.out ++ sent) ∧
  (∀ v, r ≠ 0 → old.forwarded = none → k.forwarded = some v →
    { rank := (r - 1) / 2, launch := l.num, kind := kind, value := v : TreeMsg } ∈ t.span.out) ∧
  (∀ v, outcome old = none → outcome k = some v → ∀ j ∈ kids,
    { rank := j, launch := l.num, kind := kind, value := v : TreeMsg } ∈ t.span.out)

/-- R195, R196, R207, R394: a round closes once every fibre has arrived and the launch's packages agree, and so does a
superstep, which closes the round and takes the read-only copies from the launch's cores; the waiting fibres go on. Before
the fibres have arrived neither does anything; then the package gives its value, 0, to the agreement. -/
def Rules.RoundsAndSupersteps : Prop :=
  ∀ (launch : Nat) (s : State),
    (∀ view, s.roundReady launch view = false → exec (.roundClose launch view) s = .next s) ∧
    (s.stepReady launch = false → exec (.superstepComplete launch) s = .next s) ∧
    (∀ l kind i, s.launchOf launch = some l → s.agreed l kind = false → (s.tree l.num kind).own = none →
      (kind, i) ∈ [(Agreement.round, Instr.roundClose launch 0), (.superstep, .superstepComplete launch)] →
      (kind = .round → s.roundReady launch 0 = true) → (kind = .superstep → s.stepReady launch = true) →
      ∃ t, exec i s = .next t ∧ TreeStep l kind (some 0) (s.tree l.num kind).values s t) ∧
    (s.roundReady launch 0 = true → (∀ l, s.launchOf launch = some l → s.agreed l .round = true) →
      ∃ t, exec (.roundClose launch 0) s = .next t ∧ RoundClosed launch s t ∧
      ∀ core slot c g, s.crewAt core = some c → c.launch = launch → c.view = 0 → c.gangs.find slot = some g →
        ∃ h, t.gangAt core slot = some h ∧ ArrivalsReleased .roundClose g h) ∧
    (s.stepReady launch = true → (∀ l, s.launchOf launch = some l → s.agreed l .superstep = true) →
      ∃ t, exec (.superstepComplete launch) s = .next t ∧ RoundClosed launch s t ∧
      ∀ core c, s.crewAt core = some c → c.launch = launch → (t.coreAt core).ro = [] ∧
        ∀ slot g, c.gangs.find slot = some g → ∃ h, t.gangAt core slot = some h ∧ ArrivalsReleased .superstep g h)

/-- R394: a message of the canonical tree, a child's value or the parent's outcome, whose kind of agreement stands in the two
low bits of the event's value (log 46). -/
def Rules.TreeMessages : Prop :=
  ∀ (launch child v : Nat) (kind : Agreement) (s : State) (l : Launch), s.launchOf launch = some l →
    (let old : Tree := s.tree launch kind
    ∃ t, exec (.treeAgreementMessage launch child (4 * v + kind.code)) s = .next t ∧
      TreeStep l kind old.own (old.values.put child v) s t ∧ (t.tree launch kind).values.find child = some v ∧
      (∀ j, j ≠ child → (t.tree launch kind).values.find j = old.values.find j) ∧
      ∀ k, k ≠ kind → t.tree launch k = s.tree launch k)

/-- R194 to R196, R207, R394: ordered adds, rounds, supersteps and agreements of a span. -/
def Obligations.RoundsAndAgreements : Prop :=
  Rules.OrderedContributions ∧ Rules.RoundsAndSupersteps ∧ Rules.TreeMessages

/-- Some fibre of the crews is live, and every live one waits at an arrival of this kind, none in a spawn bin (R196,
R207). -/
def EveryFibreArrived (v : Arrival) (cs : List Crew) : Prop :=
  (∃ c ∈ cs, ∃ e ∈ c.gangs, ∃ f ∈ e.2.fibres, f.live = true) ∧
  ∀ c ∈ cs, (∀ e ∈ c.gangs, ∀ f ∈ e.2.fibres, f.live = true → ∃ next, f.hold = some (.arrival v next)) ∧
    ∀ q ∈ c.squads, q.bins = [] ∧ q.formed = []

/-- Every gang of a launch's crews in a view has its fibres that waited at such an arrival go on. -/
def ReleasedIn (launch view : Nat) (v : Arrival) (s t : State) : Prop :=
  ∀ core slot c g, s.crewAt core = some c → c.launch = launch → c.view = view → c.gangs.find slot = some g →
    ∃ h, t.gangAt core slot = some h ∧ ArrivalsReleased v g h

/-- R194, R195: a contribution to a place in device memory is held, or, where the overflow area cannot take it, ends its
launch with outcome 0x08. -/
def Rules.ContributionsComplete : Prop :=
  ∀ (launch view pa : Nat) (wide : Bool) (value : Addr) (key : List Nat) (core squad : Nat) (s : State) (l : Launch),
    s.launchOf launch = some l → pa < memSize →
    (let held : List Contribution := s.ordered ++
      [{ launch := launch, view := view, pa := pa, wide := wide, value := value, key := key, core := core, squad := squad
         tangent := decide (key.getD 6 0 ≠ 0) }]
    exec (.orderedAddContribution launch view pa wide value key core squad) s = .next
      (if overflowCount held * Config.orderedBytes ≤ s.window.ordsize.toNat then { s with ordered := held }
       else { s with launches := s.launches.map fun m =>
        if m.num = launch ∧ m.st ≠ .ending then { m with st := .ending, outcome := 8 } else m }))

/-- R196: once every live fibre of a launch waits in rclose, no parent of it is suspended in wfork, no ordered add of it
waits for a page and its other packages agree, the launch's round closes and the fibres go on. -/
def Rules.RoundsClose : Prop :=
  ∀ (launch : Nat) (s : State) (l : Launch), s.launchOf launch = some l →
    EveryFibreArrived .roundClose ((s.crewsOf launch).filter fun c => c.depth = 0) →
    (∀ p ∈ s.parked, p.crew.launch = launch → p.why ≠ .suspended) → s.loggedAdds launch 0 = false → s.agreed l .round = true →
    ∃ t, exec (.roundClose launch 0) s = .next t ∧ RoundClosed launch s t ∧ ReleasedIn launch 0 .roundClose s t

/-- R196: once every live fibre of a world waits in rclose, and no ordered add of it waits for a page, the world's own round
closes and its fibres go on; memory outside its view stays. -/
def Rules.WorldRoundsClose : Prop :=
  ∀ (launch view : Nat) (s : State) (l : Launch), s.launchOf launch = some l → view ≠ 0 →
    (∀ w, s.views.find view = some w → w.state ≠ 1) →
    EveryFibreArrived .roundClose ((s.crewsOf launch).filter fun c => c.view = view) → s.loggedAdds launch view = false →
    ∃ t, exec (.roundClose launch view) s = .next t ∧ t.mem = s.mem ∧
      t.ordered = (s.ordered.filter fun c => ¬(c.launch = launch ∧ c.view = view)) ∧ ReleasedIn launch view .roundClose s t

/-- R207: once every live fibre of a launch waits in sstep, no parent of it is suspended, and everything that it issued
before is performed, the superstep completes: the round closes, the read-only copies of its cores are gone, and the fibres
go on. -/
def Rules.SuperstepsComplete : Prop :=
  ∀ (launch : Nat) (s : State) (l : Launch), s.launchOf launch = some l →
    EveryFibreArrived .superstep (s.crewsOf launch) →
    (∀ c ∈ s.crewsOf launch, c.copies = [] ∧ c.matq = [] ∧ c.stream = none ∧ s.closesOf c = false ∧
      ∀ e ∈ c.gangs, e.2.hostReads = []) →
    (∀ p ∈ s.parked, p.crew.launch = launch → p.why ≠ .suspended) → s.packetsOf launch = false →
    s.loggedAdds launch 0 = false → s.agreed l .superstep = true →
    ∃ t, exec (.superstepComplete launch) s = .next t ∧ RoundClosed launch s t ∧ ReleasedIn launch 0 .superstep s t ∧
      ∀ core c, s.crewAt core = some c → c.launch = launch → (t.coreAt core).ro = []

/-- R394: a message of the canonical tree about a launch of the package is kept, and changes nothing but the tree and what has
been sent over the links. -/
def Rules.TreeMessagesComplete : Prop :=
  ∀ (launch child value : Nat) (s : State) (l : Launch), s.launchOf launch = some l →
    ∃ t, exec (.treeAgreementMessage launch child value) s = .next t ∧ t = { s with span := t.span } ∧
      (t.tree launch (Agreement.ofCode value)).values.find child = some (value / 4)

/-- R194 to R196, R207, R394: where a contribution, a round's close, a superstep's completion and a tree message
complete, and with what. -/
def Obligations.RoundEventsComplete : Prop :=
  Rules.ContributionsComplete ∧ Rules.RoundsClose ∧ Rules.WorldRoundsClose ∧ Rules.SuperstepsComplete ∧
    Rules.TreeMessagesComplete

/-! ## Translation and pre-emption (R320 to R344) -/

/-- R322, R332: an address in an enabled heap window translates to itself plus OFF, whatever the tables hold; one outside
it that a TLB holds takes that entry's frame, where the entry permits the access. -/
def Rules.Translations : Prop :=
  ∀ (s : State) (core ctx : Nat) (priv : Bool) (kind : AccessKind) (va : Addr),
    (let v : Nat := va.toNat % 2 ^ 56
    let w : Ctx := s.ctxAt ctx
    let inside : Prop := w.base.getLsbD 0 = true ∧ heapByte w.base ≤ v ∧ v < heapByte w.lim
    copyPa s kind v = none →
    (inside → translate s core ctx priv kind va = .pa (BitVec.ofNat 64 v + (w.off &&& ~~~0x1fffff#64)).toNat) ∧
    (∀ e, ¬inside → tlbLookup s core ctx v = some e →
      (permits kind priv e.w e.x e.k = true → translate s core ctx priv kind va = .pa (e.frame + v % 2 ^ e.shift)) ∧
      (permits kind priv e.w e.x e.k = false → translate s core ctx priv kind va = .unmapped)))

/-- R323, R329, R331, R333: what the walker does with the outcome of a walk: a translation enters the core's TLB; a
malformed table ends every launch of the context with outcome 0x07; an absent page that is not migrating and not yet
posted is posted to the context's fault queue, and written at its place there where that is pinned memory (log 33). -/
def Rules.PageWalks : Prop :=
  ∀ (core : Nat) (va : Addr) (kind : Nat) (s : State) (w : Agent), s.agentAt core = some w →
    (let v : Nat := va.toNat % 2 ^ 56
    let k : AccessKind := .ofCode kind
    let i : Instr := .pageWalk core va kind
    let queue : List FaultRec := s.faults.get [] w.ctx
    let posted (page : Addr) : FaultRec :=
      { va := page, launch := w.launch, ctx := w.ctx, kind := k.code, core := core, span := s.span.rank.toNat
        place := freePlace queue }
    let at_ : Nat := s.faultQueue w.ctx + 32 * freePlace queue
    (inWindow (s.ctxAt w.ctx) v = true → exec i s = .next s) ∧
    (inWindow (s.ctxAt w.ctx) v = false →
      (walk s w.ctx v k w.priv = .unmapped → exec i s = .next s) ∧
      (walk s w.ctx v k w.priv = .broken → exec i s = .next { s with launches := s.launches.map fun l =>
        if l.rcd.ctx = w.ctx ∧ l.st ≠ .ending then
          { l with st := .ending, outcome := 7, cause := 6, fatalAddr := va } else l }) ∧
      (∀ page sh m, walk s w.ctx v k w.priv = .absent page sh m →
        (m = true ∨ (∃ r ∈ queue, r.va = page) → exec i s = .next s) ∧
        (m = false → (∀ r ∈ queue, r.va ≠ page) → ∃ t, exec i s = .next t ∧
          t = { s with faults := s.faults.put w.ctx (queue ++ [posted page]), mem := t.mem } ∧
          ∀ b, t.mem.get 0 b = if pinned s.window at_ 32 = true ∧ at_ ≤ b ∧ b < at_ + 32
            then (faultBytes (posted page)).getD (b - at_) 0 else s.mem.get 0 b)) ∧
      (∀ e, walk s w.ctx v k w.priv = .found e → copyPa s k v = none →
        ∃ t, exec i s = .next t ∧ t = { s with cores := t.cores, l2tlb := t.l2tlb } ∧
          (∃ u ∈ (t.coreAt core).tlb, u.covers w.ctx v = true ∧ (tlbLookup s core w.ctx v = none → u = e)) ∧
          ∀ j, j ≠ core → t.cores.find j = s.cores.find j)))

/-- R334, R336: when a page resumes, its side-logged write in view 0 is performed, its fault record is gone, and a group
that waits for the page no longer waits for it; entries are replayed in the order of their times, at one time in that of
their times before the commits that gave it (R290), and then of their cores. -/
def Rules.PageResumes : Prop :=
  (∀ (ctx : Nat) (va : Addr) (s : State) (x : SideEntry) (i : SideItem) (e : TlbEntry),
    (let inPage (p : Addr) : Prop := p.toNat / 2 ^ x.shift = va.toNat % 2 ^ 56 / 2 ^ x.shift
    let hit (y : SideEntry) : Bool := decide (y.ctx = ctx ∧ va.toNat % 2 ^ 56 / 2 ^ y.shift = y.page.toNat / 2 ^ y.shift)
    (s.cores.flatMap fun k => k.2.sideLog.filter hit) ++ s.savedLog.filter hit = [x] → x.view = 0 → x.items = [i] →
    walk s ctx (i.va.toNat % 2 ^ 56) .store true = .found e →
    (let pa : Nat := e.pa (i.va.toNat % 2 ^ 56)
    ∃ t, exec (.pageResume ctx va) s = .next t ∧ (∀ r ∈ t.faults.get [] ctx, ¬inPage r.va) ∧
      (∀ a bs, i = .bytes a bs → ∀ b, t.mem.get 0 b = afterWrites (spread pa bs) b (s.mem.get 0 b)) ∧
      (∀ a hi v, i = .nibble a hi v → ∀ b, t.mem.get 0 b =
        if b = pa then (if hi then v ++ (s.mem.get 0 b).extractLsb' 0 4 else (s.mem.get 0 b).extractLsb' 4 4 ++ v)
        else s.mem.get 0 b) ∧
      (∀ a fn wide v tg, i = .rmw a fn wide v tg → fn ≠ .cas → ∀ b, t.mem.get 0 b =
        (let n : Nat := atomSize wide
        if pa ≤ b ∧ b < pa + n then (bytesOfNat n (applyAtom fn wide
            (addrOf ((List.range n).map fun j => s.mem.get 0 (pa + j))) v).1.toNat).getD (b - pa) 0
        else s.mem.get 0 b)) ∧
      ∀ (core slot l : Nat) (g : Gang) (f : Fibre) (ps : List Addr), s.gangAt core slot = some g → g.fibres[l]? = some f →
        f.hold = some (.page ctx ps) → ∃ h, t.gangAt core slot = some h ∧
          (h.fibre l).hold = some (.page ctx (ps.filter fun p => p.toNat / 2 ^ x.shift ≠ va.toNat % 2 ^ 56 / 2 ^ x.shift)) ∧
          (h.fibre l).pc = f.pc))) ∧
  (∀ es : List (SideEntry × Bool), (es.foldl (fun l e => insertEntry e l) []).Perm es ∧
    (es.foldl (fun l e => insertEntry e l) []).Pairwise fun a b =>
      a.1.time ≤ b.1.time ∧ (a.1.time = b.1.time → keyLt b.1.before a.1.before = false) ∧
      (a.1.time = b.1.time → a.1.before = b.1.before → a.1.core ≤ b.1.core))

/-- R338, R342: a request becomes pending in the crew, and an earlier one stays as it was; a cancelled one is gone; one
that has been pending for 2^20 cycles is reported once, with the first group that has not stopped, and beside the report
the launch, the core and each gang's groups that have not stopped (log 131). -/
def Rules.PreemptionRequests : Prop :=
  ∀ (core : Nat) (s : State) (c : Crew) (l : Launch), s.crewAt core = some c → s.launchOf c.launch = some l →
    (let becomes (i : Instr) (p : Option Preempt) : Prop :=
      ∃ t q, exec i s = .next t ∧ t = { s with crews := t.crews } ∧ t.crewAt core = some q ∧ q = { c with preempt := p } ∧
        ∀ k, k ≠ core → t.crewAt k = s.crewAt k
    let late (why : BitVec 8) (pc : Addr) : Report :=
      { type := 3, code := why, ctx := l.rcd.ctx, launch := c.launch, ltag := l.rcd.ltag, place := core, pc := pc }
    let posted (why : BitVec 8) (pc : Addr) (t : State) : Prop :=
      let notes : List OverdueNote := s.device.overdue ++
        [{ launch := c.launch, core := core, code := why, gangs := c.gangs.mapVals Gang.unstoppedPcs }]
      t.device.overdue = notes ∧ Posts (late why pc) { s with device := { s.device with overdue := notes } } t
    becomes (.preemptionRequest core) (some (c.preempt.getD { since := s.clock.toNat })) ∧
    becomes (.preemptionCancel core) none ∧
    (∀ p, c.preempt = some p →
      (p.reported = true ∨ s.clock.toNat < p.since + 2 ^ 20 → exec (.preemptionOverdue core) s = .next s) ∧
      (p.reported = false → p.since + 2 ^ 20 ≤ s.clock.toNat →
        ∃ t q, exec (.preemptionOverdue core) s = .next t ∧ t.mem = s.mem ∧ t.crewAt core = some q ∧
          q = { c with preempt := some { p with reported := true } } ∧
          (firstUnstopped c = none → posted 3 0 t) ∧
          ∀ pc why, firstUnstopped c = some (pc, why) → posted why pc t)))

/-- R321: memory is as it was, but that the context's heap window has gone to its descriptor where no crew of the context
is left running. -/
def WindowKept (ctx : Nat) (s t : State) : Prop :=
  let w : Ctx := s.ctxAt ctx
  let at_ : Nat := s.window.ptrbase.toNat + 256 * ctx + 128
  ∀ b, t.mem.get 0 b = if t.ctxIdle ctx = true ∧ at_ ≤ b ∧ b < at_ + 24
    then (bytesOfNat 8 w.base.toNat ++ bytesOfNat 8 w.lim.toNat ++ bytesOfNat 8 w.off.toNat).getD (b - at_) 0
    else s.mem.get 0 b

/-- R338, R339, R343: a crew that has stopped and drained closes the phases of its gangs; once no close is left it leaves
its core and is kept with its scratchpad, barriers, tiles, queues and tasks, the anchors and live registers of its
fibres, and its side log. -/
def Rules.CrewSaves : Prop :=
  ∀ (core : Nat) (s : State) (c : Crew), s.crewAt core = some c →
    (let able : Prop := c.preempt ≠ none ∧ c.ending = none ∧ c.gangsStopped = true ∧ c.drained = true ∧
      c.collectiveDue = false
    (¬able → exec (.crewSave core) s = .next s) ∧
    (able → Map.wf c.gangs = true → (∃ e ∈ c.gangs, e.2.sent ≠ []) →
      ∃ t, exec (.crewSave core) s = .next t ∧ t.mem = s.mem ∧ ∀ slot g, c.gangs.find slot = some g →
        ∃ h, t.gangAt core slot = some h ∧ h = { g with phase := g.phase + 1, sent := [] }) ∧
    (able → (∀ e ∈ c.gangs, e.2.sent = []) → s.closesOf c = true → exec (.crewSave core) s = .next s) ∧
    (able → (∀ e ∈ c.gangs, e.2.sent = []) → s.closesOf c = false →
      ∃ t p, exec (.crewSave core) s = .next t ∧ WindowKept (s.ctxOf c.launch) s t ∧ t.crewAt core = none ∧
        (∀ k, k ≠ core → t.crewAt k = s.crewAt k) ∧ t.parked = s.parked ++ [p] ∧ p.core = core ∧ p.why = .saved ∧
        p.bound = decide (c.depth = 0) ∧ p.since = s.clock.toNat ∧
        p.crew = { c with gangs := p.crew.gangs, squads := p.crew.squads, role := {}, preempt := none } ∧
        t.savedLog = s.savedLog ++ (s.coreAt core).sideLog.filter (fun e => e.launch = c.launch) ∧
        (t.coreAt core).sideLog = (s.coreAt core).sideLog.filter (fun e => e.launch ≠ c.launch) ∧
        ∀ slot g, c.gangs.find slot = some g → ∃ h, p.crew.gangs.find slot = some h ∧
          h = { g with regs := h.regs, fibres := h.fibres, roleMark := none, buffer := [], stored := [] } ∧
          (Map.wf g.regs = true → ∀ q l r v, l < 64 → q < 5 → (g.fibre l).live = true → (g.fibre l).safe = some v →
            (g.fibre l).wbase + r < 1024 → r < 16 + v.toNat → h.reg q l r = g.reg q l r) ∧
          ∀ (l : Nat) (f : Fibre), g.fibres[l]? = some f → f.hold = some .safePoint →
            h.fibre l = { f with hold := none, safe := none }))

/-- R340, R355: the saved crews of a launch whose turn it is resume together, each on its core with what it held, its
counts of cycles moved by the time it was away. -/
def Rules.CrewResumes : Prop :=
  ∀ (id : Nat) (s : State) (p : Parked) (l : Launch), s.parked.find? (fun q => q.id == id) = some p →
    s.launchOf p.crew.launch = some l →
    (serveNext s ≠ some (.resume l.num) → exec (.crewResume id) s = .next s) ∧
    (∀ cores, serveNext s = some (.resume l.num) → canResume s l = some cores → (cores.map Prod.fst).Nodup →
      (cores.map Prod.snd).Nodup →
      ∃ t, exec (.crewResume id) s = .next t ∧ t.mem = s.mem ∧
        t.parked = s.parked.filter (fun q => q.id ∉ cores.map Prod.fst) ∧
        (∀ k, k ∉ cores.map Prod.snd → t.crewAt k = s.crewAt k) ∧
        ∀ n k q, (n, k) ∈ cores → s.parked.find? (fun o => o.id == n) = some q → Map.wf q.crew.gangs = true →
          ∃ r, t.crewAt k = some r ∧ r = { q.crew with gangs := r.gangs, squads := r.squads, away := [] } ∧
            (t.coreAt k).ro = [] ∧ ∀ slot g, q.crew.gangs.find slot = some g → ∃ h, r.gangs.find slot = some h ∧
              h.regs = g.regs ∧ h.pending = g.pending ∧ h.fibres = g.fibres.map (fun f =>
                { f with since := f.since + (s.clock.toNat - q.since) }))

/-- R320 to R344: translation, page faults and pre-emption. -/
def Obligations.TranslationAndPreemption : Prop :=
  Rules.Translations ∧ Rules.PageWalks ∧ Rules.PageResumes ∧ Rules.PreemptionRequests ∧ Rules.CrewSaves ∧
    Rules.CrewResumes

/-! ## Launches (R319, R345 to R357, R399, R402) -/

/-- R331: the launches after a walk for a head met a malformed table: the running ones of its context end, and it ends with
them. -/
def Broken (l : Launch) (va : Addr) (s : State) : List Launch :=
  s.launches.map (fun m => if m.rcd.ctx = l.rcd.ctx ∧ m.st ≠ .ending
    then { m with st := .ending, outcome := 7, cause := 6, fatalAddr := va } else m) ++
    [{ l with st := .ending, outcome := 7, cause := 6, fatalAddr := va }]

/-- R319, R331, R348, R349, R399: a tail write that would hold more records than the ring is ignored, and another one is kept;
the control plane takes the record at the head, gives it the next launch number and the accepted features, and refuses it
at once, ends it with its context where a table is malformed, waits for absent pages, or goes on to its dependences. -/
def Rules.RecordsTaken : Prop :=
  ∀ (n : Nat) (s : State), n < 16 → n < s.queues.length →
    (let q : LaunchQueue := s.queueAt n
    (∀ tail, s.neverStarted = false →
      (q.size.toNat < (tail - q.head).toNat → exec (.launchQueuePost n tail) s = .next s) ∧
      ((tail - q.head).toNat ≤ q.size.toNat → ∃ t, exec (.launchQueuePost n tail) s = .next t ∧
        t = { s with queues := t.queues } ∧ t.queueAt n = { q with tail := tail } ∧
        ∀ k, k ≠ n → t.queueAt k = s.queueAt k)) ∧
    (s.device.bootst = 1 → s.mgmt.hot = none → s.queueBusy n = false → q.current = none → q.head ≠ q.tail → q.size ≠ 0 →
      (let at_ : Nat := q.ring.toNat + 8 * (q.head.toNat % q.size.toNat)
      let rec_ : Nat := memNat s.mem at_ 8
      let blank : Launch := { num := s.nextLaunch, queue := n, rcd := {}, features := s.window.featacc }
      let read : Launch := { blank with rcd := parseRecord (memBytes s.mem rec_ 256) }
      let taken (c : Option Head) (t : State) : Prop := t.crews = s.crews ∧
        t.nextLaunch = (if s.nextLaunch < 2 ^ 32 - 1 then s.nextLaunch + 1 else 1) ∧
        t.queueAt n = { q with head := q.head + 1, current := c } ∧ ∀ k, k ≠ n → t.queueAt k = s.queueAt k
      (memSize < at_ + 8 ∨ rec_ % 256 ≠ 0 ∨ memSize < rec_ + 256 →
        ∃ t, exec (.launchRecordTake n) s = .next t ∧ taken none t ∧ t.mem = s.mem ∧
          t.launches = s.launches ++ [{ blank with st := .ending, outcome := 2 }]) ∧
      (at_ + 8 ≤ memSize → rec_ % 256 = 0 → rec_ + 256 ≤ memSize →
        (∀ code, checkLaunch s read = .refused code → ∃ t, exec (.launchRecordTake n) s = .next t ∧ taken none t ∧
          t.mem = s.mem ∧ t.launches = s.launches ++ [{ read with st := .ending, outcome := code }]) ∧
        (∀ pages, checkLaunch s read = .away pages → ∃ t, exec (.launchRecordTake n) s = .next t ∧
          taken (some { launch := read }) t ∧ t.launches = s.launches) ∧
        (∀ va, checkLaunch s read = .broken va → ∃ t, exec (.launchRecordTake n) s = .next t ∧ taken none t ∧
          t.mem = s.mem ∧ t.launches = Broken read va s) ∧
        (checkLaunch s read = .accepted → ∃ t, exec (.launchRecordTake n) s = .next t ∧
          taken (some { launch := read, checked := true }) t ∧ t.mem = s.mem ∧ t.launches = s.launches)))))

/-- R345, R349, R357: what a record that is accepted has been held to; a privileged one in a user queue is refused with
outcome 0x01, and one with a field outside its range with 0x02. -/
def Rules.LaunchChecks : Prop :=
  ∀ (s : State) (l : Launch),
    (let r : Record := l.rcd
    let f : Nat := if r.flags.getLsbD 6 then 4 else 2
    let inRange : Prop := 1 ≤ r.spanw ∧ (1 ≤ r.crews ∧ r.crews ≤ 512) ∧ (1 ≤ r.gangs ∧ r.gangs ≤ 64) ∧
      (1 ≤ r.wreg ∧ r.wreg ≤ 32) ∧ (r.scratch % 128 = 0 ∧ r.scratch ≤ 524288) ∧ r.tang ≤ 4 ∧ r.level ≤ 3 ∧
      (r.taskb = 0 ∨ 16 ≤ r.taskb ∧ r.taskb ≤ 2 ^ 20) ∧ (r.listb = 0 ∨ 16 ≤ r.listb ∧ r.listb ≤ 2 ^ 24)
    let levels : Prop := (r.flags.getLsbD 2 = true → r.level ≠ 0) ∧ (r.level = 1 → r.crews % 8 = 0) ∧
      (r.level = 2 → r.crews % 64 = 0) ∧ (r.level = 3 → r.crews = 512)
    let user : Prop := r.flags.getLsbD 0 = true ∧ 4 ≤ l.queue
    (user → checkLaunch s l = .refused 1) ∧
    (¬user → ¬inRange ∨ r.entry.toNat % 4 ≠ 0 ∨ r.handler.toNat % 4 ≠ 0 ∨ ¬levels → checkLaunch s l = .refused 2) ∧
    (checkLaunch s l = .accepted → ¬user ∧ inRange ∧ r.entry.toNat % 4 = 0 ∧ r.handler.toNat % 4 = 0 ∧ levels ∧
      (r.htab ≠ 0 → r.htab.toNat % 128 = 0) ∧ (r.doneAt ≠ 0 → r.doneAt.toNat % 16 = 0) ∧
      (r.tang ≠ 0 → l.features.getLsbD 1 = true) ∧ (r.flags.getLsbD 3 = true → l.features.getLsbD 2 = true) ∧
      (r.flags.getLsbD 4 = true → l.features.getLsbD 0 = true) ∧ (r.flags.getLsbD 2 = true → l.features.getLsbD 3 = true) ∧
      (r.gangs + 3) / 4 * ((15 + 16 * r.wreg) * (f + r.tang)) ≤ 4096 ∧
      (r.flags.getLsbD 5 = true → r.entry = 0 ∧ r.low < r.high ∧ r.low ≤ 16 ∧ 1 ≤ r.dwell ∧
        r.rcnt.getD 0 0 ≠ 0 ∧ r.rcnt.getD 1 0 ≠ 0)))

/-- R350: a head that has passed its checks becomes eligible once every counter it names has been reached with status 0;
while one has not it waits; a counter with another status refuses it with outcome 0x05, and one that cannot be used with
0x02; a malformed table ends it with its context (R331). -/
def Rules.Dependences : Prop :=
  ∀ (n : Nat) (s : State) (h : Head), n < s.queues.length → (s.queueAt n).current = some h → h.checked = true →
    h.depsMet = false → s.device.bootst = 1 → s.mgmt.hot = none →
    (let has (d : Dep) : Prop := ∃ a ∈ h.launch.rcd.dep, a ≠ 0 ∧ depState s h.launch a = d
    let only (ds : List Dep) : Prop := ∀ a ∈ h.launch.rcd.dep, a ≠ 0 → depState s h.launch a ∈ ds
    let refused (code : BitVec 8) : Prop := ∃ t, exec (.dependencyCheck n) s = .next t ∧ t.mem = s.mem ∧
      t.launches = s.launches ++ [{ h.launch with st := .ending, outcome := code }] ∧
      t.queueAt n = { s.queueAt n with current := none }
    (only [.met] → ∃ t, exec (.dependencyCheck n) s = .next t ∧ t = { s with queues := t.queues } ∧
      t.queueAt n = { s.queueAt n with current := some { h with depsMet := true, since := s.clock.toNat } }) ∧
    (only [.met, .pending, .failed] → has .pending → exec (.dependencyCheck n) s = .next s) ∧
    (only [.met, .failed] → has .failed → refused 5) ∧
    (has .unusable → (∀ va, ¬has (.broken va)) → refused 2) ∧
    ((∃ va, has (.broken va)) → ∃ t va, exec (.dependencyCheck n) s = .next t ∧ has (.broken va) ∧ t.mem = s.mem ∧
      t.launches = Broken h.launch va s ∧ t.queueAt n = { s.queueAt n with current := none }))

/-- R346, R347, R352: the eligible head whose turn it is is placed all at once: each core of its placement starts a crew
with that index, empty queues of new generations, an empty scratchpad and the initial gangs, whose 64 fibres start at
ENTRY with ARG in g2:g3. Any other head stays. -/
def Rules.Placement : Prop :=
  ∀ (n : Nat) (s : State) (h : Head), n < s.queues.length → (s.queueAt n).current = some h → h.depsMet = true →
    s.device.bootst = 1 → s.mgmt.hot = none →
    (let r : Record := h.launch.rcd
    (serveNext s ≠ some (.head n) → exec (.launchPlacement n) s = .next s) ∧
    (∀ cores, serveNext s = some (.head n) → headCores s n h = some cores → cores.Nodup →
      s.launchOf h.launch.num = none →
      ∃ t l, exec (.launchPlacement n) s = .next t ∧ (r.htab = 0 → t.mem = s.mem) ∧ t.parked = s.parked ∧
        t.queueAt n = { s.queueAt n with current := none } ∧
        t.launchOf h.launch.num = some l ∧ l.cores = cores ∧ l.rcd = r ∧ l.st = .running ∧ l.started = s.clock.toNat ∧
        l.code = t.mem ∧ l.heap = t.ctxAt r.ctx ∧ (∀ k, k ∉ cores → t.crewAt k = s.crewAt k) ∧
        ∀ (i k : Nat), cores[i]? = some k → ∃ q, t.crewAt k = some q ∧ q.launch = h.launch.num ∧ q.index = i ∧
          q.size = r.scratch ∧ q.scratch = [] ∧ q.full = 0 ∧ q.tiles = [] ∧ q.depth = 0 ∧ q.world = 0 ∧ q.view = 0 ∧
          (∀ b, b < 32 → q.barrier b = { expc := r.gangs * 64 }) ∧ (t.coreAt k).ro = [] ∧
          (∀ j, j < 8 → (q.queueAt j).entries = [] ∧ (q.queueAt j).gen = (s.coreAt k).gen j + 1) ∧
          q.tasks.recs = [] ∧ q.tasks.gen = (s.coreAt k).gen 8 + 1 ∧
          (∀ slot, r.gangs ≤ slot → q.gangs.find slot = none) ∧
          ∀ slot, slot < r.gangs → ∃ g, q.gangs.find slot = some g ∧ g.ctl = r.ctl &&& 0xffffffff000001fb#64 ∧
            g.tanstride = r.tanstride &&& ~~~3#64 ∧ g.layouts = [] ∧ g.pending = [] ∧ g.handler = none ∧
            ∀ l, l < 64 → (g.fibre l).live = true ∧ (g.fibre l).wbase = 0 ∧ (g.fibre l).pred = 1 ∧
              (g.fibre l).hold = none ∧ g.reg64 0 l 2 = r.arg ∧ (r.flags.getLsbD 5 = false → (g.fibre l).pc = r.entry)))

/-- R354: where a head that has waited its time finds victims, a request reaches every crew of theirs, and they are
marked as pre-empted for it. -/
def Rules.PriorityPreemptions : Prop :=
  ∀ (n : Nat) (s : State) (h : Head), (s.queueAt n).current = some h → h.depsMet = true →
    (s.clock.toNat < h.since + 2 ^ 20 ∨ (placeCrews (freeFor s h.launch.num) h.launch.rcd).isSome = true →
      exec (.priorityPreemption n) s = .next s) ∧
    (∀ vs, victims s n h = some vs → ∃ t, exec (.priorityPreemption n) s = .next t ∧
      t = { s with crews := t.crews, launches := t.launches } ∧
      (∀ k c, s.crewAt k = some c → t.crewAt k = some (if c.launch ∈ vs then
        { c with preempt := some (c.preempt.getD { since := s.clock.toNat }) } else c)) ∧
      t.launches = s.launches.map (fun l => if l.num ∈ vs then { l with by_ := some h.launch.num } else l)) ∧
    (∀ vs, victims s n h = some vs → ∀ m ∈ vs, ∃ l ∈ s.launches, l.num = m ∧ l.st = .running ∧ 4 ≤ l.queue ∧ n < l.queue)

/-- R195, R335, R356, R357, R401: a launch whose crews have all ended, or that is to end, ends: crews that are left are
dropped, the round closes, DONE is signalled with status 0x0003 unless it completed, and its completion report is
posted; while an ordered add of it waits in a side log its round stays open, and while a write of it does it does not end. The
packages of a span end a launch that has run together (R394). -/
def Rules.LaunchesEnd : Prop :=
  ∀ (n : Nat) (s : State) (l : Launch), s.launchOf n = some l →
    (let bytes : Report :=
      { type := 1, code := l.outcome, ctx := l.rcd.ctx, launch := n, ltag := l.rcd.ltag, cause := l.cause, ndisc := l.ndisc
        place := l.fatalCore, pc := l.fatalPc, addr := l.fatalAddr }
    (l.st ≠ .ending → s.crewsOf n ≠ [] → exec (.launchEnd n) s = .next s) ∧
    (l.st ≠ .ending → s.crewsOf n = [] → s.agreed l .ending = false → (s.tree l.num .ending).own = none →
      ∃ t, exec (.launchEnd n) s = .next t ∧ TreeStep l .ending (some 0) (s.tree l.num .ending).values s t) ∧
    (l.st = .ending ∨ s.crewsOf n = [] ∧ s.agreed l .ending = true → Map.wf s.crews = true →
      (∀ c ∈ s.ordered, c.launch = n → s.linePoisoned 0 (lineOf c.pa) = false) →
      (let left : State := s.dropCrews n
      let waits (t : State) : Prop := exec (.launchEnd n) s = .next t ∧ t.launches = s.launches ∧ t.device = s.device
      left.mem = s.mem ∧
      (left.loggedAdds n 0 = true → ∃ t, waits t ∧ t.mem = s.mem) ∧
      (left.loggedAdds n 0 = false → left.logged n = true ∨ s.reportRoom = false → ∃ t, waits t ∧ RoundClosed n left t) ∧
      (left.logged n = false → s.reportRoom = true → l.rcd.doneAt = 0 → l.doneBad = false →
        ∃ t, exec (.launchEnd n) s = .next t ∧ RoundClosed n left t ∧ t.launchOf n = none ∧
          (∀ m, m ≠ n → t.launchOf m = s.launchOf m) ∧ Posts bytes s t ∧
          ∀ k c, s.crewAt k = some c → (c.launch = n → t.crewAt k = none) ∧
            (c.launch ≠ n → ∃ q, t.crewAt k = some q ∧ q.gangs = c.gangs ∧ q.scratch = c.scratch)))) ∧
    (∀ u, s.crewsOf n = [] → l.st = .ending ∨ s.agreed l .ending = true → s.logged n = false → s.reportRoom = true →
      (∀ c ∈ s.ordered, c.launch ≠ n) → l.rcd.doneAt ≠ 0 → l.doneSent = false → l.doneBad = false →
      s.signal (controlAgent l) 0 l.rcd.doneAt (if l.outcome = 0 then 0 else 3) 0 = .done u → u.launches = s.launches →
      ∃ t, exec (.launchEnd n) s = .next t ∧ t.mem = u.mem ∧ t.launchOf n = none ∧ Posts bytes u t))

/-- R357, R402: cancelling ends a launch with outcome 0x09, whether it still stands at its queue's head or runs. -/
def Rules.LaunchesCancelled : Prop :=
  ∀ (num : Nat) (s : State),
    (∀ n h, n < 16 → n < s.queues.length → (s.queueAt n).current = some h → h.launch.num = num →
      (∀ k, k < n → ∀ o, (s.queueAt k).current = some o → o.launch.num ≠ num) →
      ∃ t, exec (.launchCancel num) s = .next t ∧ t = { s with queues := t.queues, launches := t.launches } ∧
        t.queueAt n = { s.queueAt n with current := none } ∧
        t.launches = s.launches ++ [{ h.launch with st := .ending, outcome := 9 }]) ∧
    ((∀ k, k < 16 → ∀ o, (s.queueAt k).current = some o → o.launch.num ≠ num) →
      exec (.launchCancel num) s = .next { s with launches := s.launches.map fun l =>
        if l.num = num ∧ l.st ≠ .ending then { l with st := .ending, outcome := 9 } else l })

/-- R319, R345 to R357, R399, R402: the life of a launch. -/
def Obligations.Launches : Prop :=
  Rules.RecordsTaken ∧ Rules.LaunchChecks ∧ Rules.Dependences ∧ Rules.Placement ∧ Rules.PriorityPreemptions ∧
    Rules.LaunchesEnd ∧ Rules.LaunchesCancelled

/-! ## Fabric and links (R378 to R393) -/

/-- R378 to R381: the loop that the table chooses for a packet passes its source and the stop where it leaves the loop: its
destination, or the bridge that its die joins to the destination's. -/
def Rules.Routes : Prop :=
  ∀ (src dst : Nat) (p : FabPacket), src < 256 → dst < 256 → stopOf src < 48 → stopOf dst < 48 ∨ stopOf dst = 51 →
    src ≠ dst → p.dst.toNat = dst →
    (let loop : Nat := route src dst
    let at_ : Nat := exitStop (dieOf src) loop p
    placeAt loop src ≠ none ∧ placeOn loop at_ ≠ none ∧ (dieOf src = dieOf dst → at_ = stopOf dst) ∧
    (dieOf src ≠ dieOf dst → 48 ≤ at_ ∧ at_ < 51 ∧ dieOf src ^^^ (at_ - 48 + 1) = dieOf dst))

/-- R382, R384, R387: in a cycle in which a stop may inject into a loop's free slot, and has not injected there yet, the
promoted head that reached AGE 64 first goes, whatever the credits are; else the class at the pointer while it has credit, of
which it uses one; where no head has credit, each class has its weight's credit again and the first from CTL on goes. Where
the slot is taken, or no head may go, nothing does. -/
def Rules.PacketInjection : Prop :=
  ∀ (stop loop place : Nat) (s : State), placeAt loop stop = some place →
    (let old : Stop := s.fabric.stopAt stop
    let key : Nat := slotKey (dieOf stop) loop (slotAt loop place s.clock.toNat)
    let now : Nat := s.clock.toNat
    let i : Instr := .packetInject stop loop
    let head (c : Nat) (h : FabPacket) (q : List FabPacket) : Prop := c < 4 ∧ old.queue loop c = h :: q ∧ old.paused c = false
    let may : Prop := s.fabric.slots.find key = none ∧ old.acted.get 0 loop ≠ now + 1
    let credit : List Nat := (old.credits.find loop).getD [8, 4, 4, 1]
    let sent (c : Nat) (h : FabPacket) (q : List FabPacket) (t : State) : Prop :=
      t = { s with fabric := t.fabric } ∧ t.fabric.slots.find key = some h ∧
      (∀ k, k ≠ key → t.fabric.slots.find k = s.fabric.slots.find k) ∧
      (t.fabric.stopAt stop).queue loop c = (match q with | b :: r => { b with since := now + 1 } :: r | [] => []) ∧
      (∀ l k, k < 4 → ¬(l = loop ∧ k = c) → (t.fabric.stopAt stop).queue l k = old.queue l k) ∧
      ∀ k, k ≠ stop → t.fabric.stopAt k = s.fabric.stopAt k
    let paid (c p : Nat) (cr : List Nat) (h : FabPacket) (q : List FabPacket) (i : Instr) : Prop :=
      ∃ t, exec i s = .next t ∧ sent c h q t ∧ (t.fabric.stopAt stop).pointer.get 0 loop = p ∧
        (t.fabric.stopAt stop).credits.find loop = some (cr.set p (cr.getD p 0 - 1))
    (¬may → exec i s = .next s) ∧
    ((∀ c h q, ¬head c h q) → exec i s = .next s) ∧
    (∀ c h q, may → head c h q → h.age = 64 →
      (∀ k b r, k ≠ c → head k b r → b.age = 64 → h.promoted.getD 0 < b.promoted.getD 0) →
      ∀ e ∈ [i, .agePromotion stop loop], ∃ t, exec e s = .next t ∧ sent c h q t ∧ (t.fabric.stopAt stop).credits = old.credits ∧
        (t.fabric.stopAt stop).pointer = old.pointer) ∧
    (may → (∀ k b r, head k b r → b.age ≠ 64) → ∀ p c h q, ringOrder[p]? = some c → head c h q →
      (old.pointer.get 0 loop = p → 0 < credit.getD p 0 → paid c p credit h q i) ∧
      ((∀ k b r n, head k b r → ringOrder[n]? = some k → credit.getD n 0 = 0) → 0 < s.mgmt.weights.getD p 0 →
        (∀ n k b r, n < p → ringOrder[n]? = some k → ¬head k b r) → paid c p s.mgmt.weights h q i)))

/-- R384, R387: a head's AGE counts the cycles that pass while it is not injected, up to 64, and with the last of these it is
promoted; the head of a paused class keeps its AGE. Where no head has been promoted none goes out of its turn. -/
def Rules.AgePromotions : Prop :=
  (∀ (n stop loop c : Nat) (s : State) (h : FabPacket) (q : List FabPacket), c < 4 →
    (s.fabric.stopAt stop).queue loop c = h :: q → h.since ≤ s.clock.toNat →
    (let paused : Bool := (s.fabric.stopAt stop).paused c
    ∃ k, ((passCycles n s).fabric.stopAt stop).queue loop c = k :: q ∧ k.dst = h.dst ∧ k.cls = h.cls ∧ k.addr = h.addr ∧
      k.data = h.data ∧ k.laps = h.laps ∧
      (paused = true → k.age = h.age ∧ k.promoted = h.promoted) ∧
      (paused = false → k.age.toNat = min 64 (h.age.toNat + n) ∧
        (h.promoted = none → h.age.toNat < 64 → 64 ≤ h.age.toNat + n →
          k.promoted = some (s.clock.toNat + (64 - h.age.toNat)))))) ∧
  (∀ (stop loop : Nat) (s : State),
    (∀ c h q, c < 4 → (s.fabric.stopAt stop).queue loop c = h :: q → h.age = 64 → (s.fabric.stopAt stop).paused c = true) →
    exec (.agePromotion stop loop) s = .next s)

/-- R385 to R387, R401: a packet at the stop where it leaves its loop ejects where its class has a free entry; one that
does not goes round again with LAPS one higher, up to 4, and at 4 enters its class's empty sump entry and is counted. -/
def Rules.PacketEjection : Prop :=
  ∀ (stop loop : Nat) (s : State),
    (leaving s stop loop = none → exec (.packetEject stop loop) s = .next s ∧ exec (.sumpDiversion stop loop) s = .next s) ∧
    (∀ key p, leaving s stop loop = some (key, p) →
      (let c : Nat := p.cls.toNat
      let old : Stop := s.fabric.stopAt stop
      let full : Prop := ejectRoom (stopOf stop) c ≤ (old.eject.get [] c).length
      let kept (t : State) : Prop := ∀ k, k ≠ key → t.fabric.slots.find k = s.fabric.slots.find k
      (¬full → exec (.sumpDiversion stop loop) s = .next s ∧
        ∃ t, exec (.packetEject stop loop) s = .next t ∧ t = { s with fabric := t.fabric } ∧ kept t ∧
          t.fabric.slots.find key = none ∧ (t.fabric.stopAt stop).eject.get [] c = old.eject.get [] c ++ [p]) ∧
      (full → p.laps ≠ 4 → exec (.sumpDiversion stop loop) s = .next s ∧
        ∃ t, exec (.packetEject stop loop) s = .next t ∧ t = { s with fabric := t.fabric } ∧ kept t ∧
          t.fabric.slots.find key = some { p with laps := p.laps + 1, passed := some s.clock.toNat }) ∧
      (full → p.laps = 4 → old.paused c = true → exec (.sumpDiversion stop loop) s = .next s ∧
        ∃ t, exec (.packetEject stop loop) s = .next t ∧ t = { s with fabric := t.fabric } ∧ kept t ∧
          t.fabric.slots.find key = some { p with laps := 4, passed := some s.clock.toNat }) ∧
      (full → p.laps = 4 → old.paused c = false →
        ∃ t, exec (.sumpDiversion stop loop) s = .next t ∧ t.mem = s.mem ∧ t.crews = s.crews ∧ kept t ∧
          t.fabric.slots.find key = none ∧ (t.fabric.stopAt stop).sump.find c = some p ∧
          (t.fabric.stopAt stop).diverted.get 0 c = min (old.diverted.get 0 c + 1) (2 ^ 32 - 1) ∧
          (old.diverted.get 0 c ≠ 2 ^ 32 - 2 → t = { s with fabric := t.fabric }) ∧
          (old.diverted.get 0 c = 2 ^ 32 - 2 → Posts { type := 9 } s t))))

/-- R380, R381, R383, R389, R390, R392: a stop takes one packet in a cycle, of its first class in the order CTL, RSP, REQ, BLK,
but BLK where three others have gone before one that waits. A bridge passes a packet for another die to its twin's transit
loop; a request at a cluster or slice stop is answered on the way back to its source, with its TAG; a reply frees its core's
entry. A core whose 128 reply entries are in use keeps its request until one is free. -/
def Rules.StopsTake : Prop :=
  (∀ (stop : Nat) (s : State), (s.fabric.stopAt stop).served = s.clock.toNat + 1 → s.serveStop stop = s) ∧
  (∀ (stop c : Nat) (p : FabPacket) (q : List FabPacket) (t : Stop), t.eject.get [] c = p :: q → t.sump = [] →
    (let urgent : Prop := t.eject.get [] 2 ≠ [] ∧ 3 ≤ t.sinceBlk
    let before (k : Nat) : Prop := ringIndex k < ringIndex c
    (urgent ∧ c = 2 ∨ ¬urgent ∧ c < 4 ∧ ∀ k, k < 4 → before k → t.eject.get [] k = []) →
    ∃ u, t.takeOne stop = (u, some p) ∧ u.eject.get [] c = q ∧ (∀ k, k ≠ c → u.eject.get [] k = t.eject.get [] k) ∧
      u.queues = t.queues)) ∧
  (∀ (die k : Nat) (p : FabPacket) (s : State), die < 4 → k < 3 → dieOf p.dst.toNat = die ^^^ (k + 1) →
    p.dst.toNat ≠ portStop (die ^^^ (k + 1)) →
    (let far : Nat := (die ^^^ (k + 1)) * 64 + 48 + k
    let t : State := s.taken (die * 64 + 48 + k) p
    t = { s with fabric := t.fabric } ∧ (t.fabric.stopAt far).queue (34 + k) p.cls.toNat =
      (s.fabric.stopAt far).queue (34 + k) p.cls.toNat ++
        [{ p with laps := 0, age := 0, since := s.clock.toNat, promoted := none, passed := none }])) ∧
  (∀ (stop : Nat) (p : FabPacket) (m : Message) (s : State), stopOf stop < 48 → replyTo p.cls.toNat p.kind.toNat = some m →
    ∃ r, s.taken stop p = { s with fabric := s.fabric.send s.clock.toNat stop r } ∧ r.dst = p.src ∧ r.src = p.dst ∧
      r.tag = p.tag ∧ r.core = p.core ∧ (m.cls = 1 → r.cls = 1) ∧ (r.flit = true ↔ m = .line)) ∧
  (∀ (core : Nat) (p : FabPacket) (s : State), replyTo p.cls.toNat p.kind.toNat ≠ none → (s.coreAt core).outbox = [] →
    ((s.coreAt core).reserved.length = 128 → ∃ t, s.sendFrom core p = t ∧ t.fabric = s.fabric ∧ t.mem = s.mem ∧
      t.crews = s.crews ∧ (t.coreAt core).outbox = [p] ∧ (t.coreAt core).reserved = (s.coreAt core).reserved) ∧
    ((s.coreAt core).reserved.length < 128 → ∃ t, s.sendFrom core p = t ∧ t.mem = s.mem ∧ t.crews = s.crews ∧
      (t.coreAt core).outbox = [] ∧ (t.coreAt core).reserved = (s.coreAt core).reserved ++ [(s.coreAt core).tag] ∧
      t.fabric = s.fabric.send s.clock.toNat (coreStop core) { p with tag := (s.coreAt core).tag }))

/-- R392, R401: a port asks again for a frame with a CRC error; drops one it has delivered; delivers the one next in
sequence to its die's transit loop 3, or to the transit loop toward another die (log 96), and keeps one that came early. A
frame that has failed sixteen times in a row takes the port down, which is reported; a port that is down takes nothing. -/
def Rules.SpanPorts : Prop :=
  ∀ (port seq : Nat) (crcOk : Bool) (header : BitVec 128) (s : State), port < 16 →
    (let q : Port := s.portAt port
    let i : Instr := .spanFrameReceive port seq crcOk header
    let becomes (r : Port) (t : State) : Prop := t = { s with fabric := t.fabric, span := t.span } ∧
      t.span = { s.span with ports := t.span.ports } ∧ t.portAt port = r ∧
      ∀ k, k ≠ port → t.portAt k = s.portAt k
    let good : Map Nat := q.fails.erase seq
    let p : FabPacket := receivedPacket port seq header
    let die : Nat := dieOf p.dst.toNat
    let bridge : Nat := if die = port / 4 then 3 else bridgeTo (port / 4) die
    let stop : Nat := port / 4 * 64 + 48 + bridge
    ({ p with data := [] } = packetOf header ∧ p.data.length = if p.flit then 128 else 0) ∧
    (q.down = true → exec i s = .next s ∧ exec (.spanPortDown port) s = .next s) ∧
    (q.down = false →
      (crcOk = false → ∃ t, exec i s = .next t ∧ t.fabric = s.fabric ∧
        becomes { q with fails := q.fails.put seq (q.fails.get 0 seq + 1), resend := q.resend + 1 } t) ∧
      (crcOk = true → seq < q.seq → ∃ t, exec i s = .next t ∧ t.fabric = s.fabric ∧ becomes { q with fails := good } t) ∧
      (crcOk = true → q.seq < seq → (∀ w ∈ q.waiting, w.1 ≠ q.seq) → ∃ t, exec i s = .next t ∧ t.fabric = s.fabric ∧
        becomes { q with fails := good, waiting := q.waiting ++ [(seq, p)] } t) ∧
      (crcOk = true → seq = q.seq → q.waiting = [] → ∃ t, exec i s = .next t ∧
        becomes { q with fails := good, seq := q.seq + 1 } t ∧
        (t.fabric.stopAt stop).queue (34 + bridge) p.cls.toNat =
          (s.fabric.stopAt stop).queue (34 + bridge) p.cls.toNat ++
            [{ p with laps := 0, age := 0, since := s.clock.toNat, promoted := none, passed := none }]) ∧
      ((∀ e ∈ q.fails, e.2 < 16) → exec (.spanPortDown port) s = .next s) ∧
      ((∃ e ∈ q.fails, 16 ≤ e.2) → s.reportRoom = true → ∃ t, exec (.spanPortDown port) s = .next t ∧
        t.portAt port = { q with down := true } ∧ Posts { type := 5 } s t ∧ t.mem = s.mem)))

/-- R392, R393: a packet to another package takes the first port of the mask's rotation that is in the mask and up, and waits
where there is none; a port that is up sends the first packet of the first class in ring order that has one, and one that is
down nothing. -/
def Rules.SpanSends : Prop :=
  (∀ (s : State) (span start : Nat),
    (let usable (n : Nat) : Prop := (s.portMask span).testBit n = true ∧ (s.portAt n).down = false
    (∀ n, s.portFrom span start = some n → n < 16 ∧ usable n ∧
      ∀ i, i < 16 → (∀ j, j ≤ i → (start + j) % 16 ≠ n) → ¬usable ((start + i) % 16)) ∧
    (s.portFrom span start = none → ∀ n, n < 16 → ¬usable n))) ∧
  (∀ q : Port, (q.down = true → q.sendOne = q) ∧
    (q.down = false → (∀ c, c < 4 → q.out.get [] c = []) → q.sendOne = { q with used := [] }) ∧
    (q.down = false → 0 < Config.portCredits → ∀ c p r, c < 4 → q.out.get [] c = p :: r →
      (∀ k, k < 4 → ringIndex k < ringIndex c → q.out.get [] k = []) →
      ∃ u, q.sendOne = u ∧ u.out.get [] c = r ∧ (∀ k, k ≠ c → u.out.get [] k = q.out.get [] k) ∧ u.sent = q.sent + 1))

/-- R388: packets take time and change nothing else: what a step sends leaves everything as it is but the fabric, the reply
entries of cores and the sequence numbers of gangs; and while cycles pass, with all that the fabric does in them, memory, the
views, and the registers and PCs of gangs stay. -/
def Rules.PacketsTakeTimeOnly : Prop :=
  (∀ (s t : State) (who : Option (Nat × Nat)),
    (let u : State := traffic s who t
    u = { t with fabric := u.fabric, cores := u.cores, crews := u.crews } ∧
    (∀ core, u.coreAt core = { t.coreAt core with
      outbox := (u.coreAt core).outbox, reserved := (u.coreAt core).reserved, tag := (u.coreAt core).tag }) ∧
    ∀ core slot g, t.gangAt core slot = some g → ∃ h, u.gangAt core slot = some h ∧ h = { g with peerSeq := h.peerSeq })) ∧
  (∀ (n : Nat) (s : State),
    (let t : State := tick n s
    t.mem = s.mem ∧ t.views = s.views ∧ t.poison = s.poison ∧ t.ctxs = s.ctxs ∧ t.launches = s.launches ∧
    t.slices = s.slices ∧ (s.clock.toNat + n < 2 ^ 64 → t.clock.toNat = s.clock.toNat + n) ∧
    ∀ core slot g, s.gangAt core slot = some g → ∃ h, t.gangAt core slot = some h ∧ h.regs = g.regs ∧
      h.layouts = g.layouts ∧ h.pending = g.pending ∧ h.fibres.map (fun f => (f.pc, f.live, f.pred, f.wbase)) =
        g.fibres.map (fun f => (f.pc, f.live, f.pred, f.wbase))))

/-- R378 to R393: the fabric's loops and the span-link ports. -/
def Obligations.FabricAndLinks : Prop :=
  Rules.Routes ∧ Rules.PacketInjection ∧ Rules.AgePromotions ∧ Rules.PacketEjection ∧ Rules.StopsTake ∧ Rules.SpanPorts ∧
    Rules.SpanSends ∧ Rules.PacketsTakeTimeOnly

/-! ## Host and management (R2, R40, R316, R317, R395 to R406) -/

/-- R157, R184, R306, R317, R395: a host read that completes writes its destinations in live fibres with what the host's
memory held when the read issued; one with an error, or that has waited 2^24 cycles or comes later than that,
writes none and leaves cause 0x10 pending with the read's address. Either way no register waits for it any more. -/
def Rules.HostReads : Prop :=
  ∀ (core slot tag : Nat) (s : State) (g : Gang) (r : HostRead), s.gangAt core slot = some g →
    g.hostReads.find? (fun q => q.tag == tag) = some r →
    (let live (k : Nat) : Bool := (g.fibre (k % 64)).live
    let ended (t : State) (h : Gang) : Prop := t.mem = s.mem ∧ t.host = s.host ∧ t.gangAt core slot = some h ∧
      h.hostReads = g.hostReads.filter (fun q => q.tag ≠ tag) ∧ h.fibres = g.fibres ∧
      (g.destWait.Nodup → ∀ k, k ∈ h.destWait ↔ k ∈ g.destWait ∧ ∀ p ∈ r.parts, k ∉ p.dests)
    let failed (i : Instr) : Prop := ∃ t h, exec i s = .next t ∧ ended t h ∧ h.regs = g.regs ∧
      h.pending = g.pending ++ [{ cause := 0x10, addr := (r.parts.head?.map (·.va)).getD 0,
                                  at_ := .regs ((r.parts.flatMap fun p => p.dests).filter live) }]
    failed (.hostReadCompletion core slot tag true) ∧
    (r.issued + 2 ^ 24 < s.clock.toNat → failed (.hostReadCompletion core slot tag false)) ∧
    (s.clock.toNat ≤ r.issued + 2 ^ 24 →
      ∃ t h, exec (.hostReadCompletion core slot tag false) s = .next t ∧ ended t h ∧ h.pending = g.pending ∧
      (∀ k, live k = false ∨ (∀ p ∈ r.parts, k ∉ p.dests) → h.regs.get 0 k = g.regs.get 0 k) ∧
      ∀ p, r.parts = [p] → p.dests.Nodup → ∀ (j k : Nat) (w : Word), p.dests[j]? = some k → live k = true →
        p.words[j]? = some w → h.regs.get 0 k = w) ∧
    (r.issued + 2 ^ 24 ≤ s.clock.toNat → failed (.hostReadTimeout core slot tag)) ∧
    (s.clock.toNat < r.issued + 2 ^ 24 → exec (.hostReadTimeout core slot tag) s = .next s))

/-- R397 to R400, R403: a host write sets its register, a .b32 one of an upper half that half. FEATACC keeps only offered bits;
the registers that R398 fixes are set only while no launch that has been given cores is left (log 90); and a part that never
started ignores every write. -/
def Rules.WindowWrites : Prop :=
  ∀ (s : State) (v : Addr),
    (s.neverStarted = true → ∀ off b, exec (.registerWindowWrite off v) s = .next s ∧ exec (.feataccWrite b v) s = .next s) ∧
    (s.neverStarted = false →
      exec (.feataccWrite false v) s = .next { s with window := { s.window with
        featacc := (s.window.featacc.extractLsb' 64 64 ++ v) &&& 0x3f } } ∧
      exec (.feataccWrite true v) s = .next { s with window := { s.window with
        featacc := (v ++ s.window.featacc.extractLsb' 0 64) &&& 0x3f } } ∧
      (∀ off w, (off, w) ∈ [(0x30, { s.window with pgctx := v }), (0x60, { s.window with hwbase := v }),
          (0x68, { s.window with hwsize := v }), (0x88, { s.window with repbase := v })] →
        exec (.registerWindowWrite off v) s = .next { s with window := w }) ∧
      (∀ off w, (off, w) ∈ [(0x20, { s.window with ptrbase := v }), (0x28, { s.window with ptrsize := v }),
          (0x40, { s.window with vpool := v }), (0x48, { s.window with vpsize := v }), (0x50, { s.window with ordpool := v }),
          (0x58, { s.window with ordsize := v }), (0x70, { s.window with spanrt := v }),
          (0x78, { s.window with spanmap := v }), (0x80, { s.window with dlbase := v })] →
        ((∀ l ∈ s.launches, l.cores = []) → exec (.registerWindowWrite off v) s = .next { s with window := w }) ∧
        ((∃ l ∈ s.launches, l.cores ≠ []) → exec (.registerWindowWrite off v) s = .next s)) ∧
      (∀ off, off % 8 = 0 → exec (.registerWindowWrite (off + 4) v) s =
        exec (.registerWindowWrite off ((v.setWidth 32 : BitVec 32) ++ ((s.readReg off).setWidth 32 : BitVec 32))) s) ∧
      exec (.registerWindowWrite 0x38 v) s = .next (s.resumePage (s.window.pgctx.setWidth 16).toNat v) ∧
      (∀ off ∈ [0x00, 0x08, 0x98, 0xa8, 0xb0], exec (.registerWindowWrite off v) s = .next s) ∧
      (∀ n, n < 16 → n < s.queues.length →
        (let q : LaunchQueue := s.queueAt n
        ∀ k r, (k, r) ∈ [(0, { q with ring := v }), (8, { q with size := v })] →
          ((∃ l ∈ s.launches, l.cores ≠ []) → exec (.registerWindowWrite (0x10000 + 0x1000 * n + k) v) s = .next s) ∧
          ((∀ l ∈ s.launches, l.cores = []) → ∃ t, exec (.registerWindowWrite (0x10000 + 0x1000 * n + k) v) s = .next t ∧
            t = { s with queues := t.queues } ∧ t.queueAt n = r ∧ ∀ j, j ≠ n → t.queueAt j = s.queueAt j))))

/-- R404: a block's digest is added to the log and m extended by it; a quote of a nonce of 1 to 64 bytes signs the log,
m, FEATACC and the nonce. It is made while some queue, which is the request's own (log 93), has no launch with cores. -/
def Rules.Attestation : Prop :=
  ∀ (s : State) (bs : List Byte),
    (s.device.bootst ≠ 1 → exec (.measurementLogExtend bs) s = .next s ∧ exec (.attestationQuote bs) s = .next s) ∧
    (s.device.bootst = 1 →
      exec (.measurementLogExtend bs) s = .next { s with mgmt := { s.mgmt with
        log := s.mgmt.log ++ [shake256 bs], measure := shake256 (s.mgmt.measure ++ shake256 bs) } } ∧
      (bs = [] ∨ 64 < bs.length → exec (.attestationQuote bs) s = .next s) ∧
      ((∀ q, q < 16 → ∃ l ∈ s.launches, l.queue = q ∧ l.cores ≠ []) → exec (.attestationQuote bs) s = .next s) ∧
      (1 ≤ bs.length → bs.length ≤ 64 → (∃ q, q < 16 ∧ ∀ l ∈ s.launches, l.queue = q → l.cores = []) →
        (let signed : List Byte := s.mgmt.log.flatten ++ s.mgmt.measure ++ bytesOfNat 16 s.window.featacc.toNat ++ bs
        ∃ t q, exec (.attestationQuote bs) s = .next t ∧ t = { s with mgmt := t.mgmt } ∧
          t.mgmt = { s.mgmt with quotes := s.mgmt.quotes ++ [q] } ∧ q.log = s.mgmt.log ∧ q.measure = s.mgmt.measure ∧
          q.featacc = s.window.featacc ∧ q.nonce = bs ∧ q.signature = Config.identitySignature signed)))

/-- R405, R406: a setting in its range takes effect in the first later cycle whose %clock is a multiple of 1024, and one
outside it never. While the power measured exceeds its limit, or a die has passed 105 °C, the clock goes down in steps of
100 MHz to 1.2 GHz; once neither has been so for 10 ms it goes up to 2.5 GHz in the same steps (log 30, log 135). -/
def Rules.SettingsAndClock : Prop :=
  ∀ (s : State) (st : Setting),
    (let ok : Prop := match st with
      | .ageing v => v ≤ 2 ^ 20 | .doldrums v => v ≤ 2 ^ 40 | .weight c v => c < 4 ∧ 1 ≤ v ∧ v ≤ 15
      | .debugHalt v => v < 2 ^ 32 | .power v => 1500 ≤ v ∧ v ≤ 3600
    (¬ok → exec (.managementWindowWrite st) s = .next s) ∧
    (ok → ∃ n, s.clock.toNat < n ∧ n ≤ s.clock.toNat + 1024 ∧ n % 1024 = 0 ∧
      exec (.managementWindowWrite st) s = .next { s with mgmt := { s.mgmt with writes := s.mgmt.writes ++ [(n, st)] } }) ∧
    (∀ n, s.mgmt.writes = [(n, st)] →
      (s.clock.toNat < n → exec .managementSettingApply s = .next s) ∧
      (n ≤ s.clock.toNat → ∃ t, exec .managementSettingApply s = .next t ∧ t = { s with mgmt := t.mgmt } ∧
        t.mgmt = { (match st with
          | .ageing v => { s.mgmt with ageing := v } | .doldrums v => { s.mgmt with doldrums := v }
          | .weight c v => { s.mgmt with weights := s.mgmt.weights.set c v }
          | .debugHalt v => { s.mgmt with debugHalt := v } | .power v => { s.mgmt with power := v } : Mgmt) with
          writes := [] })) ∧
    (∀ k n v, s.mgmt.writes = [(n, .ageing v)] → s.clock.toNat < n → s.clock.toNat + k < 2 ^ 64 →
      (s.clock.toNat + k < n → (tick k s).mgmt.ageing = s.mgmt.ageing ∧ (tick k s).mgmt.writes = s.mgmt.writes) ∧
      (n ≤ s.clock.toNat + k → (tick k s).mgmt.ageing = v ∧ (tick k s).mgmt.writes = [])) ∧
    (let calls : Prop := s.mgmt.power < s.mgmt.watts ∨ ∃ d ∈ s.mgmt.temps, 105 < d
    let cool : Prop := ∃ n, s.mgmt.coolFrom = some n ∧ n + 10000 * s.mgmt.clockMhz ≤ s.clock.toNat
    (calls → exec .clockLower s = .next { s with mgmt := { s.mgmt with clockMhz := max 1200 (s.mgmt.clockMhz - 100) } }) ∧
    (¬calls → exec .clockLower s = .next s) ∧
    (¬calls → cool → exec .clockRaise s = .next { s with mgmt := { s.mgmt with clockMhz := min 2500 (s.mgmt.clockMhz + 100) } }) ∧
    (calls ∨ ¬cool → exec .clockRaise s = .next s)))

/-- R40, R403, R404: at power-on the ROM measures and starts a verified image, or stops with 0x80, 0x81 or 0x82; a reset
and a loss of power leave the flash and the host's memory, a reset %span as well, and %clock counts from 0; an image that is
written waits in the flash. -/
def Rules.PowerAndBoot : Prop :=
  ∀ (s : State) (readable trained : Bool) (image : List Byte),
    exec (.firmwareImageWrite image) s = .next { s with device := { s.device with flash := image } } ∧
    (let off (t : State) : Prop := t.mem = [] ∧ t.crews = [] ∧ t.launches = [] ∧ t.clock = 0 ∧ t.window = {} ∧
      t.host = s.host ∧ t.device.flash = s.device.flash ∧ t.span.rank = 0
    ∃ t, exec .powerOff s = .next t ∧ off t ∧ t.device.powered = false) ∧
    (s.device.powered = false → exec .deviceReset s = .next s) ∧
    (s.device.powered = true → ∃ t, exec .deviceReset s = .next t ∧ t.mem = s.mem ∧ t.host = s.host ∧ t.crews = [] ∧
      t.span.rank = s.span.rank ∧ t.launches = [] ∧ t.clock = 0 ∧ t.window = {} ∧ t.device.bootst = 0 ∧ t.device.flash = s.device.flash) ∧
    (s.device.powered = true → s.device.bootst ≠ 0 → exec (.powerOn readable trained) s = .next s) ∧
    (s.device.powered = false ∨ s.device.bootst = 0 →
      (let verified : Bool := Config.imageVerifies s.device.flash
      ∃ t, exec (.powerOn readable trained) s = .next t ∧ t.device.powered = true ∧ t.device.flash = s.device.flash ∧
        t.device.bootst = (if readable = false then 0x81 else if verified = false then 0x80
          else if trained = false then 0x82 else 1) ∧
        (readable = true → verified = true → trained = true → s.mgmt.log = [] ∨ s.device.powered = false →
          t.mgmt.log = [shake256 s.device.flash])))

/-- R406: once a die has passed 115 °C a thermal stop ends every launch with outcome 0x0a; with none left, and room for its
report, the control plane posts that and stops with BOOTST 0x83. While a DONE is yet to be signalled no launch has been
reported. -/
def Rules.ThermalStops : Prop :=
  ∀ (die : Nat) (s : State),
    (s.device.bootst ≠ 1 ∨ s.mgmt.hot = none ∧ s.mgmt.temps.getD die 0 ≤ 115 → exec (.thermalStop die) s = .next s) ∧
    (s.device.bootst = 1 → s.mgmt.hot = none → 115 < s.mgmt.temps.getD die 0 →
      (s.launches = [] → s.reportRoom = true → ∃ t, exec (.thermalStop die) s = .next t ∧ t.mem = s.mem ∧
        t.device.bootst = 0x83 ∧ t.mgmt.hot = some die ∧ t.savedLog = [] ∧
        (s.device.reports = [] → s.ringFull = false → t.window.reptail = s.window.reptail + 1)) ∧
      ((∀ l ∈ s.launches, l.rcd.doneAt = 0) → Map.wf s.crews = true → s.device.reports.length + s.launches.length < 4096 →
        ∃ t, exec (.thermalStop die) s = .next t ∧ t.mem = s.mem ∧ t.launches = [] ∧ t.device.bootst = 0x83 ∧
          ∀ k c, s.crewAt k = some c → (∃ l ∈ s.launches, l.num = c.launch) → t.crewAt k = none) ∧
      (∀ l pages, s.launches = [l] → l.doneSent = false → l.rcd.doneAt ≠ 0 →
        (∀ u, (u = stopAll die s) → u.signal (controlAgent l) 0 l.rcd.doneAt (if l.outcome = 0 ∧ l.st = .ending then 0 else 3) 0 =
          .away pages) →
        ∃ t, exec (.thermalStop die) s = .next t ∧ t.window = s.window ∧ t.device = s.device ∧ t.mgmt.hot = some die ∧
          t.launches.length = 1))

/-- R2, R40, R317, R395 to R406: the host's side of the machine and its management. -/
def Obligations.HostAndManagement : Prop :=
  Rules.HostReads ∧ Rules.WindowWrites ∧ Rules.Attestation ∧ Rules.SettingsAndClock ∧ Rules.PowerAndBoot ∧
    Rules.ThermalStops

/-! ## The exact value rounded once (R49, R50, R62, R63, R130) -/

/-- R50: a finite encoding's value in units of the format's least positive number, 2^(emin − mbits). -/
def finiteUnits (f : Fmt) (c : Nat) : Int :=
  let ex : Nat := c / 2 ^ f.mbits % 2 ^ f.ebits
  let fr : Nat := c % 2 ^ f.mbits
  let mag : Nat := if ex = 0 then fr else (2 ^ f.mbits + fr) * 2 ^ (ex - 1)
  if c / 2 ^ (f.ebits + f.mbits) % 2 = 1 then -(mag : Int) else (mag : Int)

/-- An encoding of the format that is neither an infinity nor a NaN. -/
def IsFinite (f : Fmt) (c : Nat) : Prop := c < 2 ^ f.bits ∧ c / 2 ^ f.mbits % 2 ^ f.ebits ≠ 2 ^ f.ebits - 1

/-- R62: y units are what the exact value x / d units rounds to, whatever the format's range: k spacings of 2^j units, or one
more, where k has at most mbits + 1 bits, and all of them unless the spacing is one unit. -/
def RoundsTo (f : Fmt) (mode : RMode) (x : Int) (d : Nat) (y : Int) : Prop :=
  ∃ k j : Nat,
    (let step : Nat := 2 ^ j * d
    let rest : Nat := x.natAbs - k * step
    let up : Prop := match mode with
      | .rne => step < 2 * rest ∨ 2 * rest = step ∧ k % 2 = 1
      | .rz => False
      | .rd => x < 0 ∧ rest ≠ 0
      | .ru => 0 < x ∧ rest ≠ 0
      | .sr => False
    k * step ≤ x.natAbs ∧ x.natAbs < (k + 1) * step ∧ k < 2 ^ (f.mbits + 1) ∧ (j ≠ 0 → 2 ^ f.mbits ≤ k) ∧
    ((up ∧ y.natAbs = (k + 1) * 2 ^ j) ∨ (¬up ∧ y.natAbs = k * 2 ^ j)) ∧ (x < 0 → y ≤ 0) ∧ (0 < x → 0 ≤ y))

/-- R62, R63, R130: the encoding and the flags that the exact value x / d units, with the sign neg where it is zero, comes to:
itself rounded once, with NX where it was not exact; past the largest number, infinity or that number as the direction
of rounding asks, with OF and NX. -/
def Delivers (f : Fmt) (mode : RMode) (x : Int) (d : Nat) (neg : Bool) (r : Nat × Word) : Prop :=
  let top : Int := ((2 ^ (f.mbits + 1) - 1) * 2 ^ (2 ^ f.ebits - 3) : Nat)
  let sign (n : Bool) : Nat := if n then 2 ^ (f.ebits + f.mbits) else 0
  (x = 0 → r = (sign neg, 0)) ∧
  (∀ y, x ≠ 0 → RoundsTo f mode x d y →
    (y ≤ top → -top ≤ y → IsFinite f r.1 ∧ finiteUnits f r.1 = y ∧ r.1 / 2 ^ (f.ebits + f.mbits) = (if x < 0 then 1 else 0) ∧
      (r.2 &&& 16 = 0 ↔ y * d = x) ∧ r.2 &&& 7 = 0) ∧
    (top < y ∨ y < -top → r.2 = 20 ∧ r.1 = sign (decide (x < 0)) + 2 ^ f.mbits * (2 ^ f.ebits - 1) -
      (if mode = .rz ∨ mode = .rd ∧ 0 < x ∨ mode = .ru ∧ x < 0 then 1 else 0)))

/-- R62, R63, R130: in each format of fadd, fsub, fmul and ffma, under each direct rounding mode, finite operands give the
exact sum, difference, product, or product and sum, rounded once; an exact zero has the sign of its equal-signed terms, else
+0, and −0 under RD. -/
def Obligations.ArithmeticRoundsOnce : Prop :=
  ∀ (f : Fmt) (mode : RMode) (a b c : Nat), f ∈ [Fmt.f64, .f32, .f16, .bf16] → mode ≠ .sr →
    IsFinite f a → IsFinite f b → IsFinite f c →
    (let neg (n : Nat) : Bool := decide (n / 2 ^ (f.ebits + f.mbits) % 2 = 1)
    let u : Nat → Int := finiteUnits f
    let one : Nat := 2 ^ (2 ^ (f.ebits - 1) - 2 + f.mbits)
    let zero (s t : Bool) : Bool := if s = t then s else decide (mode = .rd)
    Delivers f mode (u a + u b) 1 (zero (neg a) (neg b)) (fpAdd.primal mode f a b c) ∧
    Delivers f mode (u a - u b) 1 (zero (neg a) (!neg b)) (fpSub.primal mode f a b c) ∧
    Delivers f mode (u a * u b) one (neg a != neg b) (fpMul.primal mode f a b c) ∧
    Delivers f mode (u a * u b + u c * one) one (zero (neg a != neg b) (neg c)) (fpFma.primal mode f a b c))

/-! ## Encodings and steps (R9, R77, R79 to R101, R142, R149) -/

/-- The words of the spec's worked examples decode to the instructions that it gives beside them. -/
def Obligations.WorkedWordsDecode : Prop :=
  (let g (n : Nat) : Reg := BitVec.ofNat 7 n
  let x : Pfx := {}
  let ext (n : Nat) : Pfx := { ext := some (BitVec.ofNat 25 n) }
  (∀ w i, (w, i) ∈ [
      (0x46408928, Instr.ffma x (g 16) (g 17) (g 18) .f32), (0x32889840, .cmpiI32 x .lt 2 (g 19) 64),
      (0x702ffffd, .bra x false 2 (-3)), (0x76000001, .exit x), (0x3c408e01, .shfl x (g 16) (g 17) .xor 1),
      (0x3e501800, .ballot x (g 20) 3 false), (0x3e101a10, .voteAll x 4 3 true),
      (0x6450c102, .cvtPack x (g 20) (g 24) .rne .fp8e4), (0x6050aa8a, .cvt x (g 20) (g 21) .rz .f32 .bf16),
      (0x72000040, .call x false 0 64), (0x7400c000, .brx x (g 24)),
      (0x74000001, .ret x), (0x7c0c0921, .por x 3 false 1 true 2), (0x7c14a004, .pset x 5 (g 20)),
      (0x78000020, .wbase x (g 0) 2), (0x78008ff0, .wbase x (g 17) (-1)), (0x4c488118, .fdiv x (g 18) (g 16) (g 17) .f32),
      (0x3a58b004, .lea x (g 22) (g 22) 4), (0x76000006, .tret x), (0xe0400110, .srd x (g 16) true 0x10),
      (0xe200a000, .swr x (g 20) false 0), (0xe400c000, .tlbinvPage x (g 24)), (0xe8500000, .mcheck x (g 20))] →
    decodeTableWord 32 w = some i) ∧
  (∀ w i, (w, i) ∈ [
      (0x80404384, Instr.ld x (g 16) (g 8) .f32 4), (0x824042ff, .st x (g 16) (g 8) .b64 (-1)),
      (0x84404302, .ldFe x (g 16) (g 8) .b128 2), (0x88004140, .feClr x (g 8) (g 20)),
      (0x8a404140, .atom32 x (g 16) (g 8) (g 20) .add), (0x8e00411b, .red32 x (g 8) (g 17) .faddOrd),
      (0x92000485, .fenceRel x .cluster 5), (0x9400a002, .barArrive x (g 20) 2), (0xb0005044, .mldb x 0 (g 10) 4 .fp8e4),
      (0xb60c6154, .msca x 3 (g 12) (g 21) .blkE8), (0xb800c000, .mzero x 0 24), (0xba40880b, .mwrite x (g 16) (g 17) .ae48),
      (0xbc001141, .mwait x 2 (g 20)), (0xc06050c0, .cpyLoad x (g 24) (g 10) (g 12)), (0xc4006140, .cwait x (g 12) (g 20)),
      (0xc6401031, .qpopTry x (g 16) 2 3), (0xc8048141, .qpushTry x 1 (g 16) (g 20)), (0xcc0050c0, .strm x (g 10) (g 12)),
      (0xd0405140, .tspawn x (g 16) (g 10) (g 20)), (0xd2400002, .role x (g 16)), (0xd4488821, .drain x (g 18) (g 17) 2),
      (0xd8402000, .wfork x (g 16) 4), (0xdc000001, .wchooseNone x), (0xde40a001, .wstatStatus x (g 16) (g 20))] →
    decodeTableWord 32 w = some i) ∧
  (∀ w i, (w, i) ∈ [
      (0x80404300_fc000002, Instr.ld (ext 2) (g 16) (g 8) .b128 0), (0xb2004144_fc000003, .mma (ext 3) 0 (g 8) (g 20) .fp8e4),
      (0xb400414b_fc000040, .mmaC (ext 0x40) 0 (g 8) (g 20) .bx3), (0xc26050e0_fc000040, .cpym (ext 0x40) (g 24) (g 10) (g 14)),
      (0x80444381_fe442a00, .ld { dual := some ⟨.seed, 0, g 21⟩ } (g 17) (g 8) .f32 1),
      (0x444c9128_fe480000, .fmul { dual := some ⟨.get, 0, 0⟩ } (g 19) (g 18) (g 18) .f32),
      (0x46408928_fe220000, .ffma { guard := some ⟨false, 2⟩ } (g 16) (g 17) (g 18) .f32)] →
    decodeTableWord 64 w = some i))

/-- R101: what is no instruction, with the DETAIL its trap carries: the words the rule names, an unassigned major opcode,
an unassigned function, a nonzero reserved field, a register that is not even in a pair, prefixes out of order, a second
prefix of one kind, one before an instruction that does not accept it, and one with nothing after it. -/
def Obligations.RefusedWords : Prop :=
  ∀ (ws : List Word) (d : BitVec 8), (ws, d) ∈ [(([0x00000000] : List Word), (0x00 : BitVec 8)), ([0xffffffff], 0x0f), ([0x56000000], 0x00), ([0x74000002], 0x00),
      ([0x76000101], 0x00), ([0x02449127], 0x00), ([0xfe4a0000, 0x76000000], 0x02), ([0xfe220001, 0x76000000], 0x01),
      ([0xfe620000, 0xfe220000, 0x76000000], 0x01), ([0xfe220000, 0xfe220000, 0x76000000], 0x01),
      ([0xfc000000, 0xfc000000, 0x80404384], 0x00), ([0xfe400000, 0x76000000], 0x02), ([0xfe220000], 0x01),
      ([0xfe600000, 0xfe600000], 0x03), ([0xfea00000, 0x76000000], 0x05)] →
    ∃ r, decodeWords ws = .error r ∧ r.detail = d

/-- R90 to R101: the words of a well-formed unit, whatever bytes follow them, decode to that unit and leave those bytes. -/
def Obligations.EncodedUnitsDecode : Prop :=
  ∀ (i : Instr) (rest : List Byte), i.pfx?.isSome = true → WellFormed i →
    decode (bytesOf (encode i) ++ rest) = .ok (i, rest) ∧ (encode i).length = i.words

/-- R90 to R101: only one sequence of words decodes to a unit: its encoding; and what decodes is well formed. -/
def Obligations.DecodedUnitsEncode : Prop :=
  ∀ (bs rest : List Byte) (i : Instr), decode bs = .ok (i, rest) →
    bytesOf (encode i) ++ rest = bs ∧ WellFormed i ∧ i.pfx?.isSome = true

/-- R77, R101, R142, R149, R362: where a gang is to issue, it is its turn in its squad, and the words at its group's PC are a well-formed unit's, the step is
exec of that unit, with the group as the issuing one and the fetch's translation cached. Where the words are no instruction, or
the first cannot be fetched, it is the illegal-instruction trap or the address fault of that group. A unit that has been held
was not its group's turn; any other has taken its squad's turn and one cycle, and its packets are on their way. Out of turn
nothing happens. An event that is next is performed, its packets are on their way, and no cycle passes. -/
def Obligations.StepRunsDecoded : Prop :=
  ∀ (s : State) (core slot : Nat) (ms : List Mover) (i : Issue) (w : Agent) (c : Crew) (l : Launch),
    (let u : State := { s with agenda := ms }
    (∀ e : Instr, s.agenda = .event e :: ms → e.pfx? = none → step s = onNext (traffic u none) (exec e u)) ∧
    (∀ n, s.agenda = .wait n :: ms → step s = .next (tick n u)) ∧
    (s.agenda = .issue core slot :: ms → itsTurn u core slot = false → step s = .next u) ∧
    (s.agenda = .issue core slot :: ms → itsTurn u core slot = true → pickGroup u core slot = some i → s.agentAt core = some w →
      s.crewAt core = some c → s.launchOf c.launch = some l →
      (let read (j : Nat) : WordRead := fetchWord s w l (i.pc + BitVec.ofNat 64 (4 * j))
      let ended (t : State) : State := if onlyHeld i u t then t else
        tick 1 ((traffic u (some (i.core, i.slot)) t).modCrew i.core fun c =>
          c.modSquad (squadOf i.slot) fun q => { q with lastSlot := gangRank i.slot })
      (∀ v : Instr, v.pfx?.isSome = true → WellFormed v → (∀ (j : Nat) (e : Word), (encode v)[j]? = some e → read j = .word e) →
        step s = onNext ended (exec v ((setIssue i u).fillTlb core w.ctx w.priv .fetch i.pc))) ∧
      (∀ (e : Word) (r : Reject), read 0 = .word e → decodeWords [e] = .error r → (∀ k, r ≠ .alone k) →
        step s = onNext ended (exec (.illegalInstruction r.detail) (setIssue i u))) ∧
      (read 0 = .fault → step s = onNext ended (exec .fetchAddressFault (setIssue i u))))))

/-! ## Reset, and what holds of the whole machine -/

/-- R40, R319, R404, R405: after reset %clock is 0, the first launch number is 1, m is 64 zero bytes, the settings have
their values, no crew, launch or context's window is there, and the register window holds 0. -/
def Obligations.ResetState : Prop :=
  State.reset.clock = 0 ∧ State.reset.nextLaunch = 1 ∧ State.reset.mgmt.measure = List.replicate 64 0 ∧
  State.reset.mgmt.ageing = 4096 ∧ State.reset.mgmt.doldrums = 2 ^ 26 ∧ State.reset.mgmt.weights = [8, 4, 4, 1] ∧
  State.reset.mgmt.debugHalt = 0 ∧ State.reset.mgmt.power = 3600 ∧ State.reset.device.bootst = 0 ∧
  State.reset.crews = [] ∧ State.reset.launches = [] ∧ State.reset.ctxs = [] ∧ State.reset.window = {} ∧
  State.reset.queues = List.replicate 16 {} ∧ State.reset.views = [] ∧ State.reset.faults = []

/-- Device memory and host memory are in canonical form after reset: nothing is listed. -/
def Obligations.ResetMeetsInvariant : Prop := MemoryOk State.reset

/-- Every step keeps device memory and host memory in canonical form: no address twice, none out of order, and no listed
byte equal to what an unlisted address reads as. -/
def Obligations.StepKeepsInvariant : Prop := ∀ s t : State, MemoryOk s → step s = .next t → MemoryOk t

/-- The units that work on registers, predicates, windows, layouts and the PC alone. -/
def onRegistersAlone : Instr → Bool
  | .add .. | .sub .. | .mul .. | .mulh .. | .mad .. | .min .. | .max .. | .shl .. | .shr .. | .sar .. | .and .. | .or ..
  | .xor .. | .andn .. | .abs .. | .neg .. | .clz .. | .popc .. | .brev .. | .mov .. | .bfx .. | .bfi .. | .prmt .. | .sel ..
  | .cmp .. | .addi .. | .muli .. | .shli .. | .shri .. | .sari .. | .andi .. | .ori .. | .xori .. | .andni ..
  | .cmpiI32 .. | .cmpiN32 .. | .movi .. | .lui .. | .lea .. | .shfl .. | .shflReg .. | .ballot .. | .voteAny ..
  | .voteAll .. | .voteUni .. => true
  | .fadd .. | .fsub .. | .fmul .. | .ffma .. | .fmin .. | .fmax .. | .fdiv .. | .fdot2 .. | .fcmp .. | .fneg .. | .fabs ..
  | .fsqrt .. | .frcp .. | .frsq .. | .fclass .. | .fscale .. | .cvt .. | .cvtSr .. | .cvtPack .. | .cvtPackSr ..
  | .cvtUnpack .. | .fexp2 .. | .flog2 .. | .fsin .. | .fcos .. | .ftanh .. => true
  | .bra .. | .call .. | .brx .. | .ret .. | .nop .. | .yield .. | .sleep .. | .bkpt .. | .trap .. | .tret .. | .rpf ..
  | .wbase .. | .pand .. | .por .. | .pxor .. | .pnot .. | .pset .. => true
  | .lchain .. | .lpart .. | .ltrans .. | .lflat .. | .lswz .. | .lchk .. | .role .. | .srd .. | .qstat ..
  | .wstatScore .. | .wstatStatus .. => true
  | _ => false

/-- The frame of the units on registers alone, in every state and whichever way they end (completed, held, waiting or in
a trap): memory, host memory, views, the window, every scratchpad, barrier, tile, queue and task queue, and every gang
other than the issuing one, but for stored registers that have been spilled to make room (R25), are as they were. -/
def Obligations.RegisterUnitsLeaveTheRest : Prop :=
  ∀ (i : Instr) (s t : State), onRegistersAlone i = true → exec i s = .next t →
    t.mem = s.mem ∧ t.host = s.host ∧ t.views = s.views ∧ t.window = s.window ∧ t.ctxs = s.ctxs ∧ t.cores = s.cores ∧
    t.clock = s.clock ∧ ∀ k c, s.crewAt k = some c → ∃ q, t.crewAt k = some q ∧ q.scratch = c.scratch ∧ q.full = c.full ∧
      q.barriers = c.barriers ∧ q.tiles = c.tiles ∧ q.vc = c.vc ∧ q.queues = c.queues ∧ q.tasks = c.tasks ∧
      ∀ j g, c.gangs.find j = some g → (∀ e, s.issue = some e → ¬(e.core = k ∧ e.slot = j)) →
        ∃ h, q.gangs.find j = some h ∧ h = { g with stored := h.stored }

/-- R274, R282, R284: whatever a world's stores, tile stores, reductions and atomics do, and whichever way they end, they
change no byte of device memory in view 0, but for fault records in the pinned table region (R326, R333), and none of host
memory: a world writes its own view alone, and its host accesses are deferred. -/
def Obligations.WorldsLeaveMemory : Prop :=
  ∀ (x : Pfx) (s t : State) (c : UnitCtx), unitCtx x s = some c → c.crew.depth ≠ 0 → c.view ≠ 0 →
    (∀ w, s.views.find c.view = some w → w.state ≠ 1) → ∀ (d a b : Reg) (k : MemKind) (o : BitVec 7) (l : LReg) (f : AtomFn),
      ∀ i ∈ [Instr.st x d a k o, .stFill x d a k o, .stile x d a l, .red32 x a b f, .red64 x a b f, .atom32 x d a b f,
        .atom64 x d a b f], exec i s = .next t → (t.faults = s.faults → t.mem = s.mem) ∧
          (∀ n, pinned s.window n 1 = false → t.mem.get 0 n = s.mem.get 0 n) ∧ t.host = s.host
end

