-- ==== Sys2Proof/Laws/Map.lean ====
section
/-! SUPPORT. The laws of sparse data: what a lookup gives after a write, in every list, and that writes keep the
canonical form. -/

namespace Sys2Proof.Map

variable {α β : Type}

/-! ## Reading after writing -/

theorem find_after (m : Map α) (k j : Nat) (h : j ≤ k) : (after m k).find j = none := by
  induction m with
  | nil => rfl
  | cons e m ih =>
    obtain ⟨i, v⟩ := e
    simp only [after]
    split
    · exact ih
    · simp only [find]; rw [if_pos (by omega)]

theorem find_after_above (m : Map α) (k j : Nat) (h : k < j) : (after m k).find j = m.find j := by
  induction m with
  | nil => rfl
  | cons e m ih =>
    obtain ⟨i, v⟩ := e
    simp only [after]
    split
    · rw [ih]; simp only [find]; rw [if_neg (by omega), if_neg (by omega)]
    · rfl

theorem find_put (m : Map α) (k j : Nat) (v : α) :
    (m.put k v).find j = if j = k then some v else m.find j := by
  induction m with
  | nil => simp only [put, find]; split <;> split <;> first | rfl | omega
  | cons e m ih =>
    obtain ⟨i, w⟩ := e
    simp only [put]
    split
    · simp only [find]
      by_cases h : j = k
      · subst h; simp
      · rw [if_neg h]
        by_cases h2 : j < k
        · rw [if_pos h2, if_pos (by omega)]
        · rw [if_neg h2]
    · split
      · next h1 h2 =>
        subst h2
        simp only [find]
        by_cases h : j = k
        · subst h; simp
        · rw [if_neg h, if_neg h, if_neg h]
      · simp only [find]
        rw [ih]
        by_cases h : j = k
        · subst h; rw [if_neg (by omega), if_neg (by omega)]; simp
        · simp [h]

theorem find_erase (m : Map α) (k j : Nat) : (m.erase k).find j = if j = k then none else m.find j := by
  induction m with
  | nil => simp [erase, find]
  | cons e m ih =>
    obtain ⟨i, w⟩ := e
    simp only [erase]
    split
    · simp only [find]
      by_cases h : j = k
      · subst h; simp [*]
      · rw [if_neg h]
    · split
      · next h1 h2 =>
        subst h2
        by_cases h : j = k
        · subst h; rw [if_pos rfl, find_after m j j (Nat.le_refl j)]
        · rw [if_neg h]
          simp only [find]
          rw [if_neg h]
          by_cases h3 : j < k
          · rw [if_pos h3, find_after m k j (by omega)]
          · rw [if_neg h3, find_after_above m k j (by omega)]
      · simp only [find]
        rw [ih]
        by_cases h : j = k
        · subst h; rw [if_neg (by omega), if_neg (by omega)]; simp
        · simp [h]

theorem get_put (d : α) (m : Map α) (k j : Nat) (v : α) :
    (m.put k v).get d j = if j = k then v else m.get d j := by
  simp only [get, find_put]; split <;> rfl

theorem get_set [DecidableEq α] (d : α) (m : Map α) (k j : Nat) (v : α) :
    (m.set d k v).get d j = if j = k then v else m.get d j := by
  simp only [set]
  split
  · next h => simp only [get, find_erase]; split <;> simp [h]
  · exact get_put d m k j v

/-- What a key reads as after several writes: the last write to it, or what it read as before. -/
theorem get_sets [DecidableEq α] (d : α) (ws : List (Nat × α)) (m : Map α) (j : Nat) :
    (m.sets d ws).get d j = ws.foldl (fun r w => if j = w.1 then w.2 else r) (m.get d j) := by
  induction ws generalizing m with
  | nil => rfl
  | cons w ws ih => obtain ⟨k, v⟩ := w; simp only [sets, List.foldl_cons, ih, get_set]

/-- A key that no write names reads as before. -/
theorem get_sets_other [DecidableEq α] (d : α) (ws : List (Nat × α)) (m : Map α) (j : Nat)
    (h : ∀ w ∈ ws, w.1 ≠ j) : (m.sets d ws).get d j = m.get d j := by
  induction ws generalizing m with
  | nil => rfl
  | cons w ws ih =>
    obtain ⟨k, v⟩ := w
    simp only [sets]
    rw [ih _ (fun w hw => h w (List.mem_cons_of_mem _ hw)), get_set, if_neg]
    exact fun e => h (k, v) List.mem_cons_self e.symm

/-- Where every write to a key writes one value, and some write names it, the key reads that value. -/
theorem get_sets_agree [DecidableEq α] (d : α) (ws : List (Nat × α)) (m : Map α) (j : Nat) (v : α)
    (ha : ∀ w ∈ ws, w.1 = j → w.2 = v) (he : ∃ w ∈ ws, w.1 = j) : (m.sets d ws).get d j = v := by
  induction ws generalizing m with
  | nil => obtain ⟨w, hw, _⟩ := he; cases hw
  | cons w ws ih =>
    obtain ⟨k, u⟩ := w
    simp only [sets]
    by_cases h : ∃ w ∈ ws, w.1 = j
    · exact ih _ (fun w hw => ha w (List.mem_cons_of_mem _ hw)) h
    · rw [get_sets_other d ws _ j (fun w hw e => h ⟨w, hw, e⟩), get_set]
      obtain ⟨w, hw, e⟩ := he
      cases hw with
      | head =>
        have e : k = j := e
        rw [if_pos e.symm]
        exact ha (k, u) List.mem_cons_self e
      | tail _ hw => exact absurd ⟨w, hw, e⟩ h

theorem find_modify (m : Map α) (k j : Nat) (f : α → α) :
    (m.modify k f).find j = if j = k then (m.find k).map f else m.find j := by
  simp only [modify]
  cases h : m.find k with
  | none =>
    by_cases h2 : j = k
    · subst h2; simp [h]
    · simp [h2]
  | some v => simp only [find_put, Option.map_some]

theorem find_modify_self (m : Map α) (k : Nat) (f : α → α) : (m.modify k f).find k = (m.find k).map f := by
  rw [find_modify, if_pos rfl]

theorem find_modify_other (m : Map α) {k j : Nat} (f : α → α) (h : j ≠ k) : (m.modify k f).find j = m.find j := by
  rw [find_modify, if_neg h]

theorem find_mapVals (f : α → β) (m : Map α) (k : Nat) : (m.mapVals f).find k = (m.find k).map f := by
  induction m with
  | nil => rfl
  | cons e m ih =>
    obtain ⟨i, v⟩ := e
    have h : mapVals f ((i, v) :: m) = (i, f v) :: mapVals f m := rfl
    rw [h]
    simp only [find, ih]
    split
    · rfl
    · split <;> rfl

/-! ## The canonical form -/

theorem risingFrom_mono {b c : Nat} (m : Map α) (h : risingFrom c m = true) (hb : b ≤ c) : risingFrom b m = true := by
  cases m with
  | nil => rfl
  | cons e m =>
    obtain ⟨i, v⟩ := e
    simp only [risingFrom, Bool.and_eq_true, decide_eq_true_eq] at h ⊢
    exact ⟨Nat.le_trans hb h.1, h.2⟩

theorem rising_put (m : Map α) (k b : Nat) (v : α) (hb : b ≤ k) (h : risingFrom b m = true) :
    risingFrom b (m.put k v) = true := by
  induction m generalizing b with
  | nil => simp [put, risingFrom, hb]
  | cons e m ih =>
    obtain ⟨i, w⟩ := e
    simp only [risingFrom, Bool.and_eq_true, decide_eq_true_eq] at h
    simp only [put]
    split
    · simp only [risingFrom, Bool.and_eq_true, decide_eq_true_eq]; exact ⟨hb, by omega, h.2⟩
    · split
      · next h1 h2 => subst h2; simp only [risingFrom, Bool.and_eq_true, decide_eq_true_eq]; exact ⟨hb, h.2⟩
      · simp only [risingFrom, Bool.and_eq_true, decide_eq_true_eq]; exact ⟨h.1, ih (i + 1) (by omega) h.2⟩

theorem after_of_rising (m : Map α) (k : Nat) (h : risingFrom (k + 1) m = true) : after m k = m := by
  cases m with
  | nil => rfl
  | cons e m =>
    obtain ⟨i, v⟩ := e
    simp only [risingFrom, Bool.and_eq_true, decide_eq_true_eq] at h
    simp only [after]
    rw [if_neg (by omega)]

theorem rising_erase (m : Map α) (k b : Nat) (h : risingFrom b m = true) : risingFrom b (m.erase k) = true := by
  induction m generalizing b with
  | nil => rfl
  | cons e m ih =>
    obtain ⟨i, w⟩ := e
    simp only [risingFrom, Bool.and_eq_true, decide_eq_true_eq] at h
    simp only [erase]
    split
    · simp only [risingFrom, Bool.and_eq_true, decide_eq_true_eq]; exact h
    · split
      · next h1 h2 =>
        subst h2
        rw [after_of_rising m k h.2]
        exact risingFrom_mono m h.2 (by omega)
      · simp only [risingFrom, Bool.and_eq_true, decide_eq_true_eq]; exact ⟨h.1, ih (i + 1) h.2⟩

theorem all_after (p : Nat × α → Bool) (m : Map α) (k : Nat) (h : m.all p = true) : (after m k).all p = true := by
  induction m with
  | nil => rfl
  | cons e m ih =>
    obtain ⟨i, w⟩ := e
    simp only [List.all_cons, Bool.and_eq_true] at h
    simp only [after]
    split
    · exact ih h.2
    · simp [h]

theorem all_put (p : Nat × α → Bool) (m : Map α) (k : Nat) (v : α) (hv : p (k, v) = true) (h : m.all p = true) :
    (m.put k v).all p = true := by
  induction m with
  | nil => simp [put, hv]
  | cons e m ih =>
    obtain ⟨i, w⟩ := e
    simp only [List.all_cons, Bool.and_eq_true] at h
    simp only [put]
    split
    · simp [hv, h]
    · split
      · simp [hv, h]
      · simp [h, ih]

theorem all_erase (p : Nat × α → Bool) (m : Map α) (k : Nat) (h : m.all p = true) : (m.erase k).all p = true := by
  induction m with
  | nil => rfl
  | cons e m ih =>
    obtain ⟨i, w⟩ := e
    simp only [List.all_cons, Bool.and_eq_true] at h
    simp only [erase]
    split
    · simp [h]
    · split
      · exact all_after p m k h.2
      · simp [h, ih]

theorem canonical_set [DecidableEq α] (d : α) (m : Map α) (k : Nat) (v : α) (h : canonical d m = true) :
    canonical d (m.set d k v) = true := by
  simp only [canonical, Bool.and_eq_true] at h ⊢
  simp only [set]
  split
  · exact ⟨rising_erase m k 0 h.1, all_erase _ m k h.2⟩
  · next hv => exact ⟨rising_put m k 0 v (Nat.zero_le k) h.1, all_put _ m k v (by simpa using hv) h.2⟩

/-- Every write keeps the canonical form. -/
theorem canonical_sets [DecidableEq α] (d : α) (ws : List (Nat × α)) (m : Map α) (h : canonical d m = true) :
    canonical d (m.sets d ws) = true := by
  induction ws generalizing m with
  | nil => exact h
  | cons w ws ih => obtain ⟨k, v⟩ := w; exact ih _ (canonical_set d m k v h)

end Sys2Proof.Map
end

