-- ==== Sys2Proof/Laws/Lanes.lean ====
section
/-! SUPPORT. Laws of lanes, masks, registers and the lookups of crews and gangs. -/

namespace Sys2Proof.Machine

/-! ## Masks -/

theorem getLsbD_ofBoolListLE (bs : List Bool) (i : Nat) : (BitVec.ofBoolListLE bs).getLsbD i = bs.getD i false := by
  induction bs generalizing i with
  | nil => simp [BitVec.ofBoolListLE]
  | cons b bs ih =>
    simp only [BitVec.ofBoolListLE, BitVec.getLsbD_concat]
    cases i with
    | zero => simp
    | succ i => simp [ih]

theorem maskWhere_lsb (p : Nat → Bool) (i : Nat) : (maskWhere p).getLsbD i = (decide (i < 64) && p i) := by
  have h : (BitVec.ofBoolListLE ((List.range 64).map p)).getLsbD i = _ := getLsbD_ofBoolListLE _ i
  rw [List.getD_eq_getElem?_getD, List.getElem?_map] at h
  have e : (maskWhere p).getLsbD i = (BitVec.ofBoolListLE ((List.range 64).map p)).getLsbD i := by
    unfold maskWhere
    simp only [BitVec.getLsbD]
    rfl
  rw [e, h]
  by_cases hi : i < 64
  · simp [hi]
  · simp [hi]

theorem mem_lanesOf {m : BitVec 64} {l : Nat} : l ∈ lanesOf m ↔ m.getLsbD l = true := by
  simp only [lanesOf, List.mem_filter, List.mem_range, and_iff_right_iff_imp]
  intro h
  exact Decidable.byContradiction fun hl => by
    rw [BitVec.getLsbD_of_ge _ _ (by omega)] at h
    exact Bool.noConfusion h

theorem lanesOf_lt {m : BitVec 64} {l : Nat} (h : l ∈ lanesOf m) : l < 64 := by
  simp only [lanesOf, List.mem_filter, List.mem_range] at h
  exact h.1

theorem lanesOf_nodup (m : BitVec 64) : (lanesOf m).Nodup := List.Pairwise.filter _ List.nodup_range

end Sys2Proof.Machine
end

