-- ==== Sys2Proof/Laws/State.lean ====
section
/-! SUPPORT. What each named update of State, Crew and Gang gives field by field. -/

namespace Sys2Proof.Machine

/-! ## Crews and gangs of a state -/

@[simp] theorem crewAt_modCrew (s : State) (k j : Nat) (f : Crew → Crew) :
    (s.modCrew k f).crewAt j = if j = k then (s.crewAt k).map f else s.crewAt j := Map.find_modify s.crews k j f

@[simp] theorem crewAt_setCrew (s : State) (k j : Nat) (c : Crew) :
    (s.setCrew k c).crewAt j = if j = k then some c else s.crewAt j := Map.find_put s.crews k j c

theorem modCrew_only_crews (s : State) (k : Nat) (f : Crew → Crew) :
    s.modCrew k f = { s with crews := (s.modCrew k f).crews } := rfl

@[simp] theorem modCrew_clock (s : State) (k : Nat) (f : Crew → Crew) : (s.modCrew k f).clock = s.clock := rfl
@[simp] theorem modCrew_mem (s : State) (k : Nat) (f : Crew → Crew) : (s.modCrew k f).mem = s.mem := rfl
@[simp] theorem modCrew_host (s : State) (k : Nat) (f : Crew → Crew) : (s.modCrew k f).host = s.host := rfl
@[simp] theorem modCrew_launches (s : State) (k : Nat) (f : Crew → Crew) : (s.modCrew k f).launches = s.launches := rfl
@[simp] theorem modCrew_cores (s : State) (k : Nat) (f : Crew → Crew) : (s.modCrew k f).cores = s.cores := rfl
@[simp] theorem modGang_clock (s : State) (k n : Nat) (f : Gang → Gang) : (s.modGang k n f).clock = s.clock := rfl
@[simp] theorem modGang_mem (s : State) (k n : Nat) (f : Gang → Gang) : (s.modGang k n f).mem = s.mem := rfl
@[simp] theorem modGang_host (s : State) (k n : Nat) (f : Gang → Gang) : (s.modGang k n f).host = s.host := rfl
@[simp] theorem modGang_launches (s : State) (k n : Nat) (f : Gang → Gang) : (s.modGang k n f).launches = s.launches := rfl
@[simp] theorem modGang_cores (s : State) (k n : Nat) (f : Gang → Gang) : (s.modGang k n f).cores = s.cores := rfl
@[simp] theorem setCrew_clock (s : State) (k : Nat) (c : Crew) : (s.setCrew k c).clock = s.clock := rfl
@[simp] theorem setCrew_mem (s : State) (k : Nat) (c : Crew) : (s.setCrew k c).mem = s.mem := rfl
@[simp] theorem setCrew_host (s : State) (k : Nat) (c : Crew) : (s.setCrew k c).host = s.host := rfl

@[simp] theorem find_setGang (c : Crew) (k j : Nat) (g : Gang) :
    (c.setGang k g).gangs.find j = if j = k then some g else c.gangs.find j := Map.find_put c.gangs k j g

@[simp] theorem find_modGang (c : Crew) (k j : Nat) (f : Gang → Gang) :
    (c.modGang k f).gangs.find j = if j = k then (c.gangs.find k).map f else c.gangs.find j := Map.find_modify c.gangs k j f

@[simp] theorem modGang_squads (c : Crew) (k : Nat) (f : Gang → Gang) : (c.modGang k f).squads = c.squads := rfl
@[simp] theorem setGang_squads (c : Crew) (k : Nat) (g : Gang) : (c.setGang k g).squads = c.squads := rfl
@[simp] theorem setSquad_gangs (c : Crew) (i : Nat) (q : Squad) : (c.setSquad i q).gangs = c.gangs := rfl

/-- A crew's squads are 0..3, whatever the list holds. -/
theorem squad_setSquad (c : Crew) (i j : Nat) (q : Squad) (h : i < 4) :
    (c.setSquad i q).squad j = if j = i then q else c.squad j := by
  simp only [Crew.squad, Crew.setSquad, List.getD_eq_getElem?_getD, List.getElem?_map]
  by_cases hj : j < max 4 c.squads.length
  · rw [List.getElem?_range hj]
    by_cases e : j = i <;> simp [e]
  · have e : j ≠ i := by omega
    rw [List.getElem?_eq_none (by simpa using hj), if_neg e]
    simp only [Option.map_none, Option.getD_none]
    rw [List.getElem?_eq_none (by omega)]
    rfl

/-! ## Fibres -/

@[simp] theorem modLanes_regs (g : Gang) (m : BitVec 64) (f : Nat → Fibre → Fibre) : (g.modLanes m f).regs = g.regs := rfl
@[simp] theorem modLanes_fence (g : Gang) (m : BitVec 64) (f : Nat → Fibre → Fibre) : (g.modLanes m f).fence = g.fence := rfl
@[simp] theorem modLanes_length (g : Gang) (m : BitVec 64) (f : Nat → Fibre → Fibre) :
    (g.modLanes m f).fibres.length = g.fibres.length := by simp [Gang.modLanes]
theorem modLanes_rest (g : Gang) (m : BitVec 64) (f : Nat → Fibre → Fibre) :
    g.modLanes m f = { g with fibres := (g.modLanes m f).fibres } := rfl

/-- A lane of the mask that the gang has changes as f says; another does not. -/
theorem fibre_modLanes (g : Gang) (m : BitVec 64) (f : Nat → Fibre → Fibre) (l : Nat) :
    (g.modLanes m f).fibre l = if m.getLsbD l = true ∧ l < g.fibres.length then f l (g.fibre l) else g.fibre l := by
  simp only [Gang.fibre, Gang.modLanes, List.getD_eq_getElem?_getD, List.getElem?_mapIdx]
  by_cases h : l < g.fibres.length
  · simp only [List.getElem?_eq_getElem h, Option.map_some, Option.getD_some, h, and_true]
  · simp only [List.getElem?_eq_none (Nat.le_of_not_lt h), Option.map_none, Option.getD_none, h, and_false, if_false]

theorem length_of_live {g : Gang} {l : Nat} (h : (g.fibre l).live = true) : l < g.fibres.length :=
  Decidable.byContradiction fun n => by
    rw [Gang.fibre, List.getD_eq_getElem?_getD, List.getElem?_eq_none (Nat.le_of_not_lt n)] at h
    exact Bool.noConfusion h

end Sys2Proof.Machine
end

