-- ==== Sys2Proof/Laws/Memory.lean ====
section
/-! SUPPORT. Memory operations: what a write leaves at each address, and that each operation on device and host memory
keeps the canonical form. -/

namespace Sys2Proof.Machine

open Map

/-! ## Bytes at consecutive addresses -/

theorem mem_spread {pa : Nat} {bs : List Byte} {e : Nat × Byte} :
    e ∈ spread pa bs ↔ ∃ i, bs[i]? = some e.2 ∧ e.1 = pa + i := by
  simp only [spread, List.mem_mapIdx]
  constructor
  · rintro ⟨i, h, rfl⟩
    exact ⟨i, by simp [h], rfl⟩
  · rintro ⟨i, h, g⟩
    obtain ⟨hi, hv⟩ := List.getElem?_eq_some_iff.mp h
    exact ⟨i, hi, Prod.ext g.symm hv⟩

/-- A byte of a block of bytes written at pa. -/
theorem get_spread (m : Mem) (pa : Nat) (bs : List Byte) (i : Nat) (b : Byte) (h : bs[i]? = some b) :
    (m.sets 0 (spread pa bs)).get 0 (pa + i) = b := by
  refine get_sets_agree 0 _ m _ b (fun w hw e => ?_) ⟨(pa + i, b), mem_spread.mpr ⟨i, h, rfl⟩, rfl⟩
  obtain ⟨j, hj, he⟩ := mem_spread.mp hw
  have : j = i := by omega
  rw [this, h] at hj
  exact (Option.some.inj hj).symm

/-- A byte outside the block is as it was. -/
theorem get_spread_other (m : Mem) (pa a : Nat) (bs : List Byte) (h : a < pa ∨ pa + bs.length ≤ a) :
    (m.sets 0 (spread pa bs)).get 0 a = m.get 0 a := by
  refine get_sets_other 0 _ m a (fun e he => ?_)
  obtain ⟨i, hi, hk⟩ := mem_spread.mp he
  obtain ⟨hl, -⟩ := List.getElem?_eq_some_iff.mp hi
  omega

/-! ## Canonical form -/

theorem wf_sets (m : Mem) (ws : List (Nat × Byte)) (h : Memory.wf m = true) : Memory.wf (m.sets 0 ws) = true :=
  canonical_sets 0 ws m h

theorem memoryOk_reset : MemoryOk State.reset := by constructor <;> rfl

/-- The invariant speaks of the two memories alone. -/
theorem memoryOk_of_same {s t : State} (h : MemoryOk s) (hm : t.mem = s.mem) (hh : t.host = s.host) : MemoryOk t := by
  unfold MemoryOk
  rw [hm, hh]
  exact h

/-- A view's writes: those that view 0 holds are in device memory, another view keeps its own bytes. -/
theorem putBytes_mem (s : State) (view : Nat) (ws : List (Nat × Byte)) :
    (s.putBytes view ws).mem = if s.liveView view = 0 then s.mem.sets 0 ws else s.mem := by
  simp only [State.putBytes]
  split <;> rfl

theorem putBytes_host (s : State) (view : Nat) (ws : List (Nat × Byte)) : (s.putBytes view ws).host = s.host := by
  simp only [State.putBytes]
  split <;> rfl

/-- The view that holds a view's writes depends on the views alone. -/
theorem liveView_congr {s t : State} (h : t.views = s.views) (view : Nat) : t.liveView view = s.liveView view := by
  unfold State.liveView
  rw [h]

theorem copyPoison_rest (s : State) (view : Nat) (pas : List Nat) :
    s.copyPoison view pas = { s with poison := (s.copyPoison view pas).poison } := by
  unfold State.copyPoison
  split <;> rfl

theorem clearPoison_mem (s : State) (view : Nat) (pas : List Nat) : (s.clearPoison view pas).mem = s.mem := by
  unfold State.clearPoison
  split <;> rfl

theorem clearPoison_host (s : State) (view : Nat) (pas : List Nat) : (s.clearPoison view pas).host = s.host := by
  unfold State.clearPoison
  split <;> rfl

theorem sliceWrite_mem (s : State) (view line pts : Nat) : (s.sliceWrite view line pts).1.mem = s.mem := rfl
theorem sliceWrite_host (s : State) (view line pts : Nat) : (s.sliceWrite view line pts).1.host = s.host := rfl

/-- The slices' writes of several lines touch neither memory nor any view's bytes. -/
theorem sliceWrites_memories (view pts : Nat) (ls : List Nat) (r : State × Nat) :
    let t := (ls.foldl (fun r n => ((r.1.sliceWrite view n pts).1, max r.2 (r.1.sliceWrite view n pts).2)) r).1
    t.mem = r.1.mem ∧ t.host = r.1.host ∧ t.views = r.1.views := by
  induction ls generalizing r with
  | nil => exact ⟨rfl, rfl, rfl⟩
  | cons n ns ih => exact ih ((r.1.sliceWrite view n pts).1, max r.2 (r.1.sliceWrite view n pts).2)

/-- What storeBytes does to device memory (R307): where view 0 holds the view's writes it writes the bytes, and otherwise
nothing. -/
theorem storeBytes_mem (s : State) (view pts : Nat) (ws : List (Nat × Byte)) :
    (s.storeBytes view pts ws).1.mem = if s.liveView view = 0 then s.mem.sets 0 ws else s.mem := by
  obtain ⟨a, -, b⟩ := sliceWrites_memories view pts ((ws.map (fun e => lineOf e.1)).eraseDups)
    (s.copyPoison view (ws.map Prod.fst), pts)
  simp only [State.storeBytes]
  rw [clearPoison_mem, putBytes_mem, liveView_congr b, a]
  rw [copyPoison_rest]
  rfl

theorem storeBytes_host (s : State) (view pts : Nat) (ws : List (Nat × Byte)) :
    (s.storeBytes view pts ws).1.host = s.host := by
  simp only [State.storeBytes]
  rw [clearPoison_host, putBytes_host]
  refine (sliceWrites_memories view pts ((ws.map (fun e => lineOf e.1)).eraseDups) (_, pts)).2.1.trans ?_
  rw [copyPoison_rest]

theorem memoryOk_storeBytes (s : State) (view pts : Nat) (ws : List (Nat × Byte)) (h : MemoryOk s) :
    MemoryOk (s.storeBytes view pts ws).1 := by
  constructor
  · rw [storeBytes_mem]
    split
    · exact wf_sets _ _ h.1
    · exact h.1
  · rw [storeBytes_host]
    exact h.2

/-- What every step of a fold keeps, the fold keeps. -/
theorem foldl_keeps {α β : Type} (p : β → Prop) (f : β → α → β) (hf : ∀ b a, p b → p (f b a)) (l : List α) (b : β)
    (h : p b) : p (l.foldl f b) := by
  induction l generalizing b with
  | nil => exact h
  | cons a as ih => exact ih _ (hf b a h)

theorem sliceLoad_memories (s : State) (view line pts : Nat) :
    (s.sliceLoad view line pts).1.mem = s.mem ∧ (s.sliceLoad view line pts).1.host = s.host := by
  unfold State.sliceLoad
  refine foldl_keeps (fun r : State × Nat × Nat => r.1.mem = s.mem ∧ r.1.host = s.host) _ ?_ _ _ ⟨rfl, rfl⟩
  exact fun _ _ h => h

/-- An atomic of device memory (R192). -/
theorem memoryOk_rmwMem (s : State) (view pts pa : Nat) (fn : AtomFn) (wide : Bool) (b cmp : Addr) (h : MemoryOk s) :
    MemoryOk (s.rmwMem view pts pa fn wide b cmp).1 := by
  unfold State.rmwMem
  dsimp only
  split
  · exact memoryOk_of_same h (sliceLoad_memories s view (lineOf pa) pts).1 (sliceLoad_memories s view (lineOf pa) pts).2
  · exact memoryOk_storeBytes _ _ _ _ h

/-- A report's entry in the ring (R401). -/
theorem putReport_host (s : State) (r : Report) : ∃ ws, (s.putReport r).host = s.host.sets 0 ws := by
  simp only [State.putReport]
  exact ⟨_, rfl⟩

theorem putReport_mem (s : State) (r : Report) : (s.putReport r).mem = s.mem := by
  simp only [State.putReport]

theorem memoryOk_putReport (s : State) (r : Report) (h : MemoryOk s) : MemoryOk (s.putReport r) := by
  constructor
  · rw [putReport_mem]
    exact h.1
  · obtain ⟨ws, hw⟩ := putReport_host s r
    rw [hw]
    exact wf_sets _ _ h.2

theorem memoryOk_report (s : State) (r : Report) (h : MemoryOk s) : MemoryOk (s.report r) := by
  unfold State.report
  split
  · exact memoryOk_putReport s r h
  · split <;> exact h

end Sys2Proof.Machine
end

