-- ==== Sys2Proof/Laws/Ops.lean ====
section
/-! SUPPORT. What the shared operations of units can do: the context of a unit, the shared checks, the operand buffer,
and the completion of a unit. -/

namespace Sys2Proof.Machine

/-! ## The context of a unit -/

/-- Everything that a unit's context says of its state. -/
structure UnitCtx.Of (c : UnitCtx) (x : Pfx) (s : State) : Prop where
  prefixes : c.x = x
  crew : s.crewAt c.core = some c.crew
  gang : c.crew.gangs.find c.slot = some c.gang
  launch : s.launchOf c.crew.launch = some c.launch
  mask : ∀ l, c.mask.getLsbD l = true → (c.gang.fibre l).live = true
  acts : ∀ l, c.acts.getLsbD l = (c.mask.getLsbD l && guardHolds x c.gang l)

theorem unitCtx_of {x : Pfx} {s : State} {c : UnitCtx} (h : unitCtx x s = some c) : c.Of x s := by
  unfold unitCtx at h
  split at h
  · cases h
  · split at h
    · cases h
    · rename_i cr hcr
      split at h
      · rename_i g l hg hl
        cases h
        refine ⟨rfl, hcr, hg, hl, ?_, ?_⟩
        · intro i hi
          simp only [maskWhere_lsb, Bool.and_eq_true] at hi
          exact hi.2.2
        · intro i
          simp only [maskWhere_lsb]
          by_cases hi : i < 64 <;> simp [hi]
      · cases h

/-- The lanes that act are among those that issue. -/
theorem UnitCtx.Of.acts_mask {c : UnitCtx} {x : Pfx} {s : State} (h : c.Of x s) {l : Nat}
    (hl : c.acts.getLsbD l = true) : c.mask.getLsbD l = true := by
  rw [h.acts] at hl
  simp only [Bool.and_eq_true] at hl
  exact hl.1

theorem UnitCtx.Of.mask_length {c : UnitCtx} {x : Pfx} {s : State} (h : c.Of x s) {l : Nat}
    (hl : c.mask.getLsbD l = true) : l < c.gang.fibres.length := length_of_live (h.mask l hl)

/-! ## The shared checks -/

theorem firstFail_none {ls : List Nat} {ok : Nat → Bool} (h : ∀ l ∈ ls, ok l = true) : firstFail ls ok = none := by
  simp only [firstFail, List.find?_eq_none, Bool.not_eq_true, Bool.not_eq_false']
  exact h

/-- The conditions of Clear are what the shared checks ask. -/
theorem gate_clear {x : Pfx} {n : Need} {s : State} {c : UnitCtx} (h : Clear x n s c) : gate x n s = .go c := by
  have hx := (unitCtx_of h.ctx).prefixes
  have hf : classAccepted c n = true := by
    have a : (match n.feature with | none => true | some b => c.launch.features.getLsbD b) = true := by
      cases hn : n.feature with
      | none => rfl
      | some b => exact h.feature b hn
    have b : (!n.worlds || c.launch.rcd.flags.getLsbD 4) = true := by
      cases hn : n.worlds with
      | false => rfl
      | true => exact h.worlds hn
    have d : (c.x.dual.isNone || c.launch.features.getLsbD 1) = true := by
      rw [hx]
      cases h.dual with
      | inl e => rw [e]; rfl
      | inr e => rw [e, Bool.or_true]
    exact (Bool.and_eq_true ..).mpr ⟨(Bool.and_eq_true ..).mpr ⟨a, b⟩, d⟩
  have hp : (n.priv && !c.priv) = false := by
    cases hn : n.priv with
    | false => rfl
    | true => simp [h.priv hn]
  have hr : firstFail c.lanes (fun l => (n.regs ++ seedRegs c n).all (inAllocation c.w (c.gang.fibre l).wbase)) = none :=
    firstFail_none (fun l hl => by simpa only [List.all_eq_true] using h.regs l hl)
  have hk : firstFail c.lanes (fun _ => !(c.dual = .seed || c.dual = .get) || decide (c.dualK < c.t)) = none :=
    firstFail_none (fun l hl => by
      by_cases e : c.dual = .seed ∨ c.dual = .get
      · simp [h.shadow (List.ne_nil_of_mem hl) e]
      · simp only [not_or] at e
        simp [e.1, e.2])
  have hs : firstFail c.lanes (safeFits c) = none :=
    firstFail_none (fun l hl => by
      unfold safeFits
      rw [hx]
      cases e : x.safe with
      | none => rfl
      | some v => exact decide_eq_true (h.fits v e l hl))
  have hc : (n.collective && c.acts != BitVec.allOnes 64) = false := by
    cases hn : n.collective with
    | false => rfl
    | true => simp [h.whole hn]
  have hshared : sharedTrap c n = none := by
    unfold sharedTrap
    simp only [hf, hp, hr, hk, hs, hc, Bool.not_true, Bool.false_eq_true, if_false]
  have hsafe : (x.safe.isSome && c.crew.preempt.isSome) = false := by
    cases h.stays with
    | inl e => simp [e]
    | inr e => simp [e]
  have hbad : foundError c n = none := by unfold foundError; rw [h.sound]; rfl
  unfold gate
  simp [h.ctx, hsafe, dueTrap, h.calm, fenceStalls, h.open_, waitingKeys, h.landed, hshared, hbad]

/-- A unit that nothing turns away and whose meaning performs it. -/
theorem issueUnit_done {x : Pfx} {n : Need} {s u : State} {c : UnitCtx} {body : UnitCtx → State → Act}
    (h : Clear x n s c) (hb : body c s = .done u) : issueUnit x n body s = .next (finish c n u) := by
  simp [issueUnit, gate_clear h, hb]

theorem issueUnit_jump {x : Pfx} {n : Need} {s u : State} {c : UnitCtx} {body : UnitCtx → State → Act}
    (h : Clear x n s c) (hb : body c s = .jump u) : issueUnit x n body s = .next (settle c n u) := by
  simp [issueUnit, gate_clear h, hb]

theorem issueUnit_trap {x : Pfx} {n : Need} {s : State} {c : UnitCtx} {body : UnitCtx → State → Act} {t : Trap} {fl : Word}
    (h : Clear x n s c) (hb : body c s = .trap t fl) : issueUnit x n body s = .next (raiseTrap c t fl s) := by
  simp [issueUnit, gate_clear h, hb]

theorem issueUnit_hold {x : Pfx} {n : Need} {s u : State} {c : UnitCtx} {body : UnitCtx → State → Act} {w : Hold}
    (h : Clear x n s c) (hb : body c s = .hold w u) : issueUnit x n body s = .next (holdUnit c w u) := by
  simp [issueUnit, gate_clear h, hb]

theorem issueUnit_join {x : Pfx} {n : Need} {s u : State} {c : UnitCtx} {body : UnitCtx → State → Act} {m : BitVec 64}
    (h : Clear x n s c) (hb : body c s = .join m u) : issueUnit x n body s = .next (settle { c with mask := m } n u) := by
  simp [issueUnit, gate_clear h, hb]

/-- No unit faults or is refused. -/
theorem issueUnit_next (x : Pfx) (n : Need) (body : UnitCtx → State → Act) (s : State) :
    ∃ t, issueUnit x n body s = .next t := by
  unfold issueUnit
  split <;> try exact ⟨_, rfl⟩
  split <;> exact ⟨_, rfl⟩

/-! ## The operand buffer -/

theorem Squad.sameButFile_refl (q : Squad) : q.sameButFile q := rfl

theorem Squad.sameButFile.trans {p q r : Squad} (h : p.sameButFile q) (k : q.sameButFile r) : p.sameButFile r := by
  unfold Squad.sameButFile at *
  rw [k, h]

/-- What using registers changes in a gang: its operand buffer and what is stored. -/
def Gang.sameButFile (g h : Gang) : Prop := h = { g with buffer := h.buffer, stored := h.stored }

theorem Gang.sameButFile.trans {f g h : Gang} (a : f.sameButFile g) (b : g.sameButFile h) : f.sameButFile h := by
  unfold Gang.sameButFile at *
  rw [b, a]

theorem sameButSpill_refl (o : Option Gang) : sameButSpill o o := by
  cases o with
  | none => exact True.intro
  | some g => exact rfl

theorem sameButSpill.trans {a b d : Option Gang} (h : sameButSpill a b) (k : sameButSpill b d) : sameButSpill a d := by
  cases a <;> cases b <;> cases d <;> simp only [sameButSpill] at *
  rw [k, h]

/-- What using registers of a gang does to its crew. -/
structure FileFrame (slot : Nat) (c d : Crew) : Prop where
  rest : d = { c with gangs := d.gangs, squads := d.squads }
  far : ∀ k, squadOf k ≠ squadOf slot → d.gangs.find k = c.gangs.find k
  near : ∀ k, k ≠ slot → sameButSpill (c.gangs.find k) (d.gangs.find k)
  own : ∀ g, c.gangs.find slot = some g → ∃ h, d.gangs.find slot = some h ∧ g.sameButFile h
  others : ∀ i, i ≠ squadOf slot → d.squad i = c.squad i
  mine : (c.squad (squadOf slot)).sameButFile (d.squad (squadOf slot))

theorem FileFrame.refl (slot : Nat) (c : Crew) : FileFrame slot c c :=
  ⟨rfl, fun _ _ => rfl, fun _ _ => sameButSpill_refl _, fun g h => ⟨g, h, rfl⟩, fun _ _ => rfl, rfl⟩

theorem FileFrame.trans {slot : Nat} {b c d : Crew} (h : FileFrame slot b c) (k : FileFrame slot c d) : FileFrame slot b d where
  rest := by rw [k.rest, h.rest]
  far i hi := (k.far i hi).trans (h.far i hi)
  near i hi := (h.near i hi).trans (k.near i hi)
  own g hg := by
    obtain ⟨x, hx, a⟩ := h.own g hg
    obtain ⟨y, hy, b⟩ := k.own x hx
    exact ⟨y, hy, a.trans b⟩
  others i hi := (k.others i hi).trans (h.others i hi)
  mine := h.mine.trans k.mine

/-- The squad's main file changes. -/
theorem fileFrame_squad (slot : Nat) (c : Crew) (f : Squad → Squad) (h : ∀ q : Squad, q.sameButFile (f q)) :
    FileFrame slot c (c.modSquad (squadOf slot) f) := by
  have h4 : squadOf slot < 4 := Nat.mod_lt _ (by decide)
  refine ⟨rfl, fun _ _ => rfl, fun _ _ => sameButSpill_refl _, fun g hg => ⟨g, hg, rfl⟩, fun i hi => ?_, ?_⟩
  · exact (squad_setSquad c _ i _ h4).trans (if_neg hi)
  · exact (congrArg (Squad.sameButFile _) ((squad_setSquad c _ _ _ h4).trans (if_pos rfl))).mpr (h _)

/-- The gang's buffer and stored registers change. -/
theorem fileFrame_own (slot : Nat) (c : Crew) (f : Gang → Gang) (h : ∀ g : Gang, g.sameButFile (f g)) :
    FileFrame slot c (c.modGang slot f) := by
  refine ⟨rfl, fun k hk => ?_, fun k hk => ?_, fun g hg => ?_, fun _ _ => rfl, rfl⟩
  · rw [find_modGang, if_neg (fun e => hk (by rw [e]))]
  · rw [find_modGang, if_neg hk]; exact sameButSpill_refl _
  · rw [find_modGang, if_pos rfl, hg]; exact ⟨_, rfl, h g⟩

theorem fileFrame_set {slot : Nat} {c : Crew} {g h : Gang} (hg : c.gangs.find slot = some g) (e : g.sameButFile h) :
    FileFrame slot c (c.setGang slot h) := by
  refine ⟨rfl, fun k hk => ?_, fun k hk => ?_, fun x hx => ?_, fun _ _ => rfl, rfl⟩
  · rw [find_setGang, if_neg (fun e => hk (by rw [e]))]
  · rw [find_setGang, if_neg hk]; exact sameButSpill_refl _
  · rw [hg] at hx
    cases hx
    rw [find_setGang, if_pos rfl]
    exact ⟨_, rfl, e⟩

/-- A gang of the squad has its stored registers moved. -/
theorem fileFrame_stored {slot k : Nat} (c : Crew) (f : Map Stored → Map Stored) (hk : squadOf k = squadOf slot) :
    FileFrame slot c (c.modGang k (fun g => { g with stored := f g.stored })) := by
  by_cases e : k = slot
  · subst e; exact fileFrame_own k c _ (fun _ => rfl)
  · refine ⟨rfl, fun j hj => ?_, fun j _ => ?_, fun g hg => ?_, fun _ _ => rfl, rfl⟩
    · rw [find_modGang, if_neg (fun e => hj (by rw [e, hk]))]
    · rw [find_modGang]
      split
      · next h =>
        rw [h]
        cases c.gangs.find k with
        | none => exact True.intro
        | some g => exact rfl
      · exact sameButSpill_refl _
    · rw [find_modGang, if_neg (fun h => e h.symm)]; exact ⟨g, hg, rfl⟩

/-- What a spill takes lies in the gang's own squad (R25). -/
theorem spillVictim_squad {c : Crew} {slot : Nat} {v : Nat × Nat × Stored} (h : spillVictim c slot = some v) :
    squadOf v.1 = squadOf slot := by
  unfold spillVictim at h
  split at h
  · cases h; rfl
  · have hl : ∀ g ∈ c.gangs.filter (fun g => squadOf g.1 == squadOf slot && g.1 != slot), squadOf g.1 = squadOf slot := by
      intro g hg
      have := (List.mem_filter.mp hg).2
      simp only [Bool.and_eq_true, beq_iff_eq] at this
      exact this.1
    generalize c.gangs.filter _ = ls at h hl
    have : ∀ (b : Option (Nat × Nat × Stored)), (∀ w, b = some w → squadOf w.1 = squadOf slot) →
        ls.foldl (fun b g =>
          match b, oldestStored g.2 with
          | none, some v => some (g.1, v)
          | some o, some v => if v.2.stamp < o.2.2.stamp then some (g.1, v) else some o
          | b, none => b) b = some v → squadOf v.1 = squadOf slot := by
      clear h
      induction ls with
      | nil => intro b hb h; exact hb v h
      | cons g gs ih =>
        intro b hb h
        rw [List.foldl_cons] at h
        refine ih (fun x hx => hl x (List.mem_cons_of_mem _ hx)) _ ?_ h
        intro w hw
        have hg := hl g List.mem_cons_self
        split at hw
        · cases hw; exact hg
        · split at hw
          · cases hw; exact hg
          · exact hb w hw
        · exact hb w hw
    exact this none (fun w hw => by cases hw) h

theorem spillOne_frame {slot : Nat} (c : Crew) {v : Nat × Nat × Stored} (h : squadOf v.1 = squadOf slot) :
    FileFrame slot c (spillOne c v) := by
  unfold spillOne
  rw [h]
  refine (fileFrame_stored c (fun m => m.put v.2.1 { v.2.2 with at_ := none }) h).trans ?_
  exact fileFrame_squad slot _ (fun q =>
    ({ q with free := blocksBack (v.2.2.at_.getD 0) v.2.2.segs ++ q.free } : Squad).countSpill) (fun _ => rfl)

theorem findBlock_frame (fuel slot n : Nat) (c : Crew) : FileFrame slot c (findBlock fuel slot n c).1 := by
  induction fuel generalizing c with
  | zero => exact .refl slot c
  | succ fuel ih =>
    unfold findBlock
    split
    · next a free _ => exact fileFrame_squad slot c (fun q => { q with free := free }) (fun _ => rfl)
    · split
      · exact .refl slot c
      · next v hv =>
        exact ((spillOne_frame c (spillVictim_squad hv)).trans (fileFrame_squad slot _ _ (by exact fun _ => rfl))).trans (ih _)

theorem writeBack_frame (now slot key : Nat) (c : Crew) : FileFrame slot c (writeBack now slot key c) := by
  unfold writeBack
  split
  · exact .refl slot c
  · simp only
    have a (m : Map Stored → Map Stored) (f : Squad → Squad) (h : ∀ q : Squad, q.sameButFile (f q)) (n : Nat) :=
      ((fileFrame_stored (slot := slot) c m rfl).trans (fileFrame_squad slot _ f h)).trans (findBlock_frame 4097 slot n _)
    split
    · exact ((a (fun m => m.erase key) _ (by exact fun _ => rfl) _).trans (fileFrame_squad slot _ _ (by exact fun _ => rfl))).trans
        (fileFrame_stored _ (fun m => m.put key _) rfl)
    · exact ((a (fun m => m.erase key) _ (by exact fun _ => rfl) _).trans (fileFrame_stored _ (fun m => m.put key _) rfl)).trans
        (fileFrame_squad slot _ _ (by exact fun _ => rfl))

theorem bufferUse_frame (now slot key : Nat) (d : Bool) (c : Crew) : FileFrame slot c (bufferUse now slot key d c) := by
  unfold bufferUse
  split
  · exact .refl slot c
  · next g hg =>
    have e (b : List BufEntry) (m : Map Stored) : FileFrame slot c (c.setGang slot { g with buffer := b, stored := m }) :=
      fileFrame_set hg rfl
    split
    · exact e _ g.stored
    · simp only
      split
      · exact e _ _
      · split
        · exact (e _ _).trans (writeBack_frame ..)
        · exact e _ _

theorem bufferUses_frame (now slot : Nat) (us : List (Nat × Bool)) (c : Crew) :
    FileFrame slot c (bufferUses now slot us c) := by
  induction us generalizing c with
  | nil => exact .refl slot c
  | cons u us ih => exact (bufferUse_frame now slot u.1 u.2 c).trans (ih _)

/-- Using registers changes the gang's buffer, what its squad has stored, the squad's main file, and nothing else. -/
theorem useRegs_frame (c : UnitCtx) (n : Need) (s : State) {cr : Crew} (hc : s.crewAt c.core = some cr) :
    useRegs c n s = { s with crews := (useRegs c n s).crews } ∧
    (∀ k, k ≠ c.core → (useRegs c n s).crews.find k = s.crews.find k) ∧
    ∃ r, (useRegs c n s).crewAt c.core = some r ∧ FileFrame c.slot cr r := by
  unfold useRegs
  split
  · exact ⟨rfl, fun _ _ => rfl, cr, hc, .refl ..⟩
  · exact ⟨rfl, fun k hk => (crewAt_modCrew s c.core k _).trans (if_neg hk), _,
      (crewAt_modCrew ..).trans ((if_pos rfl).trans (congrArg (Option.map _) hc)), bufferUses_frame ..⟩

end Sys2Proof.Machine
end

