-- ==== Sys2Proof/Laws/PerInstr.lean ====
section
/-! SUPPORT. Facts of every constructor of Instr, one lemma for each: the encoding of a unit has as many words as the unit,
and an event has none (R77, R90). -/

namespace Sys2Proof.Laws.EncodeLength

/-- The words of the encoding are as many as the unit's own count (R77, R90). -/
def Statement (i : Instr) : Prop := (encode i).length = i.words

/-- A unit's words: its prefixes' and the instruction's own. -/
theorem of_fields {i : Instr} {x : Pfx} {w : Fields} (hx : i.pfx? = some x) (hw : i.fields? = some w) : Statement i := by
  obtain ⟨e, g, u, n⟩ := x
  simp only [Statement, encode, Instr.words, hx, hw]
  cases e <;> cases g <;> cases u <;> cases n <;> rfl

/-- An event stands in no word. -/
theorem of_event {i : Instr} (hx : i.pfx? = none) : Statement i := by
  simp only [Statement, encode, Instr.words, hx]
  rfl

theorem add (x : Pfx) (d a b : Reg) (t : IType) : Statement (.add x d a b t) := of_fields rfl rfl
theorem sub (x : Pfx) (d a b : Reg) (t : IType) : Statement (.sub x d a b t) := of_fields rfl rfl
theorem mul (x : Pfx) (d a b : Reg) (t : IType) : Statement (.mul x d a b t) := of_fields rfl rfl
theorem mulh (x : Pfx) (d a b : Reg) (t : IType) : Statement (.mulh x d a b t) := of_fields rfl rfl
theorem mad (x : Pfx) (d a b : Reg) (t : IType) : Statement (.mad x d a b t) := of_fields rfl rfl
theorem min (x : Pfx) (d a b : Reg) (t : IType) : Statement (.min x d a b t) := of_fields rfl rfl
theorem max (x : Pfx) (d a b : Reg) (t : IType) : Statement (.max x d a b t) := of_fields rfl rfl
theorem shl (x : Pfx) (d a b : Reg) (t : IType) : Statement (.shl x d a b t) := of_fields rfl rfl
theorem shr (x : Pfx) (d a b : Reg) (t : IType) : Statement (.shr x d a b t) := of_fields rfl rfl
theorem sar (x : Pfx) (d a b : Reg) (t : IType) : Statement (.sar x d a b t) := of_fields rfl rfl
theorem and (x : Pfx) (d a b : Reg) (w : Bool) : Statement (.and x d a b w) := of_fields rfl rfl
theorem or (x : Pfx) (d a b : Reg) (w : Bool) : Statement (.or x d a b w) := of_fields rfl rfl
theorem xor (x : Pfx) (d a b : Reg) (w : Bool) : Statement (.xor x d a b w) := of_fields rfl rfl
theorem andn (x : Pfx) (d a b : Reg) (w : Bool) : Statement (.andn x d a b w) := of_fields rfl rfl
theorem abs (x : Pfx) (d a : Reg) (w : Bool) : Statement (.abs x d a w) := of_fields rfl rfl
theorem neg (x : Pfx) (d a : Reg) (w : Bool) : Statement (.neg x d a w) := of_fields rfl rfl
theorem clz (x : Pfx) (d a : Reg) (w : Bool) : Statement (.clz x d a w) := of_fields rfl rfl
theorem popc (x : Pfx) (d a : Reg) (w : Bool) : Statement (.popc x d a w) := of_fields rfl rfl
theorem brev (x : Pfx) (d a : Reg) (w : Bool) : Statement (.brev x d a w) := of_fields rfl rfl
theorem mov (x : Pfx) (d a : Reg) (w : Bool) : Statement (.mov x d a w) := of_fields rfl rfl
theorem bfx (x : Pfx) (d a b : Reg) (s : Bool) : Statement (.bfx x d a b s) := of_fields rfl rfl
theorem bfi (x : Pfx) (d a b : Reg) : Statement (.bfi x d a b) := of_fields rfl rfl
theorem prmt (x : Pfx) (d a b : Reg) : Statement (.prmt x d a b) := of_fields rfl rfl
theorem sel (x : Pfx) (d a b : Reg) (p : PReg) : Statement (.sel x d a b p) := of_fields rfl rfl
theorem cmp (x : Pfx) (c : ICond) (p : PReg) (a b : Reg) (t : IType) : Statement (.cmp x c p a b t) := of_fields rfl rfl
theorem addi (x : Pfx) (d a : Reg) (i : BitVec 11) : Statement (.addi x d a i) := of_fields rfl rfl
theorem muli (x : Pfx) (d a : Reg) (i : BitVec 11) : Statement (.muli x d a i) := of_fields rfl rfl
theorem shli (x : Pfx) (d a : Reg) (i : BitVec 11) : Statement (.shli x d a i) := of_fields rfl rfl
theorem shri (x : Pfx) (d a : Reg) (i : BitVec 11) : Statement (.shri x d a i) := of_fields rfl rfl
theorem sari (x : Pfx) (d a : Reg) (i : BitVec 11) : Statement (.sari x d a i) := of_fields rfl rfl
theorem andi (x : Pfx) (d a : Reg) (i : BitVec 11) : Statement (.andi x d a i) := of_fields rfl rfl
theorem ori (x : Pfx) (d a : Reg) (i : BitVec 11) : Statement (.ori x d a i) := of_fields rfl rfl
theorem xori (x : Pfx) (d a : Reg) (i : BitVec 11) : Statement (.xori x d a i) := of_fields rfl rfl
theorem andni (x : Pfx) (d a : Reg) (i : BitVec 11) : Statement (.andni x d a i) := of_fields rfl rfl
theorem cmpiI32 (x : Pfx) (c : ICond) (p : PReg) (a : Reg) (i : BitVec 11) : Statement (.cmpiI32 x c p a i) := of_fields rfl rfl
theorem cmpiN32 (x : Pfx) (c : ICond) (p : PReg) (a : Reg) (i : BitVec 11) : Statement (.cmpiN32 x c p a i) := of_fields rfl rfl
theorem movi (x : Pfx) (d : Reg) (i : BitVec 11) : Statement (.movi x d i) := of_fields rfl rfl
theorem lui (x : Pfx) (d : Reg) (i : BitVec 18) : Statement (.lui x d i) := of_fields rfl rfl
theorem lea (x : Pfx) (d a : Reg) (i : BitVec 11) : Statement (.lea x d a i) := of_fields rfl rfl
theorem shfl (x : Pfx) (d a : Reg) (m : ShflMode) (n : BitVec 6) : Statement (.shfl x d a m n) := of_fields rfl rfl
theorem shflReg (x : Pfx) (d a : Reg) (m : ShflMode) (r : Reg) : Statement (.shflReg x d a m r) := of_fields rfl rfl
theorem ballot (x : Pfx) (d : Reg) (s : PReg) (n : Bool) : Statement (.ballot x d s n) := of_fields rfl rfl
theorem voteAny (x : Pfx) (p s : PReg) (n : Bool) : Statement (.voteAny x p s n) := of_fields rfl rfl
theorem voteAll (x : Pfx) (p s : PReg) (n : Bool) : Statement (.voteAll x p s n) := of_fields rfl rfl
theorem voteUni (x : Pfx) (p s : PReg) (n : Bool) : Statement (.voteUni x p s n) := of_fields rfl rfl
theorem fadd (x : Pfx) (d a b : Reg) (t : FType) : Statement (.fadd x d a b t) := of_fields rfl rfl
theorem fsub (x : Pfx) (d a b : Reg) (t : FType) : Statement (.fsub x d a b t) := of_fields rfl rfl
theorem fmul (x : Pfx) (d a b : Reg) (t : FType) : Statement (.fmul x d a b t) := of_fields rfl rfl
theorem ffma (x : Pfx) (d a b : Reg) (t : FType) : Statement (.ffma x d a b t) := of_fields rfl rfl
theorem fmin (x : Pfx) (d a b : Reg) (t : FType) : Statement (.fmin x d a b t) := of_fields rfl rfl
theorem fmax (x : Pfx) (d a b : Reg) (t : FType) : Statement (.fmax x d a b t) := of_fields rfl rfl
theorem fdiv (x : Pfx) (d a b : Reg) (t : FType) : Statement (.fdiv x d a b t) := of_fields rfl rfl
theorem fdot2 (x : Pfx) (d a b : Reg) (t : FType) : Statement (.fdot2 x d a b t) := of_fields rfl rfl
theorem fcmp (x : Pfx) (c : FCond) (p : PReg) (a b : Reg) (t : FType) : Statement (.fcmp x c p a b t) := of_fields rfl rfl
theorem fneg (x : Pfx) (d a : Reg) (t : FType) : Statement (.fneg x d a t) := of_fields rfl rfl
theorem fabs (x : Pfx) (d a : Reg) (t : FType) : Statement (.fabs x d a t) := of_fields rfl rfl
theorem fsqrt (x : Pfx) (d a : Reg) (t : FType) : Statement (.fsqrt x d a t) := of_fields rfl rfl
theorem frcp (x : Pfx) (d a : Reg) (t : FType) : Statement (.frcp x d a t) := of_fields rfl rfl
theorem frsq (x : Pfx) (d a : Reg) (t : FType) : Statement (.frsq x d a t) := of_fields rfl rfl
theorem fclass (x : Pfx) (d a : Reg) (t : FType) : Statement (.fclass x d a t) := of_fields rfl rfl
theorem fscale (x : Pfx) (d a b : Reg) (t : FType) : Statement (.fscale x d a b t) := of_fields rfl rfl
theorem cvt (x : Pfx) (d a : Reg) (m : CvtMode) (s c : CFmt) : Statement (.cvt x d a m s c) := of_fields rfl rfl
theorem cvtSr (x : Pfx) (d a b : Reg) (c : CFmt) : Statement (.cvtSr x d a b c) := of_fields rfl rfl
theorem cvtPack (x : Pfx) (d a : Reg) (m : CvtMode) (c : PFmt) : Statement (.cvtPack x d a m c) := of_fields rfl rfl
theorem cvtPackSr (x : Pfx) (d a b : Reg) (c : PFmt) : Statement (.cvtPackSr x d a b c) := of_fields rfl rfl
theorem cvtUnpack (x : Pfx) (d a : Reg) (c : PFmt) : Statement (.cvtUnpack x d a c) := of_fields rfl rfl
theorem fexp2 (x : Pfx) (d a : Reg) : Statement (.fexp2 x d a) := of_fields rfl rfl
theorem flog2 (x : Pfx) (d a : Reg) : Statement (.flog2 x d a) := of_fields rfl rfl
theorem fsin (x : Pfx) (d a : Reg) : Statement (.fsin x d a) := of_fields rfl rfl
theorem fcos (x : Pfx) (d a : Reg) : Statement (.fcos x d a) := of_fields rfl rfl
theorem ftanh (x : Pfx) (d a : Reg) : Statement (.ftanh x d a) := of_fields rfl rfl
theorem bra (x : Pfx) (n : Bool) (p : PReg) (i : BitVec 20) : Statement (.bra x n p i) := of_fields rfl rfl
theorem call (x : Pfx) (n : Bool) (p : PReg) (i : BitVec 20) : Statement (.call x n p i) := of_fields rfl rfl
theorem brx (x : Pfx) (a : Reg) : Statement (.brx x a) := of_fields rfl rfl
theorem ret (x : Pfx) : Statement (.ret x) := of_fields rfl rfl
theorem nop (x : Pfx) : Statement (.nop x) := of_fields rfl rfl
theorem exit (x : Pfx) : Statement (.exit x) := of_fields rfl rfl
theorem yield (x : Pfx) : Statement (.yield x) := of_fields rfl rfl
theorem sleep (x : Pfx) (a : Reg) : Statement (.sleep x a) := of_fields rfl rfl
theorem bkpt (x : Pfx) : Statement (.bkpt x) := of_fields rfl rfl
theorem trap (x : Pfx) : Statement (.trap x) := of_fields rfl rfl
theorem tret (x : Pfx) : Statement (.tret x) := of_fields rfl rfl
theorem rpf (x : Pfx) (d a b : Reg) : Statement (.rpf x d a b) := of_fields rfl rfl
theorem wbase (x : Pfx) (a : Reg) (i : BitVec 7) : Statement (.wbase x a i) := of_fields rfl rfl
theorem spawn (x : Pfx) (a b : Reg) : Statement (.spawn x a b) := of_fields rfl rfl
theorem pand (x : Pfx) (d : PReg) (n : Bool) (a : PReg) (m : Bool) (b : PReg) : Statement (.pand x d n a m b) := of_fields rfl rfl
theorem por (x : Pfx) (d : PReg) (n : Bool) (a : PReg) (m : Bool) (b : PReg) : Statement (.por x d n a m b) := of_fields rfl rfl
theorem pxor (x : Pfx) (d : PReg) (n : Bool) (a : PReg) (m : Bool) (b : PReg) : Statement (.pxor x d n a m b) := of_fields rfl rfl
theorem pnot (x : Pfx) (d : PReg) (n : Bool) (a : PReg) : Statement (.pnot x d n a) := of_fields rfl rfl
theorem pset (x : Pfx) (d : PReg) (a : Reg) : Statement (.pset x d a) := of_fields rfl rfl
theorem ld (x : Pfx) (d a : Reg) (k : MemKind) (i : BitVec 7) : Statement (.ld x d a k i) := of_fields rfl rfl
theorem st (x : Pfx) (d a : Reg) (k : MemKind) (i : BitVec 7) : Statement (.st x d a k i) := of_fields rfl rfl
theorem ldFe (x : Pfx) (d a : Reg) (k : MemKind) (i : BitVec 7) : Statement (.ldFe x d a k i) := of_fields rfl rfl
theorem stFill (x : Pfx) (d a : Reg) (k : MemKind) (i : BitVec 7) : Statement (.stFill x d a k i) := of_fields rfl rfl
theorem feClr (x : Pfx) (a b : Reg) : Statement (.feClr x a b) := of_fields rfl rfl
theorem atom32 (x : Pfx) (d a b : Reg) (f : AtomFn) : Statement (.atom32 x d a b f) := of_fields rfl rfl
theorem atom64 (x : Pfx) (d a b : Reg) (f : AtomFn) : Statement (.atom64 x d a b f) := of_fields rfl rfl
theorem red32 (x : Pfx) (a b : Reg) (f : AtomFn) : Statement (.red32 x a b f) := of_fields rfl rfl
theorem red64 (x : Pfx) (a b : Reg) (f : AtomFn) : Statement (.red64 x a b f) := of_fields rfl rfl
theorem fenceFull (x : Pfx) (s : Scope) (m : BitVec 6) : Statement (.fenceFull x s m) := of_fields rfl rfl
theorem fenceAcq (x : Pfx) (s : Scope) (m : BitVec 6) : Statement (.fenceAcq x s m) := of_fields rfl rfl
theorem fenceRel (x : Pfx) (s : Scope) (m : BitVec 6) : Statement (.fenceRel x s m) := of_fields rfl rfl
theorem barArrive (x : Pfx) (a : Reg) (n : BitVec 5) : Statement (.barArrive x a n) := of_fields rfl rfl
theorem barWait (x : Pfx) (a : Reg) (n : BitVec 5) : Statement (.barWait x a n) := of_fields rfl rfl
theorem barSync (x : Pfx) (a : Reg) (n : BitVec 5) : Statement (.barSync x a n) := of_fields rfl rfl
theorem barExpect (x : Pfx) (a : Reg) (n : BitVec 5) : Statement (.barExpect x a n) := of_fields rfl rfl
theorem sstep (x : Pfx) : Statement (.sstep x) := of_fields rfl rfl
theorem rclose (x : Pfx) : Statement (.rclose x) := of_fields rfl rfl
theorem prefL1 (x : Pfx) (a : Reg) : Statement (.prefL1 x a) := of_fields rfl rfl
theorem prefCc (x : Pfx) (a : Reg) : Statement (.prefCc x a) := of_fields rfl rfl
theorem prefMs (x : Pfx) (a : Reg) : Statement (.prefMs x a) := of_fields rfl rfl
theorem cctlWb (x : Pfx) (a : Reg) : Statement (.cctlWb x a) := of_fields rfl rfl
theorem cctlInv (x : Pfx) (a : Reg) : Statement (.cctlInv x a) := of_fields rfl rfl
theorem cctlRoinv (x : Pfx) (a : Reg) : Statement (.cctlRoinv x a) := of_fields rfl rfl
theorem lld (x : Pfx) (l : LReg) (a : Reg) (i : BitVec 11) : Statement (.lld x l a i) := of_fields rfl rfl
theorem lst (x : Pfx) (l : LReg) (a : Reg) (i : BitVec 11) : Statement (.lst x l a i) := of_fields rfl rfl
theorem lchain (x : Pfx) (d a b : LReg) : Statement (.lchain x d a b) := of_fields rfl rfl
theorem lpart (x : Pfx) (d a : LReg) (b : Reg) : Statement (.lpart x d a b) := of_fields rfl rfl
theorem ltrans (x : Pfx) (d a : LReg) (j i : BitVec 3) : Statement (.ltrans x d a j i) := of_fields rfl rfl
theorem lflat (x : Pfx) (d a : LReg) (m : BitVec 3) : Statement (.lflat x d a m) := of_fields rfl rfl
theorem lswz (x : Pfx) (d a : LReg) (b : Reg) : Statement (.lswz x d a b) := of_fields rfl rfl
theorem lchk (x : Pfx) (p : PReg) (l : LReg) (e : Engine) : Statement (.lchk x p l e) := of_fields rfl rfl
theorem ltile (x : Pfx) (d a : Reg) (l : LReg) : Statement (.ltile x d a l) := of_fields rfl rfl
theorem stile (x : Pfx) (d a : Reg) (l : LReg) : Statement (.stile x d a l) := of_fields rfl rfl
theorem mldb (x : Pfx) (s : BitVec 1) (a : Reg) (l : LReg) (f : MFmt) : Statement (.mldb x s a l f) := of_fields rfl rfl
theorem mma (x : Pfx) (t : TileNo) (a b : Reg) (f : MFmt) : Statement (.mma x t a b f) := of_fields rfl rfl
theorem mmaC (x : Pfx) (t : TileNo) (a b : Reg) (f : MFmt) : Statement (.mmaC x t a b f) := of_fields rfl rfl
theorem msca (x : Pfx) (t : TileNo) (a b : Reg) (k : ScaleKind) : Statement (.msca x t a b k) := of_fields rfl rfl
theorem mzero (x : Pfx) (t n : TileNo) : Statement (.mzero x t n) := of_fields rfl rfl
theorem mread (x : Pfx) (d a : Reg) (e : MElem) : Statement (.mread x d a e) := of_fields rfl rfl
theorem mwrite (x : Pfx) (d a : Reg) (e : MElem) : Statement (.mwrite x d a e) := of_fields rfl rfl
theorem mver (x : Pfx) (d : Reg) (t : TileNo) : Statement (.mver x d t) := of_fields rfl rfl
theorem mwait (x : Pfx) (t : TileNo) (b : Reg) : Statement (.mwait x t b) := of_fields rfl rfl
theorem mstat (x : Pfx) (d : Reg) (t : TileNo) : Statement (.mstat x d t) := of_fields rfl rfl
theorem cpyLoad (x : Pfx) (d a b : Reg) : Statement (.cpyLoad x d a b) := of_fields rfl rfl
theorem cpyStore (x : Pfx) (d a b : Reg) : Statement (.cpyStore x d a b) := of_fields rfl rfl
theorem cpym (x : Pfx) (d a b : Reg) : Statement (.cpym x d a b) := of_fields rfl rfl
theorem cwait (x : Pfx) (a b : Reg) : Statement (.cwait x a b) := of_fields rfl rfl
theorem cstat (x : Pfx) (d a : Reg) : Statement (.cstat x d a) := of_fields rfl rfl
theorem qpop (x : Pfx) (d : Reg) (q : QReg) : Statement (.qpop x d q) := of_fields rfl rfl
theorem qpopTry (x : Pfx) (d : Reg) (q : QReg) (p : PReg) : Statement (.qpopTry x d q p) := of_fields rfl rfl
theorem qpush (x : Pfx) (a b : Reg) : Statement (.qpush x a b) := of_fields rfl rfl
theorem qpushTry (x : Pfx) (p : PReg) (a b : Reg) : Statement (.qpushTry x p a b) := of_fields rfl rfl
theorem qstat (x : Pfx) (d : Reg) (q : QReg) : Statement (.qstat x d q) := of_fields rfl rfl
theorem strm (x : Pfx) (a b : Reg) : Statement (.strm x a b) := of_fields rfl rfl
theorem strmStop (x : Pfx) : Statement (.strmStop x) := of_fields rfl rfl
theorem strmWait (x : Pfx) : Statement (.strmWait x) := of_fields rfl rfl
theorem tspawn (x : Pfx) (d a b : Reg) : Statement (.tspawn x d a b) := of_fields rfl rfl
theorem texit (x : Pfx) : Statement (.texit x) := of_fields rfl rfl
theorem calmwait (x : Pfx) : Statement (.calmwait x) := of_fields rfl rfl
theorem role (x : Pfx) (d : Reg) : Statement (.role x d) := of_fields rfl rfl
theorem rolewait (x : Pfx) : Statement (.rolewait x) := of_fields rfl rfl
theorem append (x : Pfx) (a b : Reg) : Statement (.append x a b) := of_fields rfl rfl
theorem drain (x : Pfx) (d a : Reg) (p : PReg) : Statement (.drain x d a p) := of_fields rfl rfl
theorem wfork (x : Pfx) (d : Reg) (n : BitVec 4) : Statement (.wfork x d n) := of_fields rfl rfl
theorem wyield (x : Pfx) (a : Reg) : Statement (.wyield x a) := of_fields rfl rfl
theorem wabort (x : Pfx) : Statement (.wabort x) := of_fields rfl rfl
theorem wchoose (x : Pfx) (a : Reg) : Statement (.wchoose x a) := of_fields rfl rfl
theorem wchooseNone (x : Pfx) : Statement (.wchooseNone x) := of_fields rfl rfl
theorem wstatScore (x : Pfx) (d a : Reg) : Statement (.wstatScore x d a) := of_fields rfl rfl
theorem wstatStatus (x : Pfx) (d a : Reg) : Statement (.wstatStatus x d a) := of_fields rfl rfl
theorem srd (x : Pfx) (d : Reg) (w : Bool) (n : BitVec 8) : Statement (.srd x d w n) := of_fields rfl rfl
theorem swr (x : Pfx) (a : Reg) (w : Bool) (n : BitVec 8) : Statement (.swr x a w n) := of_fields rfl rfl
theorem tlbinvPage (x : Pfx) (a : Reg) : Statement (.tlbinvPage x a) := of_fields rfl rfl
theorem tlbinvCtx (x : Pfx) (a : Reg) : Statement (.tlbinvCtx x a) := of_fields rfl rfl
theorem tlbinvAll (x : Pfx) : Statement (.tlbinvAll x) := of_fields rfl rfl
theorem ctxq (x : Pfx) (a : Reg) : Statement (.ctxq x a) := of_fields rfl rfl
theorem mcheck (x : Pfx) (d : Reg) : Statement (.mcheck x d) := of_fields rfl rfl
theorem powerOn (readable trained : Bool) : Statement (.powerOn readable trained) := of_event rfl
theorem compactorMerge (core squad : Nat) : Statement (.compactorMerge core squad) := of_event rfl
theorem spillRefill (core slot reg plane : Nat) (bad : Option Nat) : Statement (.spillRefill core slot reg plane bad) := of_event rfl
theorem deferredTrapDelivery (cause : BitVec 8) : Statement (.deferredTrapDelivery cause) := of_event rfl
theorem debugResume (core slot : Nat) : Statement (.debugResume core slot) := of_event rfl
theorem groupAged (core slot : Nat) (pc : Addr) : Statement (.groupAged core slot pc) := of_event rfl
theorem yieldTimeout (core slot lane : Nat) : Statement (.yieldTimeout core slot lane) := of_event rfl
theorem sleepExpiry (core slot lane : Nat) : Statement (.sleepExpiry core slot lane) := of_event rfl
theorem spawnBinTimeout (core squad : Nat) (key : Addr) : Statement (.spawnBinTimeout core squad key) := of_event rfl
theorem spawnedGangStart (core squad : Nat) : Statement (.spawnedGangStart core squad) := of_event rfl
theorem crewEnd (core : Nat) : Statement (.crewEnd core) := of_event rfl
theorem fenceComplete (core slot : Nat) : Statement (.fenceComplete core slot) := of_event rfl
theorem leaseBreak (core : Nat) : Statement (.leaseBreak core) := of_event rfl
theorem viewRetag (core : Nat) : Statement (.viewRetag core) := of_event rfl
theorem tlbShootdown (core : Nat) : Statement (.tlbShootdown core) := of_event rfl
theorem closeRequest (core : Nat) : Statement (.closeRequest core) := of_event rfl
theorem patrolScrub (place : Storage) (uncorrectable : Bool) : Statement (.patrolScrub place uncorrectable) := of_event rfl
theorem orderedAddContribution (launch view pa : Nat) (wide : Bool) (value : Addr) (key : List Nat) (core squad : Nat) : Statement (.orderedAddContribution launch view pa wide value key core squad) := of_event rfl
theorem roundClose (launch view : Nat) : Statement (.roundClose launch view) := of_event rfl
theorem superstepComplete (launch : Nat) : Statement (.superstepComplete launch) := of_event rfl
theorem treeAgreementMessage (launch child value : Nat) : Statement (.treeAgreementMessage launch child value) := of_event rfl
theorem mldbComplete (core : Nat) : Statement (.mldbComplete core) := of_event rfl
theorem mmaComplete (core : Nat) (parity : Option Nat) (bad : Bool) : Statement (.mmaComplete core parity bad) := of_event rfl
theorem mmaCStepStart (cluster : Nat) : Statement (.mmaCStepStart cluster) := of_event rfl
theorem mscaComplete (core : Nat) (bad : Bool) : Statement (.mscaComplete core bad) := of_event rfl
theorem mzeroComplete (core : Nat) : Statement (.mzeroComplete core) := of_event rfl
theorem mreadComplete (core : Nat) (bad : Bool) : Statement (.mreadComplete core bad) := of_event rfl
theorem mwriteComplete (core : Nat) : Statement (.mwriteComplete core) := of_event rfl
theorem mstatComplete (core : Nat) : Statement (.mstatComplete core) := of_event rfl
theorem copyStart (core : Nat) : Statement (.copyStart core) := of_event rfl
theorem copyLineLand (core k : Nat) : Statement (.copyLineLand core k) := of_event rfl
theorem copyEnd (core k : Nat) : Statement (.copyEnd core k) := of_event rfl
theorem streamIterationPoint (core : Nat) : Statement (.streamIterationPoint core) := of_event rfl
theorem taskGangStart (core : Nat) : Statement (.taskGangStart core) := of_event rfl
theorem calmSweep (launch : Nat) : Statement (.calmSweep launch) := of_event rfl
theorem roleDwellExpiry (core : Nat) : Statement (.roleDwellExpiry core) := of_event rfl
theorem forkStart (core : Nat) : Statement (.forkStart core) := of_event rfl
theorem worldEnd (core : Nat) : Statement (.worldEnd core) := of_event rfl
theorem parentResume (parked : Nat) : Statement (.parentResume parked) := of_event rfl
theorem worldCommit (core : Nat) : Statement (.worldCommit core) := of_event rfl
theorem viewBackgroundMerge (tag : Nat) : Statement (.viewBackgroundMerge tag) := of_event rfl
theorem pageWalk (core : Nat) (va : Addr) (kind : Nat) : Statement (.pageWalk core va kind) := of_event rfl
theorem pageResume (ctx : Nat) (va : Addr) : Statement (.pageResume ctx va) := of_event rfl
theorem preemptionRequest (core : Nat) : Statement (.preemptionRequest core) := of_event rfl
theorem crewSave (core : Nat) : Statement (.crewSave core) := of_event rfl
theorem crewResume (parked : Nat) : Statement (.crewResume parked) := of_event rfl
theorem preemptionOverdue (core : Nat) : Statement (.preemptionOverdue core) := of_event rfl
theorem launchQueuePost (queue : Nat) (tail : Addr) : Statement (.launchQueuePost queue tail) := of_event rfl
theorem launchRecordTake (queue : Nat) : Statement (.launchRecordTake queue) := of_event rfl
theorem dependencyCheck (queue : Nat) : Statement (.dependencyCheck queue) := of_event rfl
theorem launchPlacement (queue : Nat) : Statement (.launchPlacement queue) := of_event rfl
theorem priorityPreemption (queue : Nat) : Statement (.priorityPreemption queue) := of_event rfl
theorem launchEnd (launch : Nat) : Statement (.launchEnd launch) := of_event rfl
theorem launchCancel (launch : Nat) : Statement (.launchCancel launch) := of_event rfl
theorem doldrumsReport (core slot : Nat) : Statement (.doldrumsReport core slot) := of_event rfl
theorem packetInject (stop loop : Nat) : Statement (.packetInject stop loop) := of_event rfl
theorem agePromotion (stop loop : Nat) : Statement (.agePromotion stop loop) := of_event rfl
theorem packetEject (stop loop : Nat) : Statement (.packetEject stop loop) := of_event rfl
theorem sumpDiversion (stop loop : Nat) : Statement (.sumpDiversion stop loop) := of_event rfl
theorem spanFrameReceive (port seq : Nat) (crcOk : Bool) (header : BitVec 128) : Statement (.spanFrameReceive port seq crcOk header) := of_event rfl
theorem spanPortDown (port : Nat) : Statement (.spanPortDown port) := of_event rfl
theorem hostReadCompletion (core slot tag : Nat) (error : Bool) : Statement (.hostReadCompletion core slot tag error) := of_event rfl
theorem hostReadTimeout (core slot tag : Nat) : Statement (.hostReadTimeout core slot tag) := of_event rfl
theorem feataccWrite (word : Bool) (value : Addr) : Statement (.feataccWrite word value) := of_event rfl
theorem registerWindowWrite (offset : Nat) (value : Addr) : Statement (.registerWindowWrite offset value) := of_event rfl
theorem attestationQuote (nonce : List Byte) : Statement (.attestationQuote nonce) := of_event rfl
theorem measurementLogExtend (block : List Byte) : Statement (.measurementLogExtend block) := of_event rfl
theorem firmwareImageWrite (image : List Byte) : Statement (.firmwareImageWrite image) := of_event rfl
theorem managementWindowWrite (setting : Setting) : Statement (.managementWindowWrite setting) := of_event rfl
theorem thermalStop (die : Nat) : Statement (.thermalStop die) := of_event rfl
theorem illegalInstruction (detail : BitVec 8) : Statement (.illegalInstruction detail) := of_event rfl
theorem preemptionCancel (core : Nat) : Statement (.preemptionCancel core) := of_event rfl
theorem deviceReset : Statement .deviceReset := of_event rfl
theorem fetchAddressFault : Statement .fetchAddressFault := of_event rfl
theorem phaseClose : Statement .phaseClose := of_event rfl
theorem closeCompletion : Statement .closeCompletion := of_event rfl
theorem sliceLoad : Statement .sliceLoad := of_event rfl
theorem sliceWrite : Statement .sliceWrite := of_event rfl
theorem sliceMissFill : Statement .sliceMissFill := of_event rfl
theorem loadReply : Statement .loadReply := of_event rfl
theorem writeAck : Statement .writeAck := of_event rfl
theorem queuePacketArrival : Statement .queuePacketArrival := of_event rfl
theorem taskRecordArrival : Statement .taskRecordArrival := of_event rfl
theorem managementSettingApply : Statement .managementSettingApply := of_event rfl
theorem clockLower : Statement .clockLower := of_event rfl
theorem clockRaise : Statement .clockRaise := of_event rfl
theorem powerOff : Statement .powerOff := of_event rfl

end Sys2Proof.Laws.EncodeLength
end

