-- ==== Sys2Proof/Laws/Units.lean ====
section
/-! SUPPORT. What a unit leaves that acts on registers, predicates, flags and PCs alone: from what it performs to the
state in which it has issued. -/

namespace Sys2Proof.Machine

/-- What such a unit has performed before its group is released: an issuing fibre is what pre says. -/
structure Performed (c : UnitCtx) (s u : State) (pre : Nat → Fibre) (regs : Gang → Gang → Prop) (fl tfl : Word) : Prop where
  machine : u = { s with crews := u.crews }
  cores : ∀ k, k ≠ c.core → u.crews.find k = s.crews.find k
  crew : ∃ r, u.crewAt c.core = some r ∧ r = { c.crew with gangs := r.gangs, squads := r.squads } ∧
    (∀ k, k ≠ c.slot → r.gangs.find k = c.crew.gangs.find k) ∧
    (∀ i, i ≠ c.squad → r.squad i = c.crew.squad i) ∧
    r.squad c.squad = { c.crew.squad c.squad with
      flags := (c.crew.squad c.squad).flags ||| fl, tflags := (c.crew.squad c.squad).tflags ||| tfl } ∧
    ∃ h, r.gangs.find c.slot = some h ∧ h = { c.gang with fibres := h.fibres, regs := h.regs } ∧
      h.fibres.length = c.gang.fibres.length ∧
      (∀ l, c.mask.getLsbD l = true → h.fibre l = pre l) ∧
      (∀ l, c.mask.getLsbD l = false → h.fibre l = c.gang.fibre l) ∧
      (∀ k : Gang, k.regs = h.regs → (∀ l, (k.fibre l).wbase = (h.fibre l).wbase) → regs c.gang k)

theorem fibre_map (g : Gang) (f : Fibre → Fibre) (l : Nat) (h : f {} = {}) :
    ({ g with fibres := g.fibres.map f } : Gang).fibre l = f (g.fibre l) := by
  simp only [Gang.fibre, List.getD_eq_getElem?_getD, List.getElem?_map]
  cases g.fibres[l]? with
  | none => exact h.symm
  | some x => rfl

/-- What noteIssue does to one fibre. -/
def Fibre.noted (m : BitVec 64) (now : Nat) (f : Fibre) : Fibre :=
  match f.hold with
  | some (.yielded y _) => { f with hold := some (.yielded (y &&& ~~~m) now) }
  | _ => f

theorem fibre_noteIssue (g : Gang) (m : BitVec 64) (now l : Nat) : (g.noteIssue m now).fibre l = (g.fibre l).noted m now :=
  fibre_map g (Fibre.noted m now) l rfl

theorem noted_sameButYield (f : Fibre) (m : BitVec 64) (now : Nat) : f.sameButYield (f.noted m now) := by
  unfold Fibre.noted
  split
  · next y n h => exact .inr ⟨y, n, _, _, h, rfl⟩
  · exact .inl rfl

theorem noted_unheld {f : Fibre} (m : BitVec 64) (now : Nat) (h : f.hold = none) : f.noted m now = f := by
  unfold Fibre.noted
  rw [h]

theorem reg_of_regs {g h : Gang} (p l n : Nat) (hr : h.regs = g.regs) (hw : (h.fibre l).wbase = (g.fibre l).wbase) :
    h.reg p l n = g.reg p l n := by simp only [Gang.reg, hr, hw]

theorem regsWritten_same {c : UnitCtx} {w : Nat → Nat → Nat → Option Word} {g h k : Gang} (a : RegsWritten c w g h)
    (hr : k.regs = h.regs) (hw : ∀ l, (k.fibre l).wbase = (h.fibre l).wbase) : RegsWritten c w g k :=
  ⟨fun p l r hl hi => (reg_of_regs p l r hr (hw l)).trans (a.read p l r hl hi),
   fun key hk => (congrArg (Map.get 0 · key) hr).trans (a.kept key hk)⟩

theorem sameButYield_wbase {f g : Fibre} (h : f.sameButYield g) : g.wbase = f.wbase := by
  cases h with
  | inl e => rw [e]
  | inr e => obtain ⟨_, _, _, _, _, e⟩ := e; rw [e]

/-- A fibre that its unit has left in no new hold is released. -/
theorem settled_kept {now : Nat} {old f : Fibre} (h : f.hold = old.hold) (k : f.kept = old.kept) : Fibre.settled now old f =
    { f with hold := none, safe := none, arrived := false, aged := false, reported := false, since := now,
             issued := now, readyFrom := none } := by
  have hb : leftBehind old f = false := by
    unfold leftBehind
    rw [h]
    cases old.hold with
    | none => rfl
    | some h => simp
  have ht : takenUp old f = false := by
    unfold takenUp
    rw [k]
    cases old.kept <;> rfl
  unfold Fibre.settled
  rw [hb, ht]
  rfl

/-- A gang without errors in its registers has none to clear. -/
theorem clearErrors_none (c : UnitCtx) (n : Need) {g : Gang} (h : g.bad = []) : clearErrors c n g = g := by
  unfold clearErrors
  rw [h]
  show ({ g with bad := [] } : Gang) = g
  rw [← h]

/-- Releasing the group of a unit that has performed its effect. -/
theorem settle_issued {c : UnitCtx} {s u : State} {pre fib : Nat → Fibre} {regs : Gang → Gang → Prop} {fl tfl : Word}
    (n : Need) (hopen : c.gang.fence = none) (hsound : c.gang.bad = [])
    (hm : ∀ l, c.mask.getLsbD l = true → l < c.gang.fibres.length) (h : Performed c s u pre regs fl tfl)
    (hf : ∀ l, c.mask.getLsbD l = true →
      (Fibre.settled s.clock.toNat (c.gang.fibre l) (pre l)).noted c.mask s.clock.toNat = fib l ∧
      (fib l).wbase = (pre l).wbase) :
    Issued c s (settle c n u) fib regs fl tfl := by
  obtain ⟨hu, hcores, r, hr, hrest, hslots, hsq, hown, g, hg, hgr, hlen, hmask, hother, hregs⟩ := h
  let g1 : Gang := (g.modLanes c.mask (fun l f => Fibre.settled u.clock.toNat (c.gang.fibre l) f)).noteIssue c.mask
    u.clock.toNat
  let g2 : Gang := clearErrors c n { g1 with fence := g1.fence.map (fun f => { f with writes := f.writes + bufferWrites c n }) }
  let v : State := u.modGang c.core c.slot (fun g =>
    let g := g.modLanes c.mask (fun l f => Fibre.settled u.clock.toNat (c.gang.fibre l) f)
    let g := g.noteIssue c.mask u.clock.toNat
    clearErrors c n { g with fence := g.fence.map (fun f => { f with writes := f.writes + bufferWrites c n }) })
  have hv : settle c n u = useRegs c n v := rfl
  have hvc : v.crewAt c.core = some (r.modGang c.slot (fun g =>
      let g := g.modLanes c.mask (fun l f => Fibre.settled u.clock.toNat (c.gang.fibre l) f)
      let g := g.noteIssue c.mask u.clock.toNat
      clearErrors c n { g with fence := g.fence.map (fun f => { f with writes := f.writes + bufferWrites c n }) })) := by
    show (State.modCrew _ _ _).crewAt _ = _
    rw [crewAt_modCrew, if_pos rfl, hr, Option.map_some]
  have hvg : (r.modGang c.slot (fun g =>
      let g := g.modLanes c.mask (fun l f => Fibre.settled u.clock.toNat (c.gang.fibre l) f)
      let g := g.noteIssue c.mask u.clock.toNat
      clearErrors c n { g with fence := g.fence.map (fun f => { f with writes := f.writes + bufferWrites c n }) })).gangs.find c.slot =
      some g2 := by
    rw [find_modGang, if_pos rfl, hg, Option.map_some]
  have hclock : u.clock = s.clock := by rw [hu]
  have hgf : g.fence = none := by rw [hgr]; exact hopen
  have hc0 : ({ c.gang with fence := none } : Gang) = c.gang := by rw [← hopen]
  have hg2 : g2 = { g with fibres := g2.fibres, lastIssue := u.clock.toNat, reported := false, fence := none } := by
    have e : g1.fence = none := hgf
    have b : g1.bad = [] := by
      show g.bad = _
      rw [hgr]
      exact hsound
    have k : g2 = { g1 with fence := g1.fence.map (fun f => { f with writes := f.writes + bufferWrites c n }) } :=
      clearErrors_none c n b
    rw [k, e]
    rfl
  have hiss : ∀ l, c.mask.getLsbD l = true → g2.fibre l = fib l := by
    intro l hl
    show g1.fibre l = _
    rw [fibre_noteIssue, fibre_modLanes, if_pos ⟨hl, by rw [hlen]; exact hm l hl⟩, hmask l hl, hclock]
    exact (hf l hl).1
  have hoth : ∀ l, c.mask.getLsbD l = false → (c.gang.fibre l).sameButYield (g2.fibre l) := by
    intro l hl
    show Fibre.sameButYield _ (g1.fibre l)
    rw [fibre_noteIssue, fibre_modLanes, if_neg (by simp [hl]), hother l hl]
    exact noted_sameButYield ..
  have hwb : ∀ l, (g2.fibre l).wbase = (g.fibre l).wbase := by
    intro l
    cases hl : c.mask.getLsbD l with
    | true => rw [hiss l hl, hmask l hl]; exact (hf l hl).2
    | false => rw [hother l hl]; exact sameButYield_wbase (hoth l hl)
  obtain ⟨k1, k2, r', k3, k4⟩ := useRegs_frame c n v hvc
  obtain ⟨h', k8, k9⟩ := k4.own _ hvg
  have k7 := k4.mine
  rw [hv]
  have hh : h' = { g2 with buffer := h'.buffer, stored := h'.stored } := k9
  have hfib : ∀ l, h'.fibre l = g2.fibre l := by intro l; rw [hh]; rfl
  refine ⟨?_, ?_, r', k3, ?_, ?_, ?_, ?_, ?_, h', k8, ⟨?_, ?_, ?_, ?_⟩, ?_⟩
  · rw [k1]
    show ({ v with crews := _ } : State) = _
    have : v = { u with crews := v.crews } := rfl
    rw [this, hu]
  · intro k hk
    rw [k2 k hk, ← hcores k hk]
    exact (crewAt_modCrew u c.core k _).trans (if_neg hk)
  · rw [k4.rest]
    show ({ r.modGang c.slot _ with gangs := _, squads := _ } : Crew) = _
    show ({ r with gangs := _, squads := _ } : Crew) = _
    rw [hrest]
  · intro k hk
    have hk' : k ≠ c.slot := fun e => hk (by rw [e]; rfl)
    rw [k4.far k hk, find_modGang, if_neg hk', hslots k hk']
  · intro k hk
    have := k4.near k hk
    rw [find_modGang, if_neg hk, hslots k hk] at this
    exact this
  · intro i hi
    rw [k4.others i hi]
    exact hsq i hi
  · have : (r.modGang c.slot (fun g =>
      let g := g.modLanes c.mask (fun l f => Fibre.settled u.clock.toNat (c.gang.fibre l) f)
      let g := g.noteIssue c.mask u.clock.toNat
      clearErrors c n { g with fence := g.fence.map (fun f => { f with writes := f.writes + bufferWrites c n }) })).squad c.squad =
        r.squad c.squad := rfl
    have hq : squadOf c.slot = c.squad := rfl
    rw [hq, this, hown] at k7
    exact k7
  · rw [← hc0, ← hclock]
    have e : g = { c.gang with fibres := g.fibres, regs := g.regs } := hgr
    have e2 : h' = { g2 with buffer := h'.buffer, stored := h'.stored } := hh
    rw [hg2] at e2
    rw [e] at e2
    rw [e2]
  · rw [hh]
    show g2.fibres.length = _
    show (List.map _ _).length = _
    rw [List.length_map, modLanes_length, hlen]
  · intro l hl; rw [hfib, hiss l hl]
  · intro l hl; rw [hfib]; exact hoth l hl
  · refine hregs h' ?_ (fun l => (congrArg Fibre.wbase (hfib l)).trans (hwb l))
    rw [hh, hg2]

/-! ## Registers a unit writes -/

theorem regKey_inj {p q i j l m : Nat} (hi : i < 1024) (hj : j < 1024) (hl : l < 64) (hm : m < 64)
    (h : regKey p i l = regKey q j m) : p = q ∧ i = j ∧ l = m := by
  unfold regKey at h
  omega

theorem physIndex_lt {c : UnitCtx} {b r : Nat} (h : inAllocation c.w b r = true) : physIndex b r < 1024 := by
  simp only [inAllocation, Bool.or_eq_true, decide_eq_true_eq] at h
  have : c.w ≤ 512 := by unfold UnitCtx.w; omega
  unfold physIndex
  split <;> omega

theorem physIndex_inj {b q r : Nat} (h : physIndex b q = physIndex b r) : q = r := by
  unfold physIndex at h
  split at h <;> split at h <;> omega

theorem mem_wr {g : Gang} {p l n : Nat} {v : Word} {e : Nat × Word} :
    e ∈ g.wr p l n v ↔ n ≠ 0 ∧ e = (regKey p (physIndex (g.fibre l).wbase n) l, v) := by
  unfold Gang.wr
  split
  · next h => simp [h]
  · next h => simp [h]

theorem mem_wrN {g : Gang} {wide : Bool} {p l n : Nat} {v : Addr} {e : Nat × Word} :
    e ∈ g.wrN wide p l n v ↔ n ≠ 0 ∧
      (e = (regKey p (physIndex (g.fibre l).wbase n) l, v.extractLsb' 0 32) ∨
       wide = true ∧ e = (regKey p (physIndex (g.fibre l).wbase (n + 1)) l, v.extractLsb' 32 32)) := by
  have hs : v.setWidth 32 = v.extractLsb' 0 32 := by
    apply BitVec.eq_of_getLsbD_eq
    intro i hi
    simp [hi]
  unfold Gang.wrN
  cases wide with
  | false => simp only [Bool.false_eq_true, if_false, mem_wr, hs, false_and, or_false]
  | true =>
    simp only [if_true, Gang.wr64]
    split
    · next h => simp [h]
    · next h => simp [h, mem_wr]

/-- The storage writes of a register or pair in every plane of every acting lane. -/
def putList (c : UnitCtx) (wide : Bool) (d : Reg) (v : Nat → Nat → Addr) : List (Nat × Word) :=
  c.lanes.flatMap (fun l => (List.range (c.t + 1)).flatMap (fun p => c.gang.wrN wide p l d.toNat (v p l)))

theorem mem_putList {c : UnitCtx} {wide : Bool} {d : Reg} {v : Nat → Nat → Addr} {e : Nat × Word} :
    e ∈ putList c wide d v ↔ ∃ p l r x, c.putsIn c.acts wide d v p l r = some x ∧
      e = (regKey p (physIndex (c.gang.fibre l).wbase r) l, x) := by
  have hd : d.toNat ≠ 0 ↔ d ≠ 0 := by
    constructor
    · intro h e; exact h (by rw [e]; rfl)
    · intro h e; exact h (BitVec.eq_of_toNat_eq e)
  simp only [putList, List.mem_flatMap, List.mem_range, mem_wrN]
  constructor
  · rintro ⟨l, hl, p, hp, h0, h | ⟨hw, h⟩⟩
    · refine ⟨p, l, d.toNat, _, ?_, h⟩
      unfold UnitCtx.putsIn
      rw [if_pos ⟨mem_lanesOf.mp hl, by omega, hd.mp h0⟩, if_pos rfl]
    · refine ⟨p, l, d.toNat + 1, _, ?_, h⟩
      unfold UnitCtx.putsIn
      rw [if_pos ⟨mem_lanesOf.mp hl, by omega, hd.mp h0⟩, if_neg (by omega), if_pos ⟨hw, rfl⟩]
  · rintro ⟨p, l, r, x, h, e⟩
    unfold UnitCtx.putsIn at h
    split at h
    · next hc =>
      refine ⟨l, mem_lanesOf.mpr hc.1, p, by omega, hd.mpr hc.2.2, ?_⟩
      split at h
      · next hr => cases h; rw [hr] at e; exact .inl e
      · split at h
        · next hr => cases h; rw [hr.2] at e; exact .inr ⟨hr.1, e⟩
        · cases h
    · cases h

/-- Writing a register or pair whose registers lie in the allocation. -/
theorem regsWritten_puts {c : UnitCtx} {wide : Bool} {d : Reg} (v : Nat → Nat → Addr)
    (hr : ∀ l ∈ c.lanes, ∀ r ∈ regsOf wide d, inAllocation c.w (c.gang.fibre l).wbase r = true) :
    RegsWritten c (c.putsIn c.acts wide d v) c.gang (c.gang.putRegs (putList c wide d v)) := by
  have hin : ∀ p l r x, c.putsIn c.acts wide d v p l r = some x → l < 64 ∧ r ≠ 0 ∧
      inAllocation c.w (c.gang.fibre l).wbase r = true := by
    intro p l r x h
    unfold UnitCtx.putsIn at h
    split at h
    · next hc =>
      have hl := mem_lanesOf.mpr hc.1
      refine ⟨lanesOf_lt hl, ?_, hr l hl r ?_⟩
      · split at h
        · next e =>
          rw [e]
          intro e0
          exact hc.2.2 (BitVec.eq_of_toNat_eq e0)
        · split at h
          · omega
          · cases h
      · unfold regsOf
        split at h
        · next e => split <;> simp [e]
        · split at h
          · next e => rw [if_pos (by rw [e.1]; simpa using hc.2.2)]; simp [e.2]
          · cases h
    · cases h
  constructor
  · intro p l r hl hq
    unfold Gang.reg
    have hf : ((c.gang.putRegs (putList c wide d v)).fibre l) = c.gang.fibre l := rfl
    rw [hf]
    cases hv : c.putsIn c.acts wide d v p l r with
    | none =>
      split
      · rfl
      · refine Map.get_sets_other 0 _ _ _ ?_
        intro e he hk
        obtain ⟨p', l', r', x, hx, rfl⟩ := mem_putList.mp he
        obtain ⟨hl', h0, ha⟩ := hin p' l' r' x hx
        obtain ⟨rfl, hi, rfl⟩ := regKey_inj (physIndex_lt ha) (physIndex_lt hq) hl' hl hk
        rw [physIndex_inj hi] at hx
        rw [hv] at hx
        cases hx
    | some x =>
      rw [if_neg (hin p l r x hv).2.1]
      refine Map.get_sets_agree 0 _ _ _ _ ?_ ⟨_, mem_putList.mpr ⟨p, l, r, x, hv, rfl⟩, rfl⟩
      intro e he hk
      obtain ⟨p', l', r', x', hx, rfl⟩ := mem_putList.mp he
      obtain ⟨hl', h0, ha⟩ := hin p' l' r' x' hx
      obtain ⟨rfl, hi, rfl⟩ := regKey_inj (physIndex_lt ha) (physIndex_lt hq) hl' hl hk
      rw [physIndex_inj hi, hv] at hx
      cases hx
      rfl
  · intro key hk
    refine Map.get_sets_other 0 _ _ _ ?_
    intro e he hke
    obtain ⟨p, l, r, x, hx, rfl⟩ := mem_putList.mp he
    exact hk p l r x hx hke


/-! ## Units that act lane by lane -/

/-- What the acting lanes of a unit give. -/
def laneOuts (f : UnitCtx → Nat → LaneOut) (c : UnitCtx) : List (Nat × LaneOut) := c.lanes.map (fun l => (l, f c l))

/-- The flags that the lanes raise. -/
def allFlags (outs : List (Nat × LaneOut)) : Word := outs.foldl (fun a o => a ||| o.2.flags) 0
def allTflags (outs : List (Nat × LaneOut)) : Word := outs.foldl (fun a o => a ||| o.2.tflags) 0

/-- The predicates of a lane after a unit. -/
def lanePreds (f : UnitCtx → Nat → LaneOut) (c : UnitCtx) (l : Nat) : BitVec 16 :=
  if c.acts.getLsbD l then (f c l).preds.foldl (fun p w => setPred p w.1 w.2) (c.gang.fibre l).pred
  else (c.gang.fibre l).pred

theorem find_laneOuts (f : UnitCtx → Nat → LaneOut) (c : UnitCtx) (l : Nat) (h : c.acts.getLsbD l = true) :
    (laneOuts f c).find? (fun o => o.1 == l) = some (l, f c l) := by
  have hl : l ∈ c.lanes := mem_lanesOf.mpr h
  unfold laneOuts
  generalize c.lanes = ls at hl ⊢
  induction ls with
  | nil => cases hl
  | cons k ks ih =>
    rw [List.map_cons]
    by_cases e : k = l
    · subst e; simp
    · rw [List.find?_cons_of_neg (by simpa using e)]
      exact ih (by cases hl with | head => exact absurd rfl e | tail _ h => exact h)

theorem raiseFlags_crew (s : State) (core squad : Nat) (fl tfl : Word) {r : Crew} (hr : s.crewAt core = some r)
    (hs : squad < 4) :
    s.raiseFlags core squad fl tfl = { s with crews := (s.raiseFlags core squad fl tfl).crews } ∧
    (∀ k, k ≠ core → (s.raiseFlags core squad fl tfl).crews.find k = s.crews.find k) ∧
    ∃ q, (s.raiseFlags core squad fl tfl).crewAt core = some q ∧ q = { r with squads := q.squads } ∧
      (∀ i, i ≠ squad → q.squad i = r.squad i) ∧
      q.squad squad = { r.squad squad with flags := (r.squad squad).flags ||| fl, tflags := (r.squad squad).tflags ||| tfl } := by
  unfold State.raiseFlags
  split
  · next h => exact ⟨rfl, fun _ _ => rfl, r, hr, rfl, fun _ _ => rfl, by rw [h.1, h.2]; simp⟩
  · refine ⟨rfl, fun k hk => ?_, _, (crewAt_modCrew ..).trans ((if_pos rfl).trans (by rw [hr]; rfl)), rfl, fun i hi => ?_, ?_⟩
    · exact (crewAt_modCrew s core k _).trans (if_neg hk)
    · exact (squad_setSquad r squad i _ hs).trans (if_neg hi)
    · exact (squad_setSquad r squad squad _ hs).trans (if_pos rfl)

/-- What writeLanes and the move of the PCs perform. -/
theorem performed_lanes {x : Pfx} {n : Need} {s : State} {c : UnitCtx} (h : Clear x n s c) (f : UnitCtx → Nat → LaneOut)
    {regs : Gang → Gang → Prop}
    (hw : ∀ k : Gang, k.regs = (c.gang.putRegs ((laneOuts f c).flatMap (fun o => o.2.regs))).regs →
      (∀ l, (k.fibre l).wbase = (c.gang.fibre l).wbase) → regs c.gang k) :
    Performed c s ((writeLanes c (laneOuts f c) s).modGang c.core c.slot (fun g =>
        g.modLanes c.mask (fun _ f => { f with pc := c.pc + unitBytes c.x })))
      (fun l => { c.gang.fibre l with pc := c.nextPc, pred := lanePreds f c l }) regs
      (allFlags (laneOuts f c)) (allTflags (laneOuts f c)) := by
  have hof := unitCtx_of h.ctx
  have h4 : c.squad < 4 := Nat.mod_lt _ (by decide)
  -- the gang after its registers and predicates are written
  let g1 : Gang := c.gang.putRegs ((laneOuts f c).flatMap (fun o => o.2.regs))
  let g2 : Gang := if (laneOuts f c).all (fun o => o.2.preds.isEmpty) then g1
    else g1.modLanes c.acts (fun i f' =>
      match (laneOuts f c).find? (fun o => o.1 == i) with
      | none => f'
      | some o => { f' with pred := o.2.preds.foldl (fun p w => setPred p w.1 w.2) f'.pred })
  let s1 : State := s.modGang c.core c.slot (fun g =>
    let g := g.putRegs ((laneOuts f c).flatMap (fun o => o.2.regs))
    if (laneOuts f c).all (fun o => o.2.preds.isEmpty) then g
    else g.modLanes c.acts (fun i y =>
      match (laneOuts f c).find? (fun o => o.1 == i) with
      | none => y
      | some o => { y with pred := o.2.preds.foldl (fun p w => setPred p w.1 w.2) y.pred }))
  have hs1 : writeLanes c (laneOuts f c) s =
      s1.raiseFlags c.core c.squad (allFlags (laneOuts f c)) (allTflags (laneOuts f c)) := by
    show State.raiseUnit _ _ _ _ = _
    unfold State.raiseUnit
    rw [h.open_, if_neg (by simp)]
    rfl
  have hc1 : s1.crewAt c.core = some (c.crew.modGang c.slot (fun g =>
      let g := g.putRegs ((laneOuts f c).flatMap (fun o => o.2.regs))
      if (laneOuts f c).all (fun o => o.2.preds.isEmpty) then g
      else g.modLanes c.acts (fun i y =>
        match (laneOuts f c).find? (fun o => o.1 == i) with
        | none => y
        | some o => { y with pred := o.2.preds.foldl (fun p w => setPred p w.1 w.2) y.pred }))) := by
    show (State.modCrew _ _ _).crewAt _ = _
    rw [crewAt_modCrew, if_pos rfl, hof.crew, Option.map_some]
  have hg1 : (c.crew.modGang c.slot (fun g =>
      let g := g.putRegs ((laneOuts f c).flatMap (fun o => o.2.regs))
      if (laneOuts f c).all (fun o => o.2.preds.isEmpty) then g
      else g.modLanes c.acts (fun i y =>
        match (laneOuts f c).find? (fun o => o.1 == i) with
        | none => y
        | some o => { y with pred := o.2.preds.foldl (fun p w => setPred p w.1 w.2) y.pred }))).gangs.find c.slot =
      some g2 := by
    rw [find_modGang, if_pos rfl, hof.gang, Option.map_some]
  have hg2r : g2.regs = g1.regs := by
    show (ite _ _ _ : Gang).regs = _
    split <;> rfl
  have hg2e : g2 = { c.gang with fibres := g2.fibres, regs := g2.regs } := by
    show g2 = _
    have : ∀ b : Bool, ∀ y : Gang, y = { c.gang with fibres := y.fibres, regs := y.regs } →
        (if b then g1 else y) = { c.gang with fibres := (if b then g1 else y).fibres, regs := (if b then g1 else y).regs } := by
      intro b y hy
      cases b with
      | true => rfl
      | false => exact hy
    exact this _ _ rfl
  have hg2l : g2.fibres.length = c.gang.fibres.length := by
    show (if _ then g1 else _ : Gang).fibres.length = _
    split
    · rfl
    · exact modLanes_length ..
  have hg2f : ∀ l, g2.fibre l = { c.gang.fibre l with pred := lanePreds f c l } := by
    intro l
    show (if _ then g1 else _ : Gang).fibre l = _
    split
    · next e =>
      have : lanePreds f c l = (c.gang.fibre l).pred := by
        unfold lanePreds
        split
        · next ha =>
          rw [List.all_eq_true] at e
          have := e (l, f c l) (List.mem_map.mpr ⟨l, mem_lanesOf.mpr ha, rfl⟩)
          rw [List.isEmpty_iff.mp this]
          rfl
        · rfl
      rw [this]
      rfl
    · rw [fibre_modLanes]
      split
      · next ha =>
        rw [find_laneOuts f c l ha.1]
        unfold lanePreds
        rw [if_pos ha.1]
        rfl
      · next ha =>
        have : lanePreds f c l = (c.gang.fibre l).pred := by
          unfold lanePreds
          split
          · next hb => exact absurd ⟨hb, hof.mask_length (hof.acts_mask hb)⟩ ha
          · rfl
        rw [this]
        rfl
  obtain ⟨a1, a2, q, a3, a4, a5, a6⟩ := raiseFlags_crew s1 c.core c.squad (allFlags (laneOuts f c))
    (allTflags (laneOuts f c)) hc1 h4
  rw [← hs1] at a1 a2 a3
  have hq : q.gangs.find c.slot = some g2 := by rw [a4]; exact hg1
  refine ⟨?_, ?_, q.modGang c.slot (fun g => g.modLanes c.mask (fun _ f => { f with pc := c.pc + unitBytes c.x })),
    ?_, ?_, ?_, ?_, ?_, g2.modLanes c.mask (fun _ f => { f with pc := c.pc + unitBytes c.x }), ?_, ?_, ?_, ?_, ?_, ?_⟩
  · show ({ writeLanes c (laneOuts f c) s with crews := _ } : State) = _
    rw [a1]
    rfl
  · intro k hk
    refine ((crewAt_modCrew (writeLanes c (laneOuts f c) s) c.core k _).trans (if_neg hk)).trans ?_
    exact (a2 k hk).trans ((crewAt_modCrew s c.core k _).trans (if_neg hk))
  · show (State.modCrew _ _ _).crewAt _ = _
    rw [crewAt_modCrew, if_pos rfl, a3, Option.map_some]
  · show ({ q with gangs := _ } : Crew) = _
    rw [a4]
    rfl
  · intro k hk
    rw [find_modGang, if_neg hk, a4]
    exact (find_modGang ..).trans (if_neg hk)
  · intro i hi
    exact a5 i hi
  · exact a6
  · rw [find_modGang, if_pos rfl, hq, Option.map_some]
  · rw [modLanes_rest]
    show ({ g2 with fibres := _ } : Gang) = _
    rw [hg2e]
  · rw [modLanes_length, hg2l]
  · intro l hl
    rw [fibre_modLanes, if_pos ⟨hl, by rw [hg2l]; exact hof.mask_length hl⟩, hg2f]
    rfl
  · intro l hl
    rw [fibre_modLanes, if_neg (by simp [hl]), hg2f]
    have : lanePreds f c l = (c.gang.fibre l).pred := by
      unfold lanePreds
      split
      · next ha => rw [hof.acts_mask ha] at hl; exact Bool.noConfusion hl
      · rfl
    rw [this]
  · intro k hk hwb
    refine hw k (hk.trans hg2r) (fun l => (hwb l).trans ?_)
    rw [fibre_modLanes]
    split <;> rw [hg2f]

/-- A unit that acts lane by lane on registers, predicates and flags, where no lane raises an enabled flag. -/
theorem laneUnit_issued {x : Pfx} {n : Need} {s : State} {c : UnitCtx} (h : Clear x n s c) (f : UnitCtx → Nat → LaneOut)
    (ht : enabledTrap c (laneOuts f c) = none) {regs : Gang → Gang → Prop}
    (hw : ∀ k : Gang, k.regs = (c.gang.putRegs ((laneOuts f c).flatMap (fun o => o.2.regs))).regs →
      (∀ l, (k.fibre l).wbase = (c.gang.fibre l).wbase) → regs c.gang k) :
    Gives (issueUnit x n (laneUnit f) s) (fun t =>
      Issued c s t (fun l => { c.on s l with pred := lanePreds f c l }) regs (allFlags (laneOuts f c))
        (allTflags (laneOuts f c))) := by
  have hof := unitCtx_of h.ctx
  have hb : laneUnit f c s = .done (writeLanes c (laneOuts f c) s) := by
    unfold laneUnit
    have e : enabledTrap c (c.lanes.map (fun l => (l, f c l))) = none := ht
    simp only [e]
    rfl
  refine ⟨_, issueUnit_done h hb, settle_issued n h.open_ h.sound (fun l hl => hof.mask_length hl) (performed_lanes h f hw) ?_⟩
  intro l _
  refine ⟨?_, rfl⟩
  rw [settled_kept (old := c.gang.fibre l) (f := { c.gang.fibre l with pc := c.nextPc, pred := lanePreds f c l }) rfl rfl]
  exact noted_unheld _ _ rfl

theorem enabledTrap_none {c : UnitCtx} {outs : List (Nat × LaneOut)} (h : ∀ o ∈ outs, o.2.flags = 0) :
    enabledTrap c outs = none := by
  unfold enabledTrap
  rw [List.find?_eq_none.mpr]
  intro o ho
  rw [h o ho]
  simp

theorem foldl_or_zero {α : Type} (f : α → Word) (l : List α) (h : ∀ o ∈ l, f o = 0) (a : Word) :
    l.foldl (fun a o => a ||| f o) a = a := by
  induction l generalizing a with
  | nil => rfl
  | cons o os ih =>
    rw [List.foldl_cons, h o List.mem_cons_self, ih (fun o ho => h o (List.mem_cons_of_mem _ ho))]
    simp

theorem lanePreds_none {f : UnitCtx → Nat → LaneOut} {c : UnitCtx} (h : ∀ l, (f c l).preds = []) (s : State) :
    (fun l => { c.on s l with pred := lanePreds f c l }) = c.on s := by
  funext l
  have : lanePreds f c l = (c.gang.fibre l).pred := by
    unfold lanePreds
    rw [h]
    split <;> rfl
  rw [this]
  rfl

/-- A unit whose lanes write register or pair d in every plane and raise flags. -/
theorem laneUnit_putsWith {x : Pfx} {n : Need} {s : State} {c : UnitCtx} (h : Clear x n s c) (f : UnitCtx → Nat → LaneOut)
    (ht : enabledTrap c (laneOuts f c) = none) (wide : Bool) (d : Reg) (v : Nat → Nat → Addr)
    (hp : ∀ l, (f c l).preds = [])
    (hf : ∀ l, (f c l).regs = (List.range (c.t + 1)).flatMap (fun p => c.gang.wrN wide p l d.toNat (v p l)))
    (hr : ∀ r ∈ regsOf wide d, r ∈ n.regs) :
    Gives (issueUnit x n (laneUnit f) s)
      (PutsWith c s wide d v (allFlags (laneOuts f c)) (allTflags (laneOuts f c))) := by
  have hregs : (laneOuts f c).flatMap (fun o => o.2.regs) = putList c wide d v := by
    unfold laneOuts putList
    rw [List.flatMap_map]
    simp only [hf]
  have hw := regsWritten_puts (c := c) (wide := wide) (d := d) v (fun l hl r hrr =>
    h.regs l hl r (List.mem_append_left _ (hr r hrr)))
  obtain ⟨t, e, i⟩ := laneUnit_issued h f ht (regs := RegsWritten c (c.putsIn c.acts wide d v)) (fun k hk hl =>
    regsWritten_same hw (by rw [hk, hregs]) hl)
  rw [lanePreds_none hp] at i
  exact ⟨t, e, i⟩

/-- A unit whose lanes write register or pair d in every plane, and nothing else. -/
theorem laneUnit_puts {x : Pfx} {n : Need} {s : State} {c : UnitCtx} (h : Clear x n s c) (f : UnitCtx → Nat → LaneOut)
    (wide : Bool) (d : Reg) (v : Nat → Nat → Addr)
    (hf : ∀ l, f c l = { regs := (List.range (c.t + 1)).flatMap (fun p => c.gang.wrN wide p l d.toNat (v p l)) })
    (hr : ∀ r ∈ regsOf wide d, r ∈ n.regs) : Gives (issueUnit x n (laneUnit f) s) (Puts c s wide d v) := by
  have hz : ∀ o ∈ laneOuts f c, o.2.flags = 0 ∧ o.2.tflags = 0 := by
    intro o ho
    obtain ⟨l, _, rfl⟩ := List.mem_map.mp ho
    rw [hf]
    exact ⟨rfl, rfl⟩
  have i := laneUnit_putsWith h f (enabledTrap_none (fun o ho => (hz o ho).1)) wide d v (fun l => by rw [hf])
    (fun l => by rw [hf]) hr
  have z1 : allFlags (laneOuts f c) = 0 := foldl_or_zero _ _ (fun o ho => (hz o ho).1) 0
  have z2 : allTflags (laneOuts f c) = 0 := foldl_or_zero _ _ (fun o ho => (hz o ho).2) 0
  rw [z1, z2] at i
  exact i

/-- A unit whose lanes write predicate p and raise flags. -/
theorem laneUnit_setsWith {x : Pfx} {n : Need} {s : State} {c : UnitCtx} (h : Clear x n s c) (f : UnitCtx → Nat → LaneOut)
    (ht : enabledTrap c (laneOuts f c) = none) (p : PReg) (v : Nat → Bool) (fl : Nat → Word)
    (hf : ∀ l, f c l = { preds := [(p.toNat, v l)], flags := fl l }) :
    Gives (issueUnit x n (laneUnit f) s) (SetsWith c s p v (allFlags (laneOuts f c))) := by
  have hz : ∀ o ∈ laneOuts f c, o.2.tflags = 0 ∧ o.2.regs = [] := by
    intro o ho
    obtain ⟨l, _, rfl⟩ := List.mem_map.mp ho
    rw [hf]
    exact ⟨rfl, rfl⟩
  have hregs : (laneOuts f c).flatMap (fun o => o.2.regs) = [] := List.flatMap_eq_nil_iff.mpr (fun o ho => (hz o ho).2)
  have hp : (fun l => { c.on s l with pred := lanePreds f c l }) = c.onWith s p v := by
    funext l
    unfold lanePreds UnitCtx.onWith
    rw [hf]
    split <;> rfl
  obtain ⟨t, e, i⟩ := laneUnit_issued h f ht (regs := RegsKept) (fun k hk _ => by
    rw [hregs] at hk
    exact hk)
  have z2 : allTflags (laneOuts f c) = 0 := foldl_or_zero _ _ (fun o ho => (hz o ho).1) 0
  rw [hp, z2] at i
  exact ⟨t, e, i⟩

/-- A unit whose lanes write predicate p, and nothing else. -/
theorem laneUnit_sets {x : Pfx} {n : Need} {s : State} {c : UnitCtx} (h : Clear x n s c) (f : UnitCtx → Nat → LaneOut)
    (p : PReg) (v : Nat → Bool) (hf : ∀ l, f c l = { preds := [(p.toNat, v l)] }) :
    Gives (issueUnit x n (laneUnit f) s) (SetsPred c s p v) := by
  have hz : ∀ o ∈ laneOuts f c, o.2.flags = 0 := by
    intro o ho
    obtain ⟨l, _, rfl⟩ := List.mem_map.mp ho
    rw [hf]
  have i := laneUnit_setsWith h f (enabledTrap_none hz) p v (fun _ => 0) hf
  have z1 : allFlags (laneOuts f c) = 0 := foldl_or_zero _ _ hz 0
  rw [z1] at i
  exact i

/-- The writes of a result without tangents, plane by plane. -/
theorem plain_regs (c : UnitCtx) (l : Nat) (wide : Bool) (d : Reg) (v : Addr) :
    c.plain l wide d v =
      { regs := (List.range (c.t + 1)).flatMap (fun p => c.gang.wrN wide p l d.toNat (if p = 0 then v else 0)) } := by
  unfold UnitCtx.plain Gang.zeroShadows
  rw [List.range_succ_eq_map, List.flatMap_cons, List.flatMap_map]
  rfl

theorem plainLane (c : UnitCtx) (l : Nat) (wide : Bool) (d : Reg) (v : Nat → Addr) :
    c.plain l wide d (v l) =
      { regs := (List.range (c.t + 1)).flatMap (fun p => c.gang.wrN wide p l d.toNat (primalOnly v p l)) } :=
  plain_regs c l wide d (v l)

/-- What a unit writes is what Puts sees of it: the low half, and the whole of a pair. -/
theorem puts_congr {c : UnitCtx} {s : State} {wide : Bool} {d : Reg} {v v' : Nat → Nat → Addr} {fl tfl : Word} {t : State}
    (h : PutsWith c s wide d v fl tfl t)
    (e : ∀ p l, (v p l).extractLsb' 0 32 = (v' p l).extractLsb' 0 32 ∧ (wide = true → v p l = v' p l)) :
    PutsWith c s wide d v' fl tfl t := by
  have : c.putsIn c.acts wide d v = c.putsIn c.acts wide d v' := by
    funext p l r
    unfold UnitCtx.putsIn
    split
    · split
      · rw [(e p l).1]
      · split
        · next h => rw [(e p l).2 h.1]
        · rfl
    · rfl
  unfold PutsWith at *
  rw [← this]
  exact h

/-- Clear looks at no more than the registers, a seed's too, the features and the modes that a Need names. -/
theorem Clear.weaken {x : Pfx} {m n : Need} {s : State} {c : UnitCtx} (h : Clear x m s c)
    (hr : ∀ r ∈ n.regs, r ∈ m.regs) (hf : n.feature = m.feature) (hw : n.worlds = m.worlds) (hp : n.priv = m.priv)
    (hc : n.collective = m.collective) (hs : n.seed = m.seed) : Clear x n s c :=
  { h with
    feature := hf ▸ h.feature
    worlds := hw ▸ h.worlds
    priv := hp ▸ h.priv
    whole := hc ▸ h.whole
    regs := fun l hl r hrr => h.regs l hl r (by
      rw [List.mem_append] at *
      rw [seedRegs, hs] at hrr
      exact hrr.imp (hr r) id) }

/-- A unit whose lanes each write one register or pair without tangents. -/
theorem plainUnit {x : Pfx} {n : Need} {s : State} {c : UnitCtx} (h : Clear x n s c) (wide : Bool) (d : Reg)
    (f : UnitCtx → Nat → Addr) (hd : ∀ r ∈ regsOf wide d, r ∈ n.regs) :
    Gives (issueUnit x n (laneUnit (fun c l => c.plain l wide d (f c l))) s) (Puts c s wide d (primalOnly (f c))) :=
  laneUnit_puts h _ wide d _ (fun l => plainLane c l wide d (f c)) hd

end Sys2Proof.Machine
end

