-- ==== Sys2Proof/Tests/Slice0.lean ====
section
/-! SUPPORT. Tests of the model on small states, and for each statement with hypotheses a state and operands that meet them.
Expected results come from the spec's worked examples, or by hand from the rule named beside them. -/

set_option maxRecDepth 100000
set_option Elab.async false

open Sys2Proof Sys2Proof.Machine

namespace Sys2Proof.Tests

/-! ## Small states -/

def g (n : Nat) : Reg := BitVec.ofNat 7 n

/-- A gang whose first n lanes are live, with register values given as lane, register and value. -/
def gang (n : Nat) (rs : List (Nat × Nat × Word)) : Gang :=
  { fibres := (List.range 64).map fun l => { live := decide (l < n), pc := 0x2000 }
    regs := rs.foldl (fun m e => m.put (regKey 0 (physIndex 0 e.2.1) e.1) e.2.2) [] }

/-- Core 0 runs one gang, in slot 0, of a privileged launch with worlds and every feature; its unit stands at 0x2000. -/
def board (a : Gang) (c : Crew := placedCrew) (l : Launch := placedLaunch) : State :=
  { State.reset with
    device := { bootst := 1 }
    ctxs := [(0, placedWindow)]
    launches := [l]
    nextLaunch := 2
    crews := [(0, { c with gangs := [(0, a)] })]
    issue := some { core := 0, slot := 0, mask := BitVec.allOnes 64, pc := 0x2000, ready := BitVec.allOnes 64 } }

/-- What Clear asks of the context a unit issues in. -/
def meets (x : Pfx) (n : Need) (c : UnitCtx) : Bool :=
  c.gang.pending == [] && c.gang.fence.isNone && c.gang.destWait == [] && c.gang.bad == [] && (x.safe.isNone || c.crew.preempt.isNone) &&
  n.feature.all (fun b => c.launch.features.getLsbD b) && (!n.worlds || c.launch.rcd.flags.getLsbD 4) &&
  (x.dual.isNone || c.launch.features.getLsbD 1) && (!n.priv || c.priv) &&
  c.lanes.all (fun l => (n.regs ++ seedRegs c n).all fun r => inAllocation c.w (c.gang.fibre l).wbase r) &&
  (!(c.dual == .seed || c.dual == .get) || decide (c.dualK < c.t)) &&
  x.safe.all (fun v => c.lanes.all fun l => decide ((c.gang.fibre l).wbase + v.toNat ≤ c.w)) &&
  (!n.collective || c.acts == BitVec.allOnes 64)

theorem clear_of_meets {x : Pfx} {n : Need} {s : State} {c : UnitCtx} (h : unitCtx x s = some c) (hk : meets x n c = true) :
    Clear x n s c := by
  simp only [meets, Bool.and_eq_true, beq_iff_eq, Option.isNone_iff_eq_none, Bool.or_eq_true, Bool.not_eq_true',
    List.all_eq_true, decide_eq_true_eq] at hk
  obtain ⟨⟨⟨⟨⟨⟨⟨⟨⟨⟨⟨⟨h1, h2⟩, h3⟩, h0⟩, h4⟩, h5⟩, h6⟩, h7⟩, h8⟩, h9⟩, h10⟩, h11⟩, h12⟩ := hk
  refine ⟨h, h1, h2, h3, h0, h4, ?_, ?_, h7, ?_, h9, ?_, ?_, ?_⟩
  · intro b hb
    simpa [hb] using h5
  · intro hw
    simpa [hw] using h6
  · intro hp
    simpa [hp] using h8
  · intro _ hd
    rcases h10 with h10 | h10
    · rcases hd with hd | hd <;> simp [hd] at h10
    · exact h10
  · intro v hv
    simpa [hv] using h11
  · intro hc
    simpa [hc] using h12

/-- The context of a unit of the board's gang, whose live lanes are m. -/
def ctxOf (m : BitVec 64) (a : Gang) (c : Crew := placedCrew) (l : Launch := placedLaunch) : UnitCtx :=
  { core := 0, slot := 0, mask := m, acts := m, pc := 0x2000, x := {}, crew := { c with gangs := [(0, a)] }, gang := a
    launch := l }

theorem ctx_of {s : State} {a : Gang} {c : Crew} {l : Launch} {m : BitVec 64} (hi : s.issue = (board a c l).issue)
    (hc : s.crews = (board a c l).crews) (hl : s.launches = [l]) (hn : l.num = c.launch)
    (hm : maskWhere (fun k => (BitVec.allOnes 64).getLsbD k && (a.fibre k).live) = m)
    (hk : maskWhere m.getLsbD = m) : unitCtx {} s = some (ctxOf m a c l) := by
  have h1 : s.crewAt 0 = some { c with gangs := [(0, a)] } := by rw [State.crewAt, hc]; rfl
  have h2 : s.launchOf c.launch = some l := by simp [State.launchOf, hl, hn]
  have h3 : Map.find [(0, a)] 0 = some a := rfl
  simp only [unitCtx, hi, board, h1, h2, h3, guardHolds, Bool.and_true, hm, hk]
  rfl

/-- What a test looks at in the next state. -/
def after {α : Type} (o : Host.Outcome State Fault Refusal) (f : State → α) : Option α :=
  match o with
  | .next t => some (f t)
  | _ => none

/-- A register of a lane of the gang. -/
def regOf (t : State) (l r : Nat) : Nat := ((t.gangAt 0 0).map fun a => (a.reg 0 l r).toNat).getD 0

/-- The lanes of a mask are below 64, so what holds of those holds of every lane. -/
theorem bits_all {m a : BitVec 64} {f : Nat → Bool} (h : ∀ l, l < 64 → m.getLsbD l = (a.getLsbD l && f l)) (l : Nat) :
    m.getLsbD l = (a.getLsbD l && f l) := by
  by_cases hl : l < 64
  · exact h l hl
  · rw [BitVec.getLsbD_of_ge m l (by omega), BitVec.getLsbD_of_ge a l (by omega)]
    rfl

/-- What holds of every lane below 64 that a mask selects holds of every one it selects. -/
theorem lanes_all {m : BitVec 64} {p : Nat → Prop} (h : ∀ l, l < 64 → m.getLsbD l = true → p l) (l : Nat)
    (hl : m.getLsbD l = true) : p l := by
  by_cases hb : l < 64
  · exact h l hb hl
  · rw [BitVec.getLsbD_of_ge m l (by omega)] at hl
    cases hl

/-- Two fibres, with small numbers, a shift count past the width, and a predicate that lane 1 alone has set. -/
def pair : Gang :=
  let a := gang 2 [(0, 16, 7), (1, 16, 0xfffffff8), (0, 17, 3), (1, 17, 64), (0, 18, 5), (1, 18, 0x7654), (0, 19, 1)]
  { a with fibres := a.fibres.mapIdx fun l f => if l = 1 then { f with pred := 5 } else f }

def two : State := board pair

def twoCtx : UnitCtx := ctxOf 3 pair
theorem two_ctx : unitCtx {} two = some twoCtx := ctx_of rfl rfl rfl rfl (by decide +kernel) (by decide +kernel)
theorem clear_two {n : Need} (h : meets {} n twoCtx = true) : Clear {} n two twoCtx := clear_of_meets two_ctx h

/-- The live lanes of a gang of two, and of a whole one. -/
theorem live_two : maskWhere (fun k => (BitVec.allOnes 64).getLsbD k && ((gang 2 []).fibre k).live) = 3 := by decide +kernel
theorem live_all : maskWhere (fun k => (BitVec.allOnes 64).getLsbD k && ((gang 64 []).fibre k).live) = BitVec.allOnes 64 := by
  decide +kernel
theorem mask_two : maskWhere (3#64).getLsbD = 3#64 := by decide +kernel
theorem mask_all : maskWhere (BitVec.allOnes 64).getLsbD = BitVec.allOnes 64 := by decide +kernel

theorem live_of_two {a : Gang} (h : a.fibres = (gang 2 []).fibres) :
    maskWhere (fun k => (BitVec.allOnes 64).getLsbD k && (a.fibre k).live) = 3 := by
  simp only [Gang.fibre, h]
  exact live_two

theorem live_of_all {a : Gang} (h : a.fibres = (gang 64 []).fibres) :
    maskWhere (fun k => (BitVec.allOnes 64).getLsbD k && (a.fibre k).live) = BitVec.allOnes 64 := by
  simp only [Gang.fibre, h]
  exact live_all

/-- A unit of two fibres, in any state whose crew is the board's. -/
theorem clear2 (s : State) (a : Gang) (c : Crew) (l : Launch) {n : Need} (hi : s.issue = (board a c l).issue := by rfl)
    (hc : s.crews = (board a c l).crews := by rfl) (hl : s.launches = [l] := by rfl) (hn : l.num = c.launch := by rfl)
    (hf : a.fibres = (gang 2 []).fibres := by rfl) (h : meets {} n (ctxOf 3 a c l) = true) : Clear {} n s (ctxOf 3 a c l) :=
  clear_of_meets (ctx_of hi hc hl hn (live_of_two hf) mask_two) h

/-- A unit of a whole gang. -/
theorem clear64 (s : State) (a : Gang) (c : Crew) (l : Launch) {n : Need} (hi : s.issue = (board a c l).issue := by rfl)
    (hc : s.crews = (board a c l).crews := by rfl) (hl : s.launches = [l] := by rfl) (hn : l.num = c.launch := by rfl)
    (hf : a.fibres = (gang 64 []).fibres := by rfl) (h : meets {} n (ctxOf (BitVec.allOnes 64) a c l) = true) :
    Clear {} n s (ctxOf (BitVec.allOnes 64) a c l) :=
  clear_of_meets (ctx_of hi hc hl hn (live_of_all hf) mask_all) h

/-- A unit meets Clear in a context of which p holds. -/
theorem clear_with (p : UnitCtx → Prop) [DecidablePred p] {x : Pfx} {n : Need} {s : State}
    (h : (unitCtx x s).any (fun c => meets x n c && decide (p c)) = true) : ∃ c, Clear x n s c ∧ p c := by
  cases hc : unitCtx x s with
  | none => simp [hc] at h
  | some c =>
    simp only [hc, Option.any_some, Bool.and_eq_true, decide_eq_true_eq] at h
    exact ⟨c, clear_of_meets hc h.1, h.2⟩

/-! ## Integer units, predicates and lanes -/

theorem witness_integerArithmetic :
    Clear {} { regs := regsOf IType.n32.wide (g 16) ++ regsOf IType.n32.wide (g 17) ++ regsOf IType.n32.wide (g 18) } two twoCtx ∧
    Clear {} { regs := regsOf IType.i64.wide (g 16) ++ regsOf IType.i64.wide (g 126) ++ regsOf IType.i64.wide (g 0) } two twoCtx :=
  ⟨clear_two (by decide +kernel), clear_two (by decide +kernel)⟩

theorem witness_shifts :
    (IType.n32.signed = false ∧ (twoCtx.word 1 (g 17)).toNat = 64 ∧
      Clear {} { regs := regsOf IType.n32.wide (g 16) ++ [17] ++ regsOf IType.n32.wide (g 18) } two twoCtx) ∧
    (IType.i64.signed = true ∧
      Clear {} { regs := regsOf IType.i64.wide (g 16) ++ [17] ++ regsOf IType.i64.wide (g 18) } two twoCtx) :=
  ⟨⟨rfl, by decide +kernel, clear_two (by decide +kernel)⟩, rfl, clear_two (by decide +kernel)⟩

/-- Logic, the single-operand functions, the bit fields and sel: any registers of the allocation, g127 among them. -/
theorem witness_registers : Clear {} { regs := regsOf false (g 16) ++ regsOf false (g 127) ++ regsOf false (g 0) } two twoCtx ∧
    Clear {} { regs := regsOf true (g 16) ++ regsOf true (g 126) ++ regsOf true (g 0) } two twoCtx :=
  ⟨clear_two (by decide +kernel), clear_two (by decide +kernel)⟩

/-- The immediates, the comparisons, the votes and the shuffles; a guard that selects lane 1 alone. -/
theorem witness_guarded :
    ∃ c, Clear { guard := some ⟨false, 2⟩ } { regs := [16, 18] } two c ∧ c.lanes = [1] ∧ c.mask = 3 :=
  clear_with _ (by decide +kernel)

theorem witness_noRegisters : Clear {} {} two twoCtx := clear_two (by decide +kernel)

/-- R118: 7 + 3, and 0xfffffff8 + 64 modulo 2^32; the upper half of 49 and of 64. -/
theorem test_add : after (exec (.add {} (g 20) (g 16) (g 17) .n32) two) (fun t => (regOf t 0 20, regOf t 1 20)) =
    some (10, 0x38) := by decide +kernel
theorem test_mulh : after (exec (.mulh {} (g 20) (g 16) (g 16) .n32) two) (fun t => (regOf t 0 20, regOf t 1 20)) =
    some (0, 0xfffffff0) := by decide +kernel
/-- R119: the leading zeros of 7. -/
theorem test_clz : after (exec (.clz {} (g 20) (g 16) false) two) (fun t => regOf t 0 20) = some 29 := by decide +kernel
/-- R120: a count past the width; sar keeps the sign. -/
theorem test_sar : after (exec (.sar {} (g 20) (g 16) (g 17) .i32) two) (fun t => (regOf t 0 20, regOf t 1 20)) =
    some (0, 0xffffffff) := by decide +kernel
theorem test_shl : after (exec (.shl {} (g 20) (g 16) (g 17) .n32) two) (fun t => (regOf t 0 20, regOf t 1 20)) =
    some (56, 0) := by decide +kernel
/-- R124: the selector 0x7654 gives the bytes of b. -/
theorem test_prmt : after (exec (.prmt {} (g 18) (g 16) (g 17)) two) (fun t => regOf t 1 18) = some 64 := by decide +kernel
/-- R126: 7 < 3 is false and −8 < 64 true, as signed values. -/
theorem test_cmp : after (exec (.cmp {} .lt 3 (g 16) (g 17) .i32) two)
    (fun t => (t.gangAt 0 0).map fun a => ((a.fibre 0).pred, (a.fibre 1).pred)) = some (some (1, 13)) := by decide +kernel
/-- R128: lane 0 reads lane 1, and lane 1 lane 0. -/
theorem test_shfl : after (exec (.shfl {} (g 20) (g 17) .xor 1) two) (fun t => (regOf t 0 20, regOf t 1 20)) = some (64, 3) := by
  decide +kernel
/-- R129: p2 is true in lane 1 alone. -/
theorem test_ballot : after (exec (.ballot {} (g 20) 2 false) two) (fun t => (regOf t 0 20, regOf t 0 21)) = some (2, 0) := by
  decide +kernel
/-- R17: a write to g0 writes nothing. -/
theorem test_g0 : after (exec (.add {} (g 0) (g 16) (g 17) .n32) two) (fun t => ((t.gangAt 0 0).map (·.regs), regOf t 0 0)) =
    some (some pair.regs, 0) := by decide +kernel

/-! ## Floating point -/

/-- 1, 2, 3 and a signalling NaN in lane 1, with the traps for IV and DZ enabled (R35). -/
def floatGang : Gang :=
  { gang 2 [(0, 16, 0x3f800000), (1, 16, 0x3f800000), (0, 17, 0x40000000), (1, 17, 0x40000000), (0, 18, 0x40400000),
    (1, 18, 0x40400000), (1, 19, 0x7f800001), (1, 22, 0x7c01)] with ctl := 0x18 }
def floats : State := board floatGang
def floatCtx : UnitCtx := ctxOf 3 floatGang
theorem clear_floats {n : Need} (h : meets {} n floatCtx = true) : Clear {} n floats floatCtx :=
  clear2 floats floatGang placedCrew placedLaunch (h := h)

theorem witness_floatArithmetic :
    Clear {} { regs := regsOf FType.f32.wide (g 16) ++ regsOf FType.f32.wide (g 17) ++ regsOf FType.f32.wide (g 18) ++ [17] }
      floats floatCtx ∧ floatCtx.enables = 3 ∧
    ∀ l ∈ floatCtx.lanes, (packed .f32 fun e => fpAdd.primal floatCtx.mode (eltFmt .f32) (elt .f32 (floatCtx.gang.regN false 0 l 16) e)
      (elt .f32 (floatCtx.gang.regN false 0 l 17) e) (elt .f32 (floatCtx.gang.regN false 0 l 18) e)).2 &&& floatCtx.enables = 0 :=
  ⟨clear_floats (by decide +kernel), by decide +kernel, by decide +kernel⟩

theorem witness_enabledFloatTrap :
    Clear {} { regs := regsOf FType.f32.wide (g 16) ++ regsOf FType.f32.wide (g 19) ++ regsOf FType.f32.wide (g 20) ++ [19] }
      floats floatCtx ∧
    (let fl (l : Nat) : Word := (packed .f32 fun e => fpAdd.primal floatCtx.mode (eltFmt .f32) (elt .f32 (floatCtx.val l false (g 16)) e)
      (elt .f32 (floatCtx.val l false (g 19)) e) (elt .f32 (floatCtx.val l false (g 20)) e)).2
    1 ∈ floatCtx.lanes ∧ fl 1 &&& floatCtx.enables ≠ 0 ∧ ∀ k ∈ floatCtx.lanes, k < 1 → fl k &&& floatCtx.enables = 0) :=
  ⟨clear_floats (by decide +kernel), by decide +kernel⟩

/-- A signalling NaN in lane 1: alone as an operand, in a comparison, a conversion, a pack and an unpack; and as the factor
infinity × 0 of a dot product. -/
theorem witness_otherFloatTraps :
    (let traps (fl : Nat → Word) : Prop := ∃ l ∈ floatCtx.lanes, fl l &&& floatCtx.enables ≠ 0 ∧
      ∀ k ∈ floatCtx.lanes, k < l → fl k &&& floatCtx.enables = 0
    let f (n l : Nat) : Val := decodeFp .f32 (floatCtx.gang.reg 0 l n).toNat
    let e (l n k : Nat) : Ex := ex .bf16 (elt .bf16x2 (floatCtx.gang.regN false 0 l n) k)
    Clear {} { regs := regsOf false (g 19) ++ regsOf false (g 17) ++ regsOf false (g 20) ++ [17] } floats floatCtx ∧
    traps (fun l => (packed .f32 fun k => fpSqrt.primal floatCtx.mode .f32 (elt .f32 (floatCtx.val l false (g 19)) k)
      (elt .f32 (floatCtx.val l false (g 19)) k) 0).2) ∧
    Clear {} { regs := [19, 20, 18] } floats floatCtx ∧
    traps (fun l => (dotRound floatCtx.mode [Ex.mul (e l 19 0) (e l 20 0), Ex.mul (e l 19 1) (e l 20 1),
      ex .f32 (floatCtx.gang.reg 0 l 18).toNat]).2) ∧
    Clear {} { regs := regsOf false (g 19) ++ regsOf false (g 17) } floats floatCtx ∧ traps (fun l => (fpCond .lt (f 19 l) (f 17 l)).2) ∧
    Clear {} { regs := [19, 20] } floats floatCtx ∧ traps (fun l => (transPrimal .exp2 floatCtx.mode (f 19 l)).2) ∧
    traps (fun l => (convert .rne 0 .f32 .f16 (floatCtx.val l false (g 19))).2) ∧
    traps (fun l => (convert .sr (cvtDraw floatCtx l (g 17) 0) .f32 .bf16 (floatCtx.val l false (g 19))).2) ∧
    traps (fun l => (packWord .f16 .rne (fun _ => 0) fun j => floatCtx.gang.reg 0 l (19 + j)).2) ∧
    traps (fun l => (List.range PFmt.f16.count).foldl (fun w j => w ||| (unpackElt .f16 (floatCtx.gang.reg 0 l 22) j).2) 0)) :=
  ⟨clear_floats (by decide +kernel), by decide +kernel, clear_floats (by decide +kernel), by decide +kernel,
    clear_floats (by decide +kernel), by decide +kernel, clear_floats (by decide +kernel), by decide +kernel⟩

theorem witness_floatDotClassCompare :
    (FType.bf16x2 = .f16x2 ∨ FType.bf16x2 = .bf16x2) ∧ Clear {} { regs := [16, 17, 18] } two twoCtx ∧
    Clear {} { regs := regsOf FType.f64.wide (g 16) ++ [18] } two twoCtx ∧
    Clear {} { regs := regsOf FType.f32.wide (g 16) ++ regsOf FType.f32.wide (g 17) } floats floatCtx ∧
    ∀ l ∈ floatCtx.lanes, (fpCond .lt (decodeFp (eltFmt .f32) (elt .f32 (floatCtx.val l false (g 16)) 0))
      (decodeFp (eltFmt .f32) (elt .f32 (floatCtx.val l false (g 17)) 0))).2 &&& floatCtx.enables = 0 :=
  ⟨.inr rfl, clear_two (by decide +kernel), clear_two (by decide +kernel), clear_floats (by decide +kernel), by decide +kernel⟩

/-- Where no trap is enabled no flag is an enabled one: the dot products, the transcendentals, conversions, packs, unpacks. -/
theorem witness_conversions :
    (∀ y : Nat → Addr × Word, ∀ l ∈ twoCtx.lanes, (y l).2 &&& twoCtx.enables = 0) ∧
    Clear {} { regs := [16, 20] } two twoCtx ∧ Clear {} { regs := regsOf CFmt.f64.wide (g 16) ++ regsOf CFmt.f16.wide (g 20) } two twoCtx ∧
    (CFmt.fp19 = .f16 ∨ CFmt.fp19 = .bf16 ∨ CFmt.fp19 = .fp19) ∧ Clear {} { regs := [16, 17, 20] } two twoCtx ∧
    Clear {} { regs := groupOf PFmt.fp8e4.count (g 16) ++ [20] ++ [21] } two twoCtx ∧
    Clear {} { regs := [16] ++ groupOf PFmt.fp8e4.count (g 20) } two twoCtx := by
  refine ⟨?_, clear_two (by decide +kernel), clear_two (by decide +kernel), .inr (.inr rfl), clear_two (by decide +kernel),
    clear_two (by decide +kernel), clear_two (by decide +kernel)⟩
  intro y l _
  rw [show twoCtx.enables = 0 by decide +kernel]
  exact BitVec.and_zero

/-- R130: 1 + 2; R132: 1 × 2 + 3; the square root of 2 rounded to nearest; 2^2. -/
theorem test_fadd : after (exec (.fadd {} (g 20) (g 16) (g 17) .f32) floats) (fun t => regOf t 1 20) = some 0x40400000 := by
  decide +kernel
theorem test_ffma : after (exec (.ffma {} (g 18) (g 16) (g 17) .f32) floats) (fun t => regOf t 0 18) = some 0x40a00000 := by
  decide +kernel
theorem test_fsqrt : after (exec (.fsqrt {} (g 20) (g 17) .f32) floats) (fun t => regOf t 0 20) = some 0x3fb504f3 := by
  decide +kernel
theorem test_fexp2 : after (exec (.fexp2 {} (g 20) (g 17)) floats) (fun t => regOf t 0 20) = some 0x40800000 := by
  decide +kernel
/-- R67, R168: the signalling NaN of lane 1 traps, and nothing is written. -/
theorem test_floatTrap : after (exec (.fadd {} (g 20) (g 16) (g 19) .f32) floats)
    (fun t => (regOf t 0 20, (t.gangAt 0 0).map fun a => (a.trapcause, a.trappc, (a.fibre 0).pc))) =
    some (0, some (0x0001010c, 0x2000, 0x1000)) := by decide +kernel
/-- 1.5 and the largest number of binary16, exactly given and past the range; and a zero. -/
theorem witness_arithmeticRounds : Fmt.f16 ∈ [Fmt.f64, .f32, .f16, .bf16] ∧ RMode.rd ≠ .sr ∧ IsFinite .f16 0x3e00 ∧ IsFinite .f16 0x7bff ∧
    IsFinite .f16 0 ∧ finiteUnits .f16 0x3e00 = 1536 * 2 ^ 14 ∧ finiteUnits .f16 0x7bff = 2047 * 2 ^ 29 ∧
    RoundsTo .f16 .rd (1536 * 2 ^ 14) 1 (1536 * 2 ^ 14) ∧ RoundsTo .f16 .rd (2 * (2047 * 2 ^ 29)) 1 (2 * (2047 * 2 ^ 29)) ∧
    (2 * (2047 * 2 ^ 29) : Int) > ((2 ^ (Fmt.f16.mbits + 1) - 1) * 2 ^ (2 ^ Fmt.f16.ebits - 3) : Nat) := by
  refine ⟨by decide, by decide, ⟨by decide, by decide⟩, ⟨by decide, by decide⟩, ⟨by decide, by decide⟩, by decide, by decide, ⟨1536, 14, by decide⟩,
    ⟨2047, 30, by decide⟩, by decide⟩

/-- R138: 1 to fp16. -/
theorem test_cvt : after (exec (.cvt {} (g 20) (g 16) .rne .f32 .f16) floats) (fun t => regOf t 0 20) = some 0x3c00 := by
  decide +kernel

/-! ## Control flow and traps -/

/-- Pairs at the limits of R147: 2^48 − 4 in lane 0, 2^48 in lane 1; 2 in lane 1 at g20; a shift of 1 in lane 0 at g22;
496 and 512 in g24 and g25. -/
def jumpGang : Gang :=
  gang 2 [(0, 16, 0xfffffffc), (0, 17, 0xffff), (1, 17, 0x10000), (1, 20, 2), (0, 22, 1), (0, 24, 496), (1, 24, 496),
    (1, 25, 512)]
def jumps : State := board jumpGang
def jumpCtx : UnitCtx := ctxOf 3 jumpGang
theorem clear_jumps {n : Need} (h : meets {} n jumpCtx = true) : Clear {} n jumps jumpCtx :=
  clear2 jumps jumpGang placedCrew placedLaunch (h := h)

/-- Lane 1 alone takes a branch; a target of 0, and one of −4. -/
theorem witness_branches : Clear {} {} two twoCtx ∧
    (∀ l, (2#64).getLsbD l = (twoCtx.acts.getLsbD l && twoCtx.gang.predOf l 2)) ∧
    (0 ≤ (0x2000 : Int) + 4 * (-0x800#20 : BitVec 20).toInt ∧ (0x2000 : Int) + 4 * (-0x800#20 : BitVec 20).toInt < 2 ^ 48) ∧
    (∀ l, (0#64).getLsbD l = (twoCtx.acts.getLsbD l && twoCtx.gang.predOf l 3)) ∧
    ((2#64).getLsbD 1 = true ∧ (∀ k, k < 1 → (2#64).getLsbD k = false) ∧
      ¬(0 ≤ (0x2000 : Int) + 4 * (-0x801#20 : BitVec 20).toInt ∧ (0x2000 : Int) + 4 * (-0x801#20 : BitVec 20).toInt < 2 ^ 48)) :=
  ⟨clear_two (by decide +kernel), bits_all (by decide +kernel), by decide +kernel, bits_all (by decide +kernel), by decide +kernel⟩

theorem witness_indirectJumps : Clear {} { regs := regsOf true (g 16) } jumps jumpCtx ∧
    (∀ l ∈ jumpCtx.lanes, (jumpCtx.pair l (g 22)).toNat < 2 ^ 48) ∧
    (∀ l ∈ jumpCtx.lanes, (jumpCtx.pair l (g 18)).toNat < 2 ^ 48 ∧ (jumpCtx.pair l (g 18)).toNat % 4 = 0) ∧
    (1 ∈ jumpCtx.lanes ∧ 2 ^ 48 ≤ (jumpCtx.pair 1 (g 16)).toNat ∧ ∀ k ∈ jumpCtx.lanes, k < 1 → (jumpCtx.pair k (g 16)).toNat < 2 ^ 48) ∧
    ((∀ l ∈ jumpCtx.lanes, (jumpCtx.pair l (g 20)).toNat < 2 ^ 48) ∧ (jumpCtx.pair 1 (g 20)).toNat % 4 ≠ 0 ∧
      ∀ k ∈ jumpCtx.lanes, k < 1 → (jumpCtx.pair k (g 20)).toNat % 4 = 0) :=
  ⟨clear_jumps (by decide +kernel), by decide +kernel⟩

theorem witness_nopsSleepAndYield :
    Clear {} { regs := [22] } jumps jumpCtx ∧ jumpCtx.acts ≠ 0 ∧ (jumpCtx.word jumpCtx.low (g 22)).toNat = 1 ∧
    (∀ l, jumpCtx.mask.getLsbD l = true → (jumpCtx.gang.fibre l).hold = none) ∧ (jumpCtx.word jumpCtx.low (g 20)).toNat = 0 ∧
    ∃ i, jumps.issue = some i ∧ i.ready &&& ~~~jumpCtx.mask ≠ 0 :=
  ⟨clear_jumps (by decide +kernel), by decide +kernel, by decide +kernel, lanes_all (by decide +kernel), by decide +kernel, _, rfl, by decide +kernel⟩

/-- W is 512: a base of 496 is the last that fits. -/
theorem witness_windowMoves : Clear {} { regs := [24] } jumps jumpCtx ∧
    (let fits (a : Reg) (l : Nat) : Prop := (16 * (0#7).toInt + (jumpCtx.word l a).toInt) % 16 = 0 ∧
      0 ≤ ((jumpCtx.gang.fibre l).wbase + (16 * (0#7).toInt + (jumpCtx.word l a).toInt) : Int) ∧
      ((jumpCtx.gang.fibre l).wbase + (16 * (0#7).toInt + (jumpCtx.word l a).toInt) : Int) ≤ (jumpCtx.w : Int) - 16
    (∀ l ∈ jumpCtx.lanes, fits (g 24) l) ∧ 1 ∈ jumpCtx.lanes ∧ ¬fits (g 25) 1 ∧ ∀ k ∈ jumpCtx.lanes, k < 1 → fits (g 25) k) :=
  ⟨clear_jumps (by decide +kernel), by decide +kernel⟩

/-- R145: the taking lane goes to 0x2000 − 8, the other one on. -/
theorem test_bra : after (exec (.bra {} false 2 (-2)) two) (fun t => (t.gangAt 0 0).map fun a => ((a.fibre 0).pc, (a.fibre 1).pc)) =
    some (some (0x2004, 0x1ff8)) := by decide +kernel
/-- R146: the link pair g14:g15 of the taking lane. -/
theorem test_call : after (exec (.call {} false 2 1) two) (fun t => (regOf t 0 14, regOf t 1 14, (t.gangAt 0 0).map fun a => (a.fibre 1).pc)) =
    some (0, 0x2004, some 0x2004) := by decide +kernel
/-- R147, R168: 2^48 in lane 1 is cause 0x05. -/
theorem test_brx : after (exec (.brx {} (g 16)) jumps) (fun t => (t.gangAt 0 0).map fun a => (a.trapcause, a.trapaddr)) =
    some (some (0x105, 0x1000000000000)) := by decide +kernel
/-- R151: both lanes move to 496; 512 in lane 1 is cause 0x01. -/
theorem test_wbase : after (exec (.wbase {} (g 24) 0) jumps) (fun t => (t.gangAt 0 0).map fun a => (a.fibre 1).wbase) =
    some (some 496) := by decide +kernel
theorem test_wbaseTrap : after (exec (.wbase {} (g 25) 0) jumps) (fun t => (t.gangAt 0 0).map fun a => (a.trapcause, (a.fibre 0).wbase)) =
    some (some (0x101, 0)) := by decide +kernel

/-- A signal that is performed. -/
def isDone : SigOut → Bool
  | .done _ => true
  | _ => false

theorem done_of {o : SigOut} (h : isDone o = true) : ∃ u, o = .done u := by
  cases o <;> first | exact ⟨_, rfl⟩ | cases h

/-- A crew whose squad 0 has the given bins. -/
def binCrew (bs : List SpawnBin) : Crew := { placedCrew with squads := { bins := bs } :: List.replicate 3 {} }
def sixteen : List SpawnBin := (List.range 16).map fun n => { key := BitVec.ofNat 64 (4 * n + 0x8000), args := [], due := 9 }

/-- The entry 1 << 2 in lanes 0 and 1: room for it, or sixteen other bins. -/
theorem witness_spawns :
    (∀ bs, bs = [] ∨ bs = sixteen → Clear {} { regs := regsOf true (g 20) ++ [24] } (board jumpGang (binCrew bs)) (ctxOf 3 jumpGang (binCrew bs))) ∧
    (∀ l ∈ jumpCtx.lanes, (jumpCtx.pair l (g 26)).toNat < 2 ^ 48 ∧ (jumpCtx.pair l (g 26)).toNat % 4 = 0) ∧
    (placeSpawns 0 5 (fun l => jumpCtx.pair l (g 26)) (fun l => jumpCtx.word l (g 24)) [0, 1] ((binCrew []).squad 0) 0).2 = none ∧
    (placeSpawns 0 5 (fun l => jumpCtx.pair l (g 26)) (fun l => jumpCtx.word l (g 24)) [0, 1] ((binCrew sixteen).squad 0) 0).2 = some (0, 0) := by
  refine ⟨?_, by decide +kernel⟩
  rintro bs (rfl | rfl)
  · exact clear2 (board jumpGang (binCrew [])) jumpGang (binCrew []) placedLaunch (h := by decide +kernel)
  · exact clear2 (board jumpGang (binCrew sixteen)) jumpGang (binCrew sixteen) placedLaunch (h := by decide +kernel)

/-- No bin of the entry and fewer than 16; 16 of others; one of the entry with 62 fibres, and one with 63. -/
theorem witness_spawnBins :
    (∀ b ∈ ({} : Squad).bins, b.key ≠ 4) ∧ ({} : Squad).bins.length < 16 ∧
    (∀ b ∈ sixteen, b.key ≠ 4) ∧ sixteen.length ≥ 16 ∧
    (∀ n, n = 62 ∨ n = 63 → ({ bins := [{ key := 4, args := List.replicate n 0, due := 9 }] } : Squad).bins =
        [] ++ { key := 4, args := List.replicate n 0, due := 9 } :: [] ∧ (∀ o ∈ ([] ++ [] : List SpawnBin), o.key ≠ 4) ∧
        ((List.replicate n (0 : Word)).length < 63 ∨ (List.replicate n (0 : Word)).length = 63)) := by
  refine ⟨by decide, by decide, by decide, by decide, ?_⟩
  rintro n (rfl | rfl) <;> decide

/-- A gang that runs a task whose counter, of count 1, lies in the core's scratchpad. -/
def taskGang (succ : Addr) : Gang := { gang 2 [] with task := some { record := 0, succ := succ, view := 0 } }
def counterCrew : Crew := { placedCrew with scratch := [(0x100, 1)] }

theorem witness_exits :
    (∃ c, Clear { guard := some ⟨false, 2⟩ } {} two c ∧ c.acts ≠ 0 ∧ (c.gang.fibre 0).live = true ∧ c.acts.getLsbD 0 = false) ∧
    (Clear {} {} two twoCtx ∧ twoCtx.acts ≠ 0 ∧ (∀ l, l < 64 → (twoCtx.gang.fibre l).live = true → twoCtx.acts.getLsbD l = true) ∧
      twoCtx.gang.task = none) ∧
    (Clear {} {} (board (taskGang 0)) (ctxOf 3 (taskGang 0)) ∧
      ∃ k, (ctxOf 3 (taskGang 0)).gang.task = some k ∧ k.succ = 0) ∧
    (let succ : Addr := 0x2000000000000100
    Clear {} {} (board (taskGang succ) counterCrew) (ctxOf 3 (taskGang succ) counterCrew) ∧
      ∃ k u, (ctxOf 3 (taskGang succ) counterCrew).gang.task = some k ∧ k.succ ≠ 0 ∧
        (board (taskGang succ) counterCrew).signal (ctxOf 3 (taskGang succ) counterCrew).agent 0 k.succ 0 0 = .done u) := by
  refine ⟨clear_with _ (by decide +kernel), ⟨clear_two (by decide +kernel), by decide +kernel, by decide +kernel, rfl⟩,
    ⟨clear2 (board (taskGang 0)) (taskGang 0) placedCrew placedLaunch (h := by decide +kernel), _, rfl, rfl⟩,
    clear2 (board (taskGang 0x2000000000000100) counterCrew) (taskGang 0x2000000000000100) counterCrew placedLaunch (h := by decide +kernel), ?_⟩
  obtain ⟨u, hu⟩ := done_of (o := (board (taskGang 0x2000000000000100) counterCrew).signal
    (ctxOf 3 (taskGang 0x2000000000000100) counterCrew).agent 0 0x2000000000000100 0 0) (by decide +kernel)
  exact ⟨_, u, rfl, by decide, hu⟩

/-- R157, R269: the end of the gang counts its counter down. -/
theorem test_exitSignals : after (exec (.exit {}) (board (taskGang 0x2000000000000100) counterCrew))
    (fun t => ((t.gangAt 0 0).isNone, (t.crewAt 0).map fun c => c.scratch)) = some (true, some []) := by decide +kernel

/-- A gang in a trap handler of both its fibres, which it entered at 0x2345. -/
def handling : Gang := { gang 2 [] with handler := some 3, trappc := 0x2347 }
def world1 : Crew := { placedCrew with depth := 1, view := 1 }

theorem witness_trapEntry :
    (two.crewAt 0 = some { placedCrew with gangs := [(0, pair)] } ∧ Map.find [(0, pair)] 0 = some pair ∧
      two.launchOf placedCrew.launch = some placedLaunch ∧ pair.handler = none ∧ placedLaunch.rcd.handler ≠ 0) ∧
    ((board handling).crewAt 0 = some { placedCrew with gangs := [(0, handling)] } ∧ handling.handler ≠ none ∧
      placedCrew.depth = 0 ∧ placedLaunch.st ≠ .ending) ∧
    (board handling world1).crewAt 0 = some { world1 with gangs := [(0, handling)] } ∧ world1.depth ≠ 0 ∧ world1.ending = none := by
  decide +kernel

def halted : State := { two with mgmt := { State.reset.mgmt with debugHalt := 1 } }
def resumed : Gang := { gang 2 [] with fibres := (gang 2 []).fibres.map fun f => { f with arrived := true } }

theorem witness_trapInstructions :
    (Clear {} {} two twoCtx ∧ twoCtx.acts ≠ 0 ∧ (twoCtx.gang.fibre twoCtx.low).arrived = false ∧ two.mgmt.debugHalt = 0 ∧
      twoCtx.gang.handler = none) ∧
    ((∃ c, Clear {} {} halted c ∧ halted.mgmt.debugHalt ≠ 0 ∧ halted.mgmt.debugHalt = c.launch.num)) ∧
    (∃ c, Clear {} {} (board resumed) c ∧ c.acts ≠ 0 ∧ (c.gang.fibre c.low).arrived = true) ∧
    ∃ c, Clear { guard := some ⟨false, 4⟩ } {} two c ∧ c.acts = 0 :=
  ⟨⟨clear_two (by decide +kernel), by decide +kernel, by decide +kernel, rfl, rfl⟩, clear_with _ (by decide +kernel),
    clear_with _ (by decide +kernel), clear_with _ (by decide +kernel)⟩

theorem witness_trapReturn :
    (∃ c, Clear {} {} (board handling) c ∧ c.acts ≠ 0 ∧ c.gang.handler = some 3 ∧
      ∀ l, l < 64 → (3#64).getLsbD l = true → (c.gang.fibre l).live = true → c.acts.getLsbD l = true) ∧
    ∃ c, Clear { guard := some ⟨true, 0⟩ } {} (board handling) c ∧ c.acts = 0 :=
  ⟨clear_with _ (by decide +kernel), clear_with _ (by decide +kernel)⟩

/-- A gang with a deferred trap of an uncorrectable error, whose next unit is a nop marked SAFE. -/
def pended : Gang := { gang 2 [] with pending := [{ cause := 0x10, addr := 0x80, at_ := .safePoint }] }
def safeNop : Pfx := { safe := some 0 }
def safeLaunch : Launch :=
  { placedLaunch with code := (spread 0x2000 (bytesOf (encode (.nop safeNop)))).filter fun e => e.2 ≠ 0 }
def safes : State := board pended placedCrew safeLaunch

/-- A gang's next unit, with the context that it issues in, of which p holds. -/
theorem next_with (p : Issue → Instr → Pfx → UnitCtx → Prop) [∀ j u x c, Decidable (p j u x c)] {s : State} {core slot : Nat}
    (h : (nextUnit s core slot).any (fun e => e.2.pfx?.any fun x =>
      (unitCtx x { s with issue := some e.1 }).any fun c => decide (p e.1 e.2 x c)) = true) :
    ∃ j u x c, nextUnit s core slot = some (j, u) ∧ u.pfx? = some x ∧ unitCtx x { s with issue := some j } = some c ∧ p j u x c := by
  cases hn : nextUnit s core slot with
  | none => simp [hn] at h
  | some e =>
    cases hx : e.2.pfx? with
    | none => simp [hn, hx] at h
    | some x =>
      cases hc : unitCtx x { s with issue := some e.1 } with
      | none => simp [hn, hx, hc] at h
      | some c => exact ⟨e.1, e.2, x, c, rfl, hx, hc, by simpa [hn, hx, hc] using h⟩

theorem pended_holds (l : Nat) : (pended.fibre l).hold = none := by
  by_cases hl : l < 64
  · exact (by decide +kernel : ∀ l, l < 64 → (pended.fibre l).hold = none) l hl
  · rw [Gang.fibre, List.getD_eq_getElem?_getD,
      List.getElem?_eq_none (by rw [show pended.fibres.length = 64 by decide +kernel]; omega)]
    rfl

theorem witness_trapEvents :
    (Clear {} {} two twoCtx ∧ ∃ i, two.issue = some i) ∧
    ∃ i j u x c, safes.issue = some i ∧ nextUnit safes i.core i.slot = some (j, u) ∧ u.pfx? = some x ∧ x.safe ≠ none ∧
      unitCtx x { safes with issue := some j } = some c ∧ c.crew.preempt = none ∧ c.gang.handler = none ∧ c.gang.fence = none ∧
      c.gang.destWait = [] ∧ (∀ l, (c.gang.fibre l).hold = none) ∧ c.acts ≠ 0 ∧
      c.gang.pending = [{ cause := 0x10, addr := 0x80, at_ := .safePoint }] := by
  refine ⟨⟨clear_two (by decide +kernel), _, rfl⟩, ?_⟩
  obtain ⟨j, u, x, c, hn, hx, hc, hs, hg, hp, ha⟩ := next_with (s := safes) (core := 0) (slot := 0)
    (fun _ _ x c => x.safe ≠ none ∧ c.gang = pended ∧ c.crew.preempt = none ∧ c.acts ≠ 0) (by decide +kernel)
  refine ⟨_, j, u, x, c, rfl, hn, hx, hs, hc, hp, ?_⟩
  rw [hg]
  exact ⟨rfl, rfl, rfl, pended_holds, ha, rfl⟩

/-- R172: cause 0x0E; R169: to %trappc, its low bits clear, and out of the handler; R166: the deferred trap. -/
theorem test_trap : after (exec (.trap {}) two) (fun t => (t.gangAt 0 0).map fun a => (a.trapcause, a.trappc, a.handler)) =
    some (some (0x0e, 0x2000, some 3)) := by decide +kernel
theorem test_tret : after (exec (.tret {}) (board handling)) (fun t => (t.gangAt 0 0).map fun a => ((a.fibre 1).pc, a.handler)) =
    some (some (0x2344, none)) := by decide +kernel
theorem test_deferred : after (exec (.deferredTrapDelivery 0x10) safes)
    (fun t => (t.gangAt 0 0).map fun a => (a.trapcause, a.trapaddr, a.pending)) = some (some (0x10, 0x80, [])) := by decide +kernel

/-! ## Special registers and the privileged units -/

def userLaunch : Launch := { placedLaunch with rcd := { placedLaunch.rcd with flags := 0x10 } }
def specialGang : Gang := gang 2 [(0, 20, 0x003fffff), (0, 21, 0x40), (0, 24, 1)]
def specials : State := board specialGang
def specialCtx : UnitCtx := ctxOf 3 specialGang
theorem clear_specials {n : Need} (h : meets {} n specialCtx = true) : Clear {} n specials specialCtx :=
  clear2 specials specialGang placedCrew placedLaunch (h := h)

theorem witness_privilegeTraps : Clear {} {} (board pair placedCrew userLaunch) (ctxOf 3 pair placedCrew userLaunch) ∧
    (ctxOf 3 pair placedCrew userLaunch).priv = false ∧ (0x24 ≤ (0x24#8).toNat ∧ (0x24#8).toNat ≤ 0x29) ∧
    (0x24 ≤ (0x29#8).toNat ∧ (0x29#8).toNat ≤ 0x29) :=
  ⟨clear_of_meets (ctx_of rfl rfl rfl rfl (by decide +kernel) mask_two) (by decide +kernel), by decide +kernel, by decide⟩

theorem witness_specialRegisters :
    Clear {} { regs := [20] } specials specialCtx ∧ Clear {} { regs := regsOf true (g 20) } specials specialCtx ∧
    Clear {} { regs := regsOf true (g 20), priv := true } specials specialCtx ∧ specialCtx.acts ≠ 0 ∧
    (∃ c, Clear { guard := some ⟨false, 4⟩ } { regs := [20] } specials c ∧ c.acts = 0) ∧ 0x24 > (0x1f#8).toNat ∧
    Clear {} { regs := [20], priv := true } specials specialCtx :=
  ⟨clear_specials (by decide +kernel), clear_specials (by decide +kernel), clear_specials (by decide +kernel), by decide +kernel,
    clear_with _ (by decide +kernel), by decide, clear_specials (by decide +kernel)⟩

/-- Another core that holds the translation of the page to be invalidated. -/
def shot : State := { specials with cores := [(1, { tlb := [{ ctx := 0, shift := 12, vpn := 0, frame := 0, w := true, x := true, k := false }] })] }

theorem witness_tlbInvalidations :
    specialCtx.acts ≠ 0 ∧ Clear {} { regs := [], priv := true } specials specialCtx ∧
    (shootDown specialCtx.core none none (dropReadOnly 0 none none specials)).shootdowns = false ∧
    (specialCtx.word specialCtx.low (g 24)).toNat < 2 ^ 16 ∧ Clear {} { regs := [24], priv := true } specials specialCtx ∧
    Clear {} { regs := [], priv := true } shot specialCtx ∧
    (shootDown specialCtx.core none none (dropReadOnly 0 none none shot)).shootdowns = true ∧
    ∃ core, shot.cores.find 1 = some core ∧ 1 ≠ specialCtx.core ∧ core.tlb.any (shotDown none none) = true :=
  ⟨by decide +kernel, clear_specials (by decide +kernel), by decide +kernel, by decide +kernel, clear_specials (by decide +kernel),
    clear2 shot specialGang placedCrew placedLaunch (h := by decide +kernel), by decide +kernel, _, rfl, by decide, by decide +kernel⟩

theorem witness_contextQueueAndMachineCheck :
    specialCtx.acts ≠ 0 ∧ Clear {} { regs := [24], priv := true } specials specialCtx ∧
    ∃ r, specials.crews.find 0 = some r ∧ r.launch = (specialCtx.word specialCtx.low (g 24)).toNat :=
  ⟨by decide +kernel, clear_specials (by decide +kernel), _, rfl, by decide +kernel⟩

/-- R33, R35: %lane, and the reserved bits of %ctl read 0 after a write of all ones. -/
theorem test_srd : after (exec (.srd {} (g 18) false 0x08) two) (fun t => (regOf t 0 18, regOf t 1 18)) = some (0, 1) := by
  decide +kernel
theorem test_swr : after (exec (.swr {} (g 20) false 0x00) specials) (fun t => (t.gangAt 0 0).map (·.ctl)) = some (some 0x1fb) := by
  decide +kernel
/-- R104: a user launch has no machine check. -/
theorem test_mcheckTrap : after (exec (.mcheck {} (g 20)) (board pair placedCrew userLaunch))
    (fun t => (t.gangAt 0 0).map (·.trapcause)) = some (some 0x0f) := by decide +kernel

/-! ## Loads, stores and caches -/

/-- An outcome is a next state. -/
def isNext : Host.Outcome State Fault Refusal → Bool
  | .next _ => true
  | _ => false

theorem next_of {o : Host.Outcome State Fault Refusal} (h : isNext o = true) : ∃ t, o = .next t := by
  cases o <;> first | exact ⟨_, rfl⟩ | cases h

/-- g16: the last word of the scratchpad in lane 0 and offset 0x80 in lane 1; g18: memory at 0x3000 and 0x3004; g20 odd
bits, g22 path 0x6, g24 path 0x7, g26 past the scratchpad, all in lane 1; g28 a value, g30 a scratchpad line. -/
def memGang : Gang :=
  gang 2 [(0, 16, 0x7fffc), (0, 17, 0x20000000), (1, 16, 0x80), (1, 17, 0x20000000), (0, 18, 0x3000), (1, 18, 0x3004),
    (0, 20, 0x3000), (1, 20, 0x3002), (0, 22, 0x3000), (1, 23, 0x60000000), (0, 24, 0x3000), (1, 25, 0x70000000), (0, 26, 0x80),
    (0, 27, 0x20000000), (1, 26, 0x90000), (1, 27, 0x20000000), (0, 28, 0x11223344), (1, 28, 0xa5), (0, 30, 0x7ff80), (0, 31, 0x20000000), (1, 31, 0x20000000), (0, 29, 1)]
def memCrew : Crew := { placedCrew with scratch := [(0x80, 5), (0x7fffc, 7)], full := BitVec.allOnes 4096 }
def mems : State := { board memGang memCrew with mem := [(0x3000, 1), (0x3004, 2)] }
def memCtx : UnitCtx := ctxOf 3 memGang memCrew
theorem clear_mems {n : Need} (h : meets {} n memCtx = true) : Clear {} n mems memCtx :=
  clear2 mems memGang memCrew placedLaunch (h := h)

theorem mems_memoryOk : MemoryOk mems := ⟨by decide +kernel, by decide +kernel⟩

theorem witness_scratchpadLoads : Clear {} { regs := regsOf true (g 16) ++ groupOf MemKind.b32.regs (g 28) } mems memCtx ∧
    (∀ r ∈ loadReqs memCtx {} (g 16) .b32 0, pathOf r.addr = 2 ∧ zeroBitsOk r.addr = true ∧ r.addr.toNat % MemKind.b32.size = 0 ∧
      r.addr.toNat % 2 ^ 20 + MemKind.b32.size ≤ memCtx.crew.size ∧
      mems.poisoned memCtx.core memCtx.view (.pad memCtx.core (r.addr.toNat % 2 ^ 20)) MemKind.b32.size = false) ∧
    (∀ r ∈ loadReqs memCtx {} (g 16) .b32 0, memCtx.crew.full.getLsbD (r.addr.toNat % 2 ^ 20 / 128) = true) ∧
    ∃ r ∈ loadReqs memCtx {} (g 16) .b32 0, (ctxOf 3 memGang placedCrew).crew.full.getLsbD (r.addr.toNat % 2 ^ 20 / 128) = false :=
  ⟨clear_mems (by decide +kernel), by decide +kernel⟩

theorem witness_genericLoads : Clear {} { regs := regsOf true (g 18) ++ groupOf MemKind.b32.regs (g 28) } mems memCtx ∧
    MemoryOk mems ∧ memCtx.view = 0 ∧
    ∀ r ∈ loadReqs memCtx {} (g 18) .b32 0, pathOf r.addr = 0 ∧ zeroBitsOk r.addr = true ∧ r.addr.toNat % MemKind.b32.size = 0 ∧
      place mems memCtx.agent .load true r.addr r.size = .here (.mem r.addr.toNat false) ∧ r.addr.toNat % MemKind.b32.size = 0 ∧
      mems.linePoisoned memCtx.view (lineOf r.addr.toNat) = false ∧
      ∀ e ∈ (mems.coreAt (l1Owner (mems.fusedAt memCtx.launch memCtx.core) memCtx.core (lineOf r.addr.toNat))).l1,
        e.line = lineOf r.addr.toNat → e.view ≠ memCtx.view :=
  ⟨clear_mems (by decide +kernel), mems_memoryOk, by decide +kernel, by decide +kernel⟩

theorem witness_stores : Clear {} { regs := regsOf true (g 16) ++ groupOf MemKind.b32.regs (g 28) } mems memCtx ∧
    (∀ r ∈ storeReqs memCtx {} (g 16) .b32 0, pathOf r.addr = 2 ∧ zeroBitsOk r.addr = true ∧ r.addr.toNat % MemKind.b32.size = 0 ∧
      r.addr.toNat % 2 ^ 20 + MemKind.b32.size ≤ memCtx.crew.size) ∧
    Clear {} { regs := regsOf true (g 18) ++ groupOf MemKind.b32.regs (g 28) } mems memCtx ∧ memCtx.view = 0 ∧
    (∀ r ∈ storeReqs memCtx {} (g 18) .b32 0, pathOf r.addr = 0 ∧ zeroBitsOk r.addr = true ∧ r.addr.toNat % MemKind.b32.size = 0 ∧
      place mems memCtx.agent .store false r.addr r.size = .here (.mem r.addr.toNat false)) :=
  ⟨clear_mems (by decide +kernel), by decide +kernel, clear_mems (by decide +kernel), by decide +kernel, by decide +kernel⟩

/-- The byte at 0x2fff, below the stores, and the one at 0x3008, above them. -/
theorem witness_storesLeaveOtherMemory : unitCtx {} mems = some memCtx ∧ (∃ t, exec (.st {} (g 28) (g 18) .b32 0) mems = .next t) ∧
    ∀ r ∈ storeReqs memCtx {} (g 18) .b32 0, pathOf r.addr ≠ 6 ∧
      place mems memCtx.agent .store false r.addr r.size = .here (.mem r.addr.toNat false) ∧ 0x2fff < r.addr.toNat ∧
      r.addr.toNat + MemKind.b32.size ≤ 0x3008 :=
  ⟨ctx_of rfl rfl rfl rfl (live_of_two rfl) mask_two, next_of (by decide +kernel), by decide +kernel⟩

def reqs (a : Reg) : List Req := loadReqs memCtx {} a .b32 0
def firstReq (a : Reg) : Req := (reqs a).headD { lane := 0, addr := 0, size := 4 }
def lastReq (a : Reg) : Req := (reqs a).getLastD { lane := 0, addr := 0, size := 4 }

/-- In lane 1 alone: path 0x7; path 0x6 without privilege; 2 bytes off; and past the scratchpad. -/
theorem witness_accessTraps :
    (∀ a ∈ [g 20, g 22, g 24, g 26], Clear {} { regs := regsOf true a ++ groupOf MemKind.b32.regs (g 28) } mems memCtx) ∧
    (let badPath (r : Req) : Prop := pathOk 0 Cls.load true r.addr = false ∨ pathOf r.addr ≠ pathOf (accessBase memCtx {} (g 24) .b32 0 r.lane)
    Reported (reqs (g 24)) badPath (lastReq (g 24))) ∧
    (∀ q ∈ reqs (g 22), pathOk 0 Cls.load true q.addr = true) ∧ Reported (reqs (g 22)) (fun r => pathOf r.addr = 6) (lastReq (g 22)) ∧
    (∀ q ∈ reqs (g 20), pathOf q.addr = 0 ∧ pathOk 0 Cls.load true q.addr = true) ∧
    Reported (reqs (g 20)) (fun r => r.addr.toNat % MemKind.b32.size ≠ 0) (lastReq (g 20)) ∧
    (∀ q ∈ reqs (g 26), pathOf q.addr = 2 ∧ pathOk 0 Cls.load true q.addr = true ∧ q.addr.toNat % MemKind.b32.size = 0 ∧
      place mems memCtx.agent .load true q.addr q.size ≠ .broken) ∧
    Reported (reqs (g 26)) (fun r => place mems memCtx.agent .load true r.addr r.size = .fault) (lastReq (g 26)) := by
  refine ⟨?_, ⟨[firstReq (g 24)], [], by decide +kernel⟩, by decide +kernel, ⟨[firstReq (g 22)], [], by decide +kernel⟩,
    by decide +kernel, ⟨[firstReq (g 20)], [], by decide +kernel⟩, by decide +kernel, ⟨[firstReq (g 26)], [], by decide +kernel⟩⟩
  intro a ha
  refine clear_mems ?_
  revert a
  decide +kernel

/-- The last line of the scratchpad in lane 0. -/
theorem witness_linesCleared : Clear {} { regs := regsOf true (g 30) ++ [29] } mems memCtx ∧
    ∀ l ∈ memCtx.lanes, pathOf (memCtx.pair l (g 30)) = 2 ∧ zeroBitsOk (memCtx.pair l (g 30)) = true ∧
      (memCtx.pair l (g 30)).toNat % 128 = 0 ∧
      (memCtx.pair l (g 30)).toNat % 2 ^ 20 + 128 * (memCtx.word l (g 29)).toNat ≤ memCtx.crew.size :=
  ⟨clear_mems (by decide +kernel), by decide +kernel⟩

theorem witness_prefetches : Clear {} { regs := regsOf true (g 18) } mems memCtx ∧ 0 ∈ memCtx.lanes ∧
    (pathOf (memCtx.pair 0 (g 18)) = 0 ∨ pathOf (memCtx.pair 0 (g 18)) = 1) ∧ zeroBitsOk (memCtx.pair 0 (g 18)) = true ∧
    placeGeneric mems memCtx.agent .load false (memCtx.pair 0 (g 18)) = .here (.mem 0x3000 false) :=
  ⟨clear_mems (by decide +kernel), by decide +kernel⟩

/-- R184: a word of the scratchpad; R184, R9: a byte of memory, and a word stored little-endian. -/
theorem test_ldPad : after (exec (.ld {} (g 29) (g 16) .b32 0) mems) (fun t => (regOf t 0 29, regOf t 1 29)) = some (7, 5) := by
  decide +kernel
theorem test_ld : after (exec (.ld {} (g 29) (g 18) .b32 0) mems) (fun t => (regOf t 0 29, regOf t 1 29)) = some (1, 2) := by
  decide +kernel
theorem test_st : after (exec (.st {} (g 28) (g 18) .b32 0) mems) (fun t => t.mem) =
    some [(0x3000, 0x44), (0x3001, 0x33), (0x3002, 0x22), (0x3003, 0x11), (0x3004, 0xa5)] := by decide +kernel
/-- R182: a misaligned address is cause 0x04 in lane 1. -/
theorem test_misaligned : after (exec (.ld {} (g 29) (g 20) .b32 0) mems)
    (fun t => (t.gangAt 0 0).map fun a => (a.trapcause, a.trapaddr)) = some (some (0x104, 0x3002)) := by decide +kernel
/-- R189: the line of lane 0 becomes empty, and no other. -/
theorem test_feClr : after (exec (.feClr {} (g 30) (g 29)) mems) (fun t => (t.crewAt 0).map fun c => (c.full.getLsbD 4095, c.full.getLsbD 4094)) =
    some (some (false, true)) := by decide +kernel

/-! ## Atomics, fences and barriers -/

def oneGang : Gang := { memGang with fibres := (gang 1 []).fibres }
def one : State := board oneGang memCrew
def oneCtx : UnitCtx := ctxOf 1 oneGang memCrew
theorem clear_one {n : Need} (h : meets {} n oneCtx = true) : Clear {} n one oneCtx :=
  clear_of_meets (ctx_of rfl rfl rfl rfl (by decide +kernel) (by decide +kernel)) h

theorem witness_scratchpadAtomics :
    Clear {} { regs := regsOf true (g 16) ++ regsOf false (g 28) ++ regsOf false (g 29) } one oneCtx ∧ oneCtx.lanes = [0] ∧
    AtomFn.add ≠ .faddOrd ∧ AtomFn.cas ≠ .faddOrd ∧ atomPlanes oneCtx .add = [0] ∧ atomPlanes oneCtx .cas = [0] ∧
    (let at_ : Addr := oneCtx.pair 0 (g 16)
    pathOf at_ = 2 ∧ zeroBitsOk at_ = true ∧ at_.toNat % 4 = 0 ∧ at_.toNat % 2 ^ 20 + 4 ≤ oneCtx.crew.size ∧
      one.poisoned oneCtx.core oneCtx.view (.pad oneCtx.core (at_.toNat % 2 ^ 20)) 4 = false) :=
  ⟨clear_one (by decide +kernel), by decide +kernel⟩

theorem witness_atomicsComplete :
    Clear {} { regs := regsOf true (g 18) ++ regsOf false (g 28) ++ regsOf false (g 29), feature := some 5 } mems memCtx ∧
    Clear {} { regs := regsOf true (g 18) ++ regsOf false (g 28) ++ regsOf false (g 29) } mems memCtx ∧
    memCtx.view = 0 ∧ memCtx.crew.depth = 0 ∧ mems.hostFull memCtx.core = false ∧
    ∀ cls fn, (cls, fn) ∈ [(Cls.atom, AtomFn.add), (.ordAdd, .faddOrd)] →
      ∀ r ∈ atomReqs memCtx (g 18) fn false, pathOk 0 cls false r.addr = true ∧ pathOf r.addr = pathOf (memCtx.pair r.lane (g 18)) ∧
        r.addr.toNat % atomSize false = 0 ∧ place mems memCtx.agent .store false r.addr r.size = .here (.mem r.addr.toNat false) ∧
        0x2fff < r.addr.toNat := by
  refine ⟨clear_mems (by decide +kernel), clear_mems (by decide +kernel), by decide +kernel, by decide +kernel, by decide +kernel, ?_⟩
  intro cls fn h
  simp only [List.mem_cons, Prod.mk.injEq, List.not_mem_nil, or_false] at h
  rcases h with ⟨rfl, rfl⟩ | ⟨rfl, rfl⟩ <;> decide +kernel

/-- R192: 7 + 0x11223344 in the last word of the scratchpad, which lane 0 gets. -/
theorem test_atom : after (exec (.atom32 {} (g 29) (g 16) (g 28) .add) one)
    (fun t => (regOf t 0 29, (t.crewAt 0).map fun c => c.scratch.get 0 0x7fffc)) = some (7, some 0x4b) := by decide +kernel

def fenced (cl : Nat) : Gang :=
  { gang 2 [] with fence := some { kind := .full, scope := .crew, paths := 0, closes := cl, upTo := 0
                                   back := { fibres := [], regs := [], layouts := [], ctl := 0, bankdeg := 0, tanstride := 0, handler := none } } }

/-- A gang whose next phase value a slice still has an entry of. -/
def busy : State :=
  { two with slices := { closes := [{ dest := 0, gang := 0, phase := 1, close := some 1 }] } }

theorem witness_fences :
    (Clear {} {} two twoCtx ∧ twoCtx.acts ≠ 0 ∧ phaseBusy two twoCtx.gang = false) ∧
    (Clear {} {} busy twoCtx ∧ phaseBusy busy twoCtx.gang = true) ∧
    (∃ c, Clear { guard := some ⟨false, 4⟩ } {} two c ∧ c.acts = 0) ∧
    ∀ cl r, (cl, r) ∈ [(0, true), (1, false)] →
      (board (fenced cl)).crewAt 0 = some { placedCrew with gangs := [(0, fenced cl)] } ∧ (fenced cl).fence.isSome = true ∧
      (fenced cl).late = none ∧
      (fenced cl).fence.map (fenceReady { placedCrew with gangs := [(0, fenced cl)] } 0 (fenced cl)) = some r :=
  ⟨⟨clear_two (by decide +kernel), by decide +kernel, by decide +kernel⟩,
    ⟨clear_of_meets (ctx_of rfl rfl rfl rfl (by decide +kernel) mask_two) (by decide +kernel), by decide +kernel⟩,
    clear_with _ (by decide +kernel), by
      intro cl r h
      simp only [List.mem_cons, Prod.mk.injEq, List.not_mem_nil, or_false] at h
      rcases h with ⟨rfl, rfl⟩ | ⟨rfl, rfl⟩ <;> decide +kernel⟩

/-- Arrivals at, and one short of, the expected count; bytes one short of the expected ones. -/
theorem witness_barrierCheck :
    (let b (arr by_ : Nat) : Barrier := { arr := arr, expc := 4, bytes := by_, expb := 8 }
    ((b 4 8).expc ≤ (b 4 8).arr ∧ (b 4 8).expb ≤ (b 4 8).bytes) ∧ (b 3 8).arr < (b 3 8).expc ∧ (b 4 7).bytes < (b 4 7).expb ∧
      (b 4 8).bytes + 1 < 2 ^ 32) := by decide

/-- Counts of 1, 4096, 0 and 4097. -/
def barGang : Gang := gang 2 [(0, 16, 1), (0, 17, 4096), (0, 18, 0), (0, 19, 4097)]

theorem witness_barrierUnits :
    Clear {} { regs := [16] } (board barGang) (ctxOf 3 barGang) ∧ (ctxOf 3 barGang).acts ≠ 0 ∧
    (31 : BitVec 5).toNat < (ctxOf 3 barGang).crew.barriers.length ∧
    (board barGang).poisoned 0 0 (.bar 0 (0x80000 + 16 * 31)) 16 = false ∧
    (let w (a : Reg) : Nat := ((ctxOf 3 barGang).word (ctxOf 3 barGang).low a).toNat
    (1 ≤ w (g 16) ∧ w (g 17) ≤ 4096 ∧ w (g 18) < 1 ∧ 4096 < w (g 19))) ∧
    (∀ l ∈ (ctxOf 3 barGang).lanes, ((ctxOf 3 barGang).gang.fibre l).arrived = false) ∧
    phaseBusy (board barGang) barGang = false ∧
    (let b : Barrier := (ctxOf 3 barGang).crew.barrier 31
    ({ b with expc := 2, arr := b.arr + 2 }.check.ph ≠ b.ph ∧ { b with expc := 3, arr := b.arr + 2 }.check.ph = b.ph)) ∧
    ((ctxOf 3 barGang).crew.barrier 31).ph ≠ true ∧ ((ctxOf 3 barGang).crew.barrier 31).ph = barGang.wp.getLsbD 31 :=
  ⟨clear2 (board barGang) barGang placedCrew placedLaunch (h := by decide +kernel), by decide +kernel⟩

theorem witness_collectiveArrivals :
    Clear {} { feature := some 5 } two twoCtx ∧ (∀ l ∈ twoCtx.lanes, (twoCtx.gang.fibre l).hold = none) ∧
    Clear {} { feature := some 2 } two twoCtx ∧ twoCtx.acts ≠ 0 ∧ twoCtx.launch.rcd.flags.getLsbD 3 = false ∧
    (let l : Launch := { placedLaunch with rcd := { placedLaunch.rcd with flags := 0x19 } }
    Clear {} { feature := some 2 } (board (gang 2 []) placedCrew l) (ctxOf 3 (gang 2 []) placedCrew l) ∧
      l.rcd.flags.getLsbD 3 = true ∧ placedCrew.depth = 0 ∧ phaseBusy (board (gang 2 []) placedCrew l) (gang 2 []) = false) :=
  ⟨clear_two (by decide +kernel), by decide +kernel, clear_two (by decide +kernel), by decide +kernel, by decide +kernel,
    clear2 (board (gang 2 []) placedCrew { placedLaunch with rcd := { placedLaunch.rcd with flags := 0x19 } }) (gang 2 []) placedCrew
      { placedLaunch with rcd := { placedLaunch.rcd with flags := 0x19 } } (h := by decide +kernel), by decide +kernel⟩

/-- R204: two arrivals of 2 flip the phase, and the barrier starts again. -/
theorem test_barArrive : after (exec (.barArrive {} (g 16) 0) (board (gang 2 [(0, 16, 2)]))) (fun t => (t.crewAt 0).map fun c => c.barrier 0) =
    some (some { arr := 0, expc := 2, ph := true }) := by decide +kernel

/-! ## Layouts, tiles and the matrix engine -/

/-- 64 words in a row; two rows of two words; and a layout that no engine accepts. -/
def row : Lay := { ext := [64, 1, 1, 1, 1, 1], step := [1, 0, 0, 0, 0, 0], nmode := 1, ew := 5, die := 0xff, circ := 0, perm := List.replicate 4 (0, 0) }
def square : Lay := { row with ext := [2, 2, 1, 1, 1, 1], step := [1, 2, 0, 0, 0, 0], nmode := 2 }

/-- l0 is the square, l1 the row, l2 nothing; g16 is offset 0x100, g18 the value 0x202. -/
def layGang (n : Nat) : Gang :=
  { gang n [(0, 16, 0x100), (0, 17, 0x20000000), (1, 16, 0x100), (1, 17, 0x20000000), (0, 18, 0x0204)] with
    layouts := [(0, square.image 0), (1, row.image 0)] }
def padCrew : Crew := { placedCrew with scratch := [(0x100, 0xab), (0x104, 0xcd)], b0 := { valid := true, issueValid := true } }
def lays : State := board (layGang 2) padCrew
def layCtx : UnitCtx := ctxOf 3 (layGang 2) padCrew
theorem clear_lays {n : Need} (h : meets {} n layCtx = true) : Clear {} n lays layCtx :=
  clear2 lays (layGang 2) padCrew placedLaunch (h := h)

theorem witness_layouts : Clear {} { regs := regsOf true (g 16) } lays layCtx ∧ Clear {} { regs := [18] } lays layCtx ∧
    layCtx.acts ≠ 0 ∧
    (let at_ : Addr := layCtx.pair layCtx.low (g 16) + BitVec.ofInt 64 ((-4 : BitVec 11).toInt * 64)
    pathOf at_ = 2 ∧ zeroBitsOk at_ = true ∧ at_.toNat % 64 = 0 ∧ at_.toNat % 2 ^ 20 + 64 ≤ layCtx.crew.size ∧
      lays.poisoned layCtx.core layCtx.view (.pad layCtx.core (at_.toNat % 2 ^ 20)) 64 = false) ∧
    (row.ext.length = 6 ∧ row.step.length = 6 ∧ row.nmode ≤ 6) ∧
    (2 ≤ 2 ∧ row.ext.getD 0 0 % 2 = 0 ∧ 0 < row.nmode ∧ row.nmode < 6 ∧ row.circ.getLsbD 0 = false ∧ row.die ≠ 0 ∧ row.fits = true ∧
      -(2 ^ 31 : Int) ≤ row.step.getD 0 0 * (row.ext.getD 0 0 / 2 : Nat) ∧ row.step.getD 0 0 * (row.ext.getD 0 0 / 2 : Nat) < 2 ^ 31) ∧
    (1 < 2 ∧ row.nmode ≤ 1) ∧ (0 < square.nmode ∧ 1 < square.nmode) ∧
    (0 + 1 < square.nmode ∧ square.step.getD 1 0 = square.step.getD 0 0 * (square.ext.getD 0 0 : Nat) ∧
      square.ext.getD 0 0 * square.ext.getD 1 0 ≤ 65535 ∧ square.circ.getLsbD 0 = false ∧ square.circ.getLsbD 1 = false ∧
      square.die ≠ 0 ∧ square.die ≠ 1) ∧ row.nmode ≤ 0 + 1 :=
  ⟨clear_lays (by decide +kernel), clear_lays (by decide +kernel), by decide +kernel⟩

theorem witness_tiles : Clear {} { regs := regsOf true (g 16) ++ [64] } lays layCtx ∧ layCtx.acts ≠ 0 ∧
    (let lay : Lay := Lay.of (layCtx.gang.layout 1)
    let base : Addr := layCtx.pair layCtx.low (g 16)
    (Lay.of (layCtx.gang.layout 2)).accepted .lane (pathOf base) = false ∧
    lay.accepted .lane 2 = true ∧ pathOf base = 2 ∧ base.toNat % lay.align = 0 ∧ lay.tileBits / 2048 = 1 ∧
    (64 + 1 ≤ 128 ∧ ∀ l ∈ layCtx.lanes, inAllocation layCtx.w (layCtx.gang.fibre l).wbase 64 = true) ∧
    (∀ p ∈ lay.tile base, (pathOf p.addr = 2 ∧ zeroBitsOk p.addr = true ∧ p.addr.toNat % 2 ^ 20 + p.size ≤ layCtx.crew.size) ∧
      lays.poisoned layCtx.core layCtx.view (.pad layCtx.core (p.addr.toNat % 2 ^ 20)) p.size = false)) :=
  ⟨clear_lays (by decide +kernel), by decide +kernel⟩

/-- R218: word 1 of the tile goes to lane 1; R212: the row in two of 32. -/
theorem test_ltile : after (exec (.ltile {} (g 64) (g 16) 1) lays) (fun t => (regOf t 0 64, regOf t 1 64)) = some (0xab, 0xcd) := by
  decide +kernel
theorem test_lpart : after (exec (.lpart {} 3 1 (g 18)) (board { layGang 2 with regs := [(regKey 0 18 0, 0x200)] }))
    (fun t => (t.gangAt 0 0).map fun a => (Lay.of (a.layout 3)).ext.take 2) = some (some [32, 2]) := by decide +kernel

def mat64 : State := board (layGang 64) padCrew
def matCtx : UnitCtx := ctxOf (BitVec.allOnes 64) (layGang 64) padCrew
theorem clear_mat {n : Need} (h : meets {} n matCtx = true) : Clear {} n mat64 matCtx :=
  clear64 mat64 (layGang 64) padCrew placedLaunch (h := h)

def checkOk : EngineCheck → Bool
  | .ok => true
  | _ => false

theorem ok_of {o : EngineCheck} (h : checkOk o = true) : o = .ok := by
  cases o <;> first | rfl | cases h

/-- A crew whose matrix queue is full, and one whose tile 0 is at version 1. -/
def fullCrew : Crew :=
  { padCrew with matq := List.replicate 32 { op := .zero 0 1, num := 0, slot := 0, pc := 0, view := 0 } }

theorem witness_loadB : Clear {} { regs := regsOf true (g 16), collective := true } mat64 matCtx ∧ waited matCtx = false ∧
    (let lay : Lay := Lay.of (matCtx.gang.layout 0)
    shapeOk (Lay.of (matCtx.gang.layout 2)) .fp32 .bload (pathOf (matCtx.pair 0 (g 16))) (384 / MFmt.fp32.cells) = false ∧
    shapeOk lay .fp32 .bload (pathOf (matCtx.pair 0 (g 16))) (384 / MFmt.fp32.cells) = true ∧
    tileCheck matCtx mat64 lay .fp32 (fun p => decide (p ≤ 2)) [matCtx.pair 0 (g 16)] = .ok) ∧
    matCtx.crew.matq.length < 32 ∧ 32 ≤ (ctxOf (BitVec.allOnes 64) (layGang 64) fullCrew).crew.matq.length ∧
    Clear {} { regs := regsOf true (g 16), collective := true } (board (layGang 64) fullCrew) (ctxOf (BitVec.allOnes 64) (layGang 64) fullCrew) :=
  ⟨clear_mat (by decide +kernel), by decide +kernel, ⟨by decide +kernel, by decide +kernel, ok_of (by decide +kernel)⟩,
    by decide +kernel, by decide +kernel, clear64 (board (layGang 64) fullCrew) (layGang 64) fullCrew placedLaunch (h := by decide +kernel)⟩

/-- Eight crews of one launch in a cluster. -/
def eight : State := { mat64 with crews := (List.range 8).map fun n => (n, { padCrew with gangs := [(0, layGang 64)] }) }

/-- The versions expected: the one reached, 2^15 past it, and one before it. -/
theorem witness_multiplyIssue : Clear {} { regs := regsOf true (g 16) ++ [20], collective := true } mat64 matCtx ∧
    (matCtx.gang.fibre 0).hold = none ∧
    (let lay : Lay := Lay.of (matCtx.gang.layout 0)
    shapeOk lay .fp32 .afeed (pathOf (matCtx.pair 0 (g 16))) 128 = true ∧ readsTangents matCtx = false ∧
    tileCheck matCtx mat64 lay .fp32 (fun p => p == 2) [matCtx.pair 0 (g 16)] = .ok) ∧
    (∃ n, slotCheck matCtx (mmaCtl {}) 0 .fp32 = .inl n ∧ 0 ∈ writtenTiles matCtx 0 n ∧
      (let far (e : BitVec 16) : Prop := 2 ^ 15 < (e - matCtx.crew.vrOf 0).toNat
      far 0x8001 ∧ ¬far 0x8000 ∧ matCtx.crew.vrOf 0 ≠ 0x8000) ∧
      (∀ t ∈ writtenTiles matCtx 0 n, t < 24 → matCtx.crew.vrOf t = (matCtx.word 0 (g 20)).setWidth 16) ∧
      tangentCheck matCtx (mmaCtl {}) 0 n = none) ∧ matCtx.crew.matq.length < 32 ∧
    ∃ c, Clear {} { regs := regsOf true (g 16) ++ [20], collective := true } eight c ∧ coopLegal c eight = true :=
  ⟨clear_mat (by decide +kernel), by decide +kernel, ⟨by decide +kernel, by decide +kernel, ok_of (by decide +kernel)⟩,
    ⟨8, by rfl, by decide +kernel, by decide +kernel, by decide +kernel, by decide +kernel⟩, by decide +kernel, clear_with _ (by decide +kernel)⟩

theorem witness_otherMatrixUnits :
    Clear {} { regs := regsOf true (g 16) ++ [20], collective := true } mat64 matCtx ∧ mscaDest (matCtx.word 0 (g 20)) ≤ 23 ∧
    mscaDest 0x00170000 = 23 ∧ matCtx.crew.matq.length < 32 ∧
    engineCheck mat64 matCtx.agent (fun p => decide (p ≤ 2)) (fun _ => true) (fun _ => (matCtx.pair 0 (g 16)).toNat % 16 == 0)
      ((List.range (scaleBytes .colE8)).map fun j => { lane := 0, idx := j, addr := matCtx.pair 0 (g 16) + BitVec.ofNat 64 j, size := 1 }) = .ok ∧
    matCtx.crew.vrOf 0 = (matCtx.word 0 (g 20)).setWidth 16 ∧ Clear {} { collective := true } mat64 matCtx ∧
    Clear {} { regs := 20 :: regsOf true (g 22) } mat64 matCtx ∧ matCtx.acts ≠ 0 ∧ (∀ l ∈ matCtx.lanes, selTile (matCtx.word l (g 20)) ≤ 23) ∧
    Clear {} { regs := [20] } mat64 matCtx ∧ (matCtx.crew.vcOf 0 - 0).toNat < 2 ^ 15 ∧ (matCtx.crew.vcOf 0 - 0x8001).toNat < 2 ^ 15 ∧
    2 ^ 15 ≤ (matCtx.crew.vcOf 0 - 0x8000).toNat :=
  ⟨clear_mat (by decide +kernel), by decide +kernel, by decide, by decide +kernel, ok_of (by decide +kernel), by decide +kernel,
    clear_mat (by decide +kernel), clear_mat (by decide +kernel), by decide +kernel, by decide +kernel, clear_mat (by decide +kernel),
    by decide +kernel, by decide +kernel, by decide +kernel⟩

/-- A crew with one command in its queue. -/
def queued (op : MatOp) (lead : Option ATile := none) : Crew :=
  { padCrew with matq := [{ op := op, lead := lead, num := 0, slot := 0, pc := 0x2000, view := 0 }] }
def queuedOn (op : MatOp) (lead : Option ATile := none) : State := board (layGang 64) (queued op lead)

theorem head_of (op : MatOp) (lead : Option ATile) :
    HeadCmd 0 (queuedOn op lead) { queued op lead with gangs := [(0, layGang 64)] }
      { op := op, lead := lead, num := 0, slot := 0, pc := 0x2000, view := 0 }
      { core := 0, launch := 1, ctx := 0, priv := true } := by
  constructor <;> rfl

def squareAt : Addr := 0x2000000000000100

theorem witness_matrixCompletes :
    (MFmt.fp32.block * (Lay.of (square.image 0)).extOf 0 ≤ 384 ∧
      engineRead (queuedOn (.loadB 1 squareAt (square.image 0) .fp32)) { core := 0, launch := 1, ctx := 0, priv := true } 0
        (tileAddrs (Lay.of (square.image 0)) .fp32 squareAt) = .ok) ∧
    (let op : MatOp := .multiply false 23 1 squareAt (square.image 0) 0 .fp32 32 false ⟨.implicit, 0, false⟩ 0 0 true
    23 + 1 * (1 + 0) ≤ 24 ∧
    engineRead (queuedOn op) { core := 0, launch := 1, ctx := 0, priv := true } 0
      (aAddrs (Lay.of (square.image 0)) .fp32 squareAt 0 (planesOf ⟨.implicit, 0, false⟩ 0)) = .ok ∧
    ((queued op).slotB 0).valid = true ∧ (passList ⟨.implicit, 0, false⟩ 0).any (fun q => q.2.1) = false ∧ 31 < 32 ∧ 31 < 128 ∧
    ∃ a, (queuedOn op).gangAt 0 0 = some a ∧ a.born ≤ 0) ∧
    (let a : ATile := { fmt := .fp32, kdim := 32, waitFull := false, rows := 128, cols := 32, planes := [[]] }
    a.rows ≤ 128 ∧ a.bad = none) ∧
    ((Lay.of (square.image 0)).accepted .afeed 2 = true) := by
  refine ⟨⟨by decide +kernel, by decide +kernel⟩, ⟨by decide, by decide +kernel, by decide +kernel, by decide +kernel, by decide, by decide, _, rfl, by decide +kernel⟩,
    by decide, by decide +kernel⟩

/-- Row 5 of the slot in error, of 32 that are read; rows 32 and 127, which are not. -/
theorem witness_parityErrors : (∃ r ∈ ({ badRows := [5] } : BSlot).badRows, r < 32) ∧ ¬(∃ r ∈ ({ badRows := [32] } : BSlot).badRows, r < 32) ∧
    (∃ row, 32 ≤ row ∧ row < 128 ∧ some (0 * 128 + 127) = some (0 * 128 + row) ∧ [127] = [row]) ∧
    (∀ r ∈ (padCrew.slotB 0).badRows, 32 ≤ r) ∧ (padCrew.slotB 0).valid = true := by
  refine ⟨by decide, by decide, ⟨127, by decide⟩, by decide, by decide⟩

/-- A slot of which one element is a NaN: fp32 1 in A at row 0 meets it. -/
def nanSlot : BSlot := { valid := true, issueValid := true, cells := [(0 * 384 + 3, 0x7fc00000)] }
def nanOp (record : Bool) : MatOp := .multiply false 2 1 squareAt (square.image 0) 0 .fp32 32 false ⟨.implicit, 0, false⟩ 0 0 record
def nanCrew (record : Bool) : Crew := { queued (nanOp record) with b0 := nanSlot, b1 := { valid := true } }
def nanState (record : Bool) : State := board (layGang 64) (nanCrew record)

def who : Agent := { core := 0, launch := 1, ctx := 0, priv := true }

theorem witness_nansRecorded : (∀ r, HeadCmd 0 (nanState r) { nanCrew r with gangs := [(0, layGang 64)] }
      { op := nanOp r, num := 0, slot := 0, pc := 0x2000, view := 0 } who) ∧
    2 + 1 * (1 + 0) ≤ 24 ∧ (0x2000 : Addr).toNat < 2 ^ 48 ∧ (nanState true).gangAt 0 0 = some (layGang 64) ∧ (layGang 64).born ≤ 0 ∧
    engineRead (nanState true) who 0 (aAddrs (Lay.of (square.image 0)) .fp32 squareAt 0 (planesOf ⟨.implicit, 0, false⟩ 0)) = .ok ∧
    (∀ i, i < 2 → ((nanCrew true).slotB i).valid = true ∧ ((nanCrew true).slotB i).badRows = []) ∧
    (layGang 64).lastnan.getLsbD 95 = false ∧
    (let a : ATile := readATile (engineByte (nanState true) who 0) (Lay.of (square.image 0)) .fp32 32 false squareAt 0
      (planesOf ⟨.implicit, 0, false⟩ 0) none
    a.rows ≤ 128 ∧ (runPasses { nanCrew true with gangs := [(0, layGang 64)] } a 0 2 1 0 ⟨.implicit, 0, false⟩).nan = some (0, 3)) := by
  refine ⟨fun r => ?_, by decide, by decide, rfl, by decide +kernel, by decide +kernel, by decide, by decide, by decide +kernel⟩
  cases r <;> constructor <;> rfl

/-- R239: the first NaN is at row 0 and column 3 of tile 2, whose version becomes 1. -/
theorem test_lastnan : after (exec (.mmaComplete 0 none false) (nanState true)) (fun t => (t.gangAt 0 0).map fun a =>
    (a.lastnan, a.pending.map (·.cause))) = some (some (0x00000001820000030000000000002000, [0x0b])) := by decide +kernel

/-- mma.c stands at the heads of all eight cores. -/
def coopAll : State :=
  { queuedOn (.zero 0 1) with crews := (List.range 8).map fun n =>
      (n, { queued (.multiply true 0 1 squareAt (square.image 0) 0 .fp32 32 false ⟨.implicit, 0, false⟩ 0 0 true) with gangs := [(0, layGang 64)] }) }

theorem witness_cooperativeStep : (∀ i, i < 8 → (coopHead coopAll (0 * 8 + i)).isSome = true) ∧
    (coopAll.crewAt 0).isSome = true ∧ (coopAll.agentAt 0).isSome = true ∧ coopPlanes coopAll ((List.range 8).map fun i => 0 * 8 + i) = 0 ∧
    (coopAll.agentAt 0).map (fun w => engineRead coopAll w 0 (aAddrs (Lay.of (square.image 0)) .fp32 squareAt 0 0)) = some .ok := by
  decide +kernel

theorem witness_otherCommands :
    (∀ op, op = .scale 0 1 squareAt .colE8 true true ∨ op = .zero 0 24 ∨ op = .read .ae48 .rne [(0, 0)] [(0, [regKey 0 20 0, regKey 0 21 0])] ∨
        op = .write .ae48 [(0, 0)] [(0, 1)] [0] ∨ op = .stat 23 [(0, [regKey 0 20 0])] →
      HeadCmd 0 (queuedOn op) { queued op with gangs := [(0, layGang 64)] } { op := op, num := 0, slot := 0, pc := 0x2000, view := 0 }
        { core := 0, launch := 1, ctx := 0, priv := true } ∧ (queuedOn op).issuer 0 0 0 = some (layGang 64)) ∧
    engineRead (queuedOn (.scale 0 1 squareAt .colE8 true true)) { core := 0, launch := 1, ctx := 0, priv := true } 0
      ((List.range (scaleBytes .colE8)).map fun j => squareAt + BitVec.ofNat 64 j) = .ok ∧
    ([((0 : Nat), (0 : Word))].map Prod.fst).Nodup ∧ ([((0 : Nat), [regKey 0 20 0, regKey 0 21 0])].flatMap Prod.snd).Nodup ∧ [0].Nodup :=
  ⟨fun op _ => ⟨head_of op none, rfl⟩, by decide +kernel⟩

/-- R230, R219: mma enters the queue and reserves its tiles; R238: mver of an unwritten tile. -/
theorem test_mma : after (exec (.mma {} 0 (g 16) (g 20) .fp32) mat64)
    (fun t => (t.crewAt 0).map fun c => (c.matq.length, c.vrOf 0, c.vrOf 8)) = some (some (1, 1, 0)) := by decide +kernel

/-! ## Copies, queues and streams -/

/-- A shape record of four fp32 elements at 0x3000, and a counter of count 2 at 0x2000000000000200. -/
def shapeBytes : List Byte :=
  bytesOfNat 8 0x3000 ++ [0, 1, 0, 0] ++ List.replicate 20 0 ++ bytesOfNat 4 4 ++ List.replicate 20 0 ++ bytesOfNat 8 4 ++
    List.replicate 32 0 ++ bytesOfNat 2 4 ++ List.replicate 30 0

/-- g16: the shape at 0x2000000000000080; g18: the counter; g20..g27: the block; g28: 0. -/
def copyGang : Gang :=
  gang 2 [(0, 16, 0x80), (0, 17, 0x20000000), (0, 18, 0x200), (0, 19, 0x20000000), (0, 26, 0x200), (0, 27, 0x20000000)]
def copyScratch : Mem := ((spread 0x80 shapeBytes).filter fun e => e.2 ≠ 0) ++ [(0x200, 2)]
def copyOp (n : Nat) (run : Bool) (ws : List CopyWrite) (view : Nat := 0) : CopyOp :=
  { num := n, slot := 0, store := false, multicast := none, shape := 0x2000000000000080, image := some shapeBytes, fail := none,
    origin := [0, 0, 0, 0, 0], offset := 0x400, counter := 0x2000000000000200, xf := 0, seed := 0, view := view, running := run, writes := ws }
def copyCrew (os : List CopyOp) : Crew := { placedCrew with scratch := copyScratch, copies := os }
def copies (os : List CopyOp) : State := { board copyGang (copyCrew os) with mem := [(0x3000, 9)] }
def copyCtx (os : List CopyOp) : UnitCtx := ctxOf 3 copyGang (copyCrew os)

def isGot : RecordRead → Bool
  | .got _ _ => true
  | _ => false

theorem got_of {o : RecordRead} (h : isGot o = true) : ∃ i f, o = .got i f := by
  cases o <;> first | exact ⟨_, _, rfl⟩ | cases h

theorem witness_copyIssue :
    (∀ os, os = [] ∨ os = List.replicate 16 (copyOp 0 false []) →
      Clear {} { regs := (List.range 6).map (20 + ·) ++ regsOf true (g 16) ++ regsOf true (g 18) } (copies os) (copyCtx os) ∧
      Clear {} { regs := (List.range 8).map (20 + ·) ++ regsOf true (g 16) ++ regsOf true (g 18) } (copies os) (copyCtx os)) ∧
    (copyCtx []).acts ≠ 0 ∧ (copyCtx []).crew.copies.length < 16 ∧ 16 ≤ (copyCtx (List.replicate 16 (copyOp 0 false []))).crew.copies.length ∧
    (∃ i f, readShape (copies []) (copyCtx []).agent 0 ((copyCtx []).pair 0 (g 16)) = .got i f) ∧
    (copyCtx []).pair 0 (g 28) = 0 ∧ (copyCtx []).pair 0 (g 18) ≠ 0 ∧ (copyCtx []).crew.depth = 0 ∧ world1.depth ≠ 0 ∧
    ∃ u, (copies []).signal (copyCtx []).agent 0 ((copyCtx []).gang.reg 0 0 27 ++ (copyCtx []).gang.reg 0 0 26) 0 0 = .done u := by
  refine ⟨?_, by decide +kernel, by decide +kernel, by decide +kernel, got_of (by decide +kernel), by decide +kernel, by decide +kernel,
    by decide +kernel, by decide, done_of (by decide +kernel)⟩
  rintro os (rfl | rfl) <;>
    exact ⟨clear2 (copies _) copyGang (copyCrew _) placedLaunch (h := by decide +kernel),
      clear2 (copies _) copyGang (copyCrew _) placedLaunch (h := by decide +kernel)⟩

def copyAgent : Agent := { core := 0, launch := 1, ctx := 0, priv := true }

/-- Three copies in flight and one that waits; the same with a box outside its tensor, of which nothing is read, and with
an offset that its format does not hold. -/
theorem witness_copyStarts :
    (let waits : CopyOp := copyOp 1 false []
    let os : List CopyOp := List.replicate 3 (copyOp 0 true []) ++ [waits]
    let beyond : CopyOp := { waits with origin := [4, 0, 0, 0, 0] }
    nextCopy (copyCrew os) = some waits ∧ (copies os).agentAt 0 = some copyAgent ∧
    counterPlace (copies os) copyAgent .engineWrite 0x2000000000000200 = .at_ (.pad 0 0x200) ∧
    copiesHeld (copies os) copyAgent (copyCrew os) 4 = false ∧ os.length = 4 ∧
    checkCopy (copies os) copyAgent 0 waits (waits.job shapeBytes) = .ok ∧ (waits.job shapeBytes).reads ≠ [] ∧
    checkCopy (copies os) copyAgent 0 beyond (beyond.job shapeBytes) = .ok ∧ (beyond.job shapeBytes).reads = [] ∧
    checkCopy (copies os) copyAgent 0 { waits with offset := 8 } (waits.job shapeBytes) =
      .fail 4 0x2000000000000008) := by decide +kernel

/-- Two elements in one line and one in the next; then that one alone, the last. -/
def halfRead (as : List (List Addr)) : CopyOp := { copyOp 0 true [] with toRead := as }
def lastEl : List Addr := [0x3080, 0x3081, 0x3082, 0x3083]

theorem witness_copyReads :
    (∀ o, o = halfRead [[0x3000, 0x3001], [0x3002], lastEl] ∨ o = halfRead [lastEl] →
      (copies [o]).agentAt 0 = some copyAgent ∧ o.image = some shapeBytes ∧ o.running = true ∧ o.planned = false ∧
      copiesHeld (copies [o]) copyAgent (copyCrew [o]) 1 = false) ∧
    engineRead (copies [halfRead []]) copyAgent 0 [0x3000, 0x3001, 0x3002] = .ok ∧
    engineRead (copies [halfRead []]) copyAgent 0 lastEl = .ok ∧
    (let o : CopyOp := { halfRead [] with got := lastEl.map fun a => (a.toNat, 0) }
    checkCopy ((copies [halfRead [lastEl]]).modCopy 0 0 fun _ => o) copyAgent 0 o (o.job shapeBytes) = .ok) := by
  refine ⟨?_, by decide +kernel⟩
  rintro o (rfl | rfl) <;> decide +kernel

/-- A copy whose read side is read. -/
def landing (n : Nat) (ws : List CopyWrite) : CopyOp := { copyOp n true ws with planned := true }

/-- A line in the scratchpad, one of memory and one of the host window, the second copy blocked by the first; and a line
for a saved crew of the launch on core 1. -/
theorem witness_copyLines :
    (∀ w, w = CopyWrite.pad 0 4095 [(0x7ff80, 1)] true (some 31) ∨ w = .mem 96 [(0x3000, 1)] ∨ w = .host 0 [(0, 1)] →
      (copies [landing 0 [w]]).crewAt 0 = some { copyCrew [landing 0 [w]] with gangs := [(0, copyGang)] } ∧
      copiesHeld (copies [landing 0 [w]]) copyAgent (copyCrew [landing 0 [w]]) 1 = false ∧ w.holds (copies [landing 0 [w]]) 1 = false ∧
      (copyCrew [landing 0 [w]]).copies[0]? = some (landing 0 [w]) ∧
      (copyCrew [landing 0 [w], landing 1 [w]]).copies[1]? = some (landing 1 [w]) ∧
      ∃ p ∈ (copyCrew [landing 0 [w], landing 1 [w]]).copies.take 1, ∃ v ∈ p.writes, v.line = w.line) ∧ 4095 < 4096 ∧
    (let away : Parked := { id := 5, crew := placedCrew, core := 1, bound := true, why := .saved }
    (CopyWrite.pad 1 0 [(0, 1)] true none).holds { copies [] with parked := [away] } 1 = true) := by
  refine ⟨?_, by decide, by decide +kernel⟩
  rintro w (rfl | rfl | rfl) <;>
    exact ⟨rfl, by decide +kernel, by decide +kernel, rfl, rfl, _, .head _, _, .head _, rfl⟩

theorem witness_copyEnds :
    (copies [landing 0 []]).agentAt 0 = some copyAgent ∧ (copyCrew [landing 0 []]).copies[0]? = some (landing 0 []) ∧
    copiesHeld (copies [landing 0 []]) copyAgent (copyCrew [landing 0 []]) 1 = false ∧
    (landing 0 []).planned = true ∧ (landing 0 []).writes = [] ∧ (landing 0 []).acks = 0 ∧ (copyOp 0 true []).planned = false ∧
    ∃ u, (copies [landing 0 []]).signal copyAgent 0 0x2000000000000200 0 0 = .done u :=
  ⟨by decide +kernel, rfl, by decide +kernel, rfl, rfl, rfl, rfl, done_of (by decide +kernel)⟩

/-- A count that stays above 0, and one that reaches 0 with no successor. -/
theorem witness_counterSignals :
    (copies []).crewAt copyAgent.core = some { copyCrew [] with gangs := [(0, copyGang)] } ∧ (copyCrew []).launch = copyAgent.launch ∧
    (copies []).isAwaiting 0 0x2000000000000200 = false ∧ (copies []).poisoned 0 0 (.pad 0 0x200) 16 = false ∧
    pathOf 0x2000000000000200 = 2 ∧ (0x2000000000000200 : Addr).toNat % 16 = 0 ∧ zeroBitsOk 0x2000000000000200 = true ∧
    0x200 + 16 ≤ (copyCrew []).size ∧ (padNat (copyCrew []) 0x200 4 + 2 ^ 32 - 1) % 2 ^ 32 ≠ 0 ∧ padNat (copyCrew []) (0x200 + 8) 8 = 0 := by
  decide +kernel

/-- The count 2 less a target of 2 is 0; less 0 it is 2. -/
theorem witness_counterUnits : (copyCtx []).acts ≠ 0 ∧
    counterPlace (copies []) (copyCtx []).agent .load ((copyCtx []).pair 0 (g 18)) = .at_ (.pad 0 0x200) ∧
    (copies []).poisoned 0 0 (.pad 0 0x200) 16 = false ∧
    Clear {} { regs := regsOf true (g 18) ++ [28] } (copies []) (copyCtx []) ∧
    (BitVec.ofNat 32 (natOfBytes ((copies []).peeks 0 (.pad 0 0x200) 4)) - 2#32).toInt ≤ 0 ∧
    0 < (BitVec.ofNat 32 (natOfBytes ((copies []).peeks 0 (.pad 0 0x200) 4)) - (copyCtx []).word 0 (g 28)).toInt :=
  ⟨by decide +kernel, by decide +kernel, by decide +kernel, clear2 (copies []) copyGang (copyCrew []) placedLaunch (h := by decide +kernel), by decide +kernel⟩

/-- R242, R246: the signal of an ended copy leaves 1; R245: a count of 2 less 0 holds the group. -/
theorem test_copyEnd : after (exec (.copyEnd 0 0) (copies [landing 0 []])) (fun t => (t.crewAt 0).map fun c => (c.scratch.get 0 0x200, c.copies.length)) =
    some (some (1, 0)) := by decide +kernel
theorem test_cwait : after (exec (.cwait {} (g 18) (g 28)) (copies [])) (fun t => (t.gangAt 0 0).map fun a => (a.fibre 1).hold) =
    some (some (some (.counter 0x2000000000000200 0))) := by decide +kernel

/-- g16: the handle of q7 of the own core with generation 1; g18 another kind; g20 a queue of core 1; g22 a stale one. -/
def queueGang : Gang :=
  gang 2 [(0, 16, 7), (0, 17, 0x00110000), (0, 18, 7), (0, 19, 0x00120000), (0, 20, 0x47), (0, 21, 0x00110000), (0, 22, 7), (0, 23, 0x00210000),
    (0, 24, 0x55)]
def queueCrew (es : List (List Word)) : Crew :=
  { placedCrew with queues := List.replicate 7 {} ++ [{ gen := 1, entries := es, back := 0 }] }
def queueState (es : List (List Word)) : State := board queueGang (queueCrew es)
def queueCtx (es : List (List Word)) : UnitCtx := ctxOf 3 queueGang (queueCrew es)

theorem witness_queuePops : Clear {} { regs := [30] } (queueState [[5, 6]]) (queueCtx [[5, 6]]) ∧ (queueCtx [[5, 6]]).acts ≠ 0 ∧
    ((queueCtx [[5, 6]]).crew.queueAt 7).entries = [5, 6] :: [] ∧ ((queueCtx []).crew.queueAt 7).entries = [] ∧
    Clear {} { regs := [30] } (queueState []) (queueCtx []) :=
  ⟨clear2 (queueState [[5, 6]]) queueGang (queueCrew [[5, 6]]) placedLaunch (h := by decide +kernel), by decide +kernel, rfl, rfl,
    clear2 (queueState []) queueGang (queueCrew []) placedLaunch (h := by decide +kernel)⟩

/-- A crew that was saved on core 0, whose q7 has generation 2. -/
def savedQueues (es : List (List Word)) : Parked :=
  { id := 5, core := 0, bound := true, why := .saved
    crew := { placedCrew with queues := List.replicate 7 {} ++ [{ gen := 2, entries := es, back := 0 }] } }

/-- Fifteen entries leave one place, sixteen none, in the running crew's queue and in the saved one's. -/
theorem witness_queuePushes :
    (let full : List (List Word) := List.replicate 16 []
    let last : List (List Word) := List.replicate 15 []
    let beside (es : List (List Word)) : State := { queueState last with parked := [savedQueues es] }
    (∀ s, s = queueState last ∨ s = beside last → Clear {} { regs := 24 :: regsOf true (g 16) } s (queueCtx last)) ∧
    (queueCtx last).acts ≠ 0 ∧
    (let hd (r : Nat) : Addr := (queueCtx last).pair (queueCtx last).low (g r)
    handleOk 1 (hd 18) = false ∧ handleOk 1 (hd 16) = true ∧ (queueState last).isLocal 0 (hd 16) = true ∧ handleIndex (hd 16) = 7 ∧
    ((queueCtx last).crew.queueAt 7).gen = handleGen (hd 16) ∧ ((queueCtx last).crew.queueAt 7).entries.length < 16 + 0 ∧
    7 < (queueCtx last).crew.queues.length ∧ (queueState full).queueFull (hd 16) = true ∧
    (beside last).findQueue (hd 22) = some (.parked 5, (savedQueues last).crew) ∧
    ((savedQueues last).crew.queueAt 7).entries.length < 16 + ((savedQueues last).crew.queueAt 7).back ∧
    (beside full).queueFull (hd 22) = true ∧ handleOk 1 (hd 22) = true ∧ (queueState last).isLocal 0 (hd 22) = true ∧
    (queueState last).findQueue (hd 22) = none ∧ handleOk 1 (hd 20) = true ∧ (queueState last).isLocal 0 (hd 20) = false ∧
    (queueCtx last).crew.depth = 0)) := by
  refine ⟨?_, by decide +kernel⟩
  rintro s (rfl | rfl) <;> exact clear2 _ queueGang (queueCrew _) placedLaunch (h := by decide +kernel)

/-- A push of the gang's that is on its way to q7 of core 1, and none to q0 of it. -/
theorem witness_pushesInFlight :
    (let s : State := { queueState [] with packets := [.entry 0x0011000000000047 [1] 0 0 3 none] }
    s.pushInFlight 0 0 0x0011000000000047 = true ∧ s.pushInFlight 0 0 0x0011000000000040 = false) := by decide +kernel

/-- A packet on its way from gang 0 of core 0, whose two fibres wait for its answer, to a queue of that core. -/
def asking : Gang := { queueGang with fibres := (gang 2 []).fibres.map fun f => { f with hold := some (.answer 0x2004 true) } }
def packet (hd : Addr) (es : List (List Word)) : State :=
  { board asking (queueCrew es) with packets := [.entry hd [1] 0 0 3 (some (2, 3))] }

theorem witness_queuePackets :
    (packet 0x0011000000000007 []).packets = [.entry 0x0011000000000007 [1] 0 0 3 (some (2, 3))] ∧
    (packet 0x0011000000000007 []).gangAt 0 0 = some asking ∧ asking.awaits 3 = true ∧
    arrives (packet 0x0011000000000007 []) 0x0011000000000007 true = .taken (.running 0) ∧
    handleIndex 0x0011000000000007 < (queueCrew []).queues.length ∧
    arrives (packet 0x0011000000000007 (List.replicate 16 [])) 0x0011000000000007 true = .refused ∧
    arrives (packet 0x0021000000000007 []) 0x0021000000000007 true = .mismatch := by decide +kernel

/-- R259: word i to lane i; R260: a full queue clears the predicate of qpush.try, which lane 0's gang sees as false. -/
theorem test_qpop : after (exec (.qpop {} (g 30) 7) (queueState [[5, 6]])) (fun t => (regOf t 0 30, regOf t 1 30, (t.crewAt 0).map fun c => (c.queueAt 7).entries)) =
    some (5, 6, some []) := by decide +kernel
theorem test_qpush : after (exec (.qpush {} (g 24) (g 16)) (queueState [])) (fun t => (t.crewAt 0).map fun c => (c.queueAt 7).entries.map (List.take 2)) =
    some (some [[0x55, 0]]) := by decide +kernel

/-- A program of one loop of two points and one micro-operation, v1 = v1 + 5; a header with no loop; and one of a bad
micro-operation. -/
def programBytes (loops opc : Nat) : List Byte :=
  bytesOfNat 1 loops ++ [1, 1, 0, 2, 0] ++ List.replicate 10 0 ++ List.replicate 32 0 ++
    bytesOfNat 8 (opc * 2 ^ 56 + 2 ^ 53 + 2 ^ 50 + 5)
def programCrew (bs : List Byte) (t : Option Stream) : Crew :=
  { placedCrew with scratch := (spread 0x80 bs).filter fun e => e.2 ≠ 0, stream := t }
def programState (bs : List Byte) (t : Option Stream) : State := board copyGang (programCrew bs t)
def programCtx (bs : List Byte) (t : Option Stream) : UnitCtx := ctxOf 3 copyGang (programCrew bs t)

def progGot : ProgRead → Option (List Byte)
  | .got bs => some bs
  | _ => none

theorem prog_of {o : ProgRead} {bs : List Byte} (h : progGot o = some bs) : o = .got bs := by
  cases o <;> simp_all [progGot]

def runningStream : Stream := streamOf (programBytes 1 9) 0 0 0 0

theorem witness_streams :
    (∀ t, t = none ∨ t = some runningStream → Clear {} { regs := regsOf true (g 16) ++ regsOf true (g 28), feature := some 4 }
        (programState (programBytes 1 9) t) (programCtx (programBytes 1 9) t)) ∧
    (programCtx (programBytes 1 9) none).acts ≠ 0 ∧ (programCtx (programBytes 1 9) (some runningStream)).crew.stream.isSome = true ∧
    (∃ bs, readProgram (programState (programBytes 1 9) none) (programCtx (programBytes 1 9) none) 0x2000000000000080 16 = .got bs ∧
      headerOk bs = true) ∧ headerOk (programBytes 0 9) = false ∧ headerOk (programBytes 6 9) = false ∧
    (∃ bs, readProgram (programState (programBytes 1 9) none) (programCtx (programBytes 1 9) none) 0x2000000000000080 56 = .got bs ∧
      programOk bs = true) ∧ programOk (programBytes 1 0x0d) = false ∧
    runningStream.next = 0 ∧ StreamOp.opc (0x0924000000000005#64) = 0x09 ∧ nextPoint [0] [2] ≠ none ∧ nextPoint [1] [2] = none := by
  refine ⟨?_, by decide +kernel, by decide +kernel, ⟨_, prog_of (bs := (programBytes 1 9).take 16) (by decide +kernel), by decide +kernel⟩,
    by decide +kernel, by decide +kernel, ⟨_, prog_of (bs := programBytes 1 9) (by decide +kernel), by decide +kernel⟩, by decide +kernel, rfl, by decide, by decide, by decide⟩
  rintro t (rfl | rfl) <;> exact clear2 (programState _ _) copyGang (programCrew _ _) placedLaunch (h := by decide +kernel)

/-- A load of 64 words performed ahead of its point. -/
theorem witness_streamAhead : StreamOp.opc (0x0124000000000000#64) = 0x01 ∧
    ({ runningStream with ahead := [(runningStream.at_, 0, List.replicate 64 7)] } : Stream).loaded = some (List.replicate 64 7) ∧
    (List.replicate 64 (7 : Word)).length = 64 := by decide +kernel

/-! ## Tasks, lists, calm and roles -/

/-- A task record of 64 fibres with entry 0x4000, and one of none. -/
def taskBytes (fibres : Nat) : List Byte :=
  bytesOfNat 8 0x4000 ++ List.replicate 20 0 ++ bytesOfNat 2 fibres ++ List.replicate 34 0
def taskRec : TaskRec := { bytes := taskBytes 64, addr := 0x80000000000000 }

/-- g16: the record; g18: the own task queue; g20: a core of another cluster; g22: an architected queue. -/
def sendGang : Gang :=
  gang 2 [(0, 16, 0x80), (0, 17, 0x20000000), (0, 19, 0x00020000), (0, 20, 0x200), (0, 21, 0x00020000), (0, 23, 0x00010000)]
def sendCrew (n : Nat) (recs : List TaskRec) (depth : Nat) : Crew :=
  { placedCrew with scratch := (spread 0x80 (taskBytes n)).filter fun e => e.2 ≠ 0, tasks := { recs := recs, cap := 1 }, depth := depth }
def sendState (n : Nat) (recs : List TaskRec) (depth : Nat) : State := board sendGang (sendCrew n recs depth)
def sendCtx (n : Nat) (recs : List TaskRec) (depth : Nat) : UnitCtx := ctxOf 3 sendGang (sendCrew n recs depth)

theorem witness_taskSends :
    (∀ n recs depth, (n, recs, depth) = (64, [], 0) ∨ (n, recs, depth) = (64, [taskRec], 0) ∨ (n, recs, depth) = (0, [], 0) ∨
        (n, recs, depth) = (64, [], 1) →
      Clear {} { regs := regsOf true (g 16) ++ regsOf true (g 18) ++ [24] } (sendState n recs depth) (sendCtx n recs depth)) ∧
    (let c := sendCtx 64 [] 0
    let s := sendState 64 [] 0
    c.acts ≠ 0 ∧ handleOk 2 (c.pair c.low (g 22)) = false ∧ handleOk 2 (c.pair c.low (g 18)) = true ∧
    recordPlace s c.agent .load 64 (c.pair c.low (g 16)) = .at_ (.pad 0 0x80) ∧ s.poisoned 0 0 (.pad 0 0x80) 64 = false ∧
    (recordOk (taskBytes 0) = false ∧ recSucc (taskBytes 0) = 0) ∧ recordOk (taskBytes 64) = true ∧ recordOk (taskBytes 65) = false ∧
    s.peeks 0 (.pad 0 0x80) 64 = taskBytes 64 ∧
    s.isLocal 0 (c.pair c.low (g 18)) = true ∧ c.crew.tasks.gen = handleGen (c.pair c.low (g 18)) ∧
    c.crew.tasks.recs.length < c.crew.tasks.cap ∧ (sendCtx 64 [taskRec] 0).crew.tasks.cap ≤ (sendCtx 64 [taskRec] 0).crew.tasks.recs.length ∧
    (sendCtx 64 [] 1).crew.depth ≠ 0 ∧ (sendState 64 [] 1).inCluster 0 (c.pair c.low (g 20)) = false ∧
    (sendCtx 64 [] 1).crew.effects.length < 64 ∧ s.isLocal 0 (c.pair c.low (g 20)) = false ∧ handleOk 2 (c.pair c.low (g 20)) = true ∧
    s.pushInFlight 0 0 (c.pair c.low (g 20)) = false ∧
    ({ s with packets := [.task (c.pair c.low (g 20)) (taskBytes 64) 0 0 3 []] } : State).pushInFlight 0 0 (c.pair c.low (g 20)) = true) := by
  refine ⟨?_, by decide +kernel⟩
  intro n recs depth h
  simp only [Prod.mk.injEq] at h
  rcases h with ⟨rfl, rfl, rfl⟩ | ⟨rfl, rfl, rfl⟩ | ⟨rfl, rfl, rfl⟩ | ⟨rfl, rfl, rfl⟩ <;>
    exact clear2 (sendState _ _ _) sendGang (sendCrew _ _ _) placedLaunch (h := by decide +kernel)

/-- A record on its way from gang 0 of core 0, whose two fibres wait for its answer. -/
def sending : Gang := { sendGang with fibres := (gang 2 []).fibres.map fun f => { f with hold := some (.answer 0x2004 false) } }
def sentTo (hd : Addr) (recs : List TaskRec) : State :=
  { board sending (sendCrew 64 recs 0) with packets := [.task hd (taskBytes 64) 0 0 3 [regKey 0 24 0, regKey 0 24 1]] }

theorem witness_taskArrivals :
    (let hd : Addr := 0x0002000000000000
    let stale : Addr := 0x0012000000000000
    (∀ h recs, (sentTo h recs).packets = [.task h (taskBytes 64) 0 0 3 [regKey 0 24 0, regKey 0 24 1]] ∧
      (sentTo h recs).gangAt 0 0 = some sending) ∧ sending.awaits 3 = true ∧
    handleSpan hd = (sentTo hd []).span.rank.toNat ∧ handleKind hd = 2 ∧
    (sentTo hd []).findQueue hd = some (.running 0, { sendCrew 64 [] 0 with gangs := [(0, sending)] }) ∧
    (sendCrew 64 [] 0).tasks.recs.length < (sendCrew 64 [] 0).tasks.cap ∧
    (sentTo hd [taskRec]).findQueue hd = some (.running 0, { sendCrew 64 [taskRec] 0 with gangs := [(0, sending)] }) ∧
    (sendCrew 64 [taskRec] 0).tasks.cap ≤ (sendCrew 64 [taskRec] 0).tasks.recs.length ∧
    handleSpan stale = 0 ∧ handleKind stale = 2 ∧ (sentTo stale []).findQueue stale = none ∧ recSucc (taskBytes 64) = 0 ∧
    (sentTo stale []).waiting = []) :=
  ⟨fun _ _ => ⟨rfl, rfl⟩, by decide +kernel⟩

theorem witness_taskGangs :
    (let c : Crew := { sendCrew 64 [taskRec] 0 with gangs := [(0, sendGang)] }
    (sendState 64 [taskRec] 0).crewAt 0 = some c ∧ nextTask c.tasks = some taskRec ∧ c.mayStart placedLaunch = true ∧
    taskView 8 (sendState 64 [taskRec] 0) (recNat taskRec.bytes 40 2) = some 0 ∧ taskSquad c placedLaunch.rcd = some 1 ∧
    c.freeSlot 1 = some 1) := by decide +kernel

/-- List numbers 255 and 256, in lane 1; a launch whose list 3 is full. -/
def listGang : Gang := gang 2 [(0, 16, 3), (1, 16, 255), (1, 18, 256)]
def fullLists : Launch :=
  { placedLaunch with rcd := { placedLaunch.rcd with listb := 16 }, lists := [(3, List.replicate 16 0), (255, List.replicate 15 0)] }

theorem witness_lists :
    (∀ l, l = placedLaunch ∨ l = fullLists →
      Clear {} { regs := [20, 16] } (board listGang placedCrew l) (ctxOf 3 listGang placedCrew l) ∧
      Clear {} { regs := [16, 20] } (board listGang placedCrew l) (ctxOf 3 listGang placedCrew l)) ∧
    Clear {} { regs := [20, 16] } (board listGang world1) (ctxOf 3 listGang world1) ∧
    Clear {} { regs := [18, 20] } (board listGang) (ctxOf 3 listGang) ∧ world1.depth ≠ 0 ∧
    (ctxOf 3 listGang).acts ≠ 0 ∧ (∀ l ∈ (ctxOf 3 listGang).lanes, ((ctxOf 3 listGang).word l (g 16)).toNat ≤ 255) ∧
    (1 ∈ (ctxOf 3 listGang).lanes ∧ 255 < ((ctxOf 3 listGang).word 1 (g 18)).toNat ∧
      ∀ k ∈ (ctxOf 3 listGang).lanes, k < 1 → ((ctxOf 3 listGang).word k (g 18)).toNat ≤ 255) ∧
    (ctxOf 3 listGang).crew.depth = 0 ∧ (∀ n, (placedLaunch.lists.get [] n).length < listCap placedLaunch) ∧
    (fullLists.lists.get [] 255).length < listCap fullLists ∧ listCap fullLists ≤ (fullLists.lists.get [] 3).length := by
  refine ⟨?_, clear2 (board listGang world1) listGang world1 placedLaunch (h := by decide +kernel),
    clear2 (board listGang) listGang placedCrew placedLaunch (h := by decide +kernel), by decide, by decide +kernel,
    by decide +kernel, by decide +kernel, by decide, fun _ => show 0 < listCap placedLaunch by decide, by decide +kernel, by decide +kernel⟩
  rintro l (rfl | rfl) <;>
    exact ⟨clear2 (board listGang placedCrew _) listGang placedCrew _ (h := by decide +kernel),
      clear2 (board listGang placedCrew _) listGang placedCrew _ (h := by decide +kernel)⟩

/-- R270: lane 0's item in list 3, lane 1's in list 255; and the oldest comes out. -/
theorem test_append : after (exec (.append {} (g 16) (g 16)) (board listGang))
    (fun t => (t.launchOf 1).map fun l => (l.lists.get [] 3, l.lists.get [] 255)) = some (some ([3], [255])) := by decide +kernel

def calmGang : Gang := { gang 2 [] with fibres := (gang 2 []).fibres.map fun f => { f with hold := some (.calm 0x2004) } }
def swept (first : Option (Nat × Nat × Nat)) : Launch := { placedLaunch with sweep := first }

theorem witness_calm :
    (Clear {} {} two twoCtx ∧ twoCtx.acts ≠ 0 ∧ twoCtx.crew.depth = 0 ∧ ∀ l ∈ twoCtx.lanes, (twoCtx.gang.fibre l).hold = none) ∧
    Clear {} {} (board pair world1) (ctxOf 3 pair world1) ∧ world1.depth ≠ 0 ∧
    two.launchOf 1 = some placedLaunch ∧ two.calm placedLaunch = false ∧ (board calmGang).calm placedLaunch = true ∧
    placedLaunch.sweep = none ∧
    (let s : State := { board calmGang placedCrew (swept (some (0, 0, 0))) with clock := 256 }
    s.launchOf 1 = some (swept (some (0, 0, 0))) ∧ s.calm (swept (some (0, 0, 0))) = true ∧ 0 + 256 ≤ s.clock.toNat ∧
      s.answering 1 = [] ∧ (swept (some (0, 0, 0))).polled = none ∧ s.agreed (swept (some (0, 0, 0))) .calm = true) ∧
    (let l : Launch := { swept (some (0, 0, 0)) with polled := some [] }
    let s : State := board calmGang placedCrew l
    s.launchOf 1 = some l ∧ s.answering 1 = [] ∧ s.calm l = true ∧ l.sent = l.accepted ∧ s.agreed l .calm = true) ∧
    (let l : Launch := { placedLaunch with polled := some [0] }
    let s : State := { board calmGang placedCrew l with cores := [(0, { ctl := [.calmSweep 1] })] }
    s.launchOf 1 = some l ∧ s.answering 1 = [0] ∧ (board calmGang placedCrew l).answering 1 = []) := by
  refine ⟨⟨clear_two (by decide +kernel), by decide +kernel, by decide +kernel, by decide +kernel⟩,
    clear_of_meets (ctx_of rfl rfl rfl rfl (by decide +kernel) mask_two) (by decide +kernel), by decide +kernel⟩

def roleLaunch : Launch :=
  { placedLaunch with rcd := { placedLaunch.rcd with flags := 0x31, rent := [0x4000, 0x5000], dwell := 1, low := 1, high := 2 } }
def marked (m : Option (BitVec 2)) : Gang := { gang 2 [] with role := 1, roleIndex := some 0, roleMark := m }

theorem witness_roles :
    Clear {} { regs := [16] } two twoCtx ∧
    (∃ c, Clear { guard := some ⟨false, 2⟩ } {} two c ∧ c.acts ≠ 0 ∧ c.mask = c.gang.liveMask) ∧
    (∃ c, Clear {} {} { two with issue := some { core := 0, slot := 0, mask := 1, pc := 0x2000 } } c ∧ c.acts ≠ 0 ∧ c.mask ≠ c.gang.liveMask) ∧
    placedLaunch.rcd.flags.getLsbD 5 = false ∧ roleLaunch.rcd.flags.getLsbD 5 = true ∧
    ∀ m, m = none ∨ m = some 2 → Clear {} {} (board (marked m) placedCrew roleLaunch) (ctxOf 3 (marked m) placedCrew roleLaunch) ∧
      (marked m).roleMark = m := by
  refine ⟨clear_two (by decide +kernel), clear_with _ (by decide +kernel), clear_with _ (by decide +kernel), by decide, by decide, ?_⟩
  rintro m (rfl | rfl) <;>
    exact ⟨clear2 (board (marked _) placedCrew roleLaunch) (marked _) placedCrew roleLaunch (h := by decide +kernel), rfl⟩

/-- Two gangs in role 2 and an empty queue below LOW, dwell 64; one gang; and a queue above HIGH. -/
def roleCrew (n : Nat) (q : RoleSt) (r : BitVec 2) (es : List (List Word)) : Crew :=
  { placedCrew with
    role := { st := q, timer := 63 }
    queues := { entries := es } :: List.replicate 7 {}
    gangs := (List.range n).map fun i => (i, { gang 2 [] with role := r, roleIndex := some i }) }

theorem witness_roleSwitches : roleLaunch.rcd.flags.getLsbD 5 = true ∧ 64 * roleLaunch.rcd.dwell = 63 + 1 ∧
    (roleGangs (roleCrew 1 .lowWait 2 []) 2).length < 2 ∧ 2 ≤ (roleGangs (roleCrew 2 .lowWait 2 []) 2).length ∧
    ((roleCrew 2 .lowWait 2 []).queueAt 0).entries.length < roleLaunch.rcd.low ∧
    roleLaunch.rcd.low ≤ ((roleCrew 2 .highWait 1 [[], [], []]).queueAt 0).entries.length ∧
    roleLaunch.rcd.high < ((roleCrew 2 .highWait 1 [[], [], []]).queueAt 0).entries.length ∧
    (1, 1) ∈ roleGangs (roleCrew 2 .lowWait 2 []) 2 ∧ (∀ e ∈ roleGangs (roleCrew 2 .lowWait 2 []) 2, e ≠ (1, 1) → e.1 < 1) := by
  decide +kernel

/-! ## Worlds -/

/-- A crew whose fork has ended, and is yet to be chosen from. -/
def forked : Crew := { placedCrew with fork := some { n := 2, ended := true } }

theorem witness_worldUnits :
    (let whole (c : UnitCtx) : Prop := c.acts = c.gang.liveMask ∧ ∀ l ∈ c.lanes, (c.gang.fibre l).hold = none
    (∀ r ∈ [[16], []], ∃ c, Clear {} { regs := r, feature := some 0, worlds := true } two c ∧ whole c ∧ c.crew.depth = 0 ∧ c.crew.fork = none) ∧
    (∃ c, Clear {} { regs := [16], feature := some 0, worlds := true } (board pair world1) c ∧ whole c ∧ c.crew.depth ≠ 0) ∧
    (∀ r ∈ [[16], []], ∃ c, Clear {} { regs := r, feature := some 0, worlds := true } (board pair forked) c ∧ whole c ∧
      c.crew.fork = forked.fork) ∧
    (∃ c, Clear { guard := some ⟨false, 2⟩ } { regs := [16], feature := some 0, worlds := true } two c ∧ c.acts ≠ 0 ∧
      c.acts ≠ c.gang.liveMask) ∧
    (∃ c, Clear { guard := some ⟨false, 4⟩ } { regs := [16], feature := some 0, worlds := true } two c ∧ c.acts = 0 ∧
      c.acts ≠ c.gang.liveMask) ∧
    (∃ c, Clear {} { feature := some 0, worlds := true } (board pair world1) c ∧ c.acts ≠ 0 ∧ c.crew.depth ≠ 0) ∧
    Clear {} { regs := [16, 20], feature := some 0, worlds := true } two twoCtx) := by
  refine ⟨?_, ?_, ?_, clear_with _ (by decide +kernel), clear_with _ (by decide +kernel), clear_with _ (by decide +kernel),
    clear_two (by decide +kernel)⟩
  · intro r h
    simp only [List.mem_cons, List.not_mem_nil, or_false] at h
    rcases h with rfl | rfl <;>
      exact clear_with (fun c => (c.acts = c.gang.liveMask ∧ ∀ l ∈ c.lanes, (c.gang.fibre l).hold = none) ∧ c.crew.depth = 0 ∧
        c.crew.fork = none) (by decide +kernel)
  · exact clear_with (fun c => (c.acts = c.gang.liveMask ∧ ∀ l ∈ c.lanes, (c.gang.fibre l).hold = none) ∧ c.crew.depth ≠ 0)
      (by decide +kernel)
  · intro r h
    simp only [List.mem_cons, List.not_mem_nil, or_false] at h
    rcases h with rfl | rfl <;>
      exact clear_with (fun c => (c.acts = c.gang.liveMask ∧ ∀ l ∈ c.lanes, (c.gang.fibre l).hold = none) ∧
        c.crew.fork = forked.fork) (by decide +kernel)

def forking (n : Nat) : Gang := { gang 2 [] with fibres := (gang 2 []).fibres.map fun f => { f with hold := some (.arrival (.fork 16 n) 0x2004) } }
def forkCrew (n : Nat) : Crew := { placedCrew with gangs := [(0, forking n)] }

/-- A fork of no crew that has arrived; one that needs 16 cores; and one of two worlds. -/
theorem witness_forkStarts : ({ placedCrew with gangs := [(0, pair)] } : Crew).forkCounts = none ∧
    (forkCrew 2).forkCounts = some [2, 2] ∧ (forkCrew 2).ending = none ∧ (forkCrew 2).drained = true ∧
    (forkStatus (board (forking 2)) 0 (forkCrew 2) [2, 2]).1 = 0 ∧ (forkStatus (board (forking 2)) 0 { forkCrew 2 with depth := 4 } [2, 2]).1 = 4 ∧
    (forkStatus (board (forking 2)) 0 (forkCrew 2) [2, 2]).2.1.length = 2 := by decide +kernel

/-- A world that has its verdict, and its suspended parent; and a parent whose worlds have all ended. -/
def worldCrew (e : Option (BitVec 8 × BitVec 8)) : Crew := { placedCrew with depth := 1, view := 1, parent := some 5, ending := e }
def parent (ready : Bool) (outs : Map WorldOut) : Parked :=
  { id := 5, crew := { forkCrew 1 with fork := some { n := 1, outs := outs, ended := ready } }, core := 0, bound := true, why := .suspended, ready := ready }
def worldState (e : Option (BitVec 8 × BitVec 8)) : State := { board pair (worldCrew e) with parked := [parent false []] }

theorem witness_worldsEnd :
    (∀ e, (worldState e).crewAt 0 = some { worldCrew e with gangs := [(0, pair)] } ∧ (worldCrew e).parent = some 5 ∧ (worldCrew e).depth ≠ 0 ∧
      parent false [] ∈ (worldState e).parked ∧ (parent false []).id = 5 ∧ (parent false []).crew.fork = some { n := 1 }) ∧
    worldVerdict { worldCrew none with gangs := [(0, pair)] } = none ∧ worldVerdict (worldCrew (some (4, 7))) = some (4, 7, 0) ∧
    (∀ e, (worldState e).loggedAdds 1 1 = false ∧ (worldState e).poison = []) ∧
    (∀ b, (let p : Parked := { parent true [(0, { status := 1 })] with bound := b }
      let s : State := { State.reset with device := { bootst := 1 }, launches := [placedLaunch], parked := [p] }
      s.parkedAt 5 = some p ∧ s.launchOf 1 = some placedLaunch ∧ placedLaunch.st = .running ∧ parentCore s p = some 0 ∧
        (b = false → serveNext s = some (.parent 5)))) := by
  refine ⟨fun e => ⟨rfl, rfl, Nat.one_ne_zero, .head _, rfl, rfl⟩, by decide +kernel, by decide +kernel, fun _ => ⟨rfl, rfl⟩, ?_⟩
  rintro (_ | _) <;> decide +kernel

def choosing (i : Option Word) : Gang :=
  { gang 2 [] with fibres := (gang 2 []).fibres.map fun f => { f with hold := some (.arrival (.choose i) 0x2004) } }
def chooseFork : Fork := { n := 2, outs := [(0, { status := 1, view := 1 }), (1, { status := 2, view := 2 })], ended := true }
def chooseCrew (i : Option Word) : Crew := { placedCrew with gangs := [(0, choosing i)], fork := some chooseFork }

/-- The last world of two, which was aborted; the first, which may be committed; and none. -/
theorem witness_worldCommits :
    (chooseCrew (some 0)).choices = some [some 0, some 0] ∧ chooseFork.ended = true ∧ chooseFork.complete = false ∧
    (chooseCrew none).ending = none ∧ chooseFork.chosen = none ∧ chosenWorld chooseFork [some 0, some 0] = .inl 0 ∧
    chosenWorld chooseFork [some 1, some 1] = .inr 3 ∧ chosenWorld chooseFork [some 2, some 2] = .inr 2 ∧
    chosenWorld chooseFork [none, none] = .inr 0 ∧ (chooseCrew none).view = 0 ∧ chooseFork.effects.get [] 0 = [] ∧
    chooseFork.outs.find 0 = some { status := 1, view := 1 } ∧
    ({ State.reset with views := [(1, { parent := 0 })] } : State).views.find 1 = some { parent := 0 } := by
  refine ⟨by decide +kernel, rfl, rfl, rfl, rfl, by rfl, by rfl, by rfl, by rfl, rfl, rfl, by decide, by decide⟩

theorem witness_viewMerges :
    (let vs (st : BitVec 2) : Map View := [(1, { parent := 0, state := st })]
    let s (st : BitVec 2) : State := { State.reset with views := vs st }
    (∀ st, (s st).views.find 1 = some { parent := 0, state := st } ∧ ∀ e ∈ vs st, e.2.parent ≠ 1) ∧
    (∃ e ∈ ((2, { parent := 1 }) :: vs 1 : List (Nat × View)), e.2.parent = 1) ∧
    (∀ st, (s st).namesTag 1 = false ∧ (s st).logsView 1 = false) ∧
    ({ board pair { placedCrew with tasks := { recs := [{ taskRec with bytes := tagRecord (taskBytes 64) 1 }] } } with
      views := vs 1 } : State).namesTag 1 = true ∧
    ({ s 1 with savedLog := [{ launch := 1, ctx := 0, page := 0, shift := 12, view := 1, time := 0, core := 0, squad := 0,
                               items := [] }] } : State).logsView 1 = true) := by
  refine ⟨fun st => ⟨rfl, ?_⟩, ⟨_, .head _, rfl⟩, fun st => ⟨rfl, rfl⟩, by decide +kernel, by decide +kernel⟩
  intro e he
  rw [List.mem_singleton.mp he]
  exact Nat.zero_ne_one

/-- R276: the fork of two worlds puts world 1 on another core of the cluster, one level deeper, in a view of its own. -/
theorem test_fork : after (exec (.forkStart 0) (board (forking 2))) (fun t => (t.parked.length, (t.crewAt 0).map fun c => (c.world, c.depth),
    t.crews.length, t.views.map fun v => v.2.parent)) = some (1, some (0, 1), 2, [0, 0]) := by decide +kernel

/-! ## Timers, upkeep, control packets and slices -/

def held (h : Hold) : Gang := { gang 2 [] with fibres := (gang 2 []).fibres.map fun f => { f with hold := some h } }

/-- Fibre 0 has yielded to fibre 1, which sleeps. -/
def yielding : Gang :=
  { gang 2 [] with fibres := (gang 2 []).fibres.mapIdx fun l f =>
      { f with hold := some (if l = 0 then .yielded 2 36 else .sleep 1000) } }

/-- A sleep until 100, a yield last seen alone at 36, both at clock 100; a group that has been ready since clock 4. -/
theorem witness_timers :
    (∀ h, (board (held h)).crewAt 0 = some { placedCrew with gangs := [(0, held h)] }) ∧
    ((held (.sleep 100)).fibre 0).hold = some (.sleep 100) ∧ 100 ≤ ({ two with clock := 100 } : State).clock.toNat ∧
    ({ two with clock := 99 } : State).clock.toNat < 100 ∧ (yielding.fibre 0).hold = some (.yielded 2 36) ∧
    36 + 64 ≤ ({ two with clock := 100 } : State).clock.toNat ∧ ({ two with clock := 99 } : State).clock.toNat < 36 + 64 ∧
    two.mgmt.ageing ≠ 0 ∧ ({ two with mgmt := { two.mgmt with ageing := 0 } } : State).mgmt.ageing = 0 ∧
    (∀ i, i < 64 → (readyLanes (board yielding) 0 0 { placedCrew with gangs := [(0, yielding)] } yielding).getLsbD i = true → i = 0) ∧
    (let a : Gang := { gang 2 [] with fibres := (gang 2 []).fibres.map fun f => { f with readyFrom := some 4 } }
    (readyLanes (board a) 0 0 { placedCrew with gangs := [(0, a)] } a).getLsbD 1 = true ∧ (a.fibre 1).readyFrom = some 4 ∧
      4 + two.mgmt.ageing ≤ ({ two with clock := 5000 } : State).clock.toNat) :=
  ⟨fun _ => rfl, by decide +kernel⟩

/-- A bin that is due at 9, and a formed gang of one fibre. -/
def formedCrew : Crew :=
  { placedCrew with squads := { bins := [{ key := 0x4000, args := [7], due := 9 }], formed := [{ entry := 0x4000, args := [7] }] } :: List.replicate 3 {} }

theorem witness_formedGangs :
    (board pair formedCrew).crewAt 0 = some { formedCrew with gangs := [(0, pair)] } ∧ 0 < 4 ∧
    (formedCrew.squad 0).bins.find? (fun o => o.key == 0x4000) = some { key := 0x4000, args := [7], due := 9 } ∧
    (board pair formedCrew).clock.toNat < 9 ∧ 9 ≤ ({ board pair formedCrew with clock := 9 } : State).clock.toNat ∧
    (formedCrew.squad 0).formed = { entry := 0x4000, args := [7] } :: [] ∧
    ({ formedCrew with gangs := [(0, pair)] } : Crew).freeSlot 0 = some 4 ∧
    ({ formedCrew with gangs := [(0, pair)] } : Crew).canHold placedLaunch.rcd 0 = true ∧ formedCrew.mayStart placedLaunch = true ∧
    formedCrew.mayStart { placedLaunch with st := .ending } = false := by
  refine ⟨rfl, by decide +kernel⟩

theorem witness_crewsEnd :
    (let empty : Crew := { placedCrew with gangs := [] }
    empty.depth = 0 ∧ empty.finished = true ∧ two.succOf 0 1 = false ∧ ({ empty with gangs := [(0, pair)] } : Crew).finished = false) := by
  decide +kernel

/-- g16 lies spilled, g17 in the operand buffer, g18 in the main file. -/
def spilled : Gang :=
  { pair with buffer := [{ key := 17, dirty := false }]
              stored := [(16, { at_ := none, segs := 1, stamp := 0 }), (18, { at_ := some 8, segs := 1, stamp := 0 })] }

theorem witness_registerFile : (board spilled).gangAt 0 0 = some spilled ∧
    spilled.stored.find (0 * 1024 + 16) = some { at_ := none, segs := 1, stamp := 0 } ∧ (∀ e ∈ spilled.buffer, e.key ≠ 16) ∧
    (∃ e ∈ spilled.buffer, e.key = 17) ∧ (spilled.stored.find 18).isSome = true ∧ (∀ e ∈ spilled.buffer, e.key ≠ 18) ∧
    (readyLanes (board spilled) 0 0 { placedCrew with gangs := [(0, spilled)] } spilled).getLsbD 1 = true ∧ 1 < 64 ∧
    spilled.destWait = [] ∧ spilled.fence = none := by
  refine ⟨rfl, by decide, by decide, by decide, by decide, by decide, by decide +kernel, by decide, rfl, rfl⟩

/-- The gang of `two` with an error latent in lane 1's g16, and in none; in the file and in the buffer. -/
theorem witness_latentErrors : Clear {} { regs := [(g 16).toNat, (g 20).toNat] } two twoCtx ∧ twoCtx.acts ≠ 0 ∧ g 16 ≠ 0 ∧ 1 < 64 ∧
    physIndex (twoCtx.gang.fibre twoCtx.low).wbase (g 16).toNat = 16 :=
  ⟨clear_two (by decide +kernel), by decide +kernel, by decide, by decide, by decide +kernel⟩

/-- R27, R167: lane 1's g16 is in error: the group traps with 1 × 256 + 16, and the error is recorded. -/
theorem test_latentError : after (exec (.addi {} (g 20) (g 16) 1) (two.modGang 0 0 fun a => { a with bad := [{ key := 16, lane := 1, cls := 1 }] }))
    (fun t => (t.gangAt 0 0).map fun a => (a.trapcause, a.trapaddr)) = some (some (0x10, 0x110)) := by
  decide +kernel

/-- R23: free blocks that touch become one. -/
theorem test_compactor : after (exec (.compactorMerge 0 0) (board pair { placedCrew with squads := { free := [(8, 4), (0, 8), (20, 2)] } :: List.replicate 3 {} }))
    (fun t => (t.crewAt 0).map fun c => (c.squad 0).free) = some (some [(0, 12), (20, 2)]) := by decide +kernel

theorem witness_doldrums :
    becalmed 64 63 (held (.popEmpty 0)) = none ∧ becalmed 64 64 (held (.popEmpty 0)) = some (1, 0) ∧
    becalmed 64 64 { gang 2 [] with lastIssue := 1 } = some (0, 0) := by decide +kernel

theorem witness_patrol :
    (0 * 128 < memSize ∧ (2 ^ 31 - 1) * 128 < memSize ∧ 5 * 64 ∈ ({ two with poison := [5 * 64] } : State).poison ∧ 0 ∉ two.poison ∧
      two.reportRoom = true) ∧
    (two.crewAt 0 = some { placedCrew with gangs := [(0, pair)] } ∧ 524284 % 4 = 0 ∧ 524284 + 4 ≤ placedCrew.size ∧
      524284 ∉ placedCrew.padBad) ∧
    (let s : State := { two with cores := [(0, { l1 := [{ line := 3, view := 0, wts := 0, rts := 0, data := [] }]
                                                 ro := [{ line := 3, view := 0, data := [] }] })] }
    (s.coreAt 0).roLine 0 4 = none ∧ ((s.coreAt 0).roLine 0 3).isSome = true ∧ (s.coreAt 0).holds 3 0 = true ∧ s.linePoisoned 0 3 = false ∧
      s.reportRoom = true ∧ s.crewAt 0 = some { placedCrew with gangs := [(0, pair)] } ∧ placedCrew.view = 0) := by
  decide +kernel

/-- Posts: a ring with room, and one that is full. -/
theorem witness_posts : ({ two with window := { two.window with repsize := 1 } } : State).ringFull = false ∧ two.device.reports = [] ∧
    ({ two with window := { two.window with repsize := 1, reptail := 1 } } : State).ringFull = true ∧ two.device.reports.length < 4096 := by
  decide +kernel

def ctlState (m : CtlMsg) (a : Gang) : State := { board a with cores := [(0, { ctl := [m] })] }

theorem witness_controlPackets :
    (∀ m a, ((ctlState m a).coreAt 0).ctl = m :: [] ∧ (ctlState m a).gangAt 0 0 = some a) ∧ pair.fence = none ∧
    (fenced 0).fence.isSome = true ∧ (fenced 0).fence.map (fun f => decide (5 ∉ f.lines)) = some true ∧
    (∀ m a, ((ctlState m a).coreAt 0).ctlAt ≠ some (ctlState m a).clock.toNat) ∧
    (({ two with cores := [(0, { ctlAt := some 0 })] } : State).coreAt 0).ctlAt = some two.clock.toNat ∧ pair.id ≠ 9 := by
  refine ⟨fun _ _ => ⟨rfl, rfl⟩, rfl, rfl, by decide +kernel, fun _ _ h => (by cases h), by decide, by decide⟩

/-- R389, R391: a close request that names a gang which has left its slot closes nothing, and the core takes no second
packet in the cycle. -/
theorem test_closeRequest : after (exec (.closeRequest 0) (ctlState (.closeRequest 0 9) (gang 2 []))) (fun t => (t.slices.closing.length, (t.coreAt 0).ctlAt, (t.coreAt 0).ctl.length)) =
    some (0, some 0, 0) := by decide +kernel

def sliceState (q : Slices) : State := { copies [copyOp 0 true []] with slices := q }

theorem witness_sliceRequests :
    Memory.wf (copies []).mem = true ∧ 96 ∈ ({ resident := [96] } : Slices).resident ∧ 97 ∉ ({ resident := [96] } : Slices).resident ∧
    (∀ w, (sliceState { replies := [.line 0 0 96 0 w 9 []] }).slices.replies = .line 0 0 96 0 w 9 [] :: []) ∧
    (({ sliceState {} with lines := [(96 * 64, { wts := 3, rts := 5 })] } : State).timeOf 0 96).wts = 3 ∧ 2 < 3 ∧ 3 ≤ 3 ∧
    (sliceState {}).crewAt 0 = some { copyCrew [copyOp 0 true []] with gangs := [(0, copyGang)] } ∧
    (let waits (n : Nat) : SliceReq := .load 0 0 n 0 0
    (∃ r ∈ [waits 97], r.line = 97) ∧ (∀ r ∈ [waits 97], r.line ≠ 96) ∧ [waits 97].length < 64 ∧
    (let full : List SliceReq := (List.range 64).map fun n => waits (97 + (n + 1) * 2 ^ 26)
    (∀ r ∈ full, r.line ≠ 97) ∧ 64 ≤ ((full.filter fun r => r.slice = homeSlice (97 * 128)).map SliceReq.line).eraseDups.length)) := by
  refine ⟨by decide +kernel, by decide, by decide, fun _ => rfl, by decide +kernel, by decide, by decide, rfl, by decide, by decide,
    by decide, by decide +kernel, by decide +kernel⟩

def closeOf (count close : Option Nat) (fence : Bool) : CloseEntry := { dest := 3, gang := 0, phase := 0, count := count.getD 0, close := close, fence := fence }

theorem witness_phaseCloses :
    (∀ t ∈ ([] : List CloseEntry), t.dest ≠ 3) ∧ (∀ t ∈ [closeOf (some 2) none false], t.close ≠ some t.count) ∧ [closeOf (some 2) none false] = [] ++ closeOf (some 2) none false :: [] ∧
    (closeOf none (some 2) true).close = some (closeOf (some 2) none false).count ∧
    (closeOf none (some 3) true).close ≠ some (closeOf (some 2) none false).count ∧ (closeOf none (some 2) false).fence = false ∧
    (closeOf none (some 2) true).fence = true ∧ (board (fenced 1)).gangAt 0 0 = some (fenced 1) ∧ (fenced 1).fence.isSome = true ∧
    (board (fenced 1)).findGang 0 = some (0, 0) ∧
    (let t : CloseEntry := closeOf (some 1) (some 2) true
    (closeOf none none false).same t = true ∧ t.close = some (t.count + 1) ∧ t.close ≠ some t.count ∧
      (closeOf (some 0) (some 2) true).close ≠ some (0 + 1)) ∧
    (let full (dest n : Nat) : List CloseEntry := (List.range n).map fun k => { closeOf (some 0) none false with dest := dest, gang := k + 1 }
    (∀ t ∈ full 3 2048, (closeOf none (some 1) false).same t = false) ∧ ((full 3 2048).filter fun t => t.dest = 3).length = 2048 ∧
    ((full 128 256).filter fun t => t.dest = 128).length = 256 ∧ ((full 3 1536).filter fun t => t.dest = 3).length = 1536 ∧
    (closeOf none none false).close = none ∧ ({} : Slices).stalled = []) := by
  refine ⟨by decide, by decide, rfl, by decide, by decide, rfl, rfl, rfl, rfl, by decide +kernel, by decide +kernel, by decide +kernel⟩

/-! ## Rounds, agreements, translation and pre-emption -/

def contribution : Contribution :=
  { launch := 1, view := 0, pa := 0, wide := false, value := 0, key := [], core := 0, squad := 0, tangent := false }

/-- One contribution, and one more than the slice of its address holds, with no overflow area. -/
theorem witness_orderedContributions : two.launchOf 1 = some placedLaunch ∧ memSize ≤ memSize ∧ memSize - 1 < memSize ∧
    (∀ n, n < 128 → (([] ++ [contribution] : List Contribution).filter fun c => homeSlice c.pa = n).length ≤ 4096) ∧
    two.window.ordsize.toNat < overflowCount (List.replicate 4096 contribution ++ [contribution]) * Config.orderedBytes := by
  refine ⟨by decide +kernel, Nat.le_refl _, by decide +kernel, by decide +kernel, ?_⟩
  rw [← List.replicate_succ']
  simp only [overflowCount, List.filter_replicate, apply_ite List.length, List.length_replicate, List.length_nil]
  decide +kernel

def rounding : Gang := held (.arrival .roundClose 0x2004)
def stepping : Gang := held (.arrival .superstep 0x2004)
def stepLaunch : Launch := { placedLaunch with rcd := { placedLaunch.rcd with flags := 0x19 } }

theorem witness_rounds : two.roundReady 1 0 = false ∧ two.stepReady 1 = false ∧ (board rounding).roundReady 1 0 = true ∧
    (board stepping placedCrew stepLaunch).stepReady 1 = true := by decide +kernel

/-- A crew whose gang waits at an arrival, in a world or not. -/
theorem everyFibreArrived {v : Arrival} {c : Crew} (hq : ∀ q ∈ c.squads, q.bins = [] ∧ q.formed = []) :
    EveryFibreArrived v [{ c with gangs := [(0, held (.arrival v 0x2004))] }] := by
  refine ⟨⟨_, .head _, _, .head _, { (gang 2 []).fibre 0 with hold := some (.arrival v 0x2004) }, ?_,
    show ((gang 2 []).fibre 0).live = true by decide +kernel⟩, ?_⟩
  · exact List.mem_map.mpr ⟨(gang 2 []).fibre 0, by decide +kernel, rfl⟩
  · intro d hd
    rw [List.mem_singleton.mp hd]
    refine ⟨fun e he f hf _ => ?_, hq⟩
    rw [List.mem_singleton.mp he] at hf
    obtain ⟨b, -, rfl⟩ := List.mem_map.mp hf
    exact ⟨_, rfl⟩

def roundWorld : Crew := { placedCrew with depth := 1, view := 5 }

theorem witness_roundEvents :
    (two.launchOf 1 = some placedLaunch ∧ memSize - 1 < memSize) ∧
    (EveryFibreArrived .roundClose (((board rounding).crewsOf 1).filter fun c => c.depth = 0) ∧
      (board rounding).parked = [] ∧ (board rounding).loggedAdds 1 0 = false ∧ (board rounding).agreed placedLaunch .round = true) ∧
    (EveryFibreArrived .roundClose (((board rounding roundWorld).crewsOf 1).filter fun c => c.view = 5) ∧
      (board rounding roundWorld).launchOf 1 = some placedLaunch ∧ (board rounding roundWorld).loggedAdds 1 5 = false) ∧
    (let s : State := board stepping placedCrew stepLaunch
    EveryFibreArrived .superstep (s.crewsOf 1) ∧
      (∀ c ∈ s.crewsOf 1, c.copies = [] ∧ c.matq = [] ∧ c.stream = none ∧ s.closesOf c = false ∧
        ∀ e ∈ c.gangs, e.2.hostReads = []) ∧
      s.parked = [] ∧ s.packetsOf 1 = false ∧ s.loggedAdds 1 0 = false ∧ s.agreed stepLaunch .superstep = true) := by
  refine ⟨by decide +kernel, ⟨everyFibreArrived (c := placedCrew) (by decide), rfl, rfl, rfl⟩,
    ⟨everyFibreArrived (c := roundWorld) (by decide), rfl, rfl⟩,
    everyFibreArrived (c := placedCrew) (by decide), by decide +kernel, rfl, rfl, rfl, rfl⟩

/-- A launch of three packages, on the one of rank 0: its own value is given, and the first child's has come. -/
def treeLaunch : Launch := { placedLaunch with rcd := { placedLaunch.rcd with spanw := 3 } }
def treeState : State :=
  { board rounding placedCrew treeLaunch with span := { trees := [(treeKey 1 .round, { own := some 0, values := [(1, 0)] })] } }

theorem witness_treeMessages : two.launchOf 1 = some placedLaunch ∧ placedLaunch.rcd.spanw ≤ 2 * two.span.rank.toNat + 1 ∧
    treeState.launchOf 1 = some treeLaunch ∧ treeState.agreed treeLaunch .round = false ∧ treeState.roundReady 1 0 = true ∧
    (board rounding placedCrew treeLaunch).roundReady 1 0 = true ∧
    (board rounding placedCrew treeLaunch).agreed treeLaunch .round = false ∧
    ((board rounding placedCrew treeLaunch).tree 1 .round).own = none ∧
    (board stepping placedCrew { stepLaunch with rcd := { stepLaunch.rcd with spanw := 3 } }).stepReady 1 = true ∧
    (let s : State := { board pair placedCrew treeLaunch with crews := [] }
    s.crewsOf 1 = [] ∧ treeLaunch.st ≠ .ending ∧ s.agreed treeLaunch .ending = false) := by decide +kernel

/-- R394: rank 0 adds its own value, 0, and those of its children, 1 and 2, and sends the outcome down. -/
theorem test_tree : after (exec (.treeAgreementMessage 1 2 (4 * 2 + 1)) { treeState with span := { trees :=
      [(treeKey 1 .round, { own := some 0, values := [(1, 1)] })] } })
    (fun t => ((t.tree 1 .round).forwarded, t.span.out.map fun m => (m.rank, m.value))) = some (some 3, [(1, 3), (2, 3)]) := by
  decide +kernel

/-- The first and last byte of the heap window, and one that only a TLB entry translates. -/
def entryAt : TlbEntry := { ctx := 0, shift := 12, vpn := 0x8000000, frame := 0x5000, w := false, x := false, k := false }
def translated : State := { two with cores := [(0, { tlb := [entryAt] })] }

theorem witness_translations :
    (let w : Ctx := two.ctxAt 0
    w.base.getLsbD 0 = true ∧ (heapByte w.base ≤ 0 ∧ 0 < heapByte w.lim) ∧ 0x7fffffffff < heapByte w.lim ∧ ¬(0x8000000000 < heapByte w.lim)) ∧
    (∀ v ∈ [0, 0x7fffffffff, 0x8000000123], copyPa translated .load v = none) ∧
    tlbLookup translated 0 0 0x8000000123 = some entryAt ∧ permits .load true entryAt.w entryAt.x entryAt.k = true ∧
    permits .store true entryAt.w entryAt.x entryAt.k = false := by decide +kernel

/-- Context 0 without a heap window: its page tables are at 0x10000, where nothing is mapped. -/
def tables : State := { two with ctxs := [], window := { two.window with ptrbase := 0x10000, ptrsize := 0x10000 } }

/-- Those tables with a page table of 64 entries for 4 KiB pages, which has one for page 3, at frame 0x20000: writable, and
present or not. -/
def tableBytes (present : Bool) : List (Nat × Byte) :=
  spread 0x10000 (bytesOfNat 8 0x11000 ++ List.replicate 8 0 ++ [6]) ++
    spread (slotAddr 0 0 0 0x11000 6 3) (bytesOfNat 8 (3 + 2 ^ 63 + 2 ^ 60 + (if present then 2 ^ 62 else 0)) ++ bytesOfNat 8 0x20000)
def mapping (present : Bool) : State := { tables with mem := Map.sets 0 [] (tableBytes present) }

theorem witness_pageWalks : two.agentAt 0 = some copyAgent ∧ inWindow (two.ctxAt 0) 0x3000 = true ∧ inWindow (tables.ctxAt 0) 0x3000 = false ∧
    walk { tables with window := two.window } 0 0x3000 .load true = .broken ∧ walk tables 0 0x3000 .load true = .unmapped ∧
    walk (mapping false) 0 0x3000 .load true = .absent 0x3000 12 false ∧ (∀ r ∈ tables.faults.get [] 0, r.va ≠ 0x3000) ∧
    walk (mapping true) 0 0x3004 .load true =
      .found { ctx := 0, shift := 12, vpn := 3, frame := 0x20000, w := true, x := false, k := false } ∧
    copyPa (mapping true) .load 0x3004 = none := by decide +kernel

/-- Two entries of a page's log, made at one time by cores 1 and 0. -/
def loggedEntry (core : Nat) : SideEntry :=
  { launch := 1, ctx := 0, page := 0x3000, shift := 12, view := 0, time := 5, core := core, squad := 0, items := [.bytes 0x3000 [1]] }

theorem witness_pageResumes :
    (let s : State := { mapping true with savedLog := [loggedEntry 0] }
    (s.cores.flatMap fun k => k.2.sideLog.filter fun y => decide (y.ctx = 0 ∧ 0x3000 / 2 ^ y.shift = y.page.toNat / 2 ^ y.shift)) ++
      s.savedLog.filter (fun y => decide (y.ctx = 0 ∧ 0x3000 / 2 ^ y.shift = y.page.toNat / 2 ^ y.shift)) = [loggedEntry 0] ∧
    walk s 0 (0x3000 % 2 ^ 56) .store true =
      .found { ctx := 0, shift := 12, vpn := 3, frame := 0x20000, w := true, x := false, k := false }) ∧
    (loggedEntry 0).view = 0 ∧ (loggedEntry 0).items = [.bytes 0x3000 [1]] := by decide +kernel

/-- R336: at one time the lower core's entry goes first. -/
theorem test_logOrder : ([(loggedEntry 1, true), (loggedEntry 0, true)].foldl (fun l e => insertEntry e l) []).map (·.1.core) = [0, 1] := by decide +kernel

def asked (p : Preempt) : Crew := { placedCrew with preempt := some p }

/-- A crew that has stopped at its safe points, with writes of a phase still to close and without. -/
def stoppedGang (m : Map Nat) : Gang :=
  { gang 2 [] with sent := m, fibres := (gang 2 []).fibres.map fun f => { f with hold := some .safePoint, safe := some 0 } }
def stoppedCrew (m : Map Nat) : Crew := { asked { since := 0 } with gangs := [(0, stoppedGang m)] }

theorem witness_preemptionRequests : (board pair (asked { since := 0 })).crewAt 0 = some { asked { since := 0 } with gangs := [(0, pair)] } ∧
    ({ two with clock := BitVec.ofNat 64 (2 ^ 20 - 1) } : State).clock.toNat < 0 + 2 ^ 20 ∧
    0 + 2 ^ 20 ≤ ({ two with clock := BitVec.ofNat 64 (2 ^ 20) } : State).clock.toNat ∧
    (firstUnstopped { asked { since := 0 } with gangs := [(0, pair)] }).isSome = true ∧ pair.unstoppedPcs = [0x2000] ∧
    firstUnstopped { asked { since := 0 } with gangs := [(0, stoppedGang [])] } = none := by
  refine ⟨rfl, by decide +kernel⟩

theorem witness_crewSaves :
    (∀ m, m = [] ∨ m = [(3, 1)] → (board (stoppedGang m) (asked { since := 0 })).crewAt 0 = some (stoppedCrew m) ∧
      ((stoppedCrew m).preempt ≠ none ∧ (stoppedCrew m).ending = none ∧ (stoppedCrew m).gangsStopped = true ∧ (stoppedCrew m).drained = true ∧
        (stoppedCrew m).collectiveDue = false) ∧ Map.wf (stoppedCrew m).gangs = true ∧ Map.wf (stoppedGang m).regs = true) ∧
    (∃ e ∈ (stoppedCrew [(3, 1)]).gangs, e.2.sent ≠ []) ∧ (∀ e ∈ (stoppedCrew []).gangs, e.2.sent = []) ∧ two.closesOf (stoppedCrew []) = false ∧
    ({ two with slices := { closing := [closeOf none (some 1) false] } } : State).closesOf (stoppedCrew []) = true := by
  refine ⟨?_, ⟨_, .head _, by decide⟩, by decide +kernel, by decide +kernel, by decide +kernel⟩
  rintro m (rfl | rfl) <;> exact ⟨rfl, by decide +kernel⟩

def savedCrew : Parked := { id := 5, crew := { placedCrew with gangs := [(0, pair)] }, core := 0, bound := true, why := .saved }
def savedState : State :=
  { State.reset with device := { bootst := 1 }, launches := [{ placedLaunch with st := .preempted }], parked := [savedCrew] }

theorem witness_crewResumes : savedState.parked.find? (fun q => q.id == 5) = some savedCrew ∧
    savedState.launchOf 1 = some { placedLaunch with st := .preempted } ∧ serveNext savedState = some (.resume 1) ∧
    canResume savedState { placedLaunch with st := .preempted } = some [(5, 0)] ∧ ([((5 : Nat), (0 : Nat))].map Prod.fst).Nodup ∧
    ([((5 : Nat), (0 : Nat))].map Prod.snd).Nodup ∧ Map.wf savedCrew.crew.gangs = true ∧ serveNext two ≠ some (.resume 1) := by
  decide +kernel

/-! ## Launches -/

/-- A ring of one record at 0x10000. -/
def ringState (m : Mem) : State :=
  { State.reset with device := { bootst := 1 }, mem := m, queues := { ring := 0x10000, size := 1, tail := 1 } :: List.replicate 15 {} }

/-- The record's address stands in the ring: 0x20000, where a record of one crew of one gang with a DONE counter stands or an
empty one, and 1, which is no multiple of 256. -/
def recordMem (done : Nat) : Mem :=
  Map.sets 0 [] (spread 0x10000 (bytesOfNat 8 0x20000) ++ spread 0x20028 (bytesOfNat 8 done) ++
    [(0x20054, 1), (0x20058, 1), (0x2005a, 1), (0x2005b, 1)])
def emptyMem : Mem := [(0x10002, 2)]
def oddMem : Mem := [(0x10000, 1)]

/-- The same ring where the host has given the part page tables, which lie at 0x40000, and no page of them is present. -/
def awayRing : State :=
  { ringState (Map.sets 0 (recordMem 0x3000) (spread 0x40000 (bytesOfNat 8 0x41000 ++ List.replicate 8 0 ++ [6]) ++
      spread (slotAddr 0 0 0 0x41000 6 3) (bytesOfNat 8 (3 + 2 ^ 63 + 2 ^ 60) ++ bytesOfNat 8 0x20000))) with
    window := { State.reset.window with ptrbase := 0x40000, ptrsize := 0x10000 } }

def readFrom (s : State) : Launch :=
  { num := s.nextLaunch, queue := 0, rcd := parseRecord (memBytes s.mem 0x20000 256), features := s.window.featacc }

theorem witness_recordsTaken :
    (∀ s, s = ringState oddMem ∨ s = ringState emptyMem ∨ s = ringState (recordMem 0) ∨ s = ringState (recordMem 0x3000) ∨ s = awayRing →
      s.neverStarted = false ∧ s.device.bootst = 1 ∧ s.mgmt.hot = none ∧ s.queueBusy 0 = false ∧ (s.queueAt 0).current = none ∧
      (s.queueAt 0).head ≠ (s.queueAt 0).tail ∧ (s.queueAt 0).size ≠ 0) ∧
    0 < 16 ∧ 0 < (ringState []).queues.length ∧
    ((ringState []).queueAt 0).size.toNat < (2 - ((ringState []).queueAt 0).head).toNat ∧
    (1 - ((ringState []).queueAt 0).head).toNat ≤ ((ringState []).queueAt 0).size.toNat ∧
    memNat oddMem 0x10000 8 % 256 ≠ 0 ∧ 0x10000 + 8 ≤ memSize ∧
    (∀ m ∈ [emptyMem, recordMem 0, recordMem 0x3000, awayRing.mem], memNat m 0x10000 8 % 256 = 0 ∧ memNat m 0x10000 8 + 256 ≤ memSize) ∧
    checkLaunch (ringState emptyMem) (readFrom (ringState emptyMem)) = .refused 2 ∧
    checkLaunch (ringState (recordMem 0x3000)) (readFrom (ringState (recordMem 0x3000))) = .broken 0x3000 ∧
    (∃ ps, checkLaunch awayRing (readFrom awayRing) = .away ps) ∧
    (Config.pinnedShort (pinnedNeed (readFrom (ringState (recordMem 0))).rcd) = false →
      checkLaunch (ringState (recordMem 0)) (readFrom (ringState (recordMem 0))) = .accepted) := by
  refine ⟨?_, by decide, by decide +kernel, by decide +kernel, by decide +kernel, by decide +kernel, by decide, by decide +kernel,
    by decide +kernel, by decide +kernel, ⟨_, by rfl⟩, fun h => ?_⟩
  · rintro s (rfl | rfl | rfl | rfl | rfl) <;> decide +kernel
  · have : checkLaunch (ringState (recordMem 0)) (readFrom (ringState (recordMem 0))) =
        if Config.pinnedShort (pinnedNeed (readFrom (ringState (recordMem 0))).rcd) then .refused 4 else .accepted := by rfl
    rw [this, h]
    rfl

def okLaunch : Launch := { placedLaunch with rcd := { placedLaunch.rcd with entry := 0x2000, flags := 0 } }

/-- A user record is refused in queue 4 alone; a record with an odd entry; and one that is accepted where the pinned memory
suffices (log 22). -/
theorem witness_launchChecks :
    (({ okLaunch with queue := 4, rcd := { okLaunch.rcd with flags := 1 } } : Launch).rcd.flags.getLsbD 0 = true ∧ 4 ≤ 4) ∧
    ¬(okLaunch.rcd.flags.getLsbD 0 = true ∧ 4 ≤ okLaunch.queue) ∧ (0x2002 : Addr).toNat % 4 ≠ 0 ∧
    (Config.pinnedShort (pinnedNeed okLaunch.rcd) = false → checkLaunch two okLaunch = .accepted) := by
  refine ⟨by decide, by decide, by decide, fun h => ?_⟩
  have : checkLaunch two okLaunch = if Config.pinnedShort (pinnedNeed okLaunch.rcd) then .refused 4 else .accepted := by rfl
  rw [this, h]
  rfl

/-- Heads whose counter is 0, 1, has a status, or lies at an odd address. -/
def depHead (a : Addr) : Head := { launch := { okLaunch with num := 2, rcd := { okLaunch.rcd with dep := [a] } }, checked := true }
def depState0 (a : Addr) : State :=
  { two with mem := [(0x3010, 1), (0x3024, 3)], queues := { current := some (depHead a) } :: List.replicate 15 {} }

theorem witness_dependences :
    (∀ a, ((depState0 a).queueAt 0).current = some (depHead a) ∧ (depHead a).checked = true ∧ (depHead a).depsMet = false) ∧
    0 < (depState0 0).queues.length ∧ (depState0 0).device.bootst = 1 ∧ (depState0 0).mgmt.hot = none ∧
    (∀ a d, (a, d) ∈ [((0x3000 : Addr), Dep.met), (0x3010, .pending), (0x3020, .failed), (0x3008, .unusable)] →
      depState (depState0 a) (depHead a).launch a = d ∧ a ≠ 0) ∧
    depState { depState0 0x3000 with ctxs := [] } (depHead 0x3000).launch 0x3000 = .broken 0x3000 := by
  refine ⟨fun _ => ⟨rfl, rfl, rfl⟩, by decide +kernel, by decide +kernel, by decide +kernel, ?_, by decide +kernel⟩
  intro a d h
  simp only [List.mem_cons, Prod.mk.injEq, List.not_mem_nil, or_false] at h
  rcases h with ⟨rfl, rfl⟩ | ⟨rfl, rfl⟩ | ⟨rfl, rfl⟩ | ⟨rfl, rfl⟩ <;> decide +kernel

/-- A head of 512 crews that is eligible on an empty machine. -/
def readyHead (crews : Nat) : Head :=
  { launch := { okLaunch with num := 2, rcd := { okLaunch.rcd with crews := crews } }, checked := true, depsMet := true }
def placing (crews : Nat) : State :=
  { State.reset with device := { bootst := 1 }, queues := { current := some (readyHead crews) } :: List.replicate 15 {} }

theorem witness_placement : 0 < (placing 1).queues.length ∧ ((placing 1).queueAt 0).current = some (readyHead 1) ∧ (readyHead 1).depsMet = true ∧
    (placing 1).device.bootst = 1 ∧ (placing 1).mgmt.hot = none ∧ serveNext (placing 1) = some (.head 0) ∧
    headCores (placing 1) 0 (readyHead 1) = some [0] ∧ [0].Nodup ∧ (placing 1).launchOf 2 = none ∧
    serveNext (placing 0) ≠ some (.head 1) := by decide +kernel

/-- A head that needs every core, 2^20 cycles after it became eligible, and a running launch of queue 5. -/
def crowded : State :=
  { two with
    clock := BitVec.ofNat 64 (2 ^ 20)
    launches := [{ placedLaunch with queue := 5 }]
    queues := { current := some { readyHead 512 with launch := { (readyHead 512).launch with rcd := { okLaunch.rcd with crews := 512, level := 3 } } } } :: List.replicate 15 {} }

theorem witness_priorityPreemption : ((crowded.queueAt 0).current.map fun h => (h.depsMet, victims crowded 0 h)) = some (true, some [1]) ∧
    ({ crowded with clock := BitVec.ofNat 64 (2 ^ 20 - 1) } : State).clock.toNat < 0 + 2 ^ 20 := by decide +kernel

theorem witness_launchesEnd : two.launchOf 1 = some placedLaunch ∧ placedLaunch.st ≠ .ending ∧ two.crewsOf 1 ≠ [] ∧ Map.wf two.crews = true ∧
    (let e : Launch := { placedLaunch with st := .ending }
    let s : State := { two with launches := [e] }
    s.launchOf 1 = some e ∧ s.logged 1 = false ∧ s.reportRoom = true ∧ e.rcd.doneAt = 0 ∧
    ({ s with savedLog := [loggedEntry 0] } : State).logged 1 = true ∧ ({ s with savedLog := [loggedEntry 0] } : State).loggedAdds 1 0 = false ∧
    ((({ s with savedLog := [{ loggedEntry 0 with items := [.ordered 0x3000 { launch := 1, view := 0, pa := 0, wide := false, value := 0, key := [], core := 0, squad := 0, tangent := false }] }] } : State).dropCrews 1).loggedAdds 1 0 = true) ∧
    (s.dropCrews 1).logged 1 = false ∧ (s.dropCrews 1).loggedAdds 1 0 = false ∧ ({ s with crews := [] } : State).crewsOf 1 = [] ∧
    (∀ c ∈ s.ordered, c.launch ≠ 1)) ∧
    ∃ u, ({ two with crews := [], mem := [(0x3000, 1)] } : State).signal (controlAgent placedLaunch) 0 0x3000 0 0 = .done u :=
  ⟨by decide +kernel, by decide +kernel, by decide +kernel, by decide +kernel, by decide +kernel, done_of (by decide +kernel)⟩

theorem witness_launchesCancelled : ((placing 1).queueAt 0).current = some (readyHead 1) ∧ (readyHead 1).launch.num = 2 ∧
    (∀ k, k < 16 → (two.queueAt k).current = none) := by decide +kernel

/-! ## Fabric, links, host and management -/

def packetTo (laps : BitVec 3) (age : BitVec 7) : FabPacket := { cls := 1, laps := laps, age := age, dst := 0, src := 1 }

/-- A slot of loop 0 that passes stop 0 with a packet for it. -/
def arriving (p : FabPacket) (t : Stop) : State :=
  { two with fabric := { stops := [(0, t)], slots := [(slotKey 0 0 (slotAt 0 ((placeOn 0 0).getD 0) 0), p)] } }

theorem witness_routes : (0 < 256 ∧ 255 < 256) ∧ stopOf 0 < 48 ∧ stopOf (3 * 64 + 51) = 51 ∧ 0 ≠ 16 ∧ (packetTo 0 0).dst.toNat = 0 ∧
    dieOf 0 = dieOf 16 ∧ dieOf 0 ≠ dieOf 64 := by decide

theorem witness_packetInjection : (placeAt 0 0).isSome = true ∧ (arriving (packetTo 0 0) {}).fabric.slots.find (slotKey 0 0 (slotAt 0 ((placeOn 0 0).getD 0) 0)) ≠ none ∧
    two.fabric.slots.find (slotKey 0 0 (slotAt 0 ((placeOn 0 0).getD 0) 0)) = none ∧
    (let st (age : BitVec 7) : Stop := { queues := [(1, [packetTo 0 age])], pointer := [(0, 1)] }
    (st 64).queue 0 1 = packetTo 0 64 :: [] ∧ (st 64).paused 1 = false ∧ (packetTo 0 64).age = 64 ∧ (st 0).pointer.get 0 0 = 1 ∧
      ringOrder[1]? = some 1 ∧ 0 < (((st 0).credits.find 0).getD [8, 4, 4, 1]).getD 1 0 ∧ (st 0).acted.get 0 0 ≠ 0 + 1 ∧
      (((({ st 0 with credits := [(0, [8, 0, 4, 1])] } : Stop).credits.find 0).getD [8, 4, 4, 1]).getD 1 0 = 0) ∧ 0 < two.mgmt.weights.getD 1 0 ∧
      ({ st 0 with acted := [(0, 1)] } : Stop).acted.get 0 0 = 0 + 1) ∧
    (packetTo 0 62).since ≤ 0 ∧ (packetTo 0 62).promoted = none ∧ (packetTo 0 62).age.toNat < 64 ∧ 64 ≤ (packetTo 0 62).age.toNat + 2 := by
  decide +kernel

/-- R384's worked example: CTL goes at cycle 0, and leaves 7 credits. -/
theorem test_injection : after (exec (.packetInject 0 0) { two with fabric := { stops := [(0, { queues :=
      [(2, [{ packetTo 0 0 with cls := 2 }]), (3, [{ packetTo 0 0 with cls := 3 }])] })] } })
    (fun t => ((t.fabric.stopAt 0).credits.find 0, ((t.fabric.slots.map fun e => e.2.cls)))) = some (some [7, 4, 4, 1], [3]) := by
  decide +kernel

/-- Three others gone before a BLK that waits, and not; a bridge's packet for another die; a request; reply entries. -/
theorem witness_stopsTake :
    (let t : Stop := { eject := [(1, [packetTo 0 0]), (2, [{ packetTo 0 0 with cls := 2 }])], sinceBlk := 3 }
    t.eject.get [] 2 = { packetTo 0 0 with cls := 2 } :: [] ∧ t.sump = [] ∧ t.eject.get [] 2 ≠ [] ∧ 3 ≤ t.sinceBlk ∧
      ¬(3 ≤ ({ t with sinceBlk := 2 } : Stop).sinceBlk) ∧ t.eject.get [] 1 ≠ [] ∧ t.eject.get [] 3 = []) ∧
    (let p : FabPacket := { packetTo 0 0 with dst := 65 }
    dieOf p.dst.toNat = 0 ^^^ (0 + 1) ∧ p.dst.toNat ≠ portStop (0 ^^^ (0 + 1))) ∧
    ({ stops := [(0, { served := 1 })] } : Fabric).stopAt 0 = { served := 1 } ∧ two.clock.toNat + 1 = 1 ∧
    stopOf 16 < 48 ∧ replyTo 0 0 = some .line ∧ replyTo 0 0 ≠ none ∧ (two.coreAt 0).outbox = [] ∧ (two.coreAt 0).reserved.length < 128 ∧
    (({ two with cores := [(0, { reserved := List.replicate 128 0 })] } : State).coreAt 0).reserved.length = 128 := by decide +kernel
/-- Laps 3 and 4; room, and none; a class paused, and not; a count that is to reach 2^32 − 1. -/
theorem witness_packetEjection : leaving two 0 0 = none ∧ (leaving (arriving (packetTo 4 0) {}) 0 0).isSome = true ∧
    (packetTo 3 0).laps ≠ 4 ∧ (packetTo 4 0).laps = 4 ∧ (({} : Stop).eject.get [] 1).length < ejectRoom 0 1 ∧
    ({ sump := [(1, packetTo 4 0)] } : Stop).paused 1 = true ∧ ({} : Stop).paused 1 = false ∧
    ({ diverted := [(1, 2 ^ 32 - 2)] } : Stop).diverted.get 0 1 = 2 ^ 32 - 2 ∧ ejectRoom 16 1 ≤ (List.replicate 16 (packetTo 0 0)).length := by
  decide +kernel

theorem witness_spanPorts : 15 < 16 ∧ (two.portAt 15).down = false ∧ ({ down := true } : Port).down = true ∧ 0 < ({ seq := 1 } : Port).seq ∧
    ({ seq := 1 } : Port).seq < 2 ∧ ({} : Port).waiting = [] ∧ (∀ e ∈ ({ fails := [(3, 15)] } : Port).fails, e.2 < 16) ∧
    (∃ e ∈ ({ fails := [(3, 16)] } : Port).fails, 16 ≤ e.2) ∧ two.reportRoom = true :=
  ⟨by decide, by decide +kernel, rfl, by decide, by decide, rfl, by decide, ⟨(3, 16), by decide, by decide⟩, by decide +kernel⟩

/-- A span route table at 0x6000 whose mask for %span 1 is ports 2 and 5. -/
def routed : State := { two with mem := [(0x6002, 0x24)], window := { two.window with spanrt := 0x6000 } }

theorem witness_spanSends : routed.portFrom 1 3 = some 5 ∧ routed.portFrom 1 6 = some 2 ∧ routed.portFrom 0 0 = none ∧
    ({ down := true } : Port).down = true ∧ ({ out := [(1, [packetTo 0 0])] } : Port).out.get [] 1 = packetTo 0 0 :: [] ∧
    (∀ k, k < 4 → ringIndex k < ringIndex 1 → ({ out := [(1, [packetTo 0 0])] } : Port).out.get [] k = []) := by decide +kernel

def readingGang : Gang :=
  { gang 2 [] with
    hostReads := [{ tag := 3, issued := 0, parts := [{ va := 0x5000000000000000, dests := [regKey 0 20 0], words := [0x04030201] }] }]
    destWait := [regKey 0 20 0] }

theorem witness_hostReads : (board readingGang).gangAt 0 0 = some readingGang ∧ (readingGang.hostReads.find? (fun q => q.tag == 3)).isSome = true ∧
    readingGang.destWait.Nodup ∧ (readingGang.fibre 0).live = true ∧ (readingGang.fibre (regKey 0 20 0 % 64)).live = true ∧
    0 + 2 ^ 24 < ({ board readingGang with clock := BitVec.ofNat 64 (2 ^ 24 + 1) } : State).clock.toNat ∧ 0 + 2 ^ 24 ≤ ({ board readingGang with clock := BitVec.ofNat 64 (2 ^ 24) } : State).clock.toNat ∧
    ({ board readingGang with clock := BitVec.ofNat 64 (2 ^ 24 - 1) } : State).clock.toNat < 0 + 2 ^ 24 := by
  refine ⟨rfl, by decide +kernel⟩

theorem witness_windowWrites : two.neverStarted = false ∧ ({ two with device := { bootst := 0x80 } } : State).neverStarted = true ∧
    (∃ l ∈ two.launches, l.cores ≠ []) ∧ (∀ l ∈ ({ two with launches := [{ placedLaunch with cores := [] }] } : State).launches, l.cores = []) ∧
    15 < State.reset.queues.length :=
  ⟨by decide, by decide, ⟨placedLaunch, .head _, by decide⟩, by decide, by decide⟩

theorem witness_attestation : two.device.bootst = 1 ∧ State.reset.device.bootst ≠ 1 ∧ 1 ≤ (List.replicate 1 (0 : Byte)).length ∧
    (List.replicate 64 (0 : Byte)).length ≤ 64 ∧ 64 < (List.replicate 65 (0 : Byte)).length ∧ 15 < 16 ∧
    (∀ l ∈ two.launches, l.queue = 15 → l.cores = []) ∧
    (∀ q, q < 16 → ∃ l ∈ (List.range 16).map (fun n => ({ placedLaunch with queue := n } : Launch)), l.queue = q ∧ l.cores ≠ []) := by decide

/-- Settings at their limits and past them. -/
theorem witness_settings : 2 ^ 20 ≤ 2 ^ 20 ∧ ¬(2 ^ 20 + 1 ≤ 2 ^ 20) ∧ (3 < 4 ∧ 1 ≤ 15 ∧ 15 ≤ 15) ∧ (1500 ≤ 1500 ∧ 3600 ≤ 3600) ∧
    ({ two with clock := 1023 } : State).clock.toNat < 1024 ∧ 1024 ≤ ({ two with clock := 1024 } : State).clock.toNat ∧ 0 + 1024 < 2 ^ 64 ∧
    (two.mgmt.power < ({ two.mgmt with watts := 3601 } : Mgmt).watts ∧ ∃ d ∈ ({ two.mgmt with temps := [0, 106, 0, 0] } : Mgmt).temps, 105 < d) ∧
    ¬(two.mgmt.power < two.mgmt.watts ∨ ∃ d ∈ two.mgmt.temps, 105 < d) ∧
    0 + 10000 * two.mgmt.clockMhz ≤ ({ two with clock := 25000000 } : State).clock.toNat :=
  ⟨by decide, by decide, by decide, by decide, by decide, by decide, by decide, ⟨by decide, 106, by decide, by decide⟩, by decide, by decide⟩

theorem witness_powerAndBoot : ({ State.reset with device := { powered := false } } : State).device.powered = false ∧
    State.reset.device.powered = true ∧ State.reset.device.bootst = 0 ∧ two.device.bootst ≠ 0 := by decide

theorem witness_thermalStops : State.reset.device.bootst ≠ 1 ∧ two.device.bootst = 1 ∧ two.mgmt.hot = none ∧ (placing 1).launches = [] ∧
    (∀ l ∈ two.launches, l.rcd.doneAt = 0) ∧ Map.wf two.crews = true ∧ two.device.reports = [] ∧ two.device.reports.length + 1 < 4096 ∧
    two.mgmt.temps.getD 3 0 ≤ 115 ∧ 115 < ({ two.mgmt with temps := [0, 0, 0, 116] } : Mgmt).temps.getD 3 0 ∧ two.reportRoom = true ∧
    ({ two with window := { two.window with repsize := 1 } } : State).ringFull = false := by decide +kernel

/-- A DONE whose page is absent. -/
def doneLaunch : Launch := { placedLaunch with rcd := { placedLaunch.rcd with doneAt := 0x3000 } }
theorem witness_thermalWaits :
    (match (stopAll 3 { mapping false with launches := [doneLaunch] }).signal (controlAgent doneLaunch) 0 0x3000 3 0 with
      | .away _ => true | _ => false) = true ∧ doneLaunch.doneSent = false ∧ doneLaunch.rcd.doneAt ≠ 0 := by decide +kernel

/-- R400: FEATACC keeps the six features that are offered. -/
theorem test_featacc : after (exec (.feataccWrite false 0xffffffffffffffff) two) (fun t => t.window.featacc) = some 0x3f := by decide +kernel

/-! ## Whole-machine statements -/

/-- A machine with a crew whose gang is to issue, and the word 0x7600 0000 at its PC. -/
def stepping0 : State := State.reset.withFetchWord 32 0x76000000

theorem witness_stepRunsDecoded : stepping0.agenda = .issue 0 0 :: [] ∧ (pickGroup { stepping0 with agenda := [] } 0 0).isSome = true ∧
    (stepping0.agentAt 0).isSome = true ∧ (stepping0.crewAt 0).isSome = true ∧ (stepping0.launchOf 1).isSome = true ∧
    encode (.nop {}) = [0x76000000] ∧ WellFormed (.nop {}) ∧ (Instr.nop {}).pfx?.isSome = true ∧
    ((stepping0.agentAt 0).map fun w => (stepping0.launches.map fun l => fetchWord stepping0 w l 0)) = some [.word 0x76000000] ∧
    itsTurn { stepping0 with agenda := [] } 0 0 = true ∧ itsTurn { stepping0 with agenda := [] } 0 1 = false := by
  refine ⟨rfl, by decide +kernel, by decide +kernel, by decide +kernel, by decide +kernel, by decide +kernel, ?_, rfl, by decide +kernel, by decide +kernel, by decide +kernel⟩
  unfold WellFormed
  decide +kernel

theorem witness_memoryOk : MemoryOk stepping0 ∧ isNext (step stepping0) = true := ⟨⟨by decide +kernel, by decide +kernel⟩, by decide +kernel⟩

theorem witness_registerUnits : onRegistersAlone (.add {} (g 20) (g 16) (g 17) .n32) = true ∧
    ∃ t, exec (.add {} (g 20) (g 16) (g 17) .n32) two = .next t := ⟨rfl, next_of (by decide +kernel)⟩

theorem witness_worldsLeaveMemory :
    (let c : Crew := { memCrew with depth := 1, view := 1 }
    let s : State := { board memGang c with views := [(1, { parent := 0 })], window := { two.window with vpsize := 0x10000 } }
    unitCtx {} s = some (ctxOf 3 memGang c) ∧ c.depth ≠ 0 ∧ (ctxOf 3 memGang c).view ≠ 0 ∧
      (∀ w, s.views.find 1 = some w → w.state ≠ 1) ∧
      ∃ t, exec (.st {} (g 28) (g 18) .b32 0) s = .next t) :=
  ⟨ctx_of rfl rfl rfl rfl (live_of_two rfl) mask_two, by decide, by decide, fun w h => by cases h; decide, next_of (by decide +kernel)⟩

/-- R77, R78: the add of the encoding table's fields, fetched and run as the first instruction. -/
theorem test_step : after (step (State.reset.withFetchWord 32 0x20400005)) (fun t => (t.gangAt 0 0).map fun a => ((a.fibre 63).pc, a.reg 0 63 16)) =
    some (some (4, 5)) := by decide +kernel

/-! ## Decoding: a word of every instruction, laid out from the field tables of R78 to R100 -/

/-- Each word decodes to the instruction beside it. -/
def reads (l : List (Nat × Instr)) : Bool := l.all fun p => decodeTableWord 32 p.1 == some p.2

def x : Pfx := {}

theorem test_wordsInteger : reads [
    (0x0248a163, .add x 18 20 22 .i64), (0x0448a166, .sub x 18 20 22 .n32), (0x0648a164, .mul x 18 20 22 .n8),
    (0x0848a162, .mulh x 18 20 22 .i32), (0x0a48a161, .mad x 18 20 22 .i16), (0x0c48a160, .min x 18 20 22 .i8),
    (0x0e48a165, .max x 18 20 22 .n16), (0x1048a167, .shl x 18 20 22 .n64), (0x1248a166, .shr x 18 20 22 .n32),
    (0x1448a162, .sar x 18 20 22 .i32), (0x1648a160, .and x 18 20 22 false), (0x1648a169, .or x 18 20 22 true),
    (0x1648a162, .xor x 18 20 22 false), (0x1648a16b, .andn x 18 20 22 true), (0x1848a000, .abs x 18 20 false),
    (0x1848a003, .neg x 18 20 true), (0x1848a004, .clz x 18 20 false), (0x1848a007, .popc x 18 20 true),
    (0x1848a008, .brev x 18 20 false), (0x1848a00b, .mov x 18 20 true), (0x1a48a160, .bfx x 18 20 22 true),
    (0x1a48a162, .bfi x 18 20 22), (0x1a48a163, .prmt x 18 20 22), (0x1c48a169, .sel x 18 20 22 9),
    (0x1f4ca163, .cmp x .ge 3 20 22 .i64)] = true := by decide +kernel

theorem test_wordsImmediate : reads [
    (0x2048a5a5, .addi x 18 20 0x5a5), (0x2248a5a5, .muli x 18 20 0x5a5), (0x2448a5a5, .shli x 18 20 0x5a5),
    (0x2648a5a5, .shri x 18 20 0x5a5), (0x2848a5a5, .sari x 18 20 0x5a5), (0x2a48a5a5, .andi x 18 20 0x5a5),
    (0x2c48a5a5, .ori x 18 20 0x5a5), (0x2e48a5a5, .xori x 18 20 0x5a5), (0x3048a5a5, .andni x 18 20 0x5a5),
    (0x325ca7ff, .cmpiI32 x .ne 7 20 0x7ff), (0x3520a001, .cmpiN32 x .gt 8 20 1), (0x36480123, .movi x 18 0x123),
    (0x384aabcd, .lui x 18 0x2abcd), (0x3a48a400, .lea x 18 20 0x400)] = true := by decide +kernel

theorem test_wordsCrossLaneAndPredicate : reads [
    (0x3c48a421, .shfl x 18 20 .down 33), (0x3c48a17f, .shflReg x 18 20 .idx 127), (0x3e482810, .ballot x 18 5 true),
    (0x3e182900, .voteAny x 6 5 false), (0x3e182a10, .voteAll x 6 5 true), (0x3e3c0b00, .voteUni x 15 1 false),
    (0x7c0c8820, .pand x 3 true 1 false 2), (0x7c0c0921, .por x 3 false 1 true 2), (0x7c0c0822, .pxor x 3 false 1 false 2),
    (0x7c0c8803, .pnot x 3 true 1), (0x7c0ca004, .pset x 3 20)] = true := by decide +kernel

theorem test_wordsFloat : reads [
    (0x4048a168, .fadd x 18 20 22 .f32), (0x4248a169, .fsub x 18 20 22 .f16x2), (0x4448a16a, .fmul x 18 20 22 .bf16x2),
    (0x4648a16b, .ffma x 18 20 22 .f64), (0x4848a168, .fmin x 18 20 22 .f32), (0x4a48a169, .fmax x 18 20 22 .f16x2),
    (0x4c48a16a, .fdiv x 18 20 22 .bf16x2), (0x4e48a16a, .fdot2 x 18 20 22 .bf16x2),
    (0x5188a16b, .fcmp x .un 2 20 22 .f64), (0x5248a008, .fneg x 18 20 .f32), (0x5248a018, .fabs x 18 20 .f32),
    (0x5248a028, .fsqrt x 18 20 .f32), (0x5248a038, .frcp x 18 20 .f32), (0x5248a048, .frsq x 18 20 .f32),
    (0x5248a058, .fclass x 18 20 .f32), (0x5448a17b, .fscale x 18 20 23 .f64), (0x6048a382, .cvt x 18 20 .rd .f32 (.int .i32)),
    (0x6248a17c, .cvtSr x 18 20 23 .fp19), (0x6448c406, .cvtPack x 18 24 .ru .fp4),
    (0x6648c173, .cvtPackSr x 18 24 23 .fp8e5), (0x6860a009, .cvtUnpack x 24 20 .i4), (0x6a48a008, .fexp2 x 18 20),
    (0x6a48a018, .flog2 x 18 20), (0x6a48a028, .fsin x 18 20), (0x6a48a038, .fcos x 18 20),
    (0x6a48a048, .ftanh x 18 20)] = true := by decide +kernel

theorem test_wordsControl : reads [
    (0x713ffff0, .bra x true 3 0xffff0), (0x72200040, .call x false 2 0x40), (0x7400a000, .brx x 20), (0x74000001, .ret x),
    (0x76000000, .nop x), (0x76000001, .exit x), (0x76000002, .yield x), (0x76000004, .bkpt x), (0x76000005, .trap x),
    (0x76000006, .tret x), (0x7600a003, .sleep x 20), (0x76480167, .rpf x 18 0 22), (0x7800a030, .wbase x 20 3),
    (0x7a00a160, .spawn x 20 22)] = true := by decide +kernel

theorem test_wordsMemory : reads [
    (0x8060a37f, .ld x 24 20 .b128 0x7f), (0x8248a103, .st x 18 20 .i16 3), (0x8448a400, .ldFe x 18 20 .f64 0),
    (0x8648a0c0, .stFill x 18 20 .n8 0x40), (0x8800a160, .feClr x 20 22), (0x8a48a169, .atom32 x 18 20 22 .cas),
    (0x8c48a16b, .atom64 x 18 20 22 .faddOrd), (0x8e00a16c, .red32 x 20 22 .faddF16), (0x9000a164, .red64 x 20 22 .maxU),
    (0x92000161, .fenceFull x .system 0x21), (0x92000204, .fenceAcq x .squad 4), (0x920004ff, .fenceRel x .domain 0x3f),
    (0x9400a01f, .barArrive x 20 31), (0x9400a11f, .barWait x 20 31), (0x9400a21f, .barSync x 20 31),
    (0x9400a31f, .barExpect x 20 31), (0x96000000, .sstep x), (0x96000001, .rclose x), (0x9800a000, .prefL1 x 20),
    (0x9800a100, .prefCc x 20), (0x9800a200, .prefMs x 20), (0x9800a300, .cctlWb x 20), (0x9800a400, .cctlInv x 20),
    (0x9800a500, .cctlRoinv x 20)] = true := by decide +kernel

theorem test_wordsLayout : reads [
    (0xa01ca7fe, .lld x 7 20 0x7fe), (0xa21ca002, .lst x 7 20 2), (0xa41c4090, .lchain x 7 8 9),
    (0xa41c4161, .lpart x 7 8 22), (0xa41c42a2, .ltrans x 7 8 5 2), (0xa41c4043, .lflat x 7 8 4),
    (0xa41c4164, .lswz x 7 8 22), (0xa60c4002, .lchk x 3 8 .copy), (0xa848a080, .ltile x 18 20 8),
    (0xaa48a080, .stile x 18 20 8)] = true := by decide +kernel

theorem test_wordsMatrix : reads [
    (0xb004a089, .mldb x 1 20 8 .bx8), (0xb25ca163, .mma x 23 20 22 .fp16), (0xb414a16f, .mmaC x 5 20 22 .n4),
    (0xb614a161, .msca x 5 20 22 .colF32), (0xb810a000, .mzero x 4 20), (0xba48a002, .mread x 18 20 .f16),
    (0xba48a00c, .mwrite x 18 20 .i32), (0xbc482800, .mver x 18 5), (0xbc002961, .mwait x 5 22),
    (0xbc482802, .mstat x 18 5)] = true := by decide +kernel

theorem test_wordsCopyQueueAndTask : reads [
    (0xc060a160, .cpyLoad x 24 20 22), (0xc060a161, .cpyStore x 24 20 22), (0xc260a160, .cpym x 24 20 22),
    (0xc400a160, .cwait x 20 22), (0xc448a001, .cstat x 18 20), (0xc6483000, .qpop x 18 6),
    (0xc6483031, .qpopTry x 18 6 3), (0xc800a160, .qpush x 20 22), (0xc80ca161, .qpushTry x 3 20 22),
    (0xca483000, .qstat x 18 6), (0xcc00a160, .strm x 20 22), (0xcc000001, .strmStop x), (0xcc000002, .strmWait x),
    (0xd048a160, .tspawn x 18 20 22), (0xd2000000, .texit x), (0xd2000001, .calmwait x), (0xd2480002, .role x 18),
    (0xd2000003, .rolewait x), (0xd400a160, .append x 20 22), (0xd448a031, .drain x 18 20 3)] = true := by decide +kernel

theorem test_wordsWorldAndSystem : reads [
    (0xd8484000, .wfork x 18 8), (0xda00a000, .wyield x 20), (0xda000001, .wabort x), (0xdc00a000, .wchoose x 20),
    (0xdc000001, .wchooseNone x), (0xde48a000, .wstatScore x 18 20), (0xde48a001, .wstatStatus x 18 20),
    (0xe0480022, .srd x 18 false 0x22), (0xe200a11e, .swr x 20 true 0x1e), (0xe400a000, .tlbinvPage x 20),
    (0xe400a001, .tlbinvCtx x 20), (0xe4000002, .tlbinvAll x), (0xe600a000, .ctxq x 20),
    (0xe8480000, .mcheck x 18)] = true := by decide +kernel

/-- R85 to R90: the four prefixes of one unit, in their order, with the fields of each. -/
theorem test_wordsPrefixes : (match decodeWords [0xfc123456, 0xfe330000, 0xfe490000, 0xfe614000, 0x80404384] with
    | .ok (i, rest) => i == .ld { ext := some 0x123456, guard := some ⟨true, 3⟩, dual := some ⟨.get, 1, 0⟩, safe := some 5 } 16 8 .f32 4 &&
        rest.isEmpty
    | .error _ => false) = true := by
  decide +kernel

/-! ## Ill-formed terms: one for each check of WellFormed -/

/-- Each term is refused for the reason beside it. -/
def refuses (l : List (Instr × Reject)) : Bool := l.all fun p => illFormed p.1 == some p.2

/-- R20: pairs that are not even, groups that are not aligned. -/
theorem test_illFormedPairs : refuses [(.add x 17 20 22 .i64, .operand), (.and x 16 21 22 true, .operand), (.mov x 16 21 true, .operand),
    (.lea x 17 20 0, .operand), (.ballot x 17 0 false, .operand), (.fadd x 16 20 23 .f64, .operand), (.cvt x 17 20 .ctl .f32 .f64, .operand),
    (.brx x 21, .operand), (.ld x 18 20 .b128 0, .operand), (.ld x 17 20 .b64 0, .operand), (.ld x 16 21 .b32 0, .operand),
    (.atom64 x 16 20 23 .add, .operand), (.cvtPack x 16 21 .ctl .f16, .operand), (.cvtUnpack x 18 20 .fp8e4, .operand),
    (.cpyLoad x 20 18 22, .operand), (.cpyStore x 24 21 22, .operand), (.cpym x 24 20 21, .operand), (.qpush x 16 21, .operand),
    (.strm x 16 21, .operand), (.tspawn x 16 21 22, .operand), (.lswz x 0 0 21, .operand), (.srd x 17 true 0, .operand)] = true := by
  decide +kernel

/-- R79, R81, R82, R96, R97: codes and numbers that the instruction does not accept. -/
theorem test_illFormedCodes : refuses [(.mulh x 16 17 18 .i8, .operand), (.shl x 16 17 18 .i32, .operand), (.sar x 16 17 18 .n32, .operand),
    (.fdot2 x 16 17 18 .f32, .operand), (.fcmp x .lt 0 16 17 .f16x2, .operand), (.cvtSr x 16 17 18 .f32, .operand),
    (.atom64 x 16 20 22 .faddF16, .operand), (.red32 x 20 22 .cas, .operand), (.red64 x 20 22 .xchg, .operand),
    (.fenceFull x .crew 0, .operand), (.ltrans x 0 1 6 0, .operand), (.lflat x 0 1 6, .operand), (.mver x 16 24, .operand),
    (.msca x 24 20 22 .rowF32, .operand), (.mzero x 0 0, .operand), (.mzero x 20 5, .operand), (.wfork x 16 1, .operand),
    (.wfork x 16 9, .operand)] = true := by decide +kernel

/-- R33: a number with no register, one that starts no pair, and a write of a read-only one. -/
theorem test_illFormedSpecials : refuses [(.srd x 16 false 6, .operand), (.srd x 16 true 2, .operand), (.swr x 16 false 8, .operand),
    (.swr x 16 false 0x2a, .operand)] = true := by decide +kernel

/-- R85, R98: an extension whose bits <35:32> no 32-bit operand has, and reserved or illegal bits of a control immediate. -/
theorem test_illFormedExtensions : refuses [(.addi { ext := some 0x0200000 } 16 17 0, .operand), (.movi { ext := some 0x1e00000 } 16 0, .operand),
    (.mma { ext := some 0x30 } 0 20 22 .bf16, .operand), (.mma { ext := some 0x2000 } 0 20 22 .bf16, .operand),
    (.mmaC { ext := some 0x1800 } 1 20 22 .bf16, .operand), (.cpyLoad { ext := some 0x40 } 24 20 22, .operand),
    (.cpyLoad { ext := some 0x10 } 24 20 22, .operand), (.cpym { ext := some 0x800 } 24 20 22, .operand),
    (.cpym { ext := some 0x30 } 24 20 22, .operand)] = true := by decide +kernel

/-- R86, R88, R90, R293: a prefix the instruction does not accept, and a prefix with a bad field. -/
theorem test_illFormedPrefixes : refuses [(.add { ext := some 0 } 16 17 18 .i32, .refused 0), (.bra { guard := some ⟨false, 1⟩ } false 0 0, .refused 1),
    (.nop { dual := some ⟨.zero, 0, 0⟩ }, .refused 2), (.fclass { dual := some ⟨.zero, 0, 0⟩ } 16 17 .f32, .refused 2),
    (.ld { dual := some ⟨.zero, 1, 0⟩ } 16 20 .f32 0, .field 2), (.fmul { dual := some ⟨.get, 0, 5⟩ } 16 17 18 .f32, .field 2),
    (.fadd { dual := some ⟨.seed, 0, 17⟩ } 16 18 20 .f64, .field 2), (.nop { safe := some 113 }, .field 3)] = true := by decide +kernel

/-- The encoding of a well-formed unit with two prefixes, and its way back. -/
theorem test_roundTrip : (match decode (bytesOf (encode (.addi { ext := some 0x1ffffff, guard := some ⟨true, 3⟩ } 16 17 0x7ff)) ++ [1, 2, 3]) with
    | .ok (i, rest) => i == .addi { ext := some 0x1ffffff, guard := some ⟨true, 3⟩ } 16 17 0x7ff && rest == [1, 2, 3]
    | .error _ => false) = true := by decide +kernel

/-- A well-formed unit, and bytes that decode. -/
theorem witness_encodings : (Instr.addi { ext := some 0x1ffffff, guard := some ⟨true, 3⟩ } 16 17 0x7ff).pfx?.isSome = true ∧
    illFormed (.addi { ext := some 0x1ffffff, guard := some ⟨true, 3⟩ } 16 17 0x7ff) = none ∧
    decode [0x00, 0x00, 0x00, 0x76, 0xff] = .ok (.nop {}, [0xff]) := ⟨by decide +kernel, by decide +kernel, rfl⟩

end Sys2Proof.Tests
end

section
/-! The frame of the units on registers alone (O57): a unit that finds an uncorrectable error in a register that it reads
records the machine check in its core (R27, R179), so the cores are not as they were. -/

namespace Sys2Proof.Machine

/-! ## What a trap leaves of the cores -/

@[simp] theorem raiseFlags_cores (s : State) (core squad : Nat) (fl tfl : Word) :
    (s.raiseFlags core squad fl tfl).cores = s.cores := by
  unfold State.raiseFlags
  split <;> rfl

@[simp] theorem raiseUnit_cores (s : State) (c : UnitCtx) (fl tfl : Word) : (s.raiseUnit c fl tfl).cores = s.cores := by
  unfold State.raiseUnit
  split
  · rfl
  · exact raiseFlags_cores ..

@[simp] theorem fatalTrap_cores (core slot : Nat) (cause : BitVec 8) (pc : Addr) (s : State) :
    (fatalTrap core slot cause pc s).cores = s.cores := by
  unfold fatalTrap
  split
  · rfl
  · dsimp only
    split <;> rfl

@[simp] theorem takeTrap_cores (core slot : Nat) (m : BitVec 64) (pc : Addr) (t : Trap) (s : State) :
    (takeTrap core slot m pc t s).cores = s.cores := by
  unfold takeTrap
  split
  · rfl
  · split
    · dsimp only
      split
      · exact fatalTrap_cores ..
      · split
        · exact fatalTrap_cores ..
        · rfl
    · rfl

@[simp] theorem holdUnit_cores (c : UnitCtx) (h : Hold) (s : State) : (holdUnit c h s).cores = s.cores := rfl

@[simp] theorem raiseTrap_cores (c : UnitCtx) (t : Trap) (fl : Word) (s : State) :
    (raiseTrap c t fl s).cores = s.cores := by
  unfold raiseTrap
  dsimp only
  split
  · rfl
  · split <;> simp

/-! ## A register error that a unit finds (R27) -/

/-- A unit that nothing turns away before its registers are read finds the error of one of them. -/
theorem gate_error {x : Pfx} {n : Need} {s : State} {c : UnitCtx} {b : BadReg} (hc : unitCtx x s = some c)
    (hx : x.safe = none) (calm : c.gang.pending = []) (open_ : c.gang.fence = none) (landed : c.gang.destWait = [])
    (ht : sharedTrap c n = none) (hb : foundError c n = some b) : gate x n s = .error c b := by
  simp [gate, hc, hx, dueTrap, calm, fenceStalls, open_, waitingKeys, landed, ht, hb]

theorem issueUnit_error {x : Pfx} {n : Need} {s : State} {c : UnitCtx} {b : BadReg} (body : UnitCtx → State → Act)
    (h : gate x n s = .error c b) : issueUnit x n body s = .next (registerTrap c b s) := by
  simp [issueUnit, h]

/-- The trap of a register error leaves of the cores what recording the machine check does. -/
theorem registerTrap_cores (c : UnitCtx) (b : BadReg) (s : State) :
    (registerTrap c b s).cores = (s.machineCheck c.core b.cls).cores := raiseTrap_cores ..

@[simp] theorem coreAt_modCore (s : State) (k j : Nat) (f : Core → Core) :
    (s.modCore k f).coreAt j = if j = k then f (s.coreAt k) else s.coreAt j :=
  Map.get_put ({} : Core) s.cores k j (f (s.coreAt k))

/-- A machine check of a core that has none recorded sets V (R179), so the core is not as it was. -/
theorem machineCheck_cores_ne {s : State} {core : Nat} (cls : BitVec 4)
    (h : (s.coreAt core).mcheck.getLsbD 31 = false) : (s.machineCheck core cls).cores ≠ s.cores := by
  intro e
  have hv : ((s.machineCheck core cls).coreAt core).mcheck.getLsbD 31 = true := by
    rw [State.machineCheck, coreAt_modCore, if_pos rfl, if_neg (h ▸ Bool.false_ne_true)]
    simp
  rw [State.coreAt, e] at hv
  exact Bool.noConfusion (h.symm.trans hv)

/-! ## A gang with a latent error -/

/-- A gang whose register g17 holds, in lane 0, an error that no unit has found yet. -/
def latentGang : Gang :=
  { fibres := List.replicate 64 { live := true }, bad := [{ key := bufferKey 0 0 17, lane := 0, cls := 1 }] }

/-- Core 0 runs that gang alone, and it is to issue. -/
def latentState : State :=
  { State.reset with
    launches := [placedLaunch]
    crews := [(0, { placedCrew with gangs := [(0, latentGang)] })]
    issue := some { core := 0, slot := 0, mask := BitVec.allOnes 64, pc := 0 } }

/-- The context in which it issues. -/
def latentCtx : UnitCtx :=
  { core := 0, slot := 0, mask := BitVec.allOnes 64, acts := BitVec.allOnes 64, pc := 0, x := {}
    crew := { placedCrew with gangs := [(0, latentGang)] }, gang := latentGang, launch := placedLaunch }

theorem unitCtx_latentState : unitCtx {} latentState = some latentCtx := by
  have hm : maskWhere (fun k => (BitVec.allOnes 64).getLsbD k && (latentGang.fibre k).live) = BitVec.allOnes 64 := by
    decide +kernel
  have ha : maskWhere (fun k => (BitVec.allOnes 64).getLsbD k && guardHolds {} latentGang k) = BitVec.allOnes 64 := by
    decide +kernel
  have h : unitCtx {} latentState = some { latentCtx with
      mask := maskWhere (fun k => (BitVec.allOnes 64).getLsbD k && (latentGang.fibre k).live)
      acts := maskWhere (fun k => (maskWhere (fun k => (BitVec.allOnes 64).getLsbD k && (latentGang.fibre k).live)).getLsbD k &&
        guardHolds {} latentGang k) } := rfl
  rw [h, hm, ha]
  rfl

theorem exec_mov (x : Pfx) (d a : Reg) (w : Bool) (s : State) : exec (.mov x d a w) s =
    issueUnit x (needMove (regsOf w a) (regsOf w d)) (laneUnit fun c l =>
      c.moved l w d (fun p => c.gang.regN w p l a.toNat)) s := rfl

/-- What mov g16, g17 names passes the shared checks, and the error of g17 is found. -/
theorem gate_latentState : gate {} (needMove (regsOf false 17) (regsOf false 16)) latentState =
    .error latentCtx { key := bufferKey 0 0 17, lane := 0, cls := 1 } :=
  gate_error unitCtx_latentState rfl rfl rfl rfl (by decide +kernel) (by decide +kernel)

/-- mov g16, g17 traps. -/
theorem exec_mov_latentState : exec (.mov {} 16 17 false) latentState =
    .next (registerTrap latentCtx { key := bufferKey 0 0 17, lane := 0, cls := 1 } latentState) :=
  (exec_mov ..).trans (issueUnit_error _ gate_latentState)

/-- Refutes O57: mov g16, g17 in a gang where g17 holds an error that no unit has found takes the trap of R27 and records
the machine check in its core (R179), while the statement has every core as it was. -/
theorem not_registerUnitsLeaveTheRest : ¬ Obligations.RegisterUnitsLeaveTheRest := by
  intro h
  obtain ⟨-, -, -, -, -, hcores, -⟩ := h (.mov {} 16 17 false) latentState _ rfl exec_mov_latentState
  rw [registerTrap_cores] at hcores
  exact machineCheck_cores_ne _ rfl hcores

end Sys2Proof.Machine
end

section
/-! What two writes of one key leave of sparse data. -/

namespace Sys2Proof.Map

variable {α : Type}

theorem put_put (m : Map α) (k : Nat) (v w : α) : (m.put k v).put k w = m.put k w := by
  induction m with
  | nil => simp [put]
  | cons e m ih =>
    obtain ⟨i, u⟩ := e
    rcases Nat.lt_trichotomy k i with h | rfl | h
    · simp [put, h]
    · simp [put]
    · have hlt : ¬k < i := by omega
      have hne : k ≠ i := by omega
      simp [put, hlt, hne, ih]

theorem modify_modify (m : Map α) (k : Nat) (f f' : α → α) :
    (m.modify k f).modify k f' = m.modify k (f' ∘ f) := by
  cases h : m.find k with
  | none => simp [modify, h]
  | some v => simp [modify, h, find_put, put_put]

end Sys2Proof.Map
end

section
/-! What the completion of a unit changes (O12): its gang as released, and around it the frame of using registers. -/

namespace Sys2Proof.Machine

/-! ## Two changes of one gang -/

theorem modGang_modGang (s : State) (k n : Nat) (f f' : Gang → Gang) :
    (s.modGang k n f).modGang k n f' = s.modGang k n (f' ∘ f) := by
  have hcrew : (fun c : Crew => c.modGang n f') ∘ (fun c : Crew => c.modGang n f) =
      fun c => c.modGang n (f' ∘ f) := by
    funext c
    simp [Crew.modGang, Map.modify_modify]
  simp [State.modGang, State.modCrew, Map.modify_modify, hcrew]

@[simp] theorem crewAt_modGang (s : State) (k n j : Nat) (f : Gang → Gang) :
    (s.modGang k n f).crewAt j = if j = k then (s.crewAt k).map (·.modGang n f) else s.crewAt j := crewAt_modCrew ..

/-! ## The gang of a unit that has completed -/

/-- What settle makes of the unit's gang before its registers go through the operand buffer. -/
def settledGang (c : UnitCtx) (n : Need) (now : Nat) (g : Gang) : Gang :=
  let g := (g.modLanes c.mask (fun l f => Fibre.settled now (c.gang.fibre l) f)).noteIssue c.mask now
  clearErrors c n { g with fence := g.fence.map (fun f => { f with writes := f.writes + bufferWrites c n }) }

theorem settle_eq (c : UnitCtx) (n : Need) (s : State) :
    settle c n s = useRegs c n (s.modGang c.core c.slot (settledGang c n s.clock.toNat)) := rfl

/-- What finish makes of it: the issuing fibres stand at the next unit, and the gang is settled. -/
def releasedGang (c : UnitCtx) (n : Need) (now : Nat) (g : Gang) : Gang :=
  settledGang c n now (g.modLanes c.mask fun _ f => { f with pc := c.nextPc })

theorem finish_eq (c : UnitCtx) (n : Need) (s : State) :
    finish c n s = useRegs c n (s.modGang c.core c.slot (releasedGang c n s.clock.toNat)) :=
  congrArg (useRegs c n) (modGang_modGang s c.core c.slot (fun g => g.modLanes c.mask fun _ f => { f with pc := c.nextPc })
    (settledGang c n s.clock.toNat))

/-- Beside its fibres, completion marks the issue of a gang without a fence and drops the errors that it overwrites. -/
theorem releasedGang_rest (c : UnitCtx) (n : Need) (now : Nat) {g : Gang} (h : g.fence = none) :
    releasedGang c n now g = { g with
      fibres := (releasedGang c n now g).fibres, lastIssue := now, reported := false
      bad := g.bad.filter fun b => !(overwritten c n).contains b.key } := by
  simp only [releasedGang, settledGang, clearErrors, Gang.noteIssue, Gang.modLanes, h, Option.map_none]

theorem fibre_settledGang (c : UnitCtx) (n : Need) (now l : Nat) (g : Gang) :
    (settledGang c n now g).fibre l = ((g.modLanes c.mask fun l f => Fibre.settled now (c.gang.fibre l) f).fibre l).noted
      c.mask now := fibre_noteIssue ..

/-- An issuing fibre that the unit has left in no new wait goes on. -/
theorem fibre_releasedGang (c : UnitCtx) (n : Need) (s : State) {g : Gang} {l : Nat} (hm : c.mask.getLsbD l = true)
    (hl : l < g.fibres.length) (hh : (g.fibre l).hold = (c.gang.fibre l).hold)
    (hk : (g.fibre l).kept = (c.gang.fibre l).kept) :
    (releasedGang c n s.clock.toNat g).fibre l = (g.fibre l).goesOn s c.nextPc := by
  have hf : (g.modLanes c.mask fun _ f => { f with pc := c.nextPc }).fibre l = { g.fibre l with pc := c.nextPc } :=
    (fibre_modLanes ..).trans (if_pos ⟨hm, hl⟩)
  rw [releasedGang, fibre_settledGang, fibre_modLanes, if_pos ⟨hm, (modLanes_length ..).symm ▸ hl⟩, hf,
    settled_kept (f := { g.fibre l with pc := c.nextPc }) hh hk]
  exact noted_unheld _ _ rfl

/-- A fibre of another group keeps all but what its yield waits for. -/
theorem fibre_releasedGang_other (c : UnitCtx) (n : Need) (now : Nat) (g : Gang) {l : Nat}
    (hm : c.mask.getLsbD l = false) : (g.fibre l).sameButYield ((releasedGang c n now g).fibre l) := by
  have out (k : Gang) (f : Nat → Fibre → Fibre) : (k.modLanes c.mask f).fibre l = k.fibre l :=
    (fibre_modLanes ..).trans (if_neg (by simp [hm]))
  rw [releasedGang, fibre_settledGang, out, out]
  exact noted_sameButYield ..

/-! ## The machine around it -/

/-- What a change of the unit's gang and the use of its registers leave: the crew around the gang as FileFrame says. -/
theorem useRegs_modGang_frame (c : UnitCtx) (n : Need) (s : State) (f : Gang → Gang) {r : Crew}
    (hr : s.crewAt c.core = some r) :
    let t := useRegs c n (s.modGang c.core c.slot f)
    t = { s with crews := t.crews } ∧ (∀ k, k ≠ c.core → t.crews.find k = s.crews.find k) ∧
    ∃ q, t.crewAt c.core = some q ∧ FileFrame c.slot (r.modGang c.slot f) q := by
  obtain ⟨hs, hcores, hcrew⟩ := useRegs_frame c n (s.modGang c.core c.slot f) (cr := r.modGang c.slot f) (by simp [hr])
  exact ⟨hs, fun k hk => (hcores k hk).trans ((crewAt_modGang ..).trans (if_neg hk)), hcrew⟩

/-- Settles O12: useRegs_modGang_frame says what surrounds the gang, and releasedGang what the gang itself becomes. -/
theorem completedUnitReleasesItsGroup : Obligations.CompletedUnitReleasesItsGroup := by
  intro c n u r g hr hg hopen
  dsimp only
  rw [finish_eq]
  obtain ⟨hu, hcores, q, hq, hfile⟩ := useRegs_modGang_frame c n u (releasedGang c n u.clock.toNat) hr
  have hother (k : Nat) (hk : k ≠ c.slot) :
      (r.modGang c.slot (releasedGang c n u.clock.toNat)).gangs.find k = r.gangs.find k :=
    (find_modGang ..).trans (if_neg hk)
  obtain ⟨h, hh, hsame⟩ := hfile.own (releasedGang c n u.clock.toNat g) (by simp [hg])
  have hfibs : h.fibres = (releasedGang c n u.clock.toNat g).fibres := by rw [hsame]
  have hfib (l : Nat) : h.fibre l = (releasedGang c n u.clock.toNat g).fibre l := congrArg (·.getD l {}) hfibs
  refine ⟨hu, hcores, q, h, hq, hfile.rest, fun k hk => ?_, fun k hk => ?_, hfile.others, hfile.mine, hh, ?_,
    fun l hm hl hhold hkept => ?_, fun l hm => ?_⟩
  · exact (hfile.far k hk).trans (hother k fun e => hk (congrArg squadOf e))
  · exact hother k hk ▸ hfile.near k hk
  · rw [releasedGang_rest c n _ hopen] at hsame
    rw [hfibs]
    exact hsame
  · exact (hfib l).trans (fibre_releasedGang c n u hm hl hhold hkept)
  · exact (hfib l).symm ▸ fibre_releasedGang_other c n u.clock.toNat g hm

end Sys2Proof.Machine
end

section
/-! The layout algebra (R212): lpart, ltrans and lflat, mode by mode. -/

namespace Sys2Proof.Machine

/-! ## Lists of modes -/

/-- The place of mode m is taken by x and y, and the modes behind it move up. -/
theorem getD_split {α : Type} {l : List α} {len m k : Nat} (x y d : α) (hl : l.length = len) (hm : m < len) (hk : k < len) :
    ((l.take m ++ [x, y] ++ l.drop (m + 1)).take len).getD k d =
      if k < m then l.getD k d else if k = m then x else if k = m + 1 then y else l.getD (k - 1) d := by
  subst hl
  have ht : (l.take m).length = m := List.length_take_of_le (Nat.le_of_lt hm)
  simp only [List.getD_eq_getElem?_getD, List.getElem?_take, if_pos hk, List.append_assoc]
  rcases Nat.lt_trichotomy k m with h | rfl | h
  · rw [if_pos h, List.getElem?_append_left (ht.symm ▸ h), List.getElem?_take, if_pos h]
  · rw [if_neg (Nat.lt_irrefl k), if_pos rfl, List.getElem?_append_right (Nat.le_of_eq ht), ht, Nat.sub_self]
    rfl
  · rw [if_neg (Nat.lt_asymm h), if_neg (Nat.ne_of_gt h), List.getElem?_append_right (ht.symm ▸ Nat.le_of_lt h), ht]
    split
    · next e =>
      rw [e, Nat.add_sub_cancel_left]
      rfl
    · rw [List.getElem?_append_right (show 2 ≤ k - m by omega), List.getElem?_drop]
      exact congrArg (fun j => l[j]?.getD d) (show m + 1 + (k - m - 2) = k - 1 by omega)

/-- The places of modes m and m + 1 are taken by x, and the modes behind them move down. -/
theorem getD_join {α : Type} {l : List α} {len m k : Nat} (x z d : α) (hl : l.length = len) (hm : m + 1 < len)
    (hk : k + 1 < len) :
    ((l.take m ++ [x] ++ l.drop (m + 2) ++ [z]).take len).getD k d =
      if k < m then l.getD k d else if k = m then x else l.getD (k + 1) d := by
  subst hl
  have ht : (l.take m).length = m := List.length_take_of_le (by omega)
  simp only [List.getD_eq_getElem?_getD, List.getElem?_take, if_pos (show k < l.length by omega), List.append_assoc]
  rcases Nat.lt_trichotomy k m with h | rfl | h
  · rw [if_pos h, List.getElem?_append_left (ht.symm ▸ h), List.getElem?_take, if_pos h]
  · rw [if_neg (Nat.lt_irrefl k), if_pos rfl, List.getElem?_append_right (Nat.le_of_eq ht), ht, Nat.sub_self]
    rfl
  · rw [if_neg (Nat.lt_asymm h), if_neg (Nat.ne_of_gt h), List.getElem?_append_right (ht.symm ▸ Nat.le_of_lt h), ht,
      List.getElem?_append_right (show 1 ≤ k - m by omega),
      List.getElem?_append_left (by rw [List.length_drop, List.length_singleton]; omega), List.getElem?_drop,
      List.length_singleton]
    exact congrArg (fun j => l[j]?.getD d) (show m + 2 + (k - m - 1) = k + 1 by omega)

namespace Lay

theorem getD_swap {α : Type} (d : α) {l : List α} {i j : Nat} (hi : i < l.length) (hj : j < l.length) (k : Nat) :
    (swap d l i j).getD k d = l.getD (if k = i then j else if k = j then i else k) d := by
  simp only [swap, List.getD_eq_getElem?_getD, List.getElem?_set, List.length_set]
  grind

/-! ## lpart -/

/-- lpart's operand for mode m and part n. -/
def partWord (m n : Nat) : Word := BitVec.ofNat 32 (n * 256 + m)

theorem partWord_mode {m n : Nat} (hm : m < 8) : ((partWord m n).extractLsb' 0 3).toNat = m := by
  simp [partWord, BitVec.extractLsb'_toNat]
  omega

theorem partWord_parts {m n : Nat} (hm : m < 8) (hn : n < 256) : ((partWord m n).extractLsb' 8 8).toNat = n := by
  simp [partWord, BitVec.extractLsb'_toNat, Nat.shiftRight_eq_div_pow]
  omega

/-- What keeps mode m from being split in n. -/
def partRefused (l : Lay) (m n : Nat) : Prop :=
  n < 2 ∨ l.ext.getD m 0 % n ≠ 0 ∨ l.nmode ≤ m ∨ l.nmode = 6 ∨ l.circ.getLsbD m = true ∨ l.die = m

/-- Mode m split in two, the inner one with what is left of its extent, the outer one with n places. -/
def parted (l : Lay) (m n : Nat) : Lay :=
  { l with
    ext := (l.ext.take m ++ [l.ext.getD m 0 / n, n] ++ l.ext.drop (m + 1)).take 6
    step := (l.step.take m ++ [l.step.getD m 0, l.step.getD m 0 * (l.ext.getD m 0 / n : Nat)] ++ l.step.drop (m + 1)).take 6
    nmode := l.nmode + 1
    circ := (l.circLow m ||| ((l.circ >>> (m + 1)) <<< (m + 2))) &&& 0x3f#8
    die := l.dieMoved (m + 1) true }

/-- lpart's test of its operands. -/
theorem partRefused_iff (l : Lay) (m n : Nat) :
    (decide (n < 2) || l.ext.getD m 0 % n != 0 || decide (m ≥ l.nmode) || l.nmode == 6 || l.circOf m || l.die == m) = true ↔
      l.partRefused m n := by
  simp only [partRefused, circOf, Bool.or_eq_true, decide_eq_true_eq, bne_iff_ne, beq_iff_eq, or_assoc, ge_iff_le]

theorem part_eq (l : Lay) {m n : Nat} (hm : m < 8) (hn : n < 256) [Decidable (l.partRefused m n)] :
    l.part (partWord m n) = if l.partRefused m n then l.invalid else orInvalid l (l.parted m n) := by
  unfold part
  simp only [partWord_mode hm, partWord_parts hm hn]
  split
  · next h => rw [if_pos ((partRefused_iff l m n).mp h)]
  · next h => rw [if_neg (mt (partRefused_iff l m n).mpr h), parted]

theorem mem_step_fits {l : Lay} : l.fits = true ↔ ∀ i ∈ l.step, -(2 ^ 31 : Int) ≤ i ∧ i < 2 ^ 31 := by
  simp [fits]

/-- The steps of a split mode fit where those of the layout and the new one do. -/
theorem parted_fits {l : Lay} {m n : Nat} (hl : l.fits = true) (hm : m < l.step.length)
    (hs : -(2 ^ 31 : Int) ≤ l.step.getD m 0 * (l.ext.getD m 0 / n : Nat) ∧
      l.step.getD m 0 * (l.ext.getD m 0 / n : Nat) < 2 ^ 31) : (l.parted m n).fits = true := by
  rw [mem_step_fits] at hl ⊢
  intro i hi
  have hi := List.mem_of_mem_take hi
  simp only [List.mem_append, List.mem_cons, List.not_mem_nil, or_false] at hi
  rcases hi with (hi | rfl | rfl) | hi
  · exact hl i (List.mem_of_mem_take hi)
  · rw [List.getD_eq_getElem?_getD, List.getElem?_eq_getElem hm]
    exact hl _ (List.getElem_mem hm)
  · exact hs
  · exact hl i (List.mem_of_mem_drop hi)

/-- A mode that can be split is split. -/
theorem part_formed {l : Lay} {m n : Nat} (hn : n < 256) (h6 : l.nmode ≤ 6) (hsl : l.step.length = 6)
    (hr : ¬l.partRefused m n) (hf : l.fits = true)
    (hs : -(2 ^ 31 : Int) ≤ l.step.getD m 0 * (l.ext.getD m 0 / n : Nat) ∧
      l.step.getD m 0 * (l.ext.getD m 0 / n : Nat) < 2 ^ 31) : l.part (partWord m n) = l.parted m n := by
  classical
  have hm : m < 6 := by
    unfold partRefused at hr
    omega
  rw [part_eq l (by omega) hn, if_neg hr, orInvalid, if_pos (parted_fits hf (by omega) hs)]

theorem part_refused {l : Lay} {m n : Nat} (hm : m < 6) (hn : n < 256) (hr : l.partRefused m n) :
    (l.part (partWord m n)).nmode = 0 := by
  classical
  rw [part_eq l (by omega) hn, if_pos hr]
  rfl

theorem parted_ext {l : Lay} {m n k : Nat} (hl : l.ext.length = 6) (hm : m < 6) (hk : k < 6) :
    (l.parted m n).ext.getD k 0 = if k < m then l.ext.getD k 0 else if k = m then l.ext.getD m 0 / n
      else if k = m + 1 then n else l.ext.getD (k - 1) 0 :=
  getD_split _ _ _ hl hm hk

theorem parted_step {l : Lay} {m n k : Nat} (hl : l.step.length = 6) (hm : m < 6) (hk : k < 6) :
    (l.parted m n).step.getD k 0 = if k < m then l.step.getD k 0 else if k = m then l.step.getD m 0
      else if k = m + 1 then l.step.getD m 0 * (l.ext.getD m 0 / n : Nat) else l.step.getD (k - 1) 0 :=
  getD_split _ _ _ hl hm hk

/-! ## ltrans -/

/-- Two modes that the layout has are exchanged. -/
theorem trans_formed {l : Lay} {i j : Nat} (hi : i < l.nmode) (hj : j < l.nmode) :
    (l.trans i j).nmode = l.nmode ∧ (l.trans i j).ext = swap 0 l.ext i j ∧ (l.trans i j).step = swap 0 l.step i j := by
  have hc : ¬(decide (i ≥ l.nmode) || decide (j ≥ l.nmode)) = true := by simp; omega
  unfold trans
  rw [if_neg hc]
  exact ⟨rfl, rfl, rfl⟩

theorem trans_refused {l : Lay} {i j : Nat} (h : l.nmode ≤ i ∨ l.nmode ≤ j) : (l.trans i j).nmode = 0 := by
  have hc : (decide (i ≥ l.nmode) || decide (j ≥ l.nmode)) = true := by simpa using h
  unfold trans
  rw [if_pos hc]
  rfl

/-! ## lflat -/

/-- What keeps modes m and m + 1 from being joined. -/
def flatRefused (l : Lay) (m : Nat) : Prop :=
  l.nmode ≤ m + 1 ∨ l.step.getD (m + 1) 0 ≠ l.step.getD m 0 * (l.ext.getD m 0 : Nat) ∨
    65535 < l.ext.getD m 0 * l.ext.getD (m + 1) 0 ∨ l.circ.getLsbD m = true ∨ l.circ.getLsbD (m + 1) = true ∨
    l.die = m ∨ l.die = m + 1

/-- Modes m and m + 1 joined, of the layout with one mode less. -/
def flattened (l : Lay) (m : Nat) : Lay :=
  { l with
    ext := (l.ext.take m ++ [l.ext.getD m 0 * l.ext.getD (m + 1) 0] ++ l.ext.drop (m + 2) ++ [l.ext.getD 5 0]).take 6
    step := (l.step.take m ++ [l.step.getD m 0] ++ l.step.drop (m + 2) ++ [l.step.getD 5 0]).take 6
    nmode := l.nmode - 1
    circ := l.circLow m ||| ((l.circ >>> (m + 2)) <<< (m + 1))
    die := l.dieMoved (m + 2) false }

/-- lflat's test of its operands. -/
theorem flatRefused_iff (l : Lay) (m : Nat) :
    (decide (m + 1 ≥ l.nmode) || l.step.getD (m + 1) 0 != l.step.getD m 0 * (l.ext.getD m 0 : Int) ||
      decide (l.ext.getD m 0 * l.ext.getD (m + 1) 0 > 65535) || l.circOf m || l.circOf (m + 1) || l.die == m ||
      l.die == m + 1) = true ↔ l.flatRefused m := by
  simp only [flatRefused, circOf, Bool.or_eq_true, decide_eq_true_eq, bne_iff_ne, beq_iff_eq, or_assoc, ge_iff_le, gt_iff_lt]

theorem flat_eq (l : Lay) (m : Nat) [Decidable (l.flatRefused m)] :
    l.flat m = if l.flatRefused m then l.invalid else l.flattened m := by
  unfold flat
  dsimp only
  split
  · next h => rw [if_pos ((flatRefused_iff l m).mp h)]
  · next h => rw [if_neg (mt (flatRefused_iff l m).mpr h), flattened]

theorem flat_formed {l : Lay} {m : Nat} (h : ¬l.flatRefused m) : l.flat m = l.flattened m := by
  classical
  rw [flat_eq, if_neg h]

theorem flat_refused {l : Lay} {m : Nat} (h : l.flatRefused m) : (l.flat m).nmode = 0 := by
  classical
  rw [flat_eq, if_pos h]
  rfl

theorem flattened_ext {l : Lay} {m k : Nat} (hl : l.ext.length = 6) (hm : m < 5) (hk : k < 5) :
    (l.flattened m).ext.getD k 0 = if k < m then l.ext.getD k 0
      else if k = m then l.ext.getD m 0 * l.ext.getD (m + 1) 0 else l.ext.getD (k + 1) 0 :=
  getD_join _ _ _ hl (by omega) (by omega)

theorem flattened_step {l : Lay} {m k : Nat} (hl : l.step.length = 6) (hm : m < 5) (hk : k < 5) :
    (l.flattened m).step.getD k 0 = if k < m then l.step.getD k 0
      else if k = m then l.step.getD m 0 else l.step.getD (k + 1) 0 :=
  getD_join _ _ _ hl (by omega) (by omega)

end Lay

/-- R212: the three functions on a layout's modes. -/
theorem layoutAlgebra : Rules.LayoutAlgebra := by
  intro l m n i hel hsl h6
  refine ⟨fun hm hn => ⟨?_, fun h => Lay.part_refused hm hn h⟩, fun hm hi => ?_, fun h => Lay.trans_refused h, ?_,
    fun h => ?_⟩
  · rintro ⟨h2, hdiv, hmode, hroom, hcirc, hdie, hfits, hlo, hhi⟩
    have hr : ¬l.partRefused m n := by unfold Lay.partRefused; grind
    have e : l.part (BitVec.ofNat 32 (n * 256 + m)) = l.parted m n := Lay.part_formed hn h6 hsl hr hfits ⟨hlo, hhi⟩
    dsimp only
    rw [e]
    have he {k : Nat} (hk : k < 6) := Lay.parted_ext (n := n) hel hm hk
    have hs {k : Nat} (hk : k < 6) := Lay.parted_step (n := n) hsl hm hk
    refine ⟨rfl, ?_, ?_, ?_, ?_, fun k hk => ⟨?_, ?_⟩, fun k hk hk5 => ⟨?_, ?_⟩⟩
    · rw [he hm, if_neg (Nat.lt_irrefl m), if_pos rfl]
    · rw [he (by omega), if_neg (by omega), if_neg (by omega), if_pos rfl]
    · rw [hs hm, if_neg (Nat.lt_irrefl m), if_pos rfl]
    · rw [hs (by omega), if_neg (by omega), if_neg (by omega), if_pos rfl]
    · rw [he (by omega), if_pos hk]
    · rw [hs (by omega), if_pos hk]
    · rw [he (by omega), if_neg (by omega), if_neg (by omega), if_neg (by omega), Nat.add_sub_cancel]
    · rw [hs (by omega), if_neg (by omega), if_neg (by omega), if_neg (by omega), Nat.add_sub_cancel]
  · obtain ⟨hn, he, hs⟩ := Lay.trans_formed hm hi
    refine ⟨hn, fun k _ => ?_⟩
    dsimp only
    rw [he, hs]
    exact ⟨Lay.getD_swap 0 (by omega) (by omega) k, Lay.getD_swap 0 (by omega) (by omega) k⟩
  · intro hm hstep hext hc0 hc1 hd0 hd1
    have hr : ¬l.flatRefused m := by unfold Lay.flatRefused; grind
    dsimp only
    rw [Lay.flat_formed hr]
    have he {k : Nat} (hk : k < 5) := Lay.flattened_ext hel (show m < 5 by omega) hk
    have hs {k : Nat} (hk : k < 5) := Lay.flattened_step hsl (show m < 5 by omega) hk
    refine ⟨rfl, ?_, ?_, fun k hk => ⟨?_, ?_⟩, fun k hk hk6 => ⟨?_, ?_⟩⟩
    · rw [he (by omega), if_neg (Nat.lt_irrefl m), if_pos rfl]
    · rw [hs (by omega), if_neg (Nat.lt_irrefl m), if_pos rfl]
    · rw [he (by omega), if_pos hk]
    · rw [hs (by omega), if_pos hk]
    · rw [he (by omega), if_neg (by omega), if_neg (by omega), Nat.sub_add_cancel (by omega)]
    · rw [hs (by omega), if_neg (by omega), if_neg (by omega), Nat.sub_add_cancel (by omega)]
  · exact Lay.flat_refused (by unfold Lay.flatRefused; grind)

end Sys2Proof.Machine
end

section
/-! What a completed unit leaves of its own gang, and where accesses to the own scratchpad land. -/

namespace Sys2Proof.Machine

/-! ## A unit that nothing turns away completes -/

/-- A unit of the context c has performed u, in which its crew is r and its gang g, and has completed: what t is, with the
crew q and the gang h. -/
structure Released (c : UnitCtx) (s u : State) (r : Crew) (g : Gang) (t : State) (q : Crew) (h : Gang) : Prop where
  machine : t = { u with crews := t.crews }
  crew : t.crewAt c.core = some q
  rest : q = { r with gangs := q.gangs, squads := q.squads }
  gang : q.gangs.find c.slot = some h
  kept : h = { g with fibres := h.fibres, buffer := h.buffer, stored := h.stored, lastIssue := u.clock.toNat,
                      reported := false, bad := h.bad }
  on : ∀ l, c.mask.getLsbD l = true → h.fibre l = (g.fibre l).goesOn s c.nextPc

namespace Released

variable {c : UnitCtx} {s u t : State} {r q : Crew} {g h : Gang}

theorem mem (a : Released c s u r g t q h) : t.mem = u.mem := by rw [a.machine]
theorem host (a : Released c s u r g t q h) : t.host = u.host := by rw [a.machine]
theorem scratch (a : Released c s u r g t q h) : q.scratch = r.scratch := by rw [a.rest]
theorem regs (a : Released c s u r g t q h) : h.regs = g.regs := by rw [a.kept]
theorem layouts (a : Released c s u r g t q h) : h.layouts = g.layouts := by rw [a.kept]
theorem bankdeg (a : Released c s u r g t q h) : h.bankdeg = g.bankdeg := by rw [a.kept]
theorem gangAt (a : Released c s u r g t q h) : t.gangAt c.core c.slot = some h := by
  rw [State.gangAt, a.crew, Option.bind_some, a.gang]

end Released

theorem Clear.done {x : Pfx} {n : Need} {s u : State} {c : UnitCtx} {body : UnitCtx → State → Act} {r : Crew} {g : Gang}
    (hc : Clear x n s c) (hb : body c s = .done u) (hclock : u.clock = s.clock) (hr : u.crewAt c.core = some r)
    (hg : r.gangs.find c.slot = some g) (hopen : g.fence = none) (hlen : g.fibres.length = c.gang.fibres.length)
    (hfib : ∀ l, (g.fibre l).hold = (c.gang.fibre l).hold ∧ (g.fibre l).kept = (c.gang.fibre l).kept) :
    ∃ t q h, issueUnit x n body s = .next t ∧ Released c s u r g t q h := by
  obtain ⟨hu, -, q, h, hq, hrest, -, -, -, -, hh, hkept, hon, -⟩ := completedUnitReleasesItsGroup c n u r g hr hg hopen
  refine ⟨finish c n u, q, h, issueUnit_done hc hb, hu, hq, hrest, hh, by rw [hkept], fun l hl => ?_⟩
  rw [hon l hl (hlen ▸ (unitCtx_of hc.ctx).mask_length hl) (hfib l).1 (hfib l).2, Fibre.goesOn, hclock]
  rfl

/-- A unit that changes its own gang alone. -/
theorem Clear.done_modGang {x : Pfx} {n : Need} {s : State} {c : UnitCtx} {body : UnitCtx → State → Act} {f : Gang → Gang}
    (hc : Clear x n s c) (hb : body c s = .done (s.modGang c.core c.slot f)) (hopen : (f c.gang).fence = none)
    (hlen : (f c.gang).fibres.length = c.gang.fibres.length)
    (hfib : ∀ l, ((f c.gang).fibre l).hold = (c.gang.fibre l).hold ∧ ((f c.gang).fibre l).kept = (c.gang.fibre l).kept) :
    ∃ t q h, issueUnit x n body s = .next t ∧
      Released c s (s.modGang c.core c.slot f) (c.crew.modGang c.slot f) (f c.gang) t q h := by
  have hof := unitCtx_of hc.ctx
  exact hc.done hb rfl (by simp [hof.crew]) (by simp [hof.gang]) hopen hlen hfib

/-! ## The own scratchpad (R181, R182) -/

theorem UnitCtx.Of.launch_num {c : UnitCtx} {x : Pfx} {s : State} (h : c.Of x s) : c.crew.launch = c.launch.num := by
  have hl := h.launch
  unfold State.launchOf at hl
  exact (beq_iff_eq.mp (List.find?_some hl :)).symm

/-- An address of path 0x2 lands in the issuing core's scratchpad where that holds the bytes. -/
theorem place_ownPad {c : UnitCtx} {x : Pfx} {s : State} (h : c.Of x s) (kind : AccessKind) (barOk : Bool) {a : Addr}
    {size : Nat} (hp : pathOf a = 2) (hin : a.toNat % 2 ^ 20 + size ≤ c.crew.size) :
    place s c.agent kind barOk a size = .here (.pad c.core (a.toNat % 2 ^ 20)) := by
  have hcore : padCore c.core a = c.core := by
    have e : (a.extractLsb' 60 4).toNat = 2 := hp
    simp [padCore, e]
  have hoff : (a.extractLsb' 0 20).toNat = a.toNat % 2 ^ 20 := by simp [BitVec.extractLsb'_toNat]
  simp only [place, hp, UnitCtx.agent, hcore, hoff, placePad, h.crew]
  rw [if_neg (fun hne => hne h.launch_num), if_pos hin]

theorem lowestFail_none {rs : List Req} {ok : Req → Bool} (h : ∀ r ∈ rs, ok r = true) : lowestFail rs ok = none := by
  rw [lowestFail, List.filter_eq_nil_iff.mpr (fun r hr => by simp [h r hr])]
  rfl

/-- Accesses to the own scratchpad that pass the checks of R182 change nothing and land. -/
theorem access_ownPad {c : UnitCtx} {x : Pfx} {s : State} (h : c.Of x s) {cls : Cls} {wordKind : Bool}
    {samePath align : Req → Bool} {rs : List Req} (hcls : accepts cls wordKind 2 = true)
    (hp : ∀ r ∈ rs, pathOf r.addr = 2) (hz : ∀ r ∈ rs, zeroBitsOk r.addr = true)
    (hs : ∀ r ∈ rs, samePath r = true) (ha : ∀ r ∈ rs, align r = true)
    (hin : ∀ r ∈ rs, r.addr.toNat % 2 ^ 20 + r.size ≤ c.crew.size) :
    access c s cls wordKind samePath align rs =
      .go (rs.map fun r => (r, .here (.pad c.core (r.addr.toNat % 2 ^ 20)))) s := by
  have hplace : (rs.map fun r => (r, place s c.agent cls.kind (cls == .load || cls == .lld) r.addr r.size)) =
      rs.map fun r => (r, Place.here (.pad c.core (r.addr.toNat % 2 ^ 20))) :=
    List.map_congr_left fun r hr => by rw [place_ownPad h _ _ (hp r hr) (hin r hr)]
  have hpath : lowestFail rs (fun r => pathOk c.crew.depth cls wordKind r.addr && samePath r) = none :=
    lowestFail_none fun r hr => by simp [pathOk, hz r hr, hs r hr, hp r hr, hcls, worldRefuses]
  have hpriv : lowestFail rs (fun r => pathOf r.addr != 6 || c.priv) = none :=
    lowestFail_none fun r hr => by simp [hp r hr]
  unfold access
  simp only [hpath, hpriv, lowestFail_none ha, hplace]
  have hbroken (l : Loc) : (Place.here l == .broken) = false := by simp
  have hfault (l : Loc) : (Place.here l != .fault) = true := by simp
  have hnone : rs.find? (fun _ => false) = none := List.find?_eq_none.mpr fun _ _ => Bool.false_ne_true
  have hpeer : rs.findSome? (fun _ => (none : Option Nat)) = none := List.findSome?_eq_none_iff.mpr fun _ _ => rfl
  have hland : lowestFail rs (fun _ => rs.all fun _ => true) = none :=
    lowestFail_none fun _ _ => List.all_eq_true.mpr fun _ _ => rfl
  have hpages : rs.filterMap (fun _ => (none : Option Addr)) = [] := List.filterMap_eq_nil_iff.mpr fun _ _ => rfl
  have hwalk : rs.foldl (fun t _ => t) s = s := foldl_keeps (· = s) _ (fun _ _ ht => ht) rs s rfl
  simp [List.foldl_map, List.find?_map, List.findSome?_map, List.filterMap_map, Function.comp_def, hbroken, hfault, hnone,
    hpeer, hland, hpages, hwalk]

/-- A read of the own scratchpad that meets no poison. -/
theorem readAll_ownPad {c : UnitCtx} {x : Pfx} {s : State} (h : c.Of x s) (r : Req) {off : Nat}
    (hp : s.poisoned c.core c.view (.pad c.core off) r.size = false) :
    readAll c [(r, .here (.pad c.core off))] s = { s := s, got := [(r, c.crew.padBytes off r.size)] } := by
  simp [readAll, hp, State.readLoc, h.crew]

/-- A store to the own scratchpad. -/
theorem performStores_ownPad (c : UnitCtx) (r : Req) (off : Nat) (data : Req → List Byte) (s : State)
    (hp : pathOf r.addr = 2) :
    performStores c [(r, .here (.pad c.core off))] data s =
      (s.putPad c.core (spread off (data r))).clearPoison c.view [] := by
  simp [performStores, State.logStores, logPages, State.writeLoc, State.countPeer, hp, hostOffset, memTargets]

end Sys2Proof.Machine
end

section
/-! Units on layout registers (R209 to R217). -/

namespace Sys2Proof.Machine

/-! ## Forming layouts -/

theorem layout_setLayout (g : Gang) (n k : Nat) (v : BitVec 512) :
    (g.setLayout n v).layout k = if k = n then v else g.layout k := Map.get_set 0 g.layouts n k v

/-- A unit that computes a layout gives it to its destination and keeps the rest (R209). -/
theorem layoutUnit_forms {x : Pfx} {n : Need} {s : State} {c : UnitCtx} (d a : LReg) (f : UnitCtx → Lay → Lay)
    (h : Clear x n s c) (hacts : c.acts ≠ 0) :
    ∃ t k, layoutUnit x n d a f s = .next t ∧ t.mem = s.mem ∧ t.host = s.host ∧ t.gangAt c.core c.slot = some k ∧
      k.regs = c.gang.regs ∧
      k.layout d.toNat = (f c (Lay.of (c.gang.layout a.toNat))).image (c.gang.layout a.toNat) ∧
      (∀ j, j ≠ d.toNat → k.layout j = c.gang.layout j) ∧ ∀ l, c.mask.getLsbD l = true → k.fibre l = c.on s l := by
  let v : BitVec 512 := (f c (Lay.of (c.gang.layout a.toNat))).image (c.gang.layout a.toNat)
  obtain ⟨t, q, k, ht, hk⟩ : ∃ t q k, layoutUnit x n d a f s = .next t ∧
      Released c s (s.modGang c.core c.slot (·.setLayout d.toNat v)) (c.crew.modGang c.slot (·.setLayout d.toNat v))
        (c.gang.setLayout d.toNat v) t q k :=
    (h.weaken (n := { n with others := 1 }) (fun _ hr => hr) rfl rfl rfl rfl rfl).done_modGang
      (if_neg hacts) h.open_ rfl fun _ => ⟨rfl, rfl⟩
  have hlay (j : Nat) : k.layout j = (c.gang.setLayout d.toNat v).layout j := congrArg (Map.get 0 · j) hk.layouts
  refine ⟨t, k, ht, hk.mem, hk.host, hk.gangAt, hk.regs, ?_, fun j hj => ?_, hk.on⟩
  · rw [hlay, layout_setLayout, if_pos rfl]
  · rw [hlay, layout_setLayout, if_neg hj]

/-- R209, R212, R213: each of the five units is a layoutUnit of its function. -/
theorem layoutForms : Rules.LayoutForms := by
  intro x d a b r i j s c hacts image ins regs f hmem hclear
  simp only [List.mem_cons, List.not_mem_nil, or_false, Prod.mk.injEq] at hmem
  have need {n : Need} (hr : n.regs = regs) (hf : n.feature = none) (hw : n.worlds = false) (hp : n.priv = false)
      (hc : n.collective = false) (hs : n.seed = 1) : Clear x n s c :=
    hclear.weaken (fun r hrr => hr ▸ hrr) hf hw hp hc hs
  rcases hmem with ⟨rfl, rfl, rfl⟩ | ⟨rfl, rfl, rfl⟩ | ⟨rfl, rfl, rfl⟩ | ⟨rfl, rfl, rfl⟩ | ⟨rfl, rfl, rfl⟩
  · exact layoutUnit_forms d a (fun c l => l.chain (Lay.of (c.gang.layout b.toNat))) (need rfl rfl rfl rfl rfl rfl) hacts
  · exact layoutUnit_forms d a (fun c l => l.part (c.word c.low r)) (need rfl rfl rfl rfl rfl rfl) hacts
  · exact layoutUnit_forms d a (fun _ l => l.trans i.toNat j.toNat) (need rfl rfl rfl rfl rfl rfl) hacts
  · exact layoutUnit_forms d a (fun _ l => l.flat i.toNat) (need rfl rfl rfl rfl rfl rfl) hacts
  · exact layoutUnit_forms d a (fun c l => l.swz (c.pair c.low r)) (need rfl rfl rfl rfl rfl rfl) hacts

/-! ## lchk -/

/-- The gang with predicate p of its acting fibres set to v. -/
def predGang (c : UnitCtx) (p : Nat) (v : Bool) (g : Gang) : Gang :=
  g.modLanes c.acts fun _ f => { f with pred := setPred f.pred p v }

theorem raiseUnit_nothing {c : UnitCtx} (h : c.gang.fence = none) (s : State) : s.raiseUnit c 0 0 = s := by
  simp [State.raiseUnit, h, State.raiseFlags]

theorem modLanes_congr {m : BitVec 64} {f f' : Nat → Fibre → Fibre} (h : ∀ l y, m.getLsbD l = true → f l y = f' l y)
    (g : Gang) : g.modLanes m f = g.modLanes m f' := by
  have e : (fun i x => if m.getLsbD i then f i x else x) = fun i x => if m.getLsbD i then f' i x else x := by
    funext i x
    split
    · next hi => exact h i x hi
    · rfl
  unfold Gang.modLanes
  rw [e]

theorem lanes_ne_nil {c : UnitCtx} (h : c.acts ≠ 0) : c.lanes ≠ [] := fun e => h <|
  BitVec.eq_of_getLsbD_eq fun i _ => by
    have hi : i ∉ c.lanes := e.symm ▸ List.not_mem_nil
    simpa using mt mem_lanesOf.mpr hi

/-- A lane that sets predicate p to v. -/
def predOut (p : Nat) (v : Bool) (_ : UnitCtx) (_ : Nat) : LaneOut := { preds := [(p, v)] }

/-- Acting lanes that set one predicate to one value, and do nothing else. -/
theorem writeLanes_pred {c : UnitCtx} (hopen : c.gang.fence = none) (hacts : c.acts ≠ 0) (p : Nat) (v : Bool) (s : State) :
    writeLanes c (c.lanes.map fun l => (l, { preds := [(p, v)] })) s = s.modGang c.core c.slot (predGang c p v) := by
  have hout : ∀ o ∈ laneOuts (predOut p v) c, o.2 = { preds := [(p, v)] } := fun o ho => by
    obtain ⟨_, _, rfl⟩ := List.mem_map.mp ho
    rfl
  have hfl : allFlags (laneOuts (predOut p v) c) = 0 := foldl_or_zero _ _ (fun o ho => by rw [hout o ho]) 0
  have htfl : allTflags (laneOuts (predOut p v) c) = 0 := foldl_or_zero _ _ (fun o ho => by rw [hout o ho]) 0
  have hregs : (laneOuts (predOut p v) c).flatMap (fun o => o.2.regs) = [] :=
    List.flatMap_eq_nil_iff.mpr fun o ho => by rw [hout o ho]
  have hall : ¬(laneOuts (predOut p v) c).all (fun o => o.2.preds.isEmpty) = true := by
    obtain ⟨l, hl⟩ := List.exists_mem_of_ne_nil _ (lanes_ne_nil hacts)
    exact fun e => Bool.noConfusion (List.all_eq_true.mp e (l, predOut p v c l) (List.mem_map_of_mem hl))
  show writeLanes c (laneOuts (predOut p v) c) s = _
  show State.raiseUnit (State.modGang _ _ _ _) c (allFlags (laneOuts (predOut p v) c))
    (allTflags (laneOuts (predOut p v) c)) = _
  rw [hfl, htfl, raiseUnit_nothing hopen]
  refine congrArg (s.modGang c.core c.slot) (funext fun g => (if_neg hall).trans ?_)
  show (g.putRegs ((laneOuts (predOut p v) c).flatMap fun o => o.2.regs)).modLanes c.acts _ = _
  rw [hregs]
  exact modLanes_congr (fun l y hl => by rw [find_laneOuts (predOut p v) c l hl]; rfl) g

theorem noteDegree_bankdeg (g : Gang) {n : Nat} (h : n < 256) : (g.noteDegree n).bankdeg = degreeNoted g.bankdeg n := by
  have hb : (g.bankdeg.extractLsb' 8 8).toNat = g.bankdeg.toNat / 256 % 256 := by
    simp [BitVec.extractLsb'_toNat, Nat.shiftRight_eq_div_pow]
  have hn : (BitVec.ofNat 8 n).toNat = n := by simp; omega
  apply BitVec.eq_of_toNat_eq
  simp only [Gang.noteDegree, degreeNoted, BitVec.toNat_setWidth, BitVec.toNat_append, BitVec.toNat_ofNat, BitVec.ult,
    apply_ite BitVec.toNat, hb, hn, decide_eq_true_eq]
  rw [← Nat.shiftLeft_add_eq_or_of_lt h, Nat.shiftLeft_eq, Nat.max_def]
  split <;> split <;> omega

theorem degree_le (l : Lay) (base : Addr) : l.degree base ≤ 64 := by
  unfold Lay.degree
  split
  · exact Nat.min_le_left ..
  · decide

theorem fibre_predGang (c : UnitCtx) (p : Nat) (v : Bool) {g : Gang} {l : Nat} (hl : l < g.fibres.length) :
    (predGang c p v g).fibre l =
      if c.acts.getLsbD l then { g.fibre l with pred := setPred (g.fibre l).pred p v } else g.fibre l := by
  simp [predGang, fibre_modLanes, hl]

theorem predGang_waits (c : UnitCtx) (p : Nat) (v : Bool) (g : Gang) (l : Nat) :
    ((predGang c p v g).fibre l).hold = (g.fibre l).hold ∧ ((predGang c p v g).fibre l).kept = (g.fibre l).kept := by
  rw [predGang, fibre_modLanes]
  split <;> exact ⟨rfl, rfl⟩

/-- An issuing fibre of a unit that has set a predicate goes on with it. -/
theorem predGang_goesOn {x : Pfx} {s : State} {c : UnitCtx} (h : c.Of x s) (p : PReg) (v : Bool) {l : Nat}
    (hl : c.mask.getLsbD l = true) :
    ((predGang c p.toNat v c.gang).fibre l).goesOn s c.nextPc = c.onWith s p (fun _ => v) l := by
  rw [fibre_predGang c _ _ (h.mask_length hl), UnitCtx.onWith]
  split <;> rfl

/-- What lchk makes of its gang: the predicate of its acting fibres is the verdict, and a degree is noted where it is
positive. -/
def checkedGang (c : UnitCtx) (p : PReg) (lay : Lay) (ok : Bool) (g : Gang) : Gang :=
  let g := predGang c p.toNat ok g
  if ok then g.noteDegree (lay.degree 0x2000000000000000#64) else g

section
variable (c : UnitCtx) (p : PReg) (lay : Lay) (ok : Bool) (g : Gang)

@[simp] theorem checkedGang_regs : (checkedGang c p lay ok g).regs = g.regs := by cases ok <;> rfl
@[simp] theorem checkedGang_layouts : (checkedGang c p lay ok g).layouts = g.layouts := by cases ok <;> rfl
@[simp] theorem checkedGang_fence : (checkedGang c p lay ok g).fence = g.fence := by cases ok <;> rfl
@[simp] theorem checkedGang_length : (checkedGang c p lay ok g).fibres.length = g.fibres.length := by
  cases ok <;> exact modLanes_length ..
@[simp] theorem checkedGang_fibre (l : Nat) : (checkedGang c p lay ok g).fibre l = (predGang c p.toNat ok g).fibre l := by
  cases ok <;> rfl

theorem checkedGang_bankdeg : (checkedGang c p lay ok g).bankdeg =
    if ok then degreeNoted g.bankdeg (lay.degree 0x2000000000000000#64) else g.bankdeg := by
  cases ok with
  | false => rfl
  | true => exact noteDegree_bankdeg (predGang c p.toNat true g) (Nat.lt_of_le_of_lt (degree_le ..) (by decide))

end

theorem modGang_checkedGang (c : UnitCtx) (p : PReg) (lay : Lay) (ok : Bool) (s : State) :
    s.modGang c.core c.slot (checkedGang c p lay ok) =
      (let u := s.modGang c.core c.slot (predGang c p.toNat ok)
      if ok then u.modGang c.core c.slot (·.noteDegree (lay.degree 0x2000000000000000#64)) else u) := by
  cases ok with
  | false => rfl
  | true =>
    exact (modGang_modGang s c.core c.slot (predGang c p.toNat true) (·.noteDegree (lay.degree 0x2000000000000000#64))).symm

/-- What lchk performs where a fibre acts. -/
theorem execLchk_eq {x : Pfx} {p : PReg} {n : LReg} {e : Engine} {s : State} {c : UnitCtx} (h : Clear x {} s c)
    (hacts : c.acts ≠ 0) :
    let lay : Lay := Lay.of (c.gang.layout n.toNat)
    let f : Gang → Gang := checkedGang c p lay (lay.accepted e 2)
    ∃ t q k, execLchk x p n e s = .next t ∧
      Released c s (s.modGang c.core c.slot f) (c.crew.modGang c.slot f) (f c.gang) t q k := by
  intro lay f
  refine (h.weaken (n := { preds := [p.toNat], others := 1, layouts := [n.toNat] }) (fun _ hr => hr) rfl rfl rfl rfl
    rfl).done_modGang ((if_neg hacts).trans ?_) ((checkedGang_fence ..).trans h.open_) (checkedGang_length ..) fun l => ?_
  · dsimp only
    rw [writeLanes_pred h.open_ hacts, modGang_checkedGang]
  · rw [checkedGang_fibre]
    exact predGang_waits ..

/-- R217: lchk sets its predicate, and notes the degree where the layout is accepted. -/
theorem layoutChecks : Rules.LayoutChecks := by
  intro x p n e s c hclear hacts lay ok
  have hof := unitCtx_of hclear.ctx
  obtain ⟨t, q, h, ht, hr⟩ := execLchk_eq (p := p) (n := n) (e := e) hclear hacts
  refine ⟨t, h, ht, hr.mem, hr.host, hr.gangAt, hr.regs.trans (checkedGang_regs ..),
    hr.layouts.trans (checkedGang_layouts ..), hr.bankdeg.trans (checkedGang_bankdeg ..), fun l hl => ?_⟩
  rw [hr.on l hl, checkedGang_fibre]
  exact predGang_goesOn hof p ok hl

/-! ## The bytes of an image (R10, R28, R210) -/

/-- A bit of the value of bytes is a bit of one of them. -/
theorem natOfBytes_testBit (bs : List Byte) (j : Nat) {i : Nat} (hi : i < 8) :
    (natOfBytes bs).testBit (8 * j + i) = (bs.getD j 0).getLsbD i := by
  induction bs generalizing j with
  | nil => simp [natOfBytes]
  | cons b bs ih =>
    have e : natOfBytes (b :: bs) = 2 ^ 8 * natOfBytes bs + b.toNat := Nat.add_comm ..
    rw [e, Nat.testBit_two_pow_mul_add _ b.isLt]
    cases j with
    | zero => simp [hi, BitVec.getLsbD]
    | succ j =>
      rw [if_neg (by omega), show 8 * (j + 1) + i - 8 = 8 * j + i by omega, ih j]
      rfl

theorem layByte_lsb (v : BitVec 512) {j i : Nat} (hi : i < 8) : (layByte v j).getLsbD i = v.getLsbD (8 * j + i) := by
  simp [layByte, hi]

/-- A bit of the mask of CIRC's reserved bits, which are bits 7..6 of byte 39. -/
theorem circReserved_lsb {j i : Nat} (hj : j < 64) (hi : i < 8) :
    (0xc0#512 <<< 312).getLsbD (8 * j + i) = (decide (j = 39) && (0xc0#8).getLsbD i) := by
  have e : 0xc0#512 = (0xc0#8).setWidth 512 := by simp
  rw [BitVec.getLsbD_shiftLeft, e, BitVec.getLsbD_setWidth]
  rcases Nat.lt_trichotomy j 39 with h | rfl | h
  · simp [show 8 * j + i < 312 by omega, show j ≠ 39 by omega]
  · rw [show 8 * 39 + i - 312 = i by omega]
    simp [show 8 * 39 + i < 512 by omega, show i < 512 by omega]
  · rw [BitVec.getLsbD_of_ge (0xc0#8) _ (by omega)]
    simp [show j ≠ 39 by omega]

/-- A layout read from 64 bytes has them, but for bits 7..6 of CIRC. -/
theorem layByte_layOfBytes {bs : List Byte} {j : Nat} (hj : j < 64) :
    layByte (layOfBytes bs) j = if j = 39 then bs.getD 39 0 &&& 0x3f#8 else bs.getD j 0 := by
  refine BitVec.eq_of_getLsbD_eq fun i hi => ?_
  have h512 : 8 * j + i < 512 := by omega
  rw [layByte_lsb _ hi, layOfBytes, BitVec.getLsbD_and, BitVec.getLsbD_not, circReserved_lsb hj hi, BitVec.getLsbD_ofNat,
    natOfBytes_testBit bs j hi]
  by_cases e : j = 39
  · subst e
    have hm : (0x3f#8).getLsbD i = !(0xc0#8).getLsbD i := by
      revert i
      decide
    rw [if_pos rfl, BitVec.getLsbD_and, hm]
    simp [h512]
  · simp [e, h512]

/-- What lst stores: the first 48 bytes of the image, and 16 bytes of 0. -/
theorem getElem?_layStored (v : BitVec 512) {j : Nat} (hj : j < 64) :
    (layStored v)[j]? = some (if j < 48 then layByte v j else 0) := by
  have hlen : ((layBytes v).take 48).length = 48 := by simp [layBytes]
  rw [layStored]
  split
  · next h =>
    rw [List.getElem?_append_left (hlen.symm ▸ h)]
    simp [layBytes, h]
  · next h =>
    rw [List.getElem?_append_right (hlen.symm ▸ Nat.le_of_not_lt h), hlen, List.getElem?_replicate, if_pos (by omega)]

theorem length_layStored (v : BitVec 512) : (layStored v).length = 64 := by simp [layStored, layBytes]

/-- What a memory holds after lst has stored an image at off. -/
theorem get_spread_layStored (m : Mem) (off : Nat) (v : BitVec 512) (o : Nat) :
    (m.sets 0 (spread off (layStored v))).get 0 o = if off ≤ o ∧ o < off + 48 then layByte v (o - off)
      else if off ≤ o ∧ o < off + 64 then 0 else m.get 0 o := by
  by_cases hin : off ≤ o ∧ o < off + 64
  · have h := get_spread m off (layStored v) (o - off) _ (getElem?_layStored v (by omega))
    rw [show off + (o - off) = o by omega] at h
    rw [h]
    grind
  · rw [get_spread_other m off o _ (by rw [length_layStored]; omega), if_neg (by omega), if_neg hin]

/-! ## lld and lst on the own scratchpad -/

theorem viewExhausted_nil (s : State) (view : Nat) : s.viewExhausted view [] = false := by
  unfold State.viewExhausted
  dsimp only
  split
  · rfl
  · split <;> rfl

theorem worldEnds_pad (c : UnitCtx) (s : State) (r : Req) (core off : Nat) :
    worldEnds c s [(r, .here (.pad core off))] false = none := by
  simp [worldEnds, memTargets, viewExhausted_nil]

theorem logRoom_pad (c : UnitCtx) (s : State) (r : Req) (core off : Nat) :
    s.logRoom c [(r, .here (.pad core off))] = true := by
  simp [State.logRoom, logPages]

@[simp] theorem clearPoison_crewAt (s : State) (view : Nat) (pas : List Nat) (k : Nat) :
    (s.clearPoison view pas).crewAt k = s.crewAt k := by
  unfold State.clearPoison
  split <;> rfl

@[simp] theorem clearPoison_clock (s : State) (view : Nat) (pas : List Nat) :
    (s.clearPoison view pas).clock = s.clock := by
  unfold State.clearPoison
  split <;> rfl

/-- A crew's scratchpad after writes to it; its gangs are as they were. -/
theorem crewAt_putPad {s : State} {core : Nat} {c : Crew} (ws : List (Nat × Byte)) (h : s.crewAt core = some c) :
    ∃ r, (s.putPad core ws).crewAt core = some r ∧ r.scratch = c.scratch.sets 0 ws ∧ r.gangs = c.gangs := by
  simp only [State.putPad, crewAt_modCrew, h, Option.map_some, if_pos]
  exact ⟨_, rfl, rfl, rfl⟩

/-- The one access of lld and lst to the own scratchpad lands. -/
theorem access_layReq {c : UnitCtx} {x : Pfx} {s : State} (h : c.Of x s) {cls : Cls} (hcls : accepts cls false 2 = true)
    {a : Reg} {i : BitVec 11} (hp : pathOf (layAddr c a i) = 2) (hz : zeroBitsOk (layAddr c a i) = true)
    (ha : (layAddr c a i).toNat % 64 = 0) (hin : (layAddr c a i).toNat % 2 ^ 20 + 64 ≤ c.crew.size) :
    access c s cls false (fun _ => true) (fun r => r.addr.toNat % 64 == 0) (layReq c a i) =
      .go [({ lane := c.low, addr := layAddr c a i, size := 64 },
        .here (.pad c.core ((layAddr c a i).toNat % 2 ^ 20)))] s :=
  access_ownPad h hcls (by simpa [layReq] using hp) (by simpa [layReq] using hz) (fun _ _ => rfl)
    (by simpa [layReq] using ha) (by simpa [layReq] using hin)

/-- lld gives the layout register what the scratchpad holds. -/
theorem execLld_ownPad {x : Pfx} {n : LReg} {a : Reg} {i : BitVec 11} {s : State} {c : UnitCtx}
    (h : Clear x { regs := regsOf true a } s c) (hacts : c.acts ≠ 0) (hp : pathOf (layAddr c a i) = 2)
    (hz : zeroBitsOk (layAddr c a i) = true) (ha : (layAddr c a i).toNat % 64 = 0)
    (hin : (layAddr c a i).toNat % 2 ^ 20 + 64 ≤ c.crew.size)
    (hpois : s.poisoned c.core c.view (.pad c.core ((layAddr c a i).toNat % 2 ^ 20)) 64 = false) :
    let f (g : Gang) : Gang := g.setLayout n.toNat (layOfBytes (c.crew.padBytes ((layAddr c a i).toNat % 2 ^ 20) 64))
    ∃ t q k, execLld x n a i s = .next t ∧
      Released c s (s.modGang c.core c.slot f) (c.crew.modGang c.slot f) (f c.gang) t q k := by
  have hof := unitCtx_of h.ctx
  refine (h.weaken (n := { regs := regsOf true a, others := 1, stall := true }) (fun _ hr => hr) rfl rfl rfl rfl
    rfl).done_modGang ((if_neg hacts).trans ?_) h.open_ rfl fun _ => ⟨rfl, rfl⟩
  rw [access_layReq hof rfl hp hz ha hin]
  dsimp only
  rw [readAll_ownPad hof _ hpois]
  simp

/-- lst writes what it stores to the scratchpad. -/
theorem execLst_ownPad {x : Pfx} {n : LReg} {a : Reg} {i : BitVec 11} {s : State} {c : UnitCtx}
    (h : Clear x { regs := regsOf true a } s c) (hacts : c.acts ≠ 0) (hp : pathOf (layAddr c a i) = 2)
    (hz : zeroBitsOk (layAddr c a i) = true) (ha : (layAddr c a i).toNat % 64 = 0)
    (hin : (layAddr c a i).toNat % 2 ^ 20 + 64 ≤ c.crew.size) :
    let ws : List (Nat × Byte) := spread ((layAddr c a i).toNat % 2 ^ 20) (layStored (c.gang.layout n.toNat))
    ∃ t q k r, execLst x n a i s = .next t ∧ r.scratch = c.crew.scratch.sets 0 ws ∧
      Released c s ((s.putPad c.core ws).clearPoison c.view []) r c.gang t q k := by
  intro ws
  have hof := unitCtx_of h.ctx
  obtain ⟨r, hr, hpad, hgangs⟩ := crewAt_putPad ws hof.crew
  have hgang : r.gangs.find c.slot = some c.gang := hgangs ▸ hof.gang
  obtain ⟨t, q, k, ht, hk⟩ : ∃ t q k, execLst x n a i s = .next t ∧
      Released c s ((s.putPad c.core ws).clearPoison c.view []) r c.gang t q k := by
    refine (h.weaken (n := { regs := regsOf true a, stall := true, layouts := [n.toNat] }) (fun _ hr => hr) rfl rfl rfl rfl
      rfl).done (g := c.gang) ?_ ?_ ((clearPoison_crewAt ..).trans hr) hgang h.open_ rfl fun _ => ⟨rfl, rfl⟩
    · rw [if_neg hacts, access_layReq hof rfl hp hz ha hin]
      dsimp only
      rw [worldEnds_pad, logRoom_pad]
      exact congrArg Act.done (performStores_ownPad c _ _ _ s hp)
    · exact clearPoison_clock ..
  exact ⟨t, q, k, r, ht, hpad, hk⟩

/-- R210: lld and lst. -/
theorem layoutMoves : Rules.LayoutMoves := by
  intro x n a i s c h hacts at_ off hp hz ha hin
  refine ⟨fun hpois => ?_, ?_⟩
  · obtain ⟨t, q, k, ht, hk⟩ := execLld_ownPad (n := n) h hacts hp hz ha hin hpois
    have hlay (j : Nat) := (congrArg (Map.get 0 · j) hk.layouts).trans (layout_setLayout c.gang n.toNat j _)
    have hbyte (j : Nat) (hj : j < 64) : (c.crew.padBytes off 64).getD j 0 = c.crew.scratch.get 0 (off + j) := by
      simp [Crew.padBytes, memBytes, hj]
    refine ⟨t, q, k, ht, hk.mem, hk.host, hk.crew, hk.scratch, hk.gang, hk.regs, fun j hj => ?_, fun j hj => ?_, hk.on⟩
    · have hn : k.layout n.toNat = layOfBytes (c.crew.padBytes off 64) := (hlay _).trans (if_pos rfl)
      rw [hn, layByte_layOfBytes hj, hbyte 39 (by decide), hbyte j hj]
    · exact (hlay j).trans (if_neg hj)
  · obtain ⟨t, q, k, r, ht, hpad, hk⟩ := execLst_ownPad (n := n) h hacts hp hz ha hin
    refine ⟨t, q, k, ht, ?_, ?_, hk.crew, fun o => ?_, hk.gang, hk.regs, hk.layouts, hk.on⟩
    · rw [hk.mem, clearPoison_mem]; rfl
    · rw [hk.host, clearPoison_host]; rfl
    · exact (congrArg (Map.get 0 · o) (hk.scratch.trans hpad)).trans (get_spread_layStored ..)

/-- Settles O34: each rule is its lemma above. -/
theorem layouts : Obligations.Layouts := ⟨layoutMoves, layoutForms, layoutAlgebra, layoutChecks⟩

end Sys2Proof.Machine
end
